-- ==== Sys2Proof/Word.lean ====
section
/-! DEFINITION. The word types of LZ5-CORE: bytes, u32 and u64 words (spec/00_scope.md R12, R13). -/

namespace Sys2Proof

/-- One byte; bit 7 is the most significant (R109). -/
abbrev Byte := BitVec 8

/-- A u32 word. -/
abbrev U32 := BitVec 32

/-- An i32 word, read as a signed number by `toInt` (R12). -/
abbrev I32 := BitVec 32

/-- A number as stored in a u32 field (R12, notes/assumptions/22.md). -/
abbrev u32 (n : Nat) : U32 := BitVec.ofNat 32 n

/-- A u64 operand word or result register. -/
abbrev U64 := BitVec 64

end Sys2Proof
end

