-- ==== Sys2Proof/Config.lean ====
section
/-! DEFINITION. The fixed constants (spec/00_scope.md R10), the parameters of a model instance
(R11, held as plain data), and the free values the spec leaves open ("any value"). -/

namespace Sys2Proof

/-! ## Fixed constants (R10) -/

/-- `MINMATCH` (R10). -/
abbrev minMatch : Nat := 3
/-- `LASTLITERALS` (R10). -/
abbrev lastLiterals : Nat := 5
/-- `WINDOW_LOG`, the hard-wired field CF7 (R10, R36). -/
abbrev windowLog : Nat := 22
/-- `WINDOW_SIZE` = 2^22 (R10). -/
abbrev windowSize : Nat := 4194304
/-- `MAX_OFFSET` = `WINDOW_SIZE` (R10). -/
abbrev maxOffset : Nat := 4194304
/-- `SHORT_LIMIT` (R10). -/
abbrev shortLimit : Nat := 1024
/-- `MID_LIMIT` (R10). -/
abbrev midLimit : Nat := 65536
/-- `HASH3_TRUST_LIMIT` (R10). -/
abbrev hash3TrustLimit : Nat := 1024
/-- `MAIN_HASH_MINLEN` (R10). -/
abbrev mainHashMinLen : Nat := 4
/-- `OPT_NUM` (R10). -/
abbrev optNum : Nat := 4096
/-- `WILDCOPYLENGTH` (R10). -/
abbrev wildCopyLength : Nat := 8
/-- `PREFIX_SIZE` (R10). -/
abbrev prefixSize : Nat := 65536
/-- `MIN_HEADER` (R10). -/
abbrev minHeader : Nat := 7
/-- `MAX_HEADER` (R10). -/
abbrev maxHeader : Nat := 15
/-- `BH_SIZE` (R10). -/
abbrev bhSize : Nat := 4

/-! ## Parameters (R11) -/

/-- The five strategies, codes 0 to 4 of field CF1 (R36). -/
inductive Strategy
  | fast
  | priceFast
  | lowestPrice
  | optimalPrice
  | optimalPriceBt
  deriving DecidableEq, Repr

/-- One row of `LEVEL_TABLE`: the derived fields CF1 to CF6 of a compression context (R36, R38). -/
structure LevelRow where
  strategy : Strategy
  hashLog : Nat
  hash3Log : Nat
  contentLog : Nat
  searchNum : Nat
  sufficientLen : Nat
  deriving DecidableEq, Repr

/-- The ranges R36 gives the fields of a row; a table with a row outside them is refused (R37, R620). -/
def LevelRow.legal (r : LevelRow) : Bool :=
  decide (10 ≤ r.hashLog ∧ r.hashLog ≤ 26) &&
  decide (r.hash3Log = 0 ∨ (8 ≤ r.hash3Log ∧ r.hash3Log ≤ 24)) &&
  decide (r.contentLog ≤ 26) &&
  decide (1 ≤ r.searchNum ∧ r.searchNum < 2 ^ 32) &&
  decide (r.sufficientLen = 0 ∨ (minMatch ≤ r.sufficientLen ∧ r.sufficientLen < 2 ^ 32))

/-- `LEVEL_TABLE`: one row per level 1 to 5 (R37, R298). -/
structure LevelTable where
  level1 : LevelRow
  level2 : LevelRow
  level3 : LevelRow
  level4 : LevelRow
  level5 : LevelRow
  deriving DecidableEq, Repr

/-- One place where a hash function differs from the default form: with a table of `2^log` buckets
the bytes whose little-endian number is `word` fall in bucket `value`. -/
structure HashPoint where
  log : Nat
  word : Nat
  value : Nat
  deriving DecidableEq, Repr

/-- A hash function as plain data (R11, R202, R203): the default multiplicative form with a prime, and
the points where the function is another. Every function of the table's log and the hashed bytes
into `[0, 2^log)` is one of these (notes/assumptions/5.md, `hash_function_any` of Laws). -/
structure HashFn where
  prime : Nat
  points : List HashPoint
  deriving DecidableEq, Repr

/-- The parameters of a model instance (R11), `HASH4` and `HASH3` among them; `N_CCTX`, `N_SD`,
`N_FE`, `N_FD` are the lengths of State's lists (notes/assumptions/2.md). -/
structure Config where
  findAllCap : Nat
  renormLimit : Nat
  maxInputSize : Nat
  mfLimit : Nat
  skipStrength : Nat
  lpDepth : Nat
  levelTable : LevelTable
  hash4 : HashFn
  hash3 : HashFn
  magic : U32
  skippableBase : U32
  hcShift : Nat
  xxhSeed : U32
  hostAddrBits : Nat
  tableMemLimit : Nat
  deriving DecidableEq, Repr

namespace Config

/-- The default `LEVEL_TABLE` (spec/42_block_encoder.md R298). -/
def defaultLevelTable : LevelTable where
  level1 := ⟨.fast, 16, 0, 0, 1, 0⟩
  level2 := ⟨.priceFast, 16, 12, 16, 4, 32⟩
  level3 := ⟨.lowestPrice, 18, 14, 18, 8, 64⟩
  level4 := ⟨.optimalPrice, 20, 16, 20, 16, 128⟩
  level5 := ⟨.optimalPriceBt, 20, 16, 20, 32, 256⟩

/-- The defaults of R11. `TABLE_MEM_LIMIT` is OPEN there: DESIGN CHOICE 2^26 (notes/assumptions/3.md). -/
def default : Config where
  findAllCap := 4096
  renormLimit := 2147483648
  maxInputSize := 0x7E000000
  mfLimit := 12
  skipStrength := 6
  lpDepth := 4
  levelTable := defaultLevelTable
  hash4 := ⟨2654435761, []⟩
  hash3 := ⟨506832829, []⟩
  magic := 0x184D2205#32
  skippableBase := 0x184D2A50#32
  hcShift := 24
  xxhSeed := 0#32
  hostAddrBits := 64
  tableMemLimit := 67108864

/-- Every row of `LEVEL_TABLE` is inside its ranges (R37, R620). -/
def legal (c : Config) : Bool :=
  c.levelTable.level1.legal && c.levelTable.level2.legal && c.levelTable.level3.legal &&
  c.levelTable.level4.legal && c.levelTable.level5.legal

/-! ## Free values

Each is a constant with no body: nothing can be proved of its value, so a claim holds whatever it
is (notes/assumptions/7.md and 28.md). -/

/-- The "any value" byte at host address `addr` of the `draw`-th free range (R113, R114, R528). -/
opaque freeByte (draw addr : Nat) : Byte

/-- The byte `Ref(p)` gives outside its defined range: R106 calls such a read a model error, not a
hardware behaviour, and no command makes one. -/
opaque strayByte (p : Nat) : Byte

end Config

end Sys2Proof
end

