-- ==== Sys2Proof/Syntax.lean ====
section
/-! DEFINITION. The instructions: one constructor per row of spec/opcode_table.json, that is the
host commands (spec/30_encoding.md R168), the micro-operations (R174), the Sequences (R140, R141)
and the frame records (R155, R161 to R164). -/

namespace Sys2Proof

/-- The four offset classes of a token (R141). `rep` is the source's "repeat". -/
inductive OffClass
  | short
  | rep
  | long
  | mid
  deriving DecidableEq, Repr

/-- A Sequence: the instruction of the block decoder (R140). `off` is the offset operand, `lits`
the literal run, `ml` the match length with extension and `MINMATCH` added. -/
inductive Sequence
  | short (off : BitVec 10) (lits : List Byte) (ml : Nat)
  | rep (lits : List Byte) (ml : Nat)
  | long (off : BitVec 24) (lits : List Byte) (ml : Nat)
  | mid (off : BitVec 16) (lits : List Byte) (ml : Nat)
  /-- The terminal Sequence, any token: `cls`, `hi` and `mf` are the token's class, offset bits and
  match field, of which only the class matters (R149, R376). -/
  | last (cls : OffClass) (hi : BitVec 2) (mf : BitVec 3) (lits : List Byte)
  deriving DecidableEq, Repr

/-- The instructions of LZ5-CORE. A command carries its handle, its flag byte and its operand words
(R167); a micro-operation its operands (notes/assumptions/12.md); a record its fields. -/
inductive Instr
  -- host commands (R168)
  | ctxInit (h : BitVec 16) (fl : Byte) (level : U64)
  | ctxReset (h : BitVec 16) (fl : Byte) (level : U64)
  | ctxFree (h : BitVec 16) (fl : Byte)
  | blkCompress (h : BitVec 16) (fl : Byte) (srcAddr srcLen dstAddr dstCap : U64)
  | blkCompressContinue (h : BitVec 16) (fl : Byte) (srcAddr srcLen dstAddr dstCap : U64)
  | blkDecompress (h : BitVec 16) (fl : Byte)
      (srcAddr srcLen dstAddr dstCap dictAddr dictLen target : U64)
  | blkDecompressContinue (h : BitVec 16) (fl : Byte) (srcAddr srcLen dstAddr dstCap : U64)
  | loadDict (h : BitVec 16) (fl : Byte) (dictAddr dictLen : U64)
  | saveDict (h : BitVec 16) (fl : Byte) (dstAddr maxSize : U64)
  | compressBound (h : BitVec 16) (fl : Byte) (n : U64)
  | sdReset (h : BitVec 16) (fl : Byte) (dictAddr dictLen : U64)
  | feBegin (h : BitVec 16) (fl : Byte) (prefsWord contentSize level dstAddr dstCap : U64)
  | feUpdate (h : BitVec 16) (fl : Byte) (srcAddr srcLen dstAddr dstCap : U64)
  | feFlush (h : BitVec 16) (fl : Byte) (dstAddr dstCap : U64)
  | feEnd (h : BitVec 16) (fl : Byte) (dstAddr dstCap : U64)
  | fdReset (h : BitVec 16) (fl : Byte)
  | fdDecode (h : BitVec 16) (fl : Byte) (srcPos srcAddr srcLen dstAddr dstCap : U64)
  -- micro-operations (R174)
  | mfInsert (p : U32)
  | mfFindBest (p high : U32)
  | mfFindAll (p high minLen : U32)
  | btInsert (q : U32)
  | btFindAll (p high minLen : U32)
  | renorm
  /-- The literal run is `src[litStart .. litStart + litLen)` of the current input (R260, R262). -/
  | emitSeq (litStart litLen d ml : U32)
  | emitLast (litStart litLen : U32)
  -- Sequences (R141)
  | seqShort (off : BitVec 10) (lits : List Byte) (ml : Nat)
  | seqRepeat (lits : List Byte) (ml : Nat)
  | seqLong (off : BitVec 24) (lits : List Byte) (ml : Nat)
  | seqMid (off : BitVec 16) (lits : List Byte) (ml : Nat)
  | seqLast (cls : OffClass) (hi : BitVec 2) (mf : BitVec 3) (lits : List Byte)
  -- frame records (R155)
  | hdr (flg bd : Byte) (csize : Option U64) (hc : Byte)
  /-- `low` is the free low four bits of the skippable magic number (R164). -/
  | skip (low : BitVec 4) (payload : List Byte)
  | endMark
  | blkC (payload : List Byte)
  | blkS (payload : List Byte)
  | cksum (value : U32)
  deriving DecidableEq, Repr

/-- A Sequence as an instruction. -/
def Sequence.toInstr : Sequence → Instr
  | .short off lits ml => .seqShort off lits ml
  | .rep lits ml => .seqRepeat lits ml
  | .long off lits ml => .seqLong off lits ml
  | .mid off lits ml => .seqMid off lits ml
  | .last cls hi mf lits => .seqLast cls hi mf lits

/-- The literal run of a Sequence. -/
def Sequence.lits : Sequence → List Byte
  | .short _ lits _ => lits
  | .rep lits _ => lits
  | .long _ lits _ => lits
  | .mid _ lits _ => lits
  | .last _ _ _ lits => lits

/-- A host command or micro-operation descriptor: `W0` and the operand words `W1` to `W7` (R167). -/
structure Descriptor where
  w0 : U32
  w1 : U64
  w2 : U64
  w3 : U64
  w4 : U64
  w5 : U64
  w6 : U64
  w7 : U64
  deriving DecidableEq, Repr

/-- The words of an instruction, in the stream it belongs to (R9). -/
inductive Code
  | command (d : Descriptor)
  | uop (d : Descriptor)
  | sequence (bytes : List Byte)
  | record (bytes : List Byte)
  deriving DecidableEq, Repr

end Sys2Proof
end

