-- ==== Sys2Proof/WellFormed.lean ====
section
/-! DEFINITION. Which instructions are encodings the spec calls legal (spec/30_encoding.md R141 to
R169). `exec` gives a meaning to every instruction, ill-formed ones too: an undefined flag, for
example, takes the error the spec names. -/

namespace Sys2Proof

/-- A match length the grammar can write: at least `MINMATCH` (R144). -/
def legalMatchLen (ml : Nat) : Bool := decide (minMatch ≤ ml)

/-- Flag bits `fl` inside the mask (R167). -/
def flagsDefined (fl mask : Byte) : Bool := fl &&& ~~~mask == 0#8

/-- `prefsWord`: reserved bits and `BLOCK_CHECKSUM` 0 (R168, R461). -/
def prefsLegal (w : U64) : Bool := decide (w.toNat < 32)

/-- FLG and BD as R157 and R158 allow them. -/
def headerLegal (flg bd : Byte) (csize : Option U64) : Bool :=
  flg.extractLsb' 6 2 == 1#2 && !flg.getLsbD 4 && flg.extractLsb' 0 2 == 0#2 &&
  !bd.getLsbD 7 && bd.extractLsb' 0 4 == 0#4 && bd.extractLsb' 4 3 != 0#3 &&
  csize.isSome == flg.getLsbD 3

/-- The well-formedness check of an instruction. -/
def Instr.wf : Instr → Bool
  | .ctxInit _ fl _ => flagsDefined fl 0x00#8
  | .ctxReset _ fl _ => flagsDefined fl 0x00#8
  | .ctxFree _ fl => flagsDefined fl 0x00#8
  | .blkCompress _ fl _ _ _ _ => flagsDefined fl 0x01#8
  | .blkCompressContinue _ fl _ _ _ _ => flagsDefined fl 0x01#8
  | .blkDecompress h fl _ _ _ _ _ dictLen _ =>
      h == 0#16 && flagsDefined fl 0x0F#8 && fl.extractLsb' 2 2 != 3#2 &&
      !(fl.getLsbD 0 && fl.getLsbD 1) &&
      (fl.extractLsb' 2 2 != 1#2 || decide (dictLen.toNat ≤ prefixSize))
  | .blkDecompressContinue _ fl _ _ _ _ => flagsDefined fl 0x00#8
  | .loadDict _ fl _ _ => flagsDefined fl 0x00#8
  | .saveDict _ fl _ _ => flagsDefined fl 0x00#8
  | .compressBound h fl _ => h == 0#16 && flagsDefined fl 0x00#8
  | .sdReset _ fl _ _ => flagsDefined fl 0x00#8
  | .feBegin _ fl prefsWord _ _ _ _ => flagsDefined fl 0x00#8 && prefsLegal prefsWord
  | .feUpdate _ fl _ _ _ _ => flagsDefined fl 0x00#8
  | .feFlush _ fl _ _ => flagsDefined fl 0x00#8
  | .feEnd _ fl _ _ => flagsDefined fl 0x00#8
  | .fdReset _ fl => flagsDefined fl 0x00#8
  | .fdDecode _ fl _ _ _ _ _ => flagsDefined fl 0x00#8
  | .mfInsert _ => true
  | .mfFindBest _ _ => true
  | .mfFindAll _ _ _ => true
  | .btInsert _ => true
  | .btFindAll _ _ _ => true
  | .renorm => true
  | .emitSeq _ _ d ml =>
      decide (1 ≤ d.toNat ∧ d.toNat ≤ maxOffset) && legalMatchLen ml.toNat
  | .emitLast _ _ => true
  | .seqShort _ _ ml => legalMatchLen ml
  | .seqRepeat _ ml => legalMatchLen ml
  | .seqLong _ _ ml => legalMatchLen ml
  | .seqMid _ _ ml => legalMatchLen ml
  | .seqLast cls hi _ _ => cls == .short || hi == 0#2
  | .hdr flg bd csize _ => headerLegal flg bd csize
  | .skip _ payload => decide (payload.length < 2 ^ 32)
  | .endMark => true
  | .blkC payload => decide (1 ≤ payload.length ∧ payload.length < 2 ^ 31)
  | .blkS payload => decide (1 ≤ payload.length ∧ payload.length < 2 ^ 31)
  | .cksum _ => true

end Sys2Proof
end

