-- ==== Sys2Proof/Decode.lean ====
section
/-! DEFINITION. Decoding of the three instruction streams and of micro-operation words, and the
encoder written from the same rules (spec/30_encoding.md R140 to R175). -/

namespace Sys2Proof

/-! ## Byte order (R108): every multi-byte field is little-endian -/

/-- `le16`, `le24`, `le32`, `le64` for `n` = 2, 3, 4, 8 (R14). -/
def leBytes : Nat → Nat → List Byte
  | 0, _ => []
  | n + 1, v => BitVec.ofNat 8 v :: leBytes n (v / 256)

/-- The number a little-endian byte sequence spells (R14). -/
def leNat : List Byte → Nat
  | [] => 0
  | b :: t => b.toNat + 256 * leNat t

/-! ## Token (R141, R142, R175) -/

/-- `decode_class` (R142). -/
def classOf (t : Byte) : OffClass :=
  if t.getLsbD 7 then .short
  else if t.extractLsb' 5 3 == 3#3 then .rep
  else if t.extractLsb' 5 3 == 2#3 then .long
  else .mid

/-- Width of the literal field: 3 bits for mid, 2 otherwise (R141, R143). -/
def litBits : OffClass → Nat
  | .mid => 3
  | _ => 2

/-- The escape value of the literal field (R143). -/
def litMask (cls : OffClass) : Nat := 2 ^ litBits cls - 1

/-- The fields of a token: `decode_token`'s results (R175). -/
structure TokenFields where
  lit : BitVec 3
  cls : OffClass
  mf : BitVec 3
  hi : BitVec 2
  deriving DecidableEq, Repr

/-- `decode_token` (R175). -/
def decodeToken (t : Byte) : TokenFields :=
  let cls := classOf t
  { lit := match cls with
      | .mid => t.extractLsb' 3 3
      | _ => (t.extractLsb' 3 2).setWidth 3
    cls := cls
    mf := t.extractLsb' 0 3
    hi := match cls with
      | .short => t.extractLsb' 5 2
      | _ => 0#2 }

/-- `encode_token` (R175); the literal field is at most 3 but for mid. -/
def encodeToken (f : TokenFields) : Byte :=
  let base : Byte := match f.cls with
    | .short => 0x80#8 ||| (f.hi.setWidth 8 <<< 5)
    | .rep => 0x60#8
    | .long => 0x40#8
    | .mid => 0x00#8
  base ||| (f.lit.setWidth 8 <<< 3) ||| f.mf.setWidth 8

/-! ## Length extensions (R145) -/

/-- The extension bytes of the value `e`: `⌊e/255⌋` bytes `0xFF`, then `e mod 255`. -/
def extBytes (e : Nat) : List Byte :=
  List.replicate (e / 255) 0xFF#8 ++ [BitVec.ofNat 8 (e % 255)]

/-- `READEXT` (R365): the sum of the extension and the bytes after it; none where the input ends
inside it. -/
def readExt : List Byte → Option (Nat × List Byte)
  | [] => none
  | b :: t =>
    if b = 0xFF#8 then
      match readExt t with
      | none => none
      | some (s, rest) => some (255 + s, rest)
    else some (b.toNat, t)

/-- A length field with its escape (R143, R144, R365, R372): the field `f`, plus an extension when
`f` is the escape value `mask`. -/
def readLen (f mask : Nat) (bs : List Byte) : Option (Nat × List Byte) :=
  if f = mask then
    match readExt bs with
    | none => none
    | some (e, rest) => some (mask + e, rest)
  else some (f, bs)

/-- The extension a length `n` is written with: none below the escape value (R143, R144). -/
def lenExt (n mask : Nat) : List Byte :=
  if mask ≤ n then extBytes (n - mask) else []

/-! ## Offset operand (R146) -/

/-- Offset bytes of a class (R153). -/
def offBytes : OffClass → Nat
  | .short => 1
  | .rep => 0
  | .long => 3
  | .mid => 2

/-- Build a non-terminal Sequence from its class, its offset bits `hi`, its offset bytes and its
lengths (R146). -/
def mkSequence (cls : OffClass) (hi : BitVec 2) (ob lits : List Byte) (ml : Nat) : Sequence :=
  match cls with
  | .short => .short (BitVec.ofNat 10 (hi.toNat * 256 + leNat ob)) lits ml
  | .rep => .rep lits ml
  | .long => .long (BitVec.ofNat 24 (leNat ob)) lits ml
  | .mid => .mid (BitVec.ofNat 16 (leNat ob)) lits ml

/-! ## The Sequence decoder (R173, R363)

It reads one Sequence from what is left of the block input. Where the decode ends with the literal
run (R366, R377, R378) the offset and match fields are not read: what stands there is the terminal
Sequence. `room` is the output capacity left, needed because a literal run past it fails before the
offset is read (R363). -/

/-- What the position of a Sequence depends on besides its bytes: the room left in the output, the
END_ON_OUTPUT mode, and in partial mode the bytes left to the target. -/
structure SeqLimits where
  room : Nat
  eoo : Bool
  partialTo : Option Nat
  deriving DecidableEq, Repr

/-- The decode ends after this literal run: R366, R377, R378. -/
def endsAfterLits (lim : SeqLimits) (litLen : Nat) (rest : List Byte) : Bool :=
  (!lim.eoo && rest.isEmpty) ||
  (match lim.partialTo with
    | some t => decide (t ≤ litLen)
    | none => false) ||
  (lim.eoo && litLen == lim.room)

/-- A fetched Sequence with its encoded length, or the rejection `malformed`, with the bytes of the
failing Sequence read before the failing check (R379). -/
inductive SeqFetch
  | seq (q : Sequence) (len : Nat)
  | malformed (read : Nat)
  deriving DecidableEq, Repr

/-- Read one Sequence (R363's steps up to the match-length field). -/
def decodeSeq (lim : SeqLimits) : List Byte → SeqFetch
  | [] => .malformed 0
  | tok :: r0 =>
    let f := decodeToken tok
    match readLen f.lit.toNat (litMask f.cls) r0 with
    | none => .malformed (1 + r0.length)
    | some (litLen, r1) =>
      let read1 := 1 + (r0.length - r1.length)
      if r1.length < litLen then .malformed read1
      else if lim.room < litLen then .malformed read1
      else
        let lits := r1.take litLen
        let r2 := r1.drop litLen
        if endsAfterLits lim litLen r2 then .seq (.last f.cls f.hi f.mf lits) (read1 + litLen)
        else if r2.length < offBytes f.cls then .malformed (read1 + litLen)
        else
          match readLen f.mf.toNat 7 (r2.drop (offBytes f.cls)) with
          | none => .malformed (1 + r0.length)
          | some (m, r4) =>
            .seq (mkSequence f.cls f.hi (r2.take (offBytes f.cls)) lits (m + minMatch))
              (1 + (r0.length - r4.length))

/-! ## The Sequence encoder (R140 to R149) -/

/-- Token, literal extension and literals: the head every Sequence begins with (R140). -/
def seqHead (cls : OffClass) (hi : BitVec 2) (mf : BitVec 3) (lits : List Byte) : List Byte :=
  encodeToken ⟨BitVec.ofNat 3 (min lits.length (litMask cls)), cls, mf, hi⟩ ::
    (lenExt lits.length (litMask cls) ++ lits)

/-- A non-terminal Sequence of class `cls`, offset `off` and match length `ml` (R140, R143, R144, R146). -/
def seqBytes (cls : OffClass) (off : Nat) (lits : List Byte) (ml : Nat) : List Byte :=
  let hi : BitVec 2 := match cls with
    | .short => BitVec.ofNat 2 (off / 256)
    | _ => 0#2
  seqHead cls hi (BitVec.ofNat 3 (min (ml - minMatch) 7)) lits ++
    leBytes (offBytes cls) off ++ lenExt (ml - minMatch) 7

/-- The bytes of a Sequence. -/
def Sequence.encode : Sequence → List Byte
  | .short off lits ml => seqBytes .short off.toNat lits ml
  | .rep lits ml => seqBytes .rep 0 lits ml
  | .long off lits ml => seqBytes .long off.toNat lits ml
  | .mid off lits ml => seqBytes .mid off.toNat lits ml
  | .last cls hi mf lits => seqHead cls hi mf lits

/-- Bytes of a literal extension: `litExt` (R153). -/
def litExt (litLen bits : Nat) : Nat :=
  if litLen < 2 ^ bits - 1 then 0 else 1 + (litLen - (2 ^ bits - 1)) / 255

/-- Bytes of a match-length extension: `mlExt` (R153). -/
def mlExt (ml : Nat) : Nat := if ml - minMatch < 7 then 0 else 1 + (ml - 10) / 255

/-- `seqLen` (R153). -/
def seqLen (litLen : Nat) (cls : OffClass) (ml : Nat) : Nat :=
  1 + litExt litLen (litBits cls) + litLen + offBytes cls + mlExt ml

/-- `lastLen` of a terminal Sequence whose token has class `cls` (R153 gives it for mid). -/
def lastLen (litLen : Nat) (cls : OffClass) : Nat := 1 + litExt litLen (litBits cls) + litLen

/-! ## Frame records (R155 to R164) -/

/-- The bytes of a header record (R155). -/
def hdrBytes (cfg : Config) (flg bd : Byte) (csize : Option U64) (hc : Byte) : List Byte :=
  leBytes 4 cfg.magic.toNat ++ [flg, bd] ++
    (match csize with
      | some n => leBytes 8 n.toNat
      | none => []) ++ [hc]

/-- The bytes of a skippable frame (R164). -/
def skipBytes (cfg : Config) (low : BitVec 4) (payload : List Byte) : List Byte :=
  leBytes 4 (cfg.skippableBase ||| low.setWidth 32).toNat ++ leBytes 4 payload.length ++ payload

/-- The bytes of the end mark (R162). -/
def endMarkBytes : List Byte := leBytes 4 0

/-- The bytes of a compressed block record (R161). -/
def blkCBytes (payload : List Byte) : List Byte := leBytes 4 payload.length ++ payload

/-- The bytes of a stored block record (R161). -/
def blkSBytes (payload : List Byte) : List Byte :=
  leBytes 4 (0x80000000 + payload.length) ++ payload

/-- The bytes of a content checksum (R163). -/
def cksumBytes (v : U32) : List Byte := leBytes 4 v.toNat

/-- Which record comes next (R79): a frame or skippable frame, a block word, or the checksum. -/
inductive RecordPlace
  | header
  | blockWord
  | suffix
  deriving DecidableEq, Repr

/-- The record decoder's answers. -/
inductive RecordFetch
  | record (i : Instr) (len : Nat)
  /-- The bytes do not hold the whole record yet. -/
  | incomplete
  /-- The first word is no magic number (R507). -/
  | unknownMagic
  deriving DecidableEq, Repr

/-- A word is a skippable magic number (R164, R507). -/
def isSkippable (cfg : Config) (m : U32) : Bool := m &&& 0xFFFFFFF0#32 == cfg.skippableBase

/-- The first 4 bytes as a word. -/
def le32At (bs : List Byte) (i : Nat) : U32 := BitVec.ofNat 32 (leNat ((bs.drop i).take 4))

/-- Read a header or skippable record (R155, R164, R507). -/
def decodeHeaderRecord (cfg : Config) (bs : List Byte) : RecordFetch :=
  if bs.length < 4 then .incomplete
  else
    let m := le32At bs 0
    if isSkippable cfg m then
      if bs.length < 8 then .incomplete
      else
        let size := (le32At bs 4).toNat
        if bs.length < 8 + size then .incomplete
        else .record (.skip (m.extractLsb' 0 4) ((bs.drop 8).take size)) (8 + size)
    else if m ≠ cfg.magic then .unknownMagic
    else
      match bs.drop 4 with
      | flg :: bd :: rest =>
        if flg.getLsbD 3 then
          if rest.length < 9 then .incomplete
          else .record (.hdr flg bd (some (BitVec.ofNat 64 (leNat (rest.take 8)))) (rest.getD 8 0#8)) 15
        else
          match rest with
          | hc :: _ => .record (.hdr flg bd none hc) 7
          | [] => .incomplete
      | _ => .incomplete

/-- Read a block record or the end mark (R161, R162; the word 0 is the end mark). -/
def decodeBlockRecord (bs : List Byte) : RecordFetch :=
  if bs.length < 4 then .incomplete
  else
    let w := le32At bs 0
    if w = 0#32 then .record .endMark 4
    else
      let size := (w.extractLsb' 0 31).toNat
      if bs.length < 4 + size then .incomplete
      else if w.getLsbD 31 then .record (.blkS ((bs.drop 4).take size)) (4 + size)
      else .record (.blkC ((bs.drop 4).take size)) (4 + size)

/-- Read a content checksum (R163). -/
def decodeSuffixRecord (bs : List Byte) : RecordFetch :=
  if bs.length < 4 then .incomplete else .record (.cksum (le32At bs 0)) 4

/-- The record decoder: which record is read depends on the decoder's stage only (R79). -/
def decodeRecord (cfg : Config) (place : RecordPlace) (bs : List Byte) : RecordFetch :=
  match place with
  | .header => decodeHeaderRecord cfg bs
  | .blockWord => decodeBlockRecord bs
  | .suffix => decodeSuffixRecord bs

/-! ## Command and micro-operation words (R167, R168, R174) -/

/-- The opcode `W0[7:0]`. -/
def Descriptor.opcode (d : Descriptor) : Byte := d.w0.extractLsb' 0 8
/-- The flag byte `W0[15:8]`. -/
def Descriptor.flags (d : Descriptor) : Byte := d.w0.extractLsb' 8 8
/-- The handle `W0[31:16]`. -/
def Descriptor.handle (d : Descriptor) : BitVec 16 := d.w0.extractLsb' 16 16

/-- Why a host descriptor is no command (R169). -/
inductive CommandError
  /-- An opcode of the reserved space. -/
  | reservedOpcode
  /-- `0x40` to `0x47`: the host cannot issue a micro-operation. -/
  | microOpcode
  deriving DecidableEq, Repr

/-- The command decoder (R168), total on every descriptor; operand words a command does not define
are not read (R167). -/
def decodeCommand (d : Descriptor) : Except CommandError Instr :=
  let h := d.handle
  let fl := d.flags
  match d.opcode.toNat with
  | 0x01 => .ok (.ctxInit h fl d.w1)
  | 0x02 => .ok (.ctxReset h fl d.w1)
  | 0x03 => .ok (.ctxFree h fl)
  | 0x06 => .ok (.blkCompress h fl d.w1 d.w2 d.w3 d.w4)
  | 0x07 => .ok (.blkCompressContinue h fl d.w1 d.w2 d.w3 d.w4)
  | 0x08 => .ok (.blkDecompress h fl d.w1 d.w2 d.w3 d.w4 d.w5 d.w6 d.w7)
  | 0x09 => .ok (.blkDecompressContinue h fl d.w1 d.w2 d.w3 d.w4)
  | 0x0A => .ok (.loadDict h fl d.w1 d.w2)
  | 0x0B => .ok (.saveDict h fl d.w1 d.w2)
  | 0x0C => .ok (.compressBound h fl d.w1)
  | 0x0D => .ok (.sdReset h fl d.w1 d.w2)
  | 0x10 => .ok (.feBegin h fl d.w1 d.w2 d.w3 d.w4 d.w5)
  | 0x11 => .ok (.feUpdate h fl d.w1 d.w2 d.w3 d.w4)
  | 0x12 => .ok (.feFlush h fl d.w1 d.w2)
  | 0x13 => .ok (.feEnd h fl d.w1 d.w2)
  | 0x18 => .ok (.fdReset h fl)
  | 0x19 => .ok (.fdDecode h fl d.w1 d.w2 d.w3 d.w4 d.w5)
  | n => if 0x40 ≤ n ∧ n ≤ 0x47 then .error .microOpcode else .error .reservedOpcode

/-- The micro-operation decoder: the codes of R174, which give no word layout. DESIGN CHOICE: operands
stand in `W1` on, and the upper halves of those words and the flag byte and handle field of `W0` are
not read (notes/assumptions/12.md). -/
def decodeUop (d : Descriptor) : Option Instr :=
  let a := d.w1.setWidth 32
  let b := d.w2.setWidth 32
  let c := d.w3.setWidth 32
  let e := d.w4.setWidth 32
  match d.opcode.toNat with
  | 0x40 => some (.mfInsert a)
  | 0x41 => some (.mfFindBest a b)
  | 0x42 => some (.mfFindAll a b c)
  | 0x43 => some (.btInsert a)
  | 0x44 => some (.btFindAll a b c)
  | 0x45 => some .renorm
  | 0x46 => some (.emitSeq a b c e)
  | 0x47 => some (.emitLast a b)
  | _ => none

/-! ## The encoder -/

/-- A descriptor from opcode, flags, handle and operand words (R167); words not given are 0. -/
def mkDescriptor (op : Byte) (h : BitVec 16) (fl : Byte) (w1 : U64 := 0#64) (w2 : U64 := 0#64)
    (w3 : U64 := 0#64) (w4 : U64 := 0#64) (w5 : U64 := 0#64) (w6 : U64 := 0#64)
    (w7 : U64 := 0#64) : Descriptor :=
  ⟨h ++ fl ++ op, w1, w2, w3, w4, w5, w6, w7⟩

/-- A micro-operation word with its operands zero-extended (notes/assumptions/12.md). -/
def mkUop (op : Byte) (a : U32 := 0#32) (b : U32 := 0#32) (c : U32 := 0#32) (e : U32 := 0#32) :
    Descriptor :=
  mkDescriptor op 0#16 0#8 (a.setWidth 64) (b.setWidth 64) (c.setWidth 64) (e.setWidth 64)

/-- The words of an instruction, in the stream it belongs to. -/
def encode (cfg : Config) : Instr → Code
  | .ctxInit h fl level => .command (mkDescriptor 0x01#8 h fl level)
  | .ctxReset h fl level => .command (mkDescriptor 0x02#8 h fl level)
  | .ctxFree h fl => .command (mkDescriptor 0x03#8 h fl)
  | .blkCompress h fl a b c d => .command (mkDescriptor 0x06#8 h fl a b c d)
  | .blkCompressContinue h fl a b c d => .command (mkDescriptor 0x07#8 h fl a b c d)
  | .blkDecompress h fl a b c d e f g => .command (mkDescriptor 0x08#8 h fl a b c d e f g)
  | .blkDecompressContinue h fl a b c d => .command (mkDescriptor 0x09#8 h fl a b c d)
  | .loadDict h fl a b => .command (mkDescriptor 0x0A#8 h fl a b)
  | .saveDict h fl a b => .command (mkDescriptor 0x0B#8 h fl a b)
  | .compressBound h fl n => .command (mkDescriptor 0x0C#8 h fl n)
  | .sdReset h fl a b => .command (mkDescriptor 0x0D#8 h fl a b)
  | .feBegin h fl a b c d e => .command (mkDescriptor 0x10#8 h fl a b c d e)
  | .feUpdate h fl a b c d => .command (mkDescriptor 0x11#8 h fl a b c d)
  | .feFlush h fl a b => .command (mkDescriptor 0x12#8 h fl a b)
  | .feEnd h fl a b => .command (mkDescriptor 0x13#8 h fl a b)
  | .fdReset h fl => .command (mkDescriptor 0x18#8 h fl)
  | .fdDecode h fl a b c d e => .command (mkDescriptor 0x19#8 h fl a b c d e)
  | .mfInsert p => .uop (mkUop 0x40#8 p)
  | .mfFindBest p high => .uop (mkUop 0x41#8 p high)
  | .mfFindAll p high minLen => .uop (mkUop 0x42#8 p high minLen)
  | .btInsert q => .uop (mkUop 0x43#8 q)
  | .btFindAll p high minLen => .uop (mkUop 0x44#8 p high minLen)
  | .renorm => .uop (mkUop 0x45#8)
  | .emitSeq a b d ml => .uop (mkUop 0x46#8 a b d ml)
  | .emitLast a b => .uop (mkUop 0x47#8 a b)
  | .seqShort off lits ml => .sequence (Sequence.short off lits ml).encode
  | .seqRepeat lits ml => .sequence (Sequence.rep lits ml).encode
  | .seqLong off lits ml => .sequence (Sequence.long off lits ml).encode
  | .seqMid off lits ml => .sequence (Sequence.mid off lits ml).encode
  | .seqLast cls hi mf lits => .sequence (Sequence.last cls hi mf lits).encode
  | .hdr flg bd csize hc => .record (hdrBytes cfg flg bd csize hc)
  | .skip low payload => .record (skipBytes cfg low payload)
  | .endMark => .record endMarkBytes
  | .blkC payload => .record (blkCBytes payload)
  | .blkS payload => .record (blkSBytes payload)
  | .cksum v => .record (cksumBytes v)

/-! ## Words of the opcode table

One word alone does not say which stream it stands in (R9): a token `0x40` and the micro-operation
`0x40` have the same bits. The table's word is placed by this convention (notes/assumptions/9.md):
up to 8 bits, the command and micro-operation codes come first but for `0x40`, and every other byte
is a token; wider words are a magic number or the end mark first, then a block word where bit 31 is
set, then a command or micro-operation by `W0[7:0]`, and otherwise a block word. -/

/-- The stream a table word is placed in. -/
inductive WordStream
  | command
  | uop
  | sequence
  | header
  | blockWord
  deriving DecidableEq, Repr

/-- The opcodes of R168. -/
def isCommandOpcode (n : Nat) : Bool :=
  (1 ≤ n && n ≤ 3) || (6 ≤ n && n ≤ 13) || (0x10 ≤ n && n ≤ 0x13) || n == 0x18 || n == 0x19

/-- The codes of R174. -/
def isUopOpcode (n : Nat) : Bool := 0x40 ≤ n && n ≤ 0x47

/-- The convention of notes/assumptions/9.md. -/
def tableWordStream (nbits w : Nat) : WordStream :=
  if nbits ≤ 8 then
    if isCommandOpcode w then .command
    else if isUopOpcode w && w != 0x40 then .uop
    else .sequence
  else
    let m := BitVec.ofNat 32 w
    if m = Config.default.magic || isSkippable Config.default m then .header
    else if m = 0#32 || m.getLsbD 31 then .blockWord
    else if isCommandOpcode (w % 256) then .command
    else if isUopOpcode (w % 256) then .uop
    else .blockWord

/-- A table word's bytes in stream order, the bits above it zero. -/
def tableBytes (nbits w : Nat) : List Byte :=
  leBytes ((nbits + 7) / 8) w ++ List.replicate 16 0#8

/-- A table word as a descriptor whose operand words are zero. -/
def tableDescriptor (w : Nat) : Descriptor :=
  ⟨BitVec.ofNat 32 w, 0#64, 0#64, 0#64, 0#64, 0#64, 0#64, 0#64⟩

/-- Room for the output of a Sequence placed alone. -/
def tableLimits : SeqLimits := ⟨4096, false, none⟩

/-- The instruction the decoders read from a word of the opcode table. -/
def decodeTableWord (nbits w : Nat) : Option Instr :=
  match tableWordStream nbits w with
  | .command =>
    match decodeCommand (tableDescriptor w) with
    | .ok i => some i
    | .error _ => none
  | .uop => decodeUop (tableDescriptor w)
  | .sequence =>
    match decodeSeq tableLimits (tableBytes nbits w) with
    | .seq q _ => some q.toInstr
    | .malformed _ => none
  | .header =>
    match decodeRecord Config.default .header (tableBytes nbits w) with
    | .record i _ => some i
    | _ => none
  | .blockWord =>
    match decodeRecord Config.default .blockWord (tableBytes nbits w) with
    | .record i _ => some i
    | _ => none

end Sys2Proof
end

