-- ==== Sys2Proof/Machine/State.lean ====
section
/-! DEFINITION. The state of LZ5-CORE as plain data (spec/10_state.md R30 to R82), the reasons a
step can stop, and the power-on state. -/

namespace Sys2Proof.Machine

/-! ## Host memory (R100) -/

/-- A range of host addresses that a command left holding any value (R113, R114, R528); the byte at
`a` is `Config.freeByte draw a` (notes/assumptions/7.md). -/
structure FreeRange where
  lo : Nat
  len : Nat
  draw : Nat
  deriving DecidableEq, Repr

/-- Host memory: the listed bytes, addresses strictly rising, and the free ranges, newest first. An
unlisted address reads as a free value inside a free range and as 0 outside
(notes/assumptions/6.md and 7.md). -/
structure Memory where
  cells : List Host.Cell
  free : List FreeRange
  deriving DecidableEq, Repr

/-! ## Compression contexts (R35 to R48) -/

/-- A table of u32 entries by index: the entries that are not 0, indices strictly rising (R41 to R43). -/
abbrev Table := List (Nat × U32)

/-- A compression context (R35). Positions, table entries and offsets are u32 words (R12); the
rules compute with the numbers they stand for and store the result as a u32
(notes/assumptions/22.md). -/
structure Cctx where
  /-- R35 -/
  alloc : Bool
  /-- The effective level, 1 to 5 (R35, R37). -/
  level : Nat
  /-- CF1 to CF6, latched from `LEVEL_TABLE` (R36, R38). -/
  row : LevelRow
  /-- R41 -/
  hashTable : Table
  /-- R42 -/
  hashTable3 : Table
  /-- R43: chain deltas by index, or the binary tree's two child deltas by `2·index + side`
  (notes/assumptions/29.md). -/
  chainTable : Table
  /-- R44 -/
  lastOff : U32
  /-- R45 -/
  currentOffset : U32
  /-- R46 -/
  dictLimit : U32
  /-- R46 -/
  lowLimit : U32
  /-- R47 -/
  nextInsert : U32
  /-- R48 -/
  hist : List Byte
  deriving DecidableEq, Repr

/-- A compression context of a machine with parameters `cfg` at power-on (R82). -/
def Cctx.powerOn (cfg : Config) : Cctx where
  alloc := false
  level := 1
  row := cfg.levelTable.level1
  hashTable := []
  hashTable3 := []
  chainTable := []
  lastOff := 0#32
  currentOffset := u32 windowSize
  dictLimit := u32 windowSize
  lowLimit := u32 windowSize
  nextInsert := u32 windowSize
  hist := []

/-- A stream-decoder context (R54). -/
structure Sd where
  hist : List Byte
  deriving DecidableEq, Repr

/-! ## Frame-encoder contexts (R56 to R62) -/

/-- `fe.stage` (R56). -/
inductive FeStage
  | idle
  | active
  | error
  deriving DecidableEq, Repr

/-- The preference fields PF0 to PF5 (R39). -/
structure Prefs where
  blockSizeId : BitVec 3
  /-- 1 = independent. -/
  blockMode : Bool
  contentChecksum : Bool
  blockChecksum : Bool
  contentSize : U64
  /-- Held clamped to 1..5 (notes/assumptions/19.md). -/
  level : Nat
  deriving DecidableEq, Repr

/-- A frame-encoder context. -/
structure Fe where
  stage : FeStage
  prefs : Prefs
  cctx : Cctx
  buf : List Byte
  content : List Byte
  total : U64
  err : Byte
  alloc : Bool
  deriving DecidableEq, Repr

/-- A frame encoder of a machine with parameters `cfg` at power-on (R82, R39). -/
def Fe.powerOn (cfg : Config) : Fe where
  stage := .idle
  prefs := ⟨1#3, true, false, false, 0#64, 1⟩
  cctx := Cctx.powerOn cfg
  buf := []
  content := []
  total := 0#64
  err := 0#8
  alloc := false

/-! ## Frame-decoder contexts (R70 to R79) -/

/-- `fd.dStage`, codes 0 to 16 in this order (R70). -/
inductive DStage
  | getHeader
  | storeHeader
  | getCBlockSize
  | storeCBlockSize
  | copyDirect
  | getCBlock
  | storeCBlock
  | decodeCBlock
  | decodeCBlockIntoDst
  | decodeCBlockIntoTmp
  | flushOut
  | getSuffix
  | storeSuffix
  | getSFrameSize
  | storeSFrameSize
  | skipSkippable
  | error
  deriving DecidableEq, Repr

/-- `fd.frameInfo` (R71). -/
structure FrameInfo where
  /-- 1 = independent. -/
  blockMode : Bool
  blockSizeId : BitVec 3
  maxBlockSize : Nat
  contentChecksumFlag : Bool
  contentSizeFlag : Bool
  contentSize : U64
  deriving DecidableEq, Repr

/-- `fd.srcExpect` (R76), the stream offset the next call must resume at. A u64 that does not wrap
(R79): past 2^64 − 1 no `srcPos` resumes the stream (notes/assumptions/24.md). -/
inductive Cursor
  /-- The spec's NONE: any offset is accepted. -/
  | anywhere
  | offset (pos : U64)
  /-- The offset would be 2^64 or more. -/
  | pastEnd
  deriving DecidableEq, Repr

/-- A frame-decoder context. -/
structure Fd where
  dStage : DStage
  frameInfo : FrameInfo
  tmpIn : List Byte
  tmpInTarget : Nat
  tmpOut : List Byte
  hist : List Byte
  content : List Byte
  total : U64
  srcExpect : Cursor
  remaining : Nat
  cBlockSize : Nat
  err : Byte
  deriving DecidableEq, Repr

/-- A frame decoder at power-on and after `FD_RESET` (R82, R500). -/
def Fd.powerOn : Fd where
  dStage := .getHeader
  frameInfo := ⟨false, 0#3, 0, false, false, 0#64⟩
  tmpIn := []
  tmpInTarget := 0
  tmpOut := []
  hist := []
  content := []
  total := 0#64
  srcExpect := .anywhere
  remaining := 0
  cBlockSize := 0
  err := 0#8

/-! ## Errors (R600) -/

/-- The ten error names of R600; `OK` is no error. -/
inductive Err
  | allocationFailed
  | inputTooLarge
  | outputTooSmall
  | malformedStream
  | headerChecksumInvalid
  | contentChecksumInvalid
  | frameSizeMismatch
  | protocolViolation
  | reservedFlagSet
  | unknownFrameType
  deriving DecidableEq, Repr

/-! ## Block decoder working registers (R50, R51) -/

/-- Whether a block decode goes on, has ended, or has failed with the count `c` (R363, R379). -/
inductive BdPhase
  | running
  | ended
  | failed (c : Nat)
  deriving DecidableEq, Repr

/-- The working registers of one block decode. `op` is the length of `out`. -/
structure Bd where
  src : List Byte
  cap : Nat
  dict : List Byte
  eoo : Bool
  partialMode : Bool
  target : Nat
  ip : Nat
  out : List Byte
  lastOff : U32
  token : Byte
  litLen : Nat
  matchLen : Nat
  off : U32
  phase : BdPhase
  deriving DecidableEq, Repr

/-- The registers at the start of a decode (R361): `ip`, `op` and `last_off` are 0; the others, whose
start values R51 does not give, are 0 (DESIGN CHOICE, notes/assumptions/10.md). -/
def Bd.start (src : List Byte) (cap : Nat) (dict : List Byte) (eoo partialMode : Bool)
    (target : Nat) : Bd where
  src := src
  cap := cap
  dict := dict
  eoo := eoo
  partialMode := partialMode
  target := target
  ip := 0
  out := []
  lastOff := 0#32
  token := 0#8
  litLen := 0
  matchLen := 0
  off := 0#32
  phase := .running

/-! ## Encoder and record-stream working registers (the model's own) -/

/-- A Match (R219), with the widths of R12. -/
structure Match where
  offset : U32
  length : U32
  backAdjust : I32
  deriving DecidableEq, Repr

/-- The compression context a micro-operation works on: a `cctx`, or the one a frame encoder owns. -/
inductive CtxSel
  | cctx (h : Nat)
  | fe (h : Nat)
  deriving DecidableEq, Repr

/-- The working registers of the micro-operation stream (notes/assumptions/12.md). -/
structure Enc where
  sel : CtxSel
  /-- The current input (R104). -/
  src : List Byte
  /-- The high limit of binary-tree insertions, a logical position (R214, R12). -/
  opHigh : U32
  /-- The packer's output (R260). -/
  out : List Byte
  /-- What the last finder returned (R210, R212, R215). -/
  found : List Match
  deriving DecidableEq, Repr

/-- The working registers of the record stream (R504's `ip`, `produced` and `room`;
notes/assumptions/14.md). -/
structure Rec where
  h : Nat
  src : List Byte
  ip : Nat
  room : Nat
  out : List Byte
  deriving DecidableEq, Repr

/-- Which instruction stream the next step takes from (R9, notes/assumptions/8.md). -/
inductive Stream
  | host
  | micro
  | sequence
  | record
  deriving DecidableEq, Repr

/-! ## The whole state -/

/-- The state of the machine. -/
structure State where
  /-- The parameters of this machine (R11, R705). -/
  cfg : Config
  status : Byte
  res0 : U64
  res1 : U64
  res2 : U64
  cctx : List Cctx
  sd : List Sd
  fe : List Fe
  fd : List Fd
  mem : Memory
  /-- How many free ranges have been drawn (notes/assumptions/7.md). -/
  draws : Nat
  stream : Stream
  /-- The host's pending commands, the next one first. -/
  queue : List Descriptor
  /-- The pending micro-operation words. -/
  uops : List Descriptor
  bd : Bd
  enc : Enc
  rcd : Rec
  deriving DecidableEq, Repr

/-- Power-on of a machine with the parameters `cfg` and so many contexts of each kind (R11, R82,
R700). -/
def State.powerOn (cfg : Config) (nCctx nSd nFe nFd : Nat) : State where
  cfg := cfg
  status := 0#8
  res0 := 0#64
  res1 := 0#64
  res2 := 0#64
  cctx := List.replicate nCctx (Cctx.powerOn cfg)
  sd := List.replicate nSd ⟨[]⟩
  fe := List.replicate nFe (Fe.powerOn cfg)
  fd := List.replicate nFd Fd.powerOn
  mem := ⟨[], []⟩
  draws := 0
  stream := .host
  queue := []
  uops := []
  bd := Bd.start [] 0 [] false false 0
  enc := ⟨.cctx 0, [], 0#32, [], []⟩
  rcd := ⟨0, [], 0, 0, []⟩

/-- Power-on with R11's defaults. The context counts are OPEN there: DESIGN CHOICE 4 of each
(notes/assumptions/2.md). -/
def State.reset : State := State.powerOn Config.default 4 4 4 4

/-- Why the machine stops with a fault. Every one is the model's own and safe: it stops where the
spec gives no behaviour. -/
inductive Fault
  /-- A micro-operation reads a logical position outside `[lowLimit, dictLimit + n)`: "a model
  error, not a hardware behaviour" (R106). Raised by MF_INSERT, MF_FIND_BEST, MF_FIND_ALL, BT_INSERT,
  BT_FIND_ALL, EMIT_SEQ, EMIT_LAST. Safe. -/
  | positionOutOfRange
  /-- A position is inserted a second time or out of order; R208 asks a model that exposes the
  insertion to fault. Raised by MF_INSERT, BT_INSERT, BT_FIND_ALL. Safe. -/
  | nonMonotonicInsert
  /-- A distance or match length outside the packer's preconditions, which a model may assert
  (R264). Raised by EMIT_SEQ. Safe. -/
  | packerPrecondition
  /-- A micro-operation or record names a context that does not exist (notes/assumptions/12.md,
  14.md). Raised by every micro-operation but EMIT_LAST and by every record. Safe. -/
  | noSuchContext
  /-- The frame decoder's stage machine used up its step bound; R731 says it never does. Raised by
  FD_DECODE and the records. Safe. -/
  | stageBound
  deriving DecidableEq, Repr

/-- Why an instruction has no meaning. -/
inductive Refusal
  /-- The instruction has no meaning in this model yet. Safe. -/
  | notModelled (mnemonic : String)
  /-- A buffer operand does not fit host memory (R101, R620). Raised by every command with a
  buffer. Safe. -/
  | bufferInvalid
  /-- An output buffer shares a byte with another buffer of the command (R102, R620). Safe. -/
  | buffersOverlap
  /-- `LEVEL_TABLE` has a row outside its ranges (R37, R620). Raised by every command. Safe. -/
  | illegalLevelTable
  deriving DecidableEq, Repr

/-- What an instruction answers. -/
abbrev Answer := Host.Outcome State Fault Refusal

end Sys2Proof.Machine
end

