-- ==== Sys2Proof/Machine/Flags.lean ====
section
/-! DEFINITION. The flag-like state: `STATUS`, the error codes and the result registers
(spec/10_state.md R33, R34; spec/60_exceptions.md R600, R616). -/

namespace Sys2Proof.Machine

/-- `OK` (R600). -/
def statusOk : Byte := 0#8

/-- The code of an error (R600). -/
def Err.code : Err → Byte
  | .allocationFailed => 1#8
  | .inputTooLarge => 2#8
  | .outputTooSmall => 3#8
  | .malformedStream => 4#8
  | .headerChecksumInvalid => 5#8
  | .contentChecksumInvalid => 6#8
  | .frameSizeMismatch => 7#8
  | .protocolViolation => 8#8
  | .reservedFlagSet => 9#8
  | .unknownFrameType => 10#8

/-- Write the four result registers, as every command does (R33). -/
def State.report (s : State) (status : Byte) (r0 r1 r2 : U64) : State :=
  { s with status := status, res0 := r0, res1 := r1, res2 := r2 }

/-- The sentinel `sext_64(-(c + 1))` of a failed block decode (R381). -/
def sentinel (c : Nat) : U64 := -(BitVec.ofNat 64 (c + 1))

end Sys2Proof.Machine
end

