-- ==== Sys2Proof/Machine/Ops.lean ====
section
/-! DEFINITION. The named operations over memory, tables and contexts, and ending a command with an
error (spec/20_memory.md, spec/10_state.md, spec/60_exceptions.md R612, R616). -/

namespace Sys2Proof.Machine

/-! ## Sparse lists: (key, value) pairs, keys strictly rising -/

/-- The value listed at `k`. -/
def sparseGet {β : Type} (k : Nat) : List (Nat × β) → Option β
  | [] => none
  | (x, v) :: t => if k = x then some v else if k < x then none else sparseGet k t

/-- List `v` at `k`. -/
def sparseSet {β : Type} (k : Nat) (v : β) : List (Nat × β) → List (Nat × β)
  | [] => [(k, v)]
  | (x, w) :: t =>
    if k < x then (k, v) :: (x, w) :: t
    else if k = x then (k, v) :: t
    else (x, w) :: sparseSet k v t

/-- List nothing at `k`. -/
def sparseErase {β : Type} (k : Nat) : List (Nat × β) → List (Nat × β)
  | [] => []
  | (x, w) :: t =>
    if k < x then (x, w) :: t
    else if k = x then t
    else (x, w) :: sparseErase k t

/-- Keys strictly rising from `lo` on. -/
def sparseSorted {β : Type} (lo : Nat) : List (Nat × β) → Bool
  | [] => true
  | (x, _) :: t => decide (lo ≤ x) && sparseSorted (x + 1) t

/-! ## Tables of u32 entries (R41 to R43): an unlisted entry is 0 -/

/-- `table[k]`. -/
def Table.read (t : Table) (k : Nat) : U32 := (sparseGet k t).getD 0#32

/-- `table[k] <- v`; writing 0 unlists the entry. -/
def Table.write (t : Table) (k : Nat) (v : U32) : Table :=
  if v = 0#32 then sparseErase k t else sparseSet k v t

/-- The canonical form: indices strictly rising, no entry 0. -/
def Table.wf (t : Table) : Bool := sparseSorted 0 t && t.all (fun e => e.2 != 0#32)

/-! ## Host memory (R100, R103) -/

/-- Address `a` lies in the range. -/
def FreeRange.has (r : FreeRange) (a : Nat) : Bool := decide (r.lo ≤ a ∧ a < r.lo + r.len)

/-- The newest free range `a` lies in. -/
def Memory.freeAt (m : Memory) (a : Nat) : Option FreeRange := m.free.find? (fun r => r.has a)

/-- What an unlisted address reads as: a free value inside a free range, and 0 outside (DESIGN
CHOICE, notes/assumptions/6.md and 7.md). -/
def Memory.unlisted (m : Memory) (a : Nat) : Byte :=
  match m.freeAt a with
  | some r => Config.freeByte r.draw a
  | none => 0#8

/-- One byte of host memory. -/
def Memory.read (m : Memory) (a : Nat) : Byte :=
  match sparseGet a m.cells with
  | some b => b
  | none => m.unlisted a

/-- Write one byte. Outside the free ranges writing 0 unlists the address. -/
def Memory.write (m : Memory) (a : Nat) (b : Byte) : Memory :=
  if b = 0#8 ∧ m.freeAt a = none then { m with cells := sparseErase a m.cells }
  else { m with cells := sparseSet a b m.cells }

/-- `MemWrite(a, |bs|, bs)` (R14). -/
def Memory.writeBytes (m : Memory) (a : Nat) : List Byte → Memory
  | [] => m
  | b :: t => Memory.writeBytes (m.write a b) (a + 1) t

/-- `MemRead(a, n)` (R14). -/
def Memory.readBytes (m : Memory) (a : Nat) : Nat → List Byte
  | 0 => []
  | n + 1 => m.read a :: Memory.readBytes m (a + 1) n

/-- Leave the `len` bytes at `lo` holding any value, under draw `k`. -/
def Memory.writeAny (m : Memory) (lo len k : Nat) : Memory :=
  if len = 0 then m
  else
    { cells := m.cells.filter (fun c => !(FreeRange.has ⟨lo, len, k⟩ c.1))
      free := ⟨lo, len, k⟩ ::
        m.free.filter (fun r => !(decide (lo ≤ r.lo ∧ r.lo + r.len ≤ lo + len))) }

/-- The canonical form of memory: addresses strictly rising, and no entry that equals what its
address reads as unlisted where that is a known value. -/
def Memory.wf (m : Memory) : Bool :=
  sparseSorted 0 m.cells && m.cells.all (fun c => c.2 != 0#8 || (m.freeAt c.1).isSome)

/-! ## Parts of the state -/

/-- Replace host memory. -/
def State.setMem (s : State) (m : Memory) : State := { s with mem := m }

/-- `MemWrite` (R14). -/
def State.memWrite (s : State) (a : Nat) (bs : List Byte) : State :=
  s.setMem (s.mem.writeBytes a bs)

/-- Leave the `len` bytes at `lo` holding any value (R113, R114, R528): a fresh draw. -/
def State.anyValue (s : State) (lo len : Nat) : State :=
  { s with mem := s.mem.writeAny lo len s.draws, draws := s.draws + 1 }

/-- Replace `cctx[h]`. -/
def State.setCctx (s : State) (h : Nat) (c : Cctx) : State := { s with cctx := s.cctx.set h c }

/-- Replace `sd[h]`. -/
def State.setSd (s : State) (h : Nat) (d : Sd) : State := { s with sd := s.sd.set h d }

/-- Replace `fe[h]`. -/
def State.setFe (s : State) (h : Nat) (f : Fe) : State := { s with fe := s.fe.set h f }

/-- Replace `fd[h]`. -/
def State.setFd (s : State) (h : Nat) (f : Fd) : State := { s with fd := s.fd.set h f }

/-- Replace the block decoder's working registers. -/
def State.setBd (s : State) (b : Bd) : State := { s with bd := b }

/-- Replace the encoder's working registers. -/
def State.setEnc (s : State) (e : Enc) : State := { s with enc := e }

/-- Replace the record stream's working registers. -/
def State.setRec (s : State) (r : Rec) : State := { s with rcd := r }

/-- The compression context a selection names. -/
def State.selected (s : State) : CtxSel → Option Cctx
  | .cctx h => s.cctx[h]?
  | .fe h => (s.fe[h]?).map (fun f => f.cctx)

/-- Replace the compression context a selection names. -/
def State.setSelected (s : State) (sel : CtxSel) (c : Cctx) : State :=
  match sel with
  | .cctx h => s.setCctx h c
  | .fe h =>
    match s.fe[h]? with
    | some f => s.setFe h { f with cctx := c }
    | none => s

/-! ## Ending a command (R33, R612, R616) -/

/-- End a command with an error: the machine's one way of taking an exception. `STATUS` gets the
code and the result registers 0; nothing is saved, no mode changes and no control is transferred,
so there is nothing to return from either (R612, R614, R617). -/
def raise (e : Err) (s : State) : Answer := .next (s.report e.code 0#64 0#64 0#64)

/-- End a command with an error code already latched (R462, R503). -/
def raiseLatched (code : Byte) (s : State) : Answer := .next (s.report code 0#64 0#64 0#64)

/-- End a block decode with `MalformedStream` and the sentinel of count `c` (R381, R616). -/
def raiseMalformed (c : Nat) (s : State) : Answer :=
  .next (s.report Err.malformedStream.code (sentinel c) 0#64 0#64)

/-- End a command with `OK` and the primary result `r0`. -/
def done (r0 : U64) (s : State) : Answer := .next (s.report statusOk r0 0#64 0#64)

/-! ## Byte sequences -/

/-- The last `k` bytes. -/
def lastBytes (k : Nat) (bs : List Byte) : List Byte := bs.drop (bs.length - k)

/-! ## Compression contexts (R421 to R423) -/

/-- `clamp(v, 1, 5)` (R37). -/
def clampLevel (v : Nat) : Nat := if v < 1 then 1 else if 5 < v then 5 else v

/-- `LEVEL_TABLE[level]` (R38). -/
def levelRow (cfg : Config) (level : Nat) : LevelRow :=
  if level ≤ 1 then cfg.levelTable.level1
  else if level = 2 then cfg.levelTable.level2
  else if level = 3 then cfg.levelTable.level3
  else if level = 4 then cfg.levelTable.level4
  else cfg.levelTable.level5

/-- The bytes of table memory a row needs (R118, notes/assumptions/4.md). -/
def tableMemory (r : LevelRow) : Nat :=
  4 * 2 ^ r.hashLog + (if r.hash3Log = 0 then 0 else 4 * 2 ^ r.hash3Log) +
    (if r.strategy = .optimalPriceBt then 8 else 4) * 2 ^ r.contentLog

/-- `CLEAR()` (R422). -/
def Cctx.clear (c : Cctx) : Cctx :=
  { c with
    hashTable := [], hashTable3 := [], chainTable := []
    currentOffset := u32 windowSize, dictLimit := u32 windowSize
    lowLimit := u32 windowSize, nextInsert := u32 windowSize
    lastOff := 0#32, hist := [] }

/-- A context made unallocated (R421, R423): no tables, no history, the level kept
(notes/assumptions/18.md). -/
def Cctx.discard (c : Cctx) : Cctx := { c.clear with alloc := false }

/-- A context initialised at a clamped level (R421). -/
def Cctx.configure (cfg : Config) (level : Nat) (c : Cctx) : Cctx :=
  { c.clear with alloc := true, level := level, row := levelRow cfg level }

end Sys2Proof.Machine
end

