-- ==== Sys2Proof/Machine/Operands.lean ====
section
/-! DEFINITION. Operand forms of commands: handles, flags, buffers, `prefsWord`, `FLG` and `BD`
(spec/30_encoding.md R157, R158, R167, R168; spec/20_memory.md R100 to R102), and the checks they
share. -/

namespace Sys2Proof.Machine

/-! ## Buffers (R100 to R102) -/

/-- A buffer operand (R100). -/
structure Buffer where
  addr : Nat
  len : Nat
  deriving DecidableEq, Repr

/-- The buffer operand of two words. -/
def buffer (addr len : U64) : Buffer := ⟨addr.toNat, len.toNat⟩

/-- The buffer fits host memory; of an empty buffer the address is not used (R100, R101). -/
def Buffer.valid (cfg : Config) (b : Buffer) : Bool :=
  decide (b.len = 0 ∨ b.addr + b.len ≤ 2 ^ cfg.hostAddrBits)

/-- Two buffers share a byte (R102). -/
def Buffer.overlaps (a b : Buffer) : Bool :=
  decide (a.len ≠ 0 ∧ b.len ≠ 0 ∧ a.addr < b.addr + b.len ∧ b.addr < a.addr + a.len)

/-- `MemRead` of a buffer (R14). -/
def State.readBuffer (s : State) (b : Buffer) : List Byte := s.mem.readBytes b.addr b.len

/-- The buffers of a command: its inputs and its output (no command has two outputs). The rest of
the command runs when they are valid and disjoint; otherwise the command is refused (R101, R102,
R620). -/
def withBuffers (cfg : Config) (ins : List Buffer) (out : Buffer) (k : Answer) : Answer :=
  if !((out :: ins).all (fun b => b.valid cfg)) then .refused .bufferInvalid
  else if ins.any (fun b => b.overlaps out) then .refused .buffersOverlap
  else k

/-- No output buffer. -/
def noBuffer : Buffer := ⟨0, 0⟩

/-! ## Flags (R167) -/

/-- The flag bits outside `mask` are 0. -/
def flagsWithin (fl mask : Byte) : Bool := fl &&& ~~~mask == 0#8

/-! ## Common prologues -/

/-- Every command is refused when `LEVEL_TABLE` has a row outside its ranges (R37, R620). -/
def command (s : State) (k : Answer) : Answer :=
  if s.cfg.legal then k else .refused .illegalLevelTable

/-- The checks of every compression-context command but `CTX_INIT`, in R420's order: handle,
allocation, flags (notes/assumptions/16.md). -/
def withCctx (h : BitVec 16) (fl mask : Byte) (s : State) (k : Cctx → Answer) : Answer :=
  command s <|
    match s.cctx[h.toNat]? with
    | none => raise .protocolViolation s
    | some c =>
      if !c.alloc then raise .protocolViolation s
      else if !flagsWithin fl mask then raise .reservedFlagSet s
      else k c

/-- Handle and flag checks of the stream-decoder commands (R428, R429). -/
def withSd (h : BitVec 16) (fl : Byte) (s : State) (k : Sd → Answer) : Answer :=
  command s <|
    match s.sd[h.toNat]? with
    | none => raise .protocolViolation s
    | some d => if !flagsWithin fl 0#8 then raise .reservedFlagSet s else k d

/-- Handle and flag checks of the frame-encoder commands (R460, R469, R613). -/
def withFe (h : BitVec 16) (fl : Byte) (s : State) (k : Fe → Answer) : Answer :=
  command s <|
    match s.fe[h.toNat]? with
    | none => raise .protocolViolation s
    | some f => if !flagsWithin fl 0#8 then raise .reservedFlagSet s else k f

/-- Handle, flag and stage checks of `FE_UPDATE`, `FE_FLUSH` and `FE_END`: IDLE is a protocol
violation, ERROR raises the latched code again (R462). -/
def withActiveFe (h : BitVec 16) (fl : Byte) (s : State) (k : Fe → Answer) : Answer :=
  withFe h fl s fun f =>
    match f.stage with
    | .idle => raise .protocolViolation s
    | .error => raiseLatched f.err s
    | .active => k f

/-- Handle and flag checks of the frame-decoder commands (R500, R501, R504). -/
def withFd (h : BitVec 16) (fl : Byte) (s : State) (k : Fd → Answer) : Answer :=
  command s <|
    match s.fd[h.toNat]? with
    | none => raise .protocolViolation s
    | some f => if !flagsWithin fl 0#8 then raise .reservedFlagSet s else k f

/-! ## `BLK_DECOMPRESS` flags (R360) -/

/-- `END_ON_OUTPUT = W0[8]`. -/
def endOnOutput (fl : Byte) : Bool := fl.getLsbD 0
/-- `PARTIAL = W0[9]`. -/
def partialFlag (fl : Byte) : Bool := fl.getLsbD 1
/-- `DICT_MODE = W0[11:10]`. -/
def dictMode (fl : Byte) : BitVec 2 := fl.extractLsb' 2 2
/-- `LIMITED = W0[8]` of the compress commands (R312). -/
def limitedFlag (fl : Byte) : Bool := fl.getLsbD 0

/-! ## `prefsWord` (R168, R461) -/

/-- `prefsWord[2:0]`, a 0 latched as 1 (R39). -/
def prefsBlockSizeId (w : U64) : BitVec 3 :=
  if w.extractLsb' 0 3 = 0#3 then 1#3 else w.extractLsb' 0 3
/-- `prefsWord[3]`. -/
def prefsBlockMode (w : U64) : Bool := w.getLsbD 3
/-- `prefsWord[4]`. -/
def prefsContentChecksum (w : U64) : Bool := w.getLsbD 4
/-- `prefsWord[5]`. -/
def prefsBlockChecksum (w : U64) : Bool := w.getLsbD 5
/-- `prefsWord[63:6]`. -/
def prefsReserved (w : U64) : BitVec 58 := w.extractLsb' 6 58

/-! ## FLG and BD (R157, R158) -/

/-- `BLOCK_SIZE(id) = 2^(14 + 2·id)` (R10, R165). -/
def blockSize (id : BitVec 3) : Nat := 2 ^ (14 + 2 * id.toNat)

/-- `FLG[7:6]`. -/
def flgVersion (flg : Byte) : BitVec 2 := flg.extractLsb' 6 2
/-- `FLG[5]`, 1 = independent. -/
def flgBlockMode (flg : Byte) : Bool := flg.getLsbD 5
/-- `FLG[4]`. -/
def flgBlockChecksum (flg : Byte) : Bool := flg.getLsbD 4
/-- `FLG[3]`. -/
def flgContentSize (flg : Byte) : Bool := flg.getLsbD 3
/-- `FLG[2]`. -/
def flgContentChecksum (flg : Byte) : Bool := flg.getLsbD 2
/-- `FLG[1:0]`. -/
def flgReserved (flg : Byte) : BitVec 2 := flg.extractLsb' 0 2
/-- `BD[6:4]`. -/
def bdBlockSizeId (bd : Byte) : BitVec 3 := bd.extractLsb' 4 3
/-- `BD[7]` and `BD[3:0]` are 0. -/
def bdReservedZero (bd : Byte) : Bool := !bd.getLsbD 7 && bd.extractLsb' 0 4 == 0#4

end Sys2Proof.Machine
end

