-- ==== Sys2Proof/Machine/BlockDecoder.lean ====
section
/-! DEFINITION. The block decoder: the Sequence instructions over the working registers of `Bd`, the
decode loop, and the commands BLK_DECOMPRESS and BLK_DECOMPRESS_CONTINUE
(spec/43_block_decoder.md R360 to R385, spec/44_streaming_dict.md R429). -/

namespace Sys2Proof.Machine

/-! ## Copying (R107, R375) -/

/-- `DRef(op - off)` with `op` the length of `out` (R107); outside the reference space, where R373
lets no match point, a stray free byte. -/
def dref (dict out : List Byte) (off : Nat) : Byte :=
  if off ≤ out.length then out.getD (out.length - off) (Config.strayByte off)
  else dict.getD (dict.length + out.length - off) (Config.strayByte off)

/-- `MATCHCOPY(off, k)`: one byte at a time, in increasing order (R111, R375). -/
def matchCopy (dict : List Byte) (off : Nat) : Nat → List Byte → List Byte
  | 0, out => out
  | k + 1, out => matchCopy dict off k (out ++ [dref dict out off])

/-! ## One Sequence (R363) -/

/-- What follows a Sequence's literal run: nothing, or an offset of `bytes` bytes and a match. -/
structure SeqMatch where
  bytes : Nat
  off : Nat
  ml : Nat
  deriving DecidableEq, Repr

/-- The decode ends with the literal run just copied: R377, R378. -/
def Bd.stopsAfterLits (b : Bd) : Bool :=
  (b.partialMode && decide (b.target ≤ b.out.length)) || (b.eoo && b.out.length == b.cap)

/-- The decode fails with `c = ip` (R379). -/
def Bd.fail (b : Bd) : Bd := { b with phase := .failed b.ip }

/-- The decode fails with count `c` while a Sequence is read (R364, R365, R371, R372, R379). What the
other registers then hold no rule says, since they are discarded (R50, R51). DESIGN CHOICE: `out`,
`op`, `token`, `litLen` and the rest are as before that Sequence, also where the loop of R363 has copied
its literals already (notes/assumptions/38.md). -/
def Bd.failAt (b : Bd) (c : Nat) : Bd := { b with ip := c, phase := .failed c }

/-- The decode succeeds. -/
def Bd.finish (b : Bd) : Bd := { b with phase := .ended }

/-- The literal run: token, extension and the run, with the output bound of R374. `none` beside the
registers says the bound failed. -/
def bdLiterals (token : Byte) (cls : OffClass) (lits : List Byte) (b : Bd) : Bool × Bd :=
  let ip := b.ip + 1 + litExt lits.length (litBits cls)
  let b1 := { b with ip := ip, token := token, litLen := lits.length, phase := .running }
  if b.cap < b.out.length + lits.length then (false, b1)
  else (true, { b1 with ip := ip + lits.length, out := b.out ++ lits })

/-- Offset, match length, the checks of R373 and R374, and the copy (R363). -/
def bdMatch (m : SeqMatch) (b : Bd) : Bd :=
  let b1 := { b with ip := b.ip + m.bytes + mlExt m.ml, off := u32 m.off, matchLen := m.ml }
  if m.off = 0 ∨ b.out.length + b.dict.length < m.off then b1.fail
  else if b.cap < b.out.length + m.ml then b1.fail
  else
    let b2 := { b1 with out := matchCopy b.dict m.off m.ml b.out, lastOff := u32 m.off }
    if b.partialMode && decide (b.target ≤ b2.out.length) then b2.finish else b2

/-- A Sequence with a match (R367 to R370). -/
def bdSequence (token : Byte) (cls : OffClass) (lits : List Byte) (off ml : Nat) (b : Bd) : Bd :=
  let r := bdLiterals token cls lits b
  if !r.1 then r.2.fail
  else if r.2.stopsAfterLits then r.2.finish
  else bdMatch ⟨offBytes cls, off, ml⟩ r.2

/-- The terminal Sequence (R366, R376). -/
def bdLast (token : Byte) (cls : OffClass) (lits : List Byte) (b : Bd) : Bd :=
  let r := bdLiterals token cls lits b
  if !r.1 then r.2.fail else r.2.finish

/-- The token byte of a Sequence. -/
def Sequence.token (q : Sequence) : Byte := q.encode.headD 0#8

/-- SEQ_SHORT (R367). -/
def bdShort (off : BitVec 10) (lits : List Byte) (ml : Nat) (b : Bd) : Bd :=
  bdSequence (Sequence.token (.short off lits ml)) .short lits off.toNat ml b

/-- SEQ_MID (R368). -/
def bdMid (off : BitVec 16) (lits : List Byte) (ml : Nat) (b : Bd) : Bd :=
  bdSequence (Sequence.token (.mid off lits ml)) .mid lits off.toNat ml b

/-- SEQ_LONG (R369). -/
def bdLong (off : BitVec 24) (lits : List Byte) (ml : Nat) (b : Bd) : Bd :=
  bdSequence (Sequence.token (.long off lits ml)) .long lits off.toNat ml b

/-- SEQ_REPEAT: the offset is `last_off` (R370). -/
def bdRepeat (lits : List Byte) (ml : Nat) (b : Bd) : Bd :=
  bdSequence (Sequence.token (.rep lits ml)) .rep lits b.lastOff.toNat ml b

/-- SEQ_LAST (R376). -/
def bdTerminal (cls : OffClass) (hi : BitVec 2) (mf : BitVec 3) (lits : List Byte) (b : Bd) : Bd :=
  bdLast (Sequence.token (.last cls hi mf lits)) cls lits b

/-- Execute a Sequence. -/
def bdExec (q : Sequence) (b : Bd) : Bd :=
  match q with
  | .short off lits ml => bdShort off lits ml b
  | .rep lits ml => bdRepeat lits ml b
  | .long off lits ml => bdLong off lits ml b
  | .mid off lits ml => bdMid off lits ml b
  | .last cls hi mf lits => bdTerminal cls hi mf lits b

/-! ## Fetching and the decode loop (R363, R364, R378, R385) -/

/-- What the decoder finds at `ip`. -/
inductive BdFetch
  /-- The decode is over. -/
  | idle
  /-- endOnOutput with the output full: nothing is fetched (R378). -/
  | full
  /-- The bytes at `ip` are no Sequence; the count `c` (R379). -/
  | malformed (c : Nat)
  | sequence (q : Sequence)
  deriving DecidableEq, Repr

/-- The limits the position of the next Sequence depends on. -/
def Bd.limits (b : Bd) : SeqLimits :=
  ⟨b.cap - b.out.length, b.eoo, if b.partialMode then some (b.target - b.out.length) else none⟩

/-- Fetch the Sequence at `ip` (R363). -/
def bdFetch (b : Bd) : BdFetch :=
  match b.phase with
  | .running =>
    if b.eoo && b.out.length == b.cap then .full
    else
      match decodeSeq b.limits (b.src.drop b.ip) with
      | .malformed read => .malformed (b.ip + read)
      | .seq q _ => .sequence q
  | _ => .idle

/-- One round of the decode loop. -/
def bdRound (b : Bd) : Bd :=
  match bdFetch b with
  | .idle => b
  | .full => b.finish
  | .malformed c => b.failAt c
  | .sequence q => bdExec q b

/-- The decode loop with at most `k` rounds. -/
def bdLoop : Nat → Bd → Bd
  | 0, b => b
  | k + 1, b => bdLoop k (bdRound b)

/-- `DECODE(src, srcLen, cap, D, EOO, PARTIAL, target)`: the registers at its end. `srcLen + 1`
rounds are enough (R385). -/
def decodeBlock (src : List Byte) (cap : Nat) (dict : List Byte) (eoo partialMode : Bool)
    (target : Nat) : Bd :=
  bdLoop (src.length + 1) (Bd.start src cap dict eoo partialMode target)

/-! ## The Sequences as instructions, on the working registers of State -/

/-- Keep the registers a Sequence leaves; a failing check ends the decode with `MalformedStream`
(R363, R381). A Sequence writes no result register otherwise (R34). -/
def bdAnswer (b : Bd) (s : State) : Answer :=
  match b.phase with
  | .failed c => raiseMalformed c (s.setBd b)
  | _ => .next (s.setBd b)

/-- SEQ_SHORT as an instruction (R367). -/
def execSeqShort (off : BitVec 10) (lits : List Byte) (ml : Nat) (s : State) : Answer :=
  bdAnswer (bdShort off lits ml s.bd) s

/-- SEQ_REPEAT as an instruction (R370). -/
def execSeqRepeat (lits : List Byte) (ml : Nat) (s : State) : Answer :=
  bdAnswer (bdRepeat lits ml s.bd) s

/-- SEQ_LONG as an instruction (R369). -/
def execSeqLong (off : BitVec 24) (lits : List Byte) (ml : Nat) (s : State) : Answer :=
  bdAnswer (bdLong off lits ml s.bd) s

/-- SEQ_MID as an instruction (R368). -/
def execSeqMid (off : BitVec 16) (lits : List Byte) (ml : Nat) (s : State) : Answer :=
  bdAnswer (bdMid off lits ml s.bd) s

/-- SEQ_LAST as an instruction (R376). -/
def execSeqLast (cls : OffClass) (hi : BitVec 2) (mf : BitVec 3) (lits : List Byte)
    (s : State) : Answer :=
  bdAnswer (bdTerminal cls hi mf lits s.bd) s

/-! ## Commands -/

/-- The bytes after the decoded output that hold any value: `[op, min(cap, op + 7))` (R113). -/
def overshoot (cap op : Nat) : Nat := min cap (op + (wildCopyLength - 1)) - op

/-- Write a decoded block and its overshoot (R113, R382). -/
def State.writeDecoded (s : State) (dst : Buffer) (out : List Byte) : State :=
  (s.memWrite dst.addr out).anyValue (dst.addr + out.length) (overshoot dst.len out.length)

/-- End a block decode command: on failure the output buffer holds any value (R114, R380) and `RES0`
is the sentinel (R381); a decode that is still running is past the bound of R385. -/
def finishDecode (b : Bd) (dst : Buffer) (s : State) (ok : Answer) : Answer :=
  match b.phase with
  | .ended => ok
  | .failed c => raiseMalformed c (s.anyValue dst.addr dst.len)
  | .running => .fault .stageBound

/-- The dictionary region of BLK_DECOMPRESS (R361). Where a prefix would begin below address 0 the rules
do not say what it is. DEDUCED: it is no valid buffer (R100, R101) and the command is refused
(notes/assumptions/41.md). -/
def dictRegion (mode : BitVec 2) (dst : Buffer) (dictAddr dictLen : U64) : Option Buffer :=
  if mode = 0#2 then some noBuffer
  else if mode = 1#2 then
    if dst.addr < dictLen.toNat then none else some ⟨dst.addr - dictLen.toNat, dictLen.toNat⟩
  else some (buffer dictAddr dictLen)

/-- BLK_DECOMPRESS (R360); its handle field is not read (notes/assumptions/17.md). -/
def execBlkDecompress (_h : BitVec 16) (fl : Byte)
    (srcAddr srcLen dstAddr dstCap dictAddr dictLen target : U64) (s : State) : Answer :=
  command s <|
    let src := buffer srcAddr srcLen
    let dst := buffer dstAddr dstCap
    if !flagsWithin fl 0x0F#8 || dictMode fl == 3#2 then raise .reservedFlagSet s
    else if (partialFlag fl && endOnOutput fl) ||
        (dictMode fl == 1#2 && decide (prefixSize < dictLen.toNat)) then
      raise .protocolViolation s
    else
      match dictRegion (dictMode fl) dst dictAddr dictLen with
      | none => .refused .bufferInvalid
      | some dict =>
        withBuffers s.cfg [src, dict] dst <|
          let b := decodeBlock (s.readBuffer src) dst.len (s.readBuffer dict) (endOnOutput fl)
            (partialFlag fl) target.toNat
          finishDecode b dst s
            (done (BitVec.ofNat 64 (if endOnOutput fl then b.ip else b.out.length))
              (s.writeDecoded dst b.out))

/-- BLK_DECOMPRESS_CONTINUE (R429). -/
def execBlkDecompressContinue (h : BitVec 16) (fl : Byte) (srcAddr srcLen dstAddr dstCap : U64)
    (s : State) : Answer :=
  withSd h fl s fun d =>
    let src := buffer srcAddr srcLen
    let dst := buffer dstAddr dstCap
    withBuffers s.cfg [src] dst <|
      let b := decodeBlock (s.readBuffer src) dst.len d.hist false false 0
      finishDecode b dst s
        (done (BitVec.ofNat 64 b.out.length)
          ((s.setSd h.toNat ⟨lastBytes windowSize (d.hist ++ b.out)⟩).writeDecoded dst b.out))

end Sys2Proof.Machine
end

