-- ==== Sys2Proof/Machine/MatchFinder.lean ====
section
/-! DEFINITION. The match-finder backends and their micro-operations (spec/40_match_finder.md R200
to R220; `count` of spec/00_scope.md R16, `Ref` of spec/20_memory.md R106). Every function takes the
context with its tables, and the current input `src`. -/

namespace Sys2Proof.Machine

/-! ## Reading the logical position space -/

/-- `Ref(p)` (R106); outside its range a stray free byte, which no command reads. -/
def ref (c : Cctx) (src : List Byte) (p : Nat) : Byte :=
  if c.lowLimit.toNat ≤ p ∧ p < c.dictLimit.toNat then
    c.hist.getD (p - c.lowLimit.toNat) (Config.strayByte p)
  else if c.dictLimit.toNat ≤ p then src.getD (p - c.dictLimit.toNat) (Config.strayByte p)
  else Config.strayByte p

/-- The `k` first positions from `p` and `q` on compared byte by byte. -/
def countFrom (c : Cctx) (src : List Byte) (p q : Nat) : Nat → Nat
  | 0 => 0
  | k + 1 => if ref c src q = ref c src p then 1 + countFrom c src (p + 1) (q + 1) k else 0

/-- `count(p, q, high)` (R16). For `high < p` no `k` meets R16's bound and the rule gives no value; no
command counts there with the default `MFLIMIT`. DESIGN CHOICE: 0, so that a finder run there finds
nothing (notes/assumptions/39.md). -/
def count (c : Cctx) (src : List Byte) (p q high : Nat) : Nat := countFrom c src p q (high - p)

/-- `lowEff(p)` (R205). -/
def lowEff (c : Cctx) (p : Nat) : Nat := max c.lowLimit.toNat (p - maxOffset)

/-- `2^CONTENT_LOG`, the size of the chain index; `p & cmask` is `p % contentSlots` (R206). -/
def contentSlots (c : Cctx) : Nat := 2 ^ c.row.contentLog

/-- The bucket of the bytes whose number is `word`, in a table of `2^log` (R11, R202, R203): the value
at the parameter's point there, and the multiplicative form where it has none. -/
def hashBucket (f : HashFn) (log word : Nat) : Nat :=
  match f.points.find? (fun e => e.log == log && e.word == word) with
  | some e => e.value % 2 ^ log
  | none => (word * f.prime % 2 ^ 32) >>> (32 - log)

/-- `HASH4(p)` (R202). -/
def hash4 (cfg : Config) (c : Cctx) (src : List Byte) (p : Nat) : Nat :=
  hashBucket cfg.hash4 c.row.hashLog
    (leNat [ref c src p, ref c src (p + 1), ref c src (p + 2), ref c src (p + 3)])

/-- `HASH3(p)` (R203): the three bytes stand in bits 31..8 of the number hashed. -/
def hash3 (cfg : Config) (c : Cctx) (src : List Byte) (p : Nat) : Nat :=
  hashBucket cfg.hash3 c.row.hash3Log (leNat [0#8, ref c src p, ref c src (p + 1), ref c src (p + 2)])

/-- A Match at distance `d` of length `l`, as the finders return it (R211, R219). -/
def Match.of (d l : Nat) : Match := ⟨u32 d, u32 l, 0#32⟩

/-! ## Hash chain -/

/-- `hashTable3[HASH3(p)] <- p`, where the level has that table (R206, R214). -/
def insertHash3 (cfg : Config) (src : List Byte) (p : Nat) (c : Cctx) : Cctx :=
  if c.row.hash3Log = 0 then c
  else { c with hashTable3 := c.hashTable3.write (hash3 cfg c src p) (u32 p) }

/-- `MF_INSERT(p)` (R206). -/
def mfInsert (cfg : Config) (src : List Byte) (p : Nat) (c : Cctx) : Cctx :=
  let h := hash4 cfg c src p
  let prev := (c.hashTable.read h).toNat
  let delta := if prev ≠ 0 then p - prev else 0
  insertHash3 cfg src p
    { c with
      chainTable := c.chainTable.write (p % contentSlots c)
        (u32 (if maxOffset < delta then 0 else delta))
      hashTable := c.hashTable.write h (u32 p) }

/-- Insert `k` positions from `nextInsert` on (R207's loop). -/
def insertRun (insertOne : Nat → Cctx → Cctx) : Nat → Cctx → Cctx
  | 0, c => c
  | k + 1, c =>
    insertRun insertOne k
      { insertOne c.nextInsert.toNat c with nextInsert := u32 (c.nextInsert.toNat + 1) }

/-- `insertUpTo(p)` (R207). -/
def insertUpTo (insertOne : Nat → Cctx → Cctx) (p : Nat) (c : Cctx) : Cctx :=
  insertRun insertOne (p - c.nextInsert.toNat) c

/-- `H3CAND(p, high)` (R209). -/
def h3Cand (cfg : Config) (c : Cctx) (src : List Byte) (p high : Nat) : Option Match :=
  if c.row.hash3Log = 0 then none
  else
    let q := (c.hashTable3.read (hash3 cfg c src p)).toNat
    if q = 0 ∨ p ≤ q ∨ hash3TrustLimit ≤ p - q ∨ q < lowEff c p then none
    else
      let l := count c src p q high
      if minMatch ≤ l then some (Match.of (p - q) l) else none

/-- A candidate `q` for a query at `p` is usable (R205). -/
def usable (c : Cctx) (p q : Nat) : Bool := decide (q ≠ 0 ∧ q < p ∧ lowEff c p ≤ q)

/-- The next candidate down the chain, 0 where the walk ends (R210). -/
def nextInChain (c : Cctx) (q : Nat) : Nat :=
  let delta := (c.chainTable.read (q % contentSlots c)).toNat
  if delta = 0 ∨ q ≤ delta then 0 else q - delta

/-- The chain walk of `MF_FIND_BEST` with `attempts` left (R210). -/
def walkBest (c : Cctx) (src : List Byte) (p high : Nat) :
    Nat → Nat → Option Match → Nat → Option Match
  | 0, _, best, _ => best
  | attempts + 1, q, best, bestLen =>
    if !usable c p q then best
    else
      let l := count c src p q high
      if mainHashMinLen ≤ l ∧ bestLen < l then
        walkBest c src p high attempts (nextInChain c q) (some (Match.of (p - q) l)) l
      else walkBest c src p high attempts (nextInChain c q) best bestLen

/-- `MF_FIND_BEST(p, high)` (R210). -/
def mfFindBest (cfg : Config) (src : List Byte) (p high : Nat) (c0 : Cctx) : Option Match × Cctx :=
  let c := insertUpTo (mfInsert cfg src) p c0
  let m3 := h3Cand cfg c src p high
  let bestLen := match m3 with
    | some m => m.length.toNat
    | none => minMatch - 1
  (walkBest c src p high c.row.searchNum (c.hashTable.read (hash4 cfg c src p)).toNat m3 bestLen,
    c)

/-- The chain walk of `MF_FIND_ALL` with `attempts` left; `room` is what `FIND_ALL_CAP` leaves (R212). -/
def walkAll (c : Cctx) (src : List Byte) (p high : Nat) : Nat → Nat → Nat → Nat → List Match
  | 0, _, _, _ => []
  | attempts + 1, q, bestLen, room =>
    if !usable c p q || room == 0 then []
    else
      let l := count c src p q high
      if mainHashMinLen ≤ l ∧ bestLen < l then
        Match.of (p - q) l :: walkAll c src p high attempts (nextInChain c q) l (room - 1)
      else walkAll c src p high attempts (nextInChain c q) bestLen room

/-- The 3-byte candidate as the first entry of a list, if longer than `minLen - 1` (R212, R214). With
`FIND_ALL_CAP = 0` the prose of R212 and R215 allows no entry, and the pseudocode appends this one without
looking at the cap. DEDUCED: the pseudocode is followed, and the list can hold one entry
(notes/assumptions/42.md). -/
def firstOf (m3 : Option Match) (minLen : Nat) : List Match :=
  match m3 with
  | some m => if minLen ≤ m.length.toNat then [m] else []
  | none => []

/-- The greatest length a list holds, `minLen - 1` where it is empty. -/
def bestLenOf (ms : List Match) (minLen : Nat) : Nat :=
  match ms.getLast? with
  | some m => m.length.toNat
  | none => minLen - 1

/-- `MF_FIND_ALL(p, high, minLen)` (R212). -/
def mfFindAll (cfg : Config) (src : List Byte) (p high minLen : Nat) (c0 : Cctx) :
    List Match × Cctx :=
  let c := insertUpTo (mfInsert cfg src) p c0
  let r3 := firstOf (h3Cand cfg c src p high) minLen
  (r3 ++ walkAll c src p high c.row.searchNum (c.hashTable.read (hash4 cfg c src p)).toNat
    (bestLenOf r3 minLen) (cfg.findAllCap - r3.length), c)

/-! ## Binary tree -/

/-- A slot `(owner, side)` of the tree: side 0 the smaller child, 1 the larger (R213). -/
structure Slot where
  owner : Nat
  side : Nat
  deriving DecidableEq, Repr

/-- `bt[q & cmask][side]` (R213, notes/assumptions/29.md). -/
def btRead (c : Cctx) (q side : Nat) : Nat :=
  (c.chainTable.read (2 * (q % contentSlots c) + side)).toNat

/-- `bt[(owner, side)] <- v` (R213). -/
def btWrite (s : Slot) (v : Nat) (c : Cctx) : Cctx :=
  { c with chainTable := c.chainTable.write (2 * (s.owner % contentSlots c) + s.side) (u32 v) }

/-- `childDelta(owner, q, cd)` (R214). -/
def childDelta (owner q cd : Nat) : Nat := if cd = 0 ∨ q ≤ cd then 0 else owner - (q - cd)

/-- The child of `q` a delta `d` leads to, 0 for none (R214). -/
def childOf (q d : Nat) : Nat := if d ≠ 0 ∧ d < q then q - d else 0

/-- The registers of `BT_SEARCH`'s loop. -/
structure BtWalk where
  smaller : Slot
  larger : Slot
  cs : Nat
  cl : Nat
  bestLen : Nat
  room : Nat
  deriving DecidableEq, Repr

/-- Terminate both open slots (R214). -/
def btClose (w : BtWalk) (c : Cctx) : Cctx := btWrite w.larger 0 (btWrite w.smaller 0 c)

/-- The two open slots adopt the subtrees of `q` (R214); the pseudocode's order: the smaller slot
is written before the larger child is read. -/
def btAdopt (w : BtWalk) (q : Nat) (c : Cctx) : Cctx :=
  let c1 := btWrite w.smaller (childDelta w.smaller.owner q (btRead c q 0)) c
  btWrite w.larger (childDelta w.larger.owner q (btRead c1 q 1)) c1

/-- The first `n` bytes at `q` are those at `p`. The walk of R214 does not compare them again; a
candidate is returned only where they agree, since R201 has every returned match verified and stale
links can lead the walk to a position they do not stand at (notes/assumptions/33.md). -/
def skippedAgree (c : Cctx) (src : List Byte) (p q n : Nat) : Bool := countFrom c src p q n == n

/-- The loop of `BT_SEARCH` with `attempts` left, candidate `q` (R214; what is returned: R201). -/
def btLoop (src : List Byte) (p high : Nat) (collect : Bool) :
    Nat → Nat → BtWalk → Cctx → List Match × Cctx
  | 0, _, w, c => ([], btClose w c)
  | attempts + 1, q, w, c =>
    if !usable c p q || decide (contentSlots c - 1 < p - q) then ([], btClose w c)
    else
      let l0 := min w.cs w.cl
      let l := l0 + count c src (p + l0) (q + l0) high
      let take := collect && decide (mainHashMinLen ≤ l ∧ w.bestLen < l ∧ 0 < w.room) &&
        skippedAgree c src p q l0
      let w1 := if take then { w with bestLen := l, room := w.room - 1 } else w
      let found : List Match := if take then [Match.of (p - q) l] else []
      if high ≤ p + l then (found, btAdopt w1 q c)
      else if ref c src (q + l) < ref c src (p + l) then
        let c1 := btWrite w1.smaller (w1.smaller.owner - q) c
        let r := btLoop src p high collect attempts (childOf q (btRead c1 q 1))
          { w1 with cs := l, smaller := ⟨q, 1⟩ } c1
        (found ++ r.1, r.2)
      else
        let c1 := btWrite w1.larger (w1.larger.owner - q) c
        let r := btLoop src p high collect attempts (childOf q (btRead c1 q 0))
          { w1 with cl := l, larger := ⟨q, 0⟩ } c1
        (found ++ r.1, r.2)

/-- `BT_SEARCH(p, collect, high, minLen)` (R214). -/
def btSearch (cfg : Config) (src : List Byte) (p : Nat) (collect : Bool) (high minLen : Nat)
    (c0 : Cctx) : List Match × Cctx :=
  let h := hash4 cfg c0 src p
  let q := (c0.hashTable.read h).toNat
  let c1 := { c0 with hashTable := c0.hashTable.write h (u32 p) }
  let r3 := if collect then firstOf (h3Cand cfg c1 src p high) minLen else []
  let c2 := insertHash3 cfg src p c1
  let r := btLoop src p high collect c2.row.searchNum q
    ⟨⟨p, 0⟩, ⟨p, 1⟩, 0, 0, bestLenOf r3 minLen, cfg.findAllCap - r3.length⟩ c2
  (r3 ++ r.1, r.2)

/-- `BT_INSERT(q)` (R214): the search with its result discarded. -/
def btInsert (cfg : Config) (src : List Byte) (opHigh q : Nat) (c : Cctx) : Cctx :=
  (btSearch cfg src q false opHigh minMatch c).2

/-- `BT_FIND_ALL(p, high, minLen)` (R215); insertions use the operation's `opHigh` (R214). -/
def btFindAll (cfg : Config) (src : List Byte) (opHigh p high minLen : Nat) (c0 : Cctx) :
    List Match × Cctx :=
  let c := insertUpTo (btInsert cfg src opHigh) p c0
  let r := btSearch cfg src p true high minLen c
  (r.1, { r.2 with nextInsert := u32 (p + 1) })

/-! ## `backAdjust` (R211) -/

/-- Extend backward at most `k` bytes from `p` and `q`, not below `lowBound` and `low`. -/
def backFrom (c : Cctx) (src : List Byte) (low lowBound p q : Nat) : Nat → Nat
  | 0 => 0
  | k + 1 =>
    if lowBound < p ∧ low < q ∧ ref c src (q - 1) = ref c src (p - 1) then
      1 + backFrom c src low lowBound (p - 1) (q - 1) k
    else 0

/-- `backAdjust(p, d, lowBound)` (R211). -/
def backAdjust (c : Cctx) (src : List Byte) (p d lowBound : Nat) : Nat :=
  backFrom c src (lowEff c p) lowBound p (p - d) (p - lowBound)

/-! ## The micro-operations (R174)

They work on the context that `enc.sel` selects and on the input `enc.src`
(notes/assumptions/12.md, 13.md). A micro-operation is no command: it writes no result register. -/

/-- The context a micro-operation works on. The spec runs micro-operations inside commands only, on
allocated contexts, the hash-chain ones where STRATEGY is 1 to 3 and the tree ones where it is 4
(R35, R200), and does not say what another pairing does. DESIGN CHOICE: here they run on any context
there is, whatever its `alloc` bit and its STRATEGY (notes/assumptions/35.md, 36.md). -/
def withSelected (s : State) (k : Cctx → Answer) : Answer :=
  match s.selected s.enc.sel with
  | none => .fault .noSuchContext
  | some c => k c

/-- The position space `[lowLimit, dictLimit + n)` with `n` the current input's length holds
`[lo, hi)` (R106). -/
def positionsHold (c : Cctx) (src : List Byte) (lo hi : Nat) : Bool :=
  decide (c.lowLimit.toNat ≤ lo ∧ hi ≤ c.dictLimit.toNat + src.length)

/-- A search at `p` bounded by `high` reads inside the position space: its own four hash bytes, and
nothing from `high` on (R106, R204, R214). -/
def searchHolds (c : Cctx) (src : List Byte) (p high : Nat) : Bool :=
  positionsHold c src p (p + 4) && decide (high ≤ c.dictLimit.toNat + src.length)

/-- A query at `p` bounded by `high` reads inside the position space: what the search itself reads, and
the bytes of the positions it inserts first (R106, R207). -/
def queryHolds (c : Cctx) (src : List Byte) (p high : Nat) : Bool :=
  searchHolds c src p high &&
  decide (c.lowLimit.toNat ≤ c.nextInsert.toNat ∨ p ≤ c.nextInsert.toNat)

/-- One round of `insertUpTo`'s loop at `p`: insert, then advance `nextInsert` past it (R207), so that
R47 and R208 hold of what is inserted next (notes/assumptions/13.md). -/
def insertAt (insertOne : Nat → Cctx → Cctx) (p : Nat) (c : Cctx) : Cctx :=
  { insertOne p c with nextInsert := u32 (p + 1) }

/-- MF_INSERT as an instruction (R206); R208: a non-monotonic insertion is a fault. -/
def execMfInsert (p : U32) (s : State) : Answer :=
  withSelected s fun c =>
    if p.toNat < c.nextInsert.toNat then .fault .nonMonotonicInsert
    else if !positionsHold c s.enc.src p.toNat (p.toNat + 4) then .fault .positionOutOfRange
    else .next (s.setSelected s.enc.sel (insertAt (mfInsert s.cfg s.enc.src) p.toNat c))

/-- MF_FIND_BEST as an instruction (R210): `enc.found` holds the Option as a list. -/
def execMfFindBest (p high : U32) (s : State) : Answer :=
  withSelected s fun c =>
    if !queryHolds c s.enc.src p.toNat high.toNat then .fault .positionOutOfRange
    else
      let r := mfFindBest s.cfg s.enc.src p.toNat high.toNat c
      .next ((s.setSelected s.enc.sel r.2).setEnc { s.enc with found := r.1.toList })

/-- MF_FIND_ALL as an instruction (R212). -/
def execMfFindAll (p high minLen : U32) (s : State) : Answer :=
  withSelected s fun c =>
    if !queryHolds c s.enc.src p.toNat high.toNat then .fault .positionOutOfRange
    else
      let r := mfFindAll s.cfg s.enc.src p.toNat high.toNat minLen.toNat c
      .next ((s.setSelected s.enc.sel r.2).setEnc { s.enc with found := r.1 })

/-- BT_INSERT as an instruction (R214, R208). It inserts `q` alone, so what `nextInsert` leaves out below
`q` is not read. -/
def execBtInsert (q : U32) (s : State) : Answer :=
  withSelected s fun c =>
    if q.toNat < c.nextInsert.toNat then .fault .nonMonotonicInsert
    else if !searchHolds c s.enc.src q.toNat s.enc.opHigh.toNat then .fault .positionOutOfRange
    else .next (s.setSelected s.enc.sel
      (insertAt (btInsert s.cfg s.enc.src s.enc.opHigh.toNat) q.toNat c))

/-- BT_FIND_ALL as an instruction (R215): it inserts `p` itself, so R208 applies to it. -/
def execBtFindAll (p high minLen : U32) (s : State) : Answer :=
  withSelected s fun c =>
    if p.toNat < c.nextInsert.toNat then .fault .nonMonotonicInsert
    else if !(queryHolds c s.enc.src p.toNat high.toNat &&
        decide (s.enc.opHigh.toNat ≤ c.dictLimit.toNat + s.enc.src.length)) then .fault .positionOutOfRange
    else
      let r := btFindAll s.cfg s.enc.src s.enc.opHigh.toNat p.toNat high.toNat minLen.toNat c
      .next ((s.setSelected s.enc.sel r.2).setEnc { s.enc with found := r.1 })

end Sys2Proof.Machine
end

