-- ==== Sys2Proof/Machine/Packer.lean ====
section
/-! DEFINITION. The Sequence packer and its micro-operations (spec/41_sequence_packer.md R260 to
R265, spec/30_encoding.md R148, spec/42_block_encoder.md R295, R299, R300). -/

namespace Sys2Proof.Machine

/-- `encode_class(d, last_off)` (R148). -/
def encodeClass (d lastOff : Nat) : OffClass :=
  if d = lastOff then .rep
  else if d < shortLimit then .short
  else if d < midLimit then .mid
  else .long

/-! ## Cost and acceptance -/

/-- `matchCost(cls, ml)` (R299). -/
def matchCost (cls : OffClass) (ml : Nat) : Nat := 1 + offBytes cls + mlExt ml

/-- `savings(d, ml, last)` (R300). -/
def savings (d ml last : Nat) : Int := (ml : Int) - (matchCost (encodeClass d last) ml : Int)

/-- `nonExpanding(L, d, ml, last_off)` (R295). -/
def nonExpanding (litLen d ml lastOff : Nat) : Bool :=
  let cls := encodeClass d lastOff
  decide (1 + litExt litLen (litBits cls) + offBytes cls + mlExt ml ≤ ml)

/-- `accept(L, d, ml, last_off)` (R295). -/
def accept (litLen d ml lastOff : Nat) : Bool :=
  decide (minMatch ≤ ml ∧ 1 ≤ d ∧ d ≤ maxOffset) && nonExpanding litLen d ml lastOff

/-! ## Packing -/

/-- The bytes `EMIT_SEQ(lits, d, ml)` appends while `last_off` is in force (R260). -/
def emitSeqBytes (lits : List Byte) (d ml lastOff : Nat) : List Byte :=
  seqBytes (encodeClass d lastOff) d lits ml

/-- The bytes `EMIT_LAST(lits)` appends (R261): a mid token with match field 0. -/
def emitLastBytes (lits : List Byte) : List Byte := seqHead .mid 0#2 0#3 lits

/-- One entry of a parse (R262). -/
structure Triple where
  start : Nat
  d : Nat
  ml : Nat
  deriving DecidableEq, Repr

/-- `src[a .. b)`. -/
def slice (src : List Byte) (a b : Nat) : List Byte := (src.drop a).take (b - a)

/-- `PACK`'s loop from `anchor` and `last_off` on (R262): the bytes and the final `last_off`. -/
def packFrom (src : List Byte) : List Triple → Nat → Nat → List Byte × Nat
  | [], anchor, lastOff => (emitLastBytes (src.drop anchor), lastOff)
  | t :: ts, anchor, lastOff =>
    let r := packFrom src ts (t.start + t.ml) t.d
    (emitSeqBytes (slice src anchor t.start) t.d t.ml lastOff ++ r.1, r.2)

/-- `PACK(src, n, parse)` (R262). -/
def pack (src : List Byte) (parse : List Triple) : List Byte × Nat := packFrom src parse 0 0

/-! ## The micro-operations -/

/-- A literal run `[start, start + len)` lies inside the current input. -/
def litsHold (src : List Byte) (start len : Nat) : Bool := decide (start + len ≤ src.length)

/-- EMIT_SEQ as an instruction (R260): appends to the packer's output and sets `last_off`; the
preconditions of R264 are asserted (notes/assumptions/13.md). -/
def execEmitSeq (litStart litLen d ml : U32) (s : State) : Answer :=
  withSelected s fun c =>
    if !litsHold s.enc.src litStart.toNat litLen.toNat then .fault .positionOutOfRange
    else if !decide (1 ≤ d.toNat ∧ d.toNat ≤ maxOffset ∧ minMatch ≤ ml.toNat) then
      .fault .packerPrecondition
    else
      let lits := slice s.enc.src litStart.toNat (litStart.toNat + litLen.toNat)
      .next ((s.setSelected s.enc.sel { c with lastOff := d }).setEnc
        { s.enc with out := s.enc.out ++ emitSeqBytes lits d.toNat ml.toNat c.lastOff.toNat })

/-- EMIT_LAST as an instruction (R261). -/
def execEmitLast (litStart litLen : U32) (s : State) : Answer :=
  if !litsHold s.enc.src litStart.toNat litLen.toNat then .fault .positionOutOfRange
  else
    let lits := slice s.enc.src litStart.toNat (litStart.toNat + litLen.toNat)
    .next (s.setEnc { s.enc with out := s.enc.out ++ emitLastBytes lits })

end Sys2Proof.Machine
end

