-- ==== Sys2Proof/Machine/BlockEncoder.lean ====
section
/-! DEFINITION. The block encoder: renormalization, the five parsers, `ENCODE`, and the commands
BLK_COMPRESS, BLK_COMPRESS_CONTINUE, COMPRESS_BOUND and the micro-operation RENORM
(spec/42_block_encoder.md R290 to R313, spec/44_streaming_dict.md R424, R425, R430). Loops carry a
step count that the input index bounds. -/

namespace Sys2Proof.Machine

/-! ## Position space (R424, R430) -/

/-- `adj(v)` of RENORM (R424). -/
def renormEntry (delta : Nat) (v : U32) : U32 :=
  if delta < v.toNat then u32 (v.toNat - delta) else 0#32

/-- `adj` on every entry of a table; an entry that becomes 0 is unlisted. -/
def renormTable (delta : Nat) (t : Table) : Table :=
  (t.map (fun e => (e.1, renormEntry delta e.2))).filter (fun e => e.2 != 0#32)

/-- `RENORM()` (R424). -/
def renormalize (c : Cctx) : Cctx :=
  let delta := c.currentOffset.toNat - windowSize
  { c with
    hashTable := renormTable delta c.hashTable
    hashTable3 := renormTable delta c.hashTable3
    lowLimit := u32 (c.lowLimit.toNat - delta)
    dictLimit := u32 (c.dictLimit.toNat - delta)
    nextInsert := renormEntry delta c.nextInsert
    currentOffset := u32 windowSize }

/-- `HISTORY_UPDATE(src, n)` (R430). -/
def historyUpdate (src : List Byte) (c : Cctx) : Cctx :=
  let off := c.dictLimit.toNat + src.length
  let low := max c.lowLimit.toNat (off - windowSize)
  { c with
    currentOffset := u32 off
    dictLimit := u32 off
    lowLimit := u32 low
    hist := lastBytes (off - low) (c.hist ++ src) }

/-! ## What every parser uses -/

/-- The operands of a parse (R290, R294): `P0`, the input and `high`. -/
structure Input where
  p0 : Nat
  src : List Byte
  deriving DecidableEq, Repr

/-- `n`. -/
def Input.n (x : Input) : Nat := x.src.length

/-- `high = P0 + n - LASTLITERALS` (R204). -/
def Input.high (x : Input) : Nat := x.p0 + x.n - lastLiterals

/-- The parsers visit the index `i`: `i ≤ lastStart`, that is `i ≤ n - MFLIMIT` (R294, R301, R304,
R308). -/
def Input.eligible (x : Input) (cfg : Config) (i : Nat) : Bool := decide (i + cfg.mfLimit ≤ x.n)

/-- An input of fewer than `MFLIMIT + 1` bytes has no match (R296). At `n = MFLIMIT` the parsers still
visit index 0, and drop what they find there (DEDUCED, notes/assumptions/34.md). -/
def Input.small (x : Input) (cfg : Config) : Bool := decide (x.n < cfg.mfLimit + 1)

/-- `accept` (R295) in an input that may hold a match at all (R296). -/
def Input.accepts (x : Input) (cfg : Config) (litLen d ml lastOff : Nat) : Bool :=
  !x.small cfg && accept litLen d ml lastOff

/-- A parse with the context it leaves. -/
structure Parse where
  triples : List Triple
  cctx : Cctx
  deriving DecidableEq, Repr

/-- A parse that begins with one more triple. -/
def Parse.push (t : Triple) (r : Parse) : Parse := { r with triples := t :: r.triples }

/-! ## The committed match (R211) -/

/-- The match a parser commits, which can be pulled backward by `b` bytes: `backAdjust = b`, offset and
length as found (R211, notes/assumptions/40.md). -/
def Match.commit (m : Match) (b : Nat) : Match := { m with backAdjust := BitVec.ofNat 32 b }

/-- The triple of a committed match that was found at index `i`: it starts `backAdjust` bytes before `i`
and is so much longer (R211, R301, R304). -/
def Match.triple (m : Match) (i : Nat) : Triple :=
  ⟨i - m.backAdjust.toNat, m.offset.toNat, m.length.toNat + m.backAdjust.toNat⟩

/-! ## `fast` (R301) -/

/-- The probe's verification: the bucket names a usable position whose 4 bytes match. -/
def probeHit (x : Input) (c : Cctx) (p q : Nat) : Bool :=
  usable c p q && countFrom c x.src p q 4 == 4

/-- The match a verified probe at index `i` leads to: extended forward and backward. -/
def probeMatch (x : Input) (c : Cctx) (i anchor q : Nat) : Match :=
  let p := x.p0 + i
  (Match.of (p - q) (count c x.src p q x.high)).commit
    (backAdjust c x.src p (p - q) (x.p0 + anchor))

/-- The loop of `PARSE_fast` (R301). -/
def fastLoop (cfg : Config) (x : Input) : Nat → Nat → Nat → Nat → Nat → Cctx → Parse
  | 0, _, _, _, _, c => ⟨[], c⟩
  | fuel + 1, i, anchor, misses, last, c =>
    if !x.eligible cfg i then ⟨[], c⟩
    else
      let p := x.p0 + i
      let h := hash4 cfg c x.src p
      let q := (c.hashTable.read h).toNat
      let c1 := { c with hashTable := c.hashTable.write h (u32 p) }
      let t := (probeMatch x c1 i anchor q).triple i
      if probeHit x c1 p q && x.accepts cfg (t.start - anchor) t.d t.ml last then
        (fastLoop cfg x fuel (t.start + t.ml) (t.start + t.ml) 0 t.d c1).push t
      else
        fastLoop cfg x fuel (i + (1 + misses >>> cfg.skipStrength)) anchor (misses + 1) last c1

/-- `PARSE_fast(P0, n)` (R301). -/
def parseFast (cfg : Config) (x : Input) (c : Cctx) : Parse :=
  let r := fastLoop cfg x (x.n + 1) 0 0 0 0 c
  { r with cctx := { r.cctx with nextInsert := u32 (x.p0 + x.n) } }

/-! ## `price_fast` and `lowest_price` (R302 to R304) -/

/-- `bestAcc(i)` (R304). -/
def bestAcc (cfg : Config) (x : Input) (i anchor last : Nat) (c : Cctx) : Option Match × Cctx :=
  let r := mfFindBest cfg x.src (x.p0 + i) x.high c
  (r.1.filter (fun m => x.accepts cfg (i - anchor) m.offset.toNat m.length.toNat last), r.2)

/-- The lookahead of R304 from `(j, m)`, at most `k` steps. -/
def lookahead (cfg : Config) (x : Input) (anchor last : Nat) :
    Nat → Nat → Match → Cctx → Nat × Match × Cctx
  | 0, j, m, c => (j, m, c)
  | k + 1, j, m, c =>
    if !x.eligible cfg (j + 1) then (j, m, c)
    else
      match bestAcc cfg x (j + 1) anchor last c with
      | (some m2, c1) =>
        if savings m.offset.toNat m.length.toNat last <
            savings m2.offset.toNat m2.length.toNat last then
          lookahead cfg x anchor last k (j + 1) m2 c1
        else (j, m, c1)
      | (none, c1) => (j, m, c1)

/-- The loop of `PARSE_lookahead` (R304); the match it commits has `backAdjust = b` (R211). -/
def lookaheadLoop (cfg : Config) (x : Input) (depth : Nat) :
    Nat → Nat → Nat → Nat → Cctx → Parse
  | 0, _, _, _, c => ⟨[], c⟩
  | fuel + 1, i, anchor, last, c =>
    if !x.eligible cfg i then ⟨[], c⟩
    else
      match bestAcc cfg x i anchor last c with
      | (none, c1) => lookaheadLoop cfg x depth fuel (i + 1) anchor last c1
      | (some m0, c1) =>
        let r := lookahead cfg x anchor last depth i m0 c1
        let b := backAdjust r.2.2 x.src (x.p0 + r.1) r.2.1.offset.toNat (x.p0 + anchor)
        let t := (r.2.1.commit b).triple r.1
        if x.accepts cfg (t.start - anchor) t.d t.ml last then
          (lookaheadLoop cfg x depth fuel (t.start + t.ml) (t.start + t.ml) t.d r.2.2).push t
        else lookaheadLoop cfg x depth fuel (r.1 + 1) anchor last r.2.2

/-- `PARSE_lookahead(P0, n, depth)` (R304). -/
def parseLookahead (cfg : Config) (x : Input) (depth : Nat) (c : Cctx) : Parse :=
  lookaheadLoop cfg x depth (x.n + 1) 0 0 0 c

/-! ## `optimal_price` and `optimal_price_bt` (R305 to R309) -/

/-- A node of the optimal parser (R305); `prev` of node 0 is not read. -/
structure Node where
  price : Nat
  litlen : Nat
  prev : Nat
  off : Nat
  ml : Nat
  rep : Nat
  deriving DecidableEq, Repr

/-- The nodes defined so far and `emax`. -/
structure Nodes where
  opt : List (Nat × Node)
  emax : Nat
  deriving DecidableEq, Repr

/-- `relax(t, v)` (R306). -/
def relax (t : Nat) (v : Node) (w : Nodes) : Nodes :=
  let better := match sparseGet t w.opt with
    | none => true
    | some old => decide (v.price < old.price)
  { opt := if better then sparseSet t v w.opt else w.opt
    emax := max w.emax t }

/-- Try the lengths `ml`, `ml + 1`, … of one candidate from node `k`: `count` of them (R306). -/
def relaxLengths (k : Nat) (node : Node) (d : Nat) : Nat → Nat → Nodes → Nodes
  | 0, _, w => w
  | cnt + 1, ml, w =>
    let w1 :=
      if accept node.litlen d ml node.rep then
        let cls := encodeClass d node.rep
        relax (k + ml)
          ⟨node.price + litExt node.litlen (litBits cls) + matchCost cls ml, 0, k, d, ml, d⟩ w
      else w
    relaxLengths k node d cnt (ml + 1) w1

/-- A candidate: distance, greatest length, least length to try. -/
structure Cand where
  d : Nat
  len : Nat
  lo : Nat
  deriving DecidableEq, Repr

/-- The candidates of a `findAll` list: each starts above the length before it (R306). -/
def candsOf : Nat → List Match → List Cand
  | _, [] => []
  | prevLen, m :: t =>
    ⟨m.offset.toNat, m.length.toNat, prevLen + 1⟩ :: candsOf m.length.toNat t

/-- The repeat candidate at `p` (R306). -/
def repCand (x : Input) (c : Cctx) (p rep : Nat) : List Cand :=
  if 1 ≤ rep ∧ lowEff c p + rep ≤ p then
    let lr := count c x.src p (p - rep) x.high
    if minMatch ≤ lr then [⟨rep, lr, minMatch⟩] else []
  else []

/-- Relax from node `k` along every candidate (R306). -/
def relaxCands (k : Nat) (node : Node) : List Cand → Nodes → Nodes
  | [], w => w
  | cd :: t, w =>
    relaxCands k node t (relaxLengths k node cd.d (cd.len + 1 - cd.lo) cd.lo w)

/-- `FINDALL(p, high, MINMATCH)` of a strategy (R306, R309). -/
def findAll (cfg : Config) (x : Input) (bt : Bool) (p : Nat) (c : Cctx) : List Match × Cctx :=
  if bt then btFindAll cfg x.src x.high p x.high minMatch c
  else mfFindAll cfg x.src p x.high minMatch c

/-- `SUFFICIENT_LEN` stops the window (R307). -/
def sufficient (c : Cctx) (cands : List Cand) : Bool :=
  decide (c.row.sufficientLen ≠ 0) && cands.any (fun cd => decide (c.row.sufficientLen ≤ cd.len))

/-- Process nodes `k`, `k + 1`, … of the window at `i`: `cnt` of them at most (R306, R307); no candidate
is tried in a small input (R296). -/
def windowLoop (cfg : Config) (x : Input) (bt : Bool) (i : Nat) :
    Nat → Nat → Nodes → Cctx → Nodes × Cctx
  | 0, _, w, c => (w, c)
  | cnt + 1, k, w, c =>
    match sparseGet k w.opt with
    | none => (w, c)
    | some node =>
      let w1 := relax (k + 1) ⟨node.price + 1, node.litlen + 1, k, 0, 1, node.rep⟩ w
      let p := x.p0 + i + k
      let rep := repCand x c p node.rep
      let r := findAll cfg x bt p c
      let cands := if x.small cfg then [] else rep ++ candsOf (minMatch - 1) r.1
      let w2 := relaxCands k node cands w1
      if sufficient r.2 cands then (w2, r.2) else windowLoop cfg x bt i cnt (k + 1) w2 r.2

/-- The triples on the path that ends at node `e`, last one first (R308). -/
def backtrace (i : Nat) (w : Nodes) : Nat → Nat → List Triple
  | 0, _ => []
  | fuel + 1, e =>
    if e = 0 then []
    else
      match sparseGet e w.opt with
      | none => []
      | some v =>
        if v.off = 0 then backtrace i w fuel v.prev
        else ⟨i + v.prev, v.off, v.ml⟩ :: backtrace i w fuel v.prev

/-- `anchor` and `last` after a window's triples (R308). -/
def afterTriples : List Triple → Nat × Nat → Nat × Nat
  | [], a => a
  | t :: ts, _ => afterTriples ts (t.start + t.ml, t.d)

/-- The loop over windows (R305 to R308). -/
def optimalLoop (cfg : Config) (x : Input) (bt : Bool) : Nat → Nat → Nat → Nat → Cctx → Parse
  | 0, _, _, _, c => ⟨[], c⟩
  | fuel + 1, i, anchor, last, c =>
    if !x.eligible cfg i then ⟨[], c⟩
    else
      let k := min optNum (x.n - cfg.mfLimit - i + 1)
      let r := windowLoop cfg x bt i k 0 ⟨[(0, ⟨0, i - anchor, 0, 0, 0, last⟩)], 0⟩ c
      let ts := (backtrace i r.1 r.1.emax r.1.emax).reverse
      let al := afterTriples ts (anchor, last)
      let rest := optimalLoop cfg x bt fuel (i + r.1.emax) al.1 al.2 r.2
      { rest with triples := ts ++ rest.triples }

/-- The optimal parser (R305 to R309). -/
def parseOptimal (cfg : Config) (x : Input) (bt : Bool) (c : Cctx) : Parse :=
  optimalLoop cfg x bt (x.n + 1) 0 0 0 c

/-! ## `ENCODE` (R290) -/

/-- `PARSE[STRATEGY]` (R298). -/
def parseWith (cfg : Config) (strategy : Strategy) (x : Input) (c : Cctx) : Parse :=
  match strategy with
  | .fast => parseFast cfg x c
  | .priceFast => parseLookahead cfg x 1 c
  | .lowestPrice => parseLookahead cfg x cfg.lpDepth c
  | .optimalPrice => parseOptimal cfg x false c
  | .optimalPriceBt => parseOptimal cfg x true c

/-- The context `ENCODE` parses with: renormalized if needed, with `nextInsert` and `last_off` set
(R290, R297). -/
def encodeStart (cfg : Config) (n : Nat) (c : Cctx) : Cctx :=
  let c1 := if cfg.renormLimit < c.currentOffset.toNat + n then renormalize c else c
  { c1 with nextInsert := u32 (max c1.nextInsert.toNat c1.lowLimit.toNat), lastOff := 0#32 }

/-- A block and the context after it. -/
structure Encoded where
  bytes : List Byte
  cctx : Cctx
  deriving DecidableEq, Repr

/-- `ENCODE(src, n)` (R290). -/
def encodeBlock (cfg : Config) (src : List Byte) (c : Cctx) : Encoded :=
  let c1 := encodeStart cfg src.length c
  let r := parseWith cfg c1.row.strategy ⟨c1.currentOffset.toNat, src⟩ c1
  let out := pack src r.triples
  ⟨out.1, historyUpdate src { r.cctx with lastOff := u32 out.2 }⟩

/-- `compressBound(n)` (R292). -/
def compressBound (n : Nat) : Nat := n + n / 128 + 16

/-! ## Commands -/

/-- What BLK_COMPRESS and BLK_COMPRESS_CONTINUE share; `prep` is what happens to the context before
`ENCODE` (R312, R425). -/
def compressCommand (prep : Cctx → Cctx) (h : BitVec 16) (fl : Byte)
    (srcAddr srcLen dstAddr dstCap : U64) (s : State) : Answer :=
  withCctx h fl 0x01#8 s fun c =>
    let src := buffer srcAddr srcLen
    let dst := buffer dstAddr dstCap
    if s.cfg.maxInputSize < src.len then raise .inputTooLarge s
    else if !limitedFlag fl && decide (dst.len < compressBound src.len) then
      raise .outputTooSmall s
    else
      withBuffers s.cfg [src] dst <|
        let r := encodeBlock s.cfg (s.readBuffer src) (prep c)
        let s1 := s.setCctx h.toNat r.cctx
        if limitedFlag fl && decide (dst.len < r.bytes.length) then
          raise .outputTooSmall (s1.anyValue dst.addr dst.len)
        else done (BitVec.ofNat 64 r.bytes.length) (s1.memWrite dst.addr r.bytes)

/-- BLK_COMPRESS (R312). -/
def execBlkCompress (h : BitVec 16) (fl : Byte) (srcAddr srcLen dstAddr dstCap : U64)
    (s : State) : Answer :=
  compressCommand Cctx.clear h fl srcAddr srcLen dstAddr dstCap s

/-- BLK_COMPRESS_CONTINUE (R425). -/
def execBlkCompressContinue (h : BitVec 16) (fl : Byte) (srcAddr srcLen dstAddr dstCap : U64)
    (s : State) : Answer :=
  compressCommand (fun c => c) h fl srcAddr srcLen dstAddr dstCap s

/-- COMPRESS_BOUND (R313); its handle field is not read (notes/assumptions/17.md). -/
def execCompressBound (_h : BitVec 16) (fl : Byte) (n : U64) (s : State) : Answer :=
  command s <|
    if !flagsWithin fl 0#8 then raise .reservedFlagSet s
    else if s.cfg.maxInputSize < n.toNat then raise .inputTooLarge s
    else done (BitVec.ofNat 64 (compressBound n.toNat)) s

/-- RENORM as an instruction (R424). -/
def execRenorm (s : State) : Answer :=
  withSelected s fun c => .next (s.setSelected s.enc.sel (renormalize c))

end Sys2Proof.Machine
end

