-- ==== Sys2Proof/Machine/Xxh32.lean ====
section
/-! DEFINITION. The external primitive XXH32 (spec/00_scope.md R17 to R20). -/

namespace Sys2Proof.Machine

/-- The five constants of R18. -/
def xxhP1 : U32 := 0x9E3779B1#32
/-- R18. -/
def xxhP2 : U32 := 0x85EBCA77#32
/-- R18. -/
def xxhP3 : U32 := 0xC2B2AE3D#32
/-- R18. -/
def xxhP4 : U32 := 0x27D4EB2F#32
/-- R18. -/
def xxhP5 : U32 := 0x165667B1#32

/-- `rotl(x, r)` for `0 < r < 32` (R18). -/
def rotl (x : U32) (r : Nat) : U32 := (x <<< r) ||| (x >>> (32 - r))

/-- One lane's step: `rotl(v + w·P2, 13)·P1`. -/
def xxhRound (v w : U32) : U32 := rotl (v + w * xxhP2) 13 * xxhP1

/-- The four lanes. -/
structure XxhLanes where
  v1 : U32
  v2 : U32
  v3 : U32
  v4 : U32
  deriving DecidableEq, Repr

/-- Take `k` stripes of 16 bytes. -/
def xxhStripes : Nat → List Byte → XxhLanes → XxhLanes
  | 0, _, v => v
  | k + 1, s, v =>
    xxhStripes k (s.drop 16)
      ⟨xxhRound v.v1 (le32At s 0), xxhRound v.v2 (le32At s 4),
       xxhRound v.v3 (le32At s 8), xxhRound v.v4 (le32At s 12)⟩

/-- Take `k` words of 4 bytes. -/
def xxhWords : Nat → List Byte → U32 → U32
  | 0, _, h => h
  | k + 1, s, h => xxhWords k (s.drop 4) (rotl (h + le32At s 0 * xxhP3) 17 * xxhP4)

/-- Take the single bytes at the end. -/
def xxhBytes : List Byte → U32 → U32
  | [], h => h
  | b :: t, h => xxhBytes t (rotl (h + b.setWidth 32 * xxhP5) 11 * xxhP1)

/-- The final mixing. -/
def xxhFinish (h : U32) : U32 :=
  let a := (h ^^^ (h >>> 15)) * xxhP2
  let b := (a ^^^ (a >>> 13)) * xxhP3
  b ^^^ (b >>> 16)

/-- `XXH32(s, seed)` (R18). -/
def xxh32 (s : List Byte) (seed : U32) : U32 :=
  let n := s.length
  let h0 :=
    if 16 ≤ n then
      let v := xxhStripes (n / 16) s ⟨seed + xxhP1 + xxhP2, seed + xxhP2, seed, seed - xxhP1⟩
      rotl v.v1 1 + rotl v.v2 7 + rotl v.v3 12 + rotl v.v4 18
    else seed + xxhP5
  let tail := s.drop (16 * (n / 16))
  let h1 := xxhWords (tail.length / 4) tail (h0 + BitVec.ofNat 32 n)
  xxhFinish (xxhBytes (tail.drop (4 * (tail.length / 4))) h1)

/-- The header checksum byte of a descriptor (R160). -/
def headerChecksum (cfg : Config) (desc : List Byte) : Byte :=
  ((xxh32 desc cfg.xxhSeed) >>> cfg.hcShift).setWidth 8

end Sys2Proof.Machine
end

