-- ==== Sys2Proof/Machine/FrameDecoder.lean ====
section
/-! DEFINITION. The frame decoder: its stage machine, FD_RESET, FD_DECODE and the frame records
(spec/46_frame_decoder.md R500 to R530). -/

namespace Sys2Proof.Machine

/-! ## What one call works on (R504) -/

/-- The bytes of `src` not consumed yet, `ip`, `room`, and the bytes produced. -/
structure FdIo where
  src : List Byte
  ip : Nat
  room : Nat
  out : List Byte
  deriving DecidableEq, Repr

/-- `avail`. -/
def FdIo.avail (io : FdIo) : Nat := io.src.length

/-- Consume `t` bytes. -/
def FdIo.consume (io : FdIo) (t : Nat) : FdIo := { io with src := io.src.drop t, ip := io.ip + t }

/-- Produce bytes. -/
def FdIo.produce (io : FdIo) (bs : List Byte) : FdIo :=
  { io with room := io.room - bs.length, out := io.out ++ bs }

/-- How a stage's rule ends: on to another stage, a return with a hint, or a failure (R504). -/
inductive StageEnd
  | go (f : Fd) (io : FdIo)
  | hint (n : Nat) (f : Fd) (io : FdIo)
  | fail (e : Err) (f : Fd) (io : FdIo)
  /-- Not reached: the block decoder past its bound, or the ERROR stage, which runs no rule. -/
  | stuck
  deriving DecidableEq, Repr

/-! ## Parts of the rules -/

/-- Move to a stage. -/
def Fd.goto (f : Fd) (d : DStage) : Fd := { f with dStage := d }

/-- Start collecting a field of `n` bytes in stage `d`. -/
def Fd.collect (f : Fd) (d : DStage) (n : Nat) : Fd :=
  { f with dStage := d, tmpIn := [], tmpInTarget := n }

/-- How many bytes a field of `target` bytes takes now: `min(avail, target - |tmpIn|)`. -/
def Fd.takes (f : Fd) (io : FdIo) (target : Nat) : Nat := min io.avail (target - f.tmpIn.length)

/-- The decoder after taking what a field of `target` bytes takes. -/
def Fd.taken (f : Fd) (io : FdIo) (target : Nat) : Fd :=
  { f with tmpIn := f.tmpIn ++ io.src.take (f.takes io target) }

/-- A store stage: take bytes up to `target`; complete, go on with `k`; otherwise return with the
hint `missing + extra` (R509, R511, R515, R518). -/
def storeField (f : Fd) (io : FdIo) (target extra : Nat) (k : Fd → FdIo → StageEnd) : StageEnd :=
  let f1 := f.taken io target
  let io1 := io.consume (f.takes io target)
  if f1.tmpIn.length < target then .hint (target - f1.tmpIn.length + extra) f1 io1
  else k f1 io1

/-- The error a header descriptor has, its checks in R508's order; `h` is the whole header. -/
def headerError (cfg : Config) (h : List Byte) : Option Err :=
  let flg := h.getD 4 0#8
  let bd := h.getD 5 0#8
  let fin := if flgContentSize flg then 14 else 6
  if flgVersion flg ≠ 1#2 then some .unknownFrameType
  else if flgBlockChecksum flg then some .protocolViolation
  else if flgReserved flg ≠ 0#2 ∨ bdReservedZero bd = false then some .reservedFlagSet
  else if bdBlockSizeId bd = 0#3 then some .reservedFlagSet
  else if h.getD fin 0#8 ≠ headerChecksum cfg ((h.drop 4).take (fin - 4)) then
    some .headerChecksumInvalid
  else none

/-- `frameInfo` of a valid header (R508). -/
def headerInfo (h : List Byte) : FrameInfo :=
  let flg := h.getD 4 0#8
  let id := bdBlockSizeId (h.getD 5 0#8)
  { blockMode := flgBlockMode flg
    blockSizeId := id
    maxBlockSize := blockSize id
    contentChecksumFlag := flgContentChecksum flg
    contentSizeFlag := flgContentSize flg
    contentSize := if flgContentSize flg then BitVec.ofNat 64 (leNat ((h.drop 6).take 8)) else 0#64 }

/-- The declared size is checked (R519). -/
def Fd.sizeDeclared (f : Fd) : Bool :=
  f.frameInfo.contentSizeFlag && f.frameInfo.contentSize != 0#64

/-- `ACCOUNT(blk)` (R520): the decoder after it, and whether it succeeded. The sum is compared with the
declared size over the naturals, so that passing 2^64 passes the size too (R519, R12). -/
def Fd.account (f : Fd) (blk : List Byte) : Bool × Fd :=
  let f1 : Fd := { f with total := f.total + BitVec.ofNat 64 blk.length }
  if f.sizeDeclared && decide (f.frameInfo.contentSize.toNat < f.total.toNat + blk.length) then
    (false, f1)
  else
    (true, { f1 with
      content := f1.content ++ blk
      hist := if f1.frameInfo.blockMode then f1.hist else lastBytes windowSize (f1.hist ++ blk) })

/-! ## The stages -/

/-- `VALIDATE_HEADER` and what follows it (R508). -/
def validateHeader (cfg : Config) (f : Fd) (io : FdIo) : StageEnd :=
  match headerError cfg f.tmpIn with
  | some e => .fail e f io
  | none =>
    .go { f with
      dStage := .getCBlockSize
      frameInfo := headerInfo f.tmpIn
      total := 0#64
      content := []
      hist := [] } io

/-- `getHeader` (R505). -/
def fdGetHeader (f : Fd) (io : FdIo) : StageEnd :=
  if io.avail = 0 then .hint 7 f io else .go (f.collect .storeHeader 7) io

/-- One turn of `storeHeader`'s loop (R506, R507). -/
def fdStoreHeader (cfg : Config) (f : Fd) (io : FdIo) : StageEnd :=
  let f1 := f.taken io f.tmpInTarget
  let io1 := io.consume (f.takes io f.tmpInTarget)
  let n := f1.tmpIn.length
  let m := le32At f1.tmpIn 0
  let first := decide (4 ≤ n) && f.tmpInTarget == 7
  if first && isSkippable cfg m then
    .go { f1 with dStage := .storeSFrameSize, tmpInTarget := 8 } io1
  else if first && m != cfg.magic then .fail .unknownFrameType f1 io1
  else
    let long := decide (5 ≤ n) && f.tmpInTarget == 7 && flgContentSize (f1.tmpIn.getD 4 0#8)
    let f2 : Fd := { f1 with tmpInTarget := if long then 15 else f.tmpInTarget }
    if f2.tmpInTarget ≤ n then validateHeader cfg f2 io1
    else if io1.avail = 0 then .hint (f2.tmpInTarget - n + 4) f2 io1
    else .go f2 io1

/-- `storeSFrameSize` (R509). -/
def fdStoreSFrameSize (f : Fd) (io : FdIo) : StageEnd :=
  storeField f io 8 0 fun f1 io1 =>
    .go { f1 with dStage := .skipSkippable, remaining := (le32At f1.tmpIn 4).toNat } io1

/-- `skipSkippable` (R510): the payload is consumed whatever the room; R717's remark that a call with
`dstCap = 0` makes progress on header, size and checksum bytes only is not followed here
(DEDUCED, notes/assumptions/37.md). -/
def fdSkip (f : Fd) (io : FdIo) : StageEnd :=
  let t := min io.avail f.remaining
  let f1 : Fd := { f with remaining := f.remaining - t }
  if 0 < f1.remaining then .hint f1.remaining f1 (io.consume t)
  else .hint 0 (f1.goto .getHeader) (io.consume t)

/-- The end mark (R512). -/
def fdEndMark (f : Fd) (io : FdIo) : StageEnd :=
  if f.sizeDeclared && f.total != f.frameInfo.contentSize then .fail .frameSizeMismatch f io
  else if f.frameInfo.contentChecksumFlag then .go (f.goto .getSuffix) io
  else .hint 0 (f.goto .getHeader) io

/-- Block word dispatch (R512, R513). -/
def fdBlockWord (w : U32) (f : Fd) (io : FdIo) : StageEnd :=
  let size := (w.extractLsb' 0 31).toNat
  if w = 0#32 then fdEndMark f io
  else if size = 0 ∨ f.frameInfo.maxBlockSize < size then .fail .malformedStream f io
  else if w.getLsbD 31 then .go { f with dStage := .copyDirect, remaining := size } io
  else .go { f.collect .getCBlock size with cBlockSize := size } io

/-- `storeCBlockSize` (R511, R512). -/
def fdStoreCBlockSize (f : Fd) (io : FdIo) : StageEnd :=
  storeField f io 4 0 fun f1 io1 => fdBlockWord (le32At f1.tmpIn 0) f1 io1

/-- `copyDirect` (R514). -/
def fdCopyDirect (f : Fd) (io : FdIo) : StageEnd :=
  let t := min (min io.avail io.room) f.remaining
  let chunk := io.src.take t
  let a := f.account chunk
  if !a.1 then .fail .frameSizeMismatch a.2 (io.consume t)
  else
    let f1 : Fd := { a.2 with remaining := f.remaining - t }
    let io1 := (io.consume t).produce chunk
    if 0 < f1.remaining then .hint (f1.remaining + 4) f1 io1
    else .go (f1.goto .getCBlockSize) io1

/-- `storeCBlock` (R515): the block's bytes are consumed whatever the room; R717's remark that a call
with `dstCap = 0` makes progress on header, size and checksum bytes only is not followed here
(DEDUCED, notes/assumptions/37.md). -/
def fdStoreCBlock (f : Fd) (io : FdIo) : StageEnd :=
  storeField f io f.cBlockSize 4 fun f1 io1 => .go (f1.goto .decodeCBlock) io1

/-- `decodeCBlock` (R515): the decoded block waits in `tmpOut` (notes/assumptions/25.md), and the
choice of R516 depends on `room` only. -/
def fdDecodeCBlock (f : Fd) (io : FdIo) : StageEnd :=
  let dict := if f.frameInfo.blockMode then [] else f.hist
  let b := decodeBlock f.tmpIn f.frameInfo.maxBlockSize dict false false 0
  match b.phase with
  | .failed _ => .fail .malformedStream f io
  | .running => .stuck
  | .ended =>
    .go { f with
      tmpOut := b.out
      dStage := if f.frameInfo.maxBlockSize ≤ io.room then .decodeCBlockIntoDst
        else .decodeCBlockIntoTmp } io

/-- `decodeCBlock_intoDst` (R516). -/
def fdIntoDst (f : Fd) (io : FdIo) : StageEnd :=
  let a := f.account f.tmpOut
  let f1 : Fd := { a.2 with tmpOut := [] }
  if !a.1 then .fail .frameSizeMismatch f1 io
  else .go (f1.goto .getCBlockSize) (io.produce f.tmpOut)

/-- `decodeCBlock_intoTmp` (R516). -/
def fdIntoTmp (f : Fd) (io : FdIo) : StageEnd :=
  let a := f.account f.tmpOut
  if !a.1 then .fail .frameSizeMismatch { a.2 with tmpOut := [] } io
  else .go (a.2.goto .flushOut) io

/-- `flushOut` (R517). -/
def fdFlushOut (f : Fd) (io : FdIo) : StageEnd :=
  let t := min io.room f.tmpOut.length
  let f1 : Fd := { f with tmpOut := f.tmpOut.drop t }
  let io1 := io.produce (f.tmpOut.take t)
  if f1.tmpOut.isEmpty then .go (f1.goto .getCBlockSize) io1 else .hint 4 f1 io1

/-- `storeSuffix` (R518). -/
def fdStoreSuffix (cfg : Config) (f : Fd) (io : FdIo) : StageEnd :=
  storeField f io 4 0 fun f1 io1 =>
    if le32At f1.tmpIn 0 ≠ xxh32 f1.content cfg.xxhSeed then .fail .contentChecksumInvalid f1 io1
    else .hint 0 (f1.goto .getHeader) io1

/-- The rule of the current stage (R505 to R518). -/
def fdStage (cfg : Config) (f : Fd) (io : FdIo) : StageEnd :=
  match f.dStage with
  | .getHeader => fdGetHeader f io
  | .storeHeader => fdStoreHeader cfg f io
  | .getCBlockSize => .go (f.collect .storeCBlockSize 4) io
  | .storeCBlockSize => fdStoreCBlockSize f io
  | .copyDirect => fdCopyDirect f io
  | .getCBlock => .go (f.collect .storeCBlock f.cBlockSize) io
  | .storeCBlock => fdStoreCBlock f io
  | .decodeCBlock => fdDecodeCBlock f io
  | .decodeCBlockIntoDst => fdIntoDst f io
  | .decodeCBlockIntoTmp => fdIntoTmp f io
  | .flushOut => fdFlushOut f io
  | .getSuffix => .go (f.collect .storeSuffix 4) io
  | .storeSuffix => fdStoreSuffix cfg f io
  | .getSFrameSize => .go (f.goto .storeSFrameSize) io
  | .storeSFrameSize => fdStoreSFrameSize f io
  | .skipSkippable => fdSkip f io
  | .error => .stuck

/-- Run stages until one returns or fails, at most `k` of them. -/
def fdLoop (cfg : Config) : Nat → Fd → FdIo → StageEnd
  | 0, _, _ => .stuck
  | k + 1, f, io =>
    match fdStage cfg f io with
    | .go f1 io1 => fdLoop cfg k f1 io1
    | r => r

/-! ## One call -/

/-- What a call leaves: the decoder, the bytes consumed and produced, `STATUS` and `RES2`. -/
structure FdResult where
  fd : Fd
  consumed : Nat
  out : List Byte
  status : Byte
  hint : Nat
  deriving DecidableEq, Repr

/-- The offset `n` bytes after a cursor (R76, R502), without wrapping (R79, notes/assumptions/24.md). -/
def Cursor.advance (c : Cursor) (n : Nat) : Cursor :=
  match c with
  | .anywhere => .anywhere
  | .offset pos =>
    if pos.toNat + n < 2 ^ 64 then .offset (BitVec.ofNat 64 (pos.toNat + n)) else .pastEnd
  | .pastEnd => .pastEnd

/-- `LATCH(e)` of a call at the cursor `at0` (R522). -/
def fdLatch (at0 : Cursor) (e : Err) (f : Fd) (io : FdIo) : FdResult where
  fd := { f with
    err := e.code
    dStage := .error
    srcExpect := at0.advance io.ip }
  consumed := io.ip
  out := io.out
  status := e.code
  hint := 0

/-- A return with a hint, of a call at the cursor `at0` (R504). -/
def fdReturn (at0 : Cursor) (hint : Nat) (f : Fd) (io : FdIo) : FdResult where
  fd := { f with srcExpect := at0.advance io.ip }
  consumed := io.ip
  out := io.out
  status := statusOk
  hint := hint

/-- Enough stage steps for a call with `n` input bytes (R731, notes/assumptions/27.md). -/
def fdBound (n : Nat) : Nat := 16 * (n + 1)

/-- Run the stage machine of one call at the cursor `at0` (R504); none where it uses up its bound. -/
def fdRun (cfg : Config) (f : Fd) (at0 : Cursor) (src : List Byte) (dstCap : Nat) :
    Option FdResult :=
  match fdLoop cfg (fdBound src.length) f ⟨src, 0, dstCap, []⟩ with
  | .hint n f1 io => some (fdReturn at0 n f1 io)
  | .fail e f1 io => some (fdLatch at0 e f1 io)
  | .go _ _ => none
  | .stuck => none

/-- The cursor is not where the last call left it (R502). -/
def Fd.wrongCursor (f : Fd) (srcPos : U64) : Bool :=
  match f.srcExpect with
  | .anywhere => false
  | .offset e => e != srcPos
  | .pastEnd => true

/-- The result registers of a call that reached the stage machine (R501, R522). -/
def State.reportFd (s : State) (r : FdResult) : State :=
  s.report r.status (BitVec.ofNat 64 r.consumed) (BitVec.ofNat 64 r.out.length)
    (BitVec.ofNat 64 r.hint)

/-! ## Commands -/

/-- FD_RESET (R500). -/
def execFdReset (h : BitVec 16) (fl : Byte) (s : State) : Answer :=
  withFd h fl s fun _ => done 0#64 (s.setFd h.toNat Fd.powerOn)

/-- FD_DECODE (R501 to R504, R522, R528). The bytes of `dst` after those produced hold any value; a
call that does not reach the stage machine writes none (notes/assumptions/23.md). -/
def execFdDecode (h : BitVec 16) (fl : Byte) (srcPos srcAddr srcLen dstAddr dstCap : U64)
    (s : State) : Answer :=
  withFd h fl s fun f =>
    let src := buffer srcAddr srcLen
    let dst := buffer dstAddr dstCap
    if f.dStage = .error then raiseLatched f.err s
    else if f.wrongCursor srcPos then
      let r := fdLatch (.offset srcPos) .protocolViolation f ⟨[], 0, dst.len, []⟩
      .next ((s.setFd h.toNat r.fd).reportFd r)
    else
      withBuffers s.cfg [src] dst <|
        match fdRun s.cfg f (.offset srcPos) (s.readBuffer src) dst.len with
        | none => .fault .stageBound
        | some r =>
          .next ((((s.setFd h.toNat r.fd).memWrite dst.addr r.out).anyValue
            (dst.addr + r.out.length) (dst.len - r.out.length)).reportFd r)

/-! ## Frame records as instructions (R155 to R164, notes/assumptions/14.md)

A record is executed as an FD_DECODE call whose input is the record's bytes, on the decoder the
record stream selects, at its cursor, with the stream's output room. -/

/-- The record stream after a call. -/
def Rec.advance (r : Rec) (d : FdResult) : Rec :=
  { r with ip := r.ip + d.consumed, room := r.room - d.out.length, out := r.out ++ d.out }

/-- Where a record executed as an instruction stands: at the decoder's cursor. Where that is NONE the
spec accepts any `srcPos` and gives none for a record (R76, R79, R502). DESIGN CHOICE: the record
stands at offset 0. Past the last u64 offset, which R79 does not speak of, a record brings no `srcPos`
that could be wrong. DESIGN CHOICE: it runs and the cursor stays there, where an FD_DECODE would raise
ProtocolViolation (notes/assumptions/14.md, 24.md). -/
def Fd.recordCursor (f : Fd) : Cursor :=
  match f.srcExpect with
  | .anywhere => .offset 0#64
  | .offset pos => .offset pos
  | .pastEnd => .pastEnd

/-- Give bytes of the record stream to its decoder, at `recordCursor`. -/
def feedBytes (bytes : List Byte) (s : State) : Answer :=
  match s.fd[s.rcd.h]? with
  | none => .fault .noSuchContext
  | some f =>
    if f.dStage = .error then raiseLatched f.err s
    else
      match fdRun s.cfg f f.recordCursor bytes s.rcd.room with
      | none => .fault .stageBound
      | some r => .next (((s.setFd s.rcd.h r.fd).setRec (s.rcd.advance r)).reportFd r)

/-- HDR as an instruction (R155 to R160, R508). -/
def execHdr (flg bd : Byte) (csize : Option U64) (hc : Byte) (s : State) : Answer :=
  feedBytes (hdrBytes s.cfg flg bd csize hc) s

/-- SKIP as an instruction (R164, R509, R510). -/
def execSkip (low : BitVec 4) (payload : List Byte) (s : State) : Answer :=
  feedBytes (skipBytes s.cfg low payload) s

/-- ENDMARK as an instruction (R162, R512). -/
def execEndMark (s : State) : Answer := feedBytes endMarkBytes s

/-- BLK_C as an instruction (R161, R515 to R517). -/
def execBlkC (payload : List Byte) (s : State) : Answer := feedBytes (blkCBytes payload) s

/-- BLK_S as an instruction (R161, R514). -/
def execBlkS (payload : List Byte) (s : State) : Answer := feedBytes (blkSBytes payload) s

/-- CKSUM as an instruction (R163, R518). -/
def execCksum (value : U32) (s : State) : Answer := feedBytes (cksumBytes value) s

/-! ## Which record comes next (R79) -/

/-- The record the next byte belongs to, where no byte of it is held; a store stage that holds no
byte is its get stage (R504). -/
def Fd.place (f : Fd) : Option RecordPlace :=
  match f.dStage with
  | .getHeader => some .header
  | .storeHeader => if f.tmpIn.isEmpty then some .header else none
  | .getCBlockSize => some .blockWord
  | .storeCBlockSize => if f.tmpIn.isEmpty then some .blockWord else none
  | .getSuffix => some .suffix
  | .storeSuffix => if f.tmpIn.isEmpty then some .suffix else none
  | _ => none

/-- The bytes the field in progress still needs. -/
def Fd.missing (f : Fd) : Nat :=
  match f.dStage with
  | .copyDirect => f.remaining
  | .skipSkippable => f.remaining
  | .getCBlock => f.cBlockSize
  | .storeCBlock => f.cBlockSize - f.tmpIn.length
  | .storeHeader => f.tmpInTarget - f.tmpIn.length
  | .storeCBlockSize => 4 - f.tmpIn.length
  | .storeSuffix => 4 - f.tmpIn.length
  | .getSFrameSize => 8 - f.tmpIn.length
  | .storeSFrameSize => 8 - f.tmpIn.length
  | _ => 0

/-- What the record stream does next. -/
inductive RecFetch
  /-- No input is left and no output waits. -/
  | idle
  /-- A whole record stands at `ip`. -/
  | record (i : Instr)
  /-- Bytes that are no whole record: the rest of one in progress, or the part of one that is there. -/
  | bytes (bs : List Byte)
  deriving DecidableEq, Repr

/-- Fetch from the record stream. -/
def recFetch (cfg : Config) (f : Fd) (r : Rec) : RecFetch :=
  let rest := r.src.drop r.ip
  match f.place with
  | some p =>
    if rest.isEmpty then .idle
    else
      match decodeRecord cfg p rest with
      | .record i _ => .record i
      | .incomplete => .bytes rest
      | .unknownMagic => .bytes rest
  | none =>
    if rest.isEmpty && f.dStage != .flushOut then .idle
    else .bytes (rest.take f.missing)

end Sys2Proof.Machine
end

