-- ==== Sys2Proof/Machine/Streaming.lean ====
section
/-! DEFINITION. The commands over compression contexts and stream decoders that neither encode nor
decode: CTX_INIT, CTX_RESET, CTX_FREE, LOAD_DICT, SAVE_DICT, SD_RESET (spec/44_streaming_dict.md R420
to R428). -/

namespace Sys2Proof.Machine

/-! ## Context lifecycle (R421 to R423) -/

/-- The tables of a level fit `TABLE_MEM_LIMIT` (R118, R601). -/
def tablesFit (cfg : Config) (level : Nat) : Bool :=
  decide (tableMemory (levelRow cfg level) ≤ cfg.tableMemLimit)

/-- CTX_INIT (R421): R420's handle and flag checks without the allocation check. -/
def execCtxInit (h : BitVec 16) (fl : Byte) (level : U64) (s : State) : Answer :=
  command s <|
    match s.cctx[h.toNat]? with
    | none => raise .protocolViolation s
    | some c =>
      let l := clampLevel level.toNat
      if !flagsWithin fl 0#8 then raise .reservedFlagSet s
      else if !tablesFit s.cfg l then raise .allocationFailed (s.setCctx h.toNat c.discard)
      else done 0#64 (s.setCctx h.toNat (c.configure s.cfg l))

/-- CTX_RESET (R422). -/
def execCtxReset (h : BitVec 16) (fl : Byte) (level : U64) (s : State) : Answer :=
  withCctx h fl 0#8 s fun c =>
    let l := clampLevel level.toNat
    if !tablesFit s.cfg l then raise .allocationFailed s
    else done 0#64 (s.setCctx h.toNat (c.configure s.cfg l))

/-- CTX_FREE (R423). -/
def execCtxFree (h : BitVec 16) (fl : Byte) (s : State) : Answer :=
  withCctx h fl 0#8 s fun c => done 0#64 (s.setCctx h.toNat c.discard)

/-! ## Dictionaries (R426, R427) -/

/-- The insertion of `fast` in LOAD_DICT: the bucket only (R426). -/
def fastInsert (cfg : Config) (src : List Byte) (q : Nat) (c : Cctx) : Cctx :=
  { c with hashTable := c.hashTable.write (hash4 cfg c src q) (u32 q) }

/-- How a strategy inserts one position (R207, R214, R426). -/
def insertOne (cfg : Config) (strategy : Strategy) (opHigh : Nat) : Nat → Cctx → Cctx :=
  match strategy with
  | .fast => fastInsert cfg []
  | .priceFast => mfInsert cfg []
  | .lowestPrice => mfInsert cfg []
  | .optimalPrice => mfInsert cfg []
  | .optimalPriceBt => btInsert cfg [] opHigh

/-- A cleared context whose history is `d`, nothing inserted (R426). -/
def Cctx.withHistory (c : Cctx) (d : List Byte) : Cctx :=
  { c.clear with
    hist := d
    currentOffset := u32 (windowSize + d.length)
    dictLimit := u32 (windowSize + d.length) }

/-- The context after LOAD_DICT of the kept bytes `d`: every position with 4 bytes to hash is
inserted (R426). -/
def loadDict (cfg : Config) (d : List Byte) (c : Cctx) : Cctx :=
  insertUpTo (insertOne cfg c.row.strategy (windowSize + d.length))
    (windowSize + (d.length - 3)) (c.withHistory d)

/-- LOAD_DICT (R426). -/
def execLoadDict (h : BitVec 16) (fl : Byte) (dictAddr dictLen : U64) (s : State) : Answer :=
  withCctx h fl 0#8 s fun c =>
    let dict := buffer dictAddr dictLen
    withBuffers s.cfg [dict] noBuffer <|
      let d := lastBytes windowSize (s.readBuffer dict)
      done (BitVec.ofNat 64 d.length) (s.setCctx h.toNat (loadDict s.cfg d c))

/-- SAVE_DICT (R427). -/
def execSaveDict (h : BitVec 16) (fl : Byte) (dstAddr maxSize : U64) (s : State) : Answer :=
  withCctx h fl 0#8 s fun c =>
    let dst := buffer dstAddr maxSize
    withBuffers s.cfg [] dst <|
      let saved := lastBytes (min dst.len c.hist.length) c.hist
      done (BitVec.ofNat 64 saved.length) (s.memWrite dst.addr saved)

/-- SD_RESET (R428). -/
def execSdReset (h : BitVec 16) (fl : Byte) (dictAddr dictLen : U64) (s : State) : Answer :=
  withSd h fl s fun _ =>
    let dict := buffer dictAddr dictLen
    withBuffers s.cfg [dict] noBuffer <|
      done 0#64 (s.setSd h.toNat ⟨lastBytes windowSize (s.readBuffer dict)⟩)

end Sys2Proof.Machine
end

