-- ==== Sys2Proof/Machine/FrameEncoder.lean ====
section
/-! DEFINITION. The frame encoder: FE_BEGIN, FE_UPDATE, FE_FLUSH, FE_END
(spec/45_frame_encoder.md R460 to R472). -/

namespace Sys2Proof.Machine

/-! ## Header (R463) -/

/-- A one-bit field as a byte. -/
def bit (b : Bool) : Byte := if b then 1#8 else 0#8

/-- `FLG` of a header (R463). -/
def Prefs.flg (p : Prefs) : Byte :=
  0x40#8 ||| (bit p.blockMode <<< 5) ||| (bit (p.contentSize != 0#64) <<< 3) |||
    (bit p.contentChecksum <<< 2)

/-- `BD` of a header (R463). -/
def Prefs.bd (p : Prefs) : Byte := p.blockSizeId.setWidth 8 <<< 4

/-- The content size field, present when a size is declared (R159, R463). -/
def Prefs.sizeField (p : Prefs) : Option U64 :=
  if p.contentSize = 0#64 then none else some p.contentSize

/-- The descriptor bytes the header checksum covers (R160, R463). -/
def descBytes (flg bd : Byte) (csize : Option U64) : List Byte :=
  [flg, bd] ++
    (match csize with
      | some n => leBytes 8 n.toNat
      | none => [])

/-- `HEADER()` (R463). -/
def frameHeader (cfg : Config) (p : Prefs) : List Byte :=
  hdrBytes cfg p.flg p.bd p.sizeField (headerChecksum cfg (descBytes p.flg p.bd p.sizeField))

/-! ## Blocks (R464, R466, R468) -/

/-- `B = BLOCK_SIZE(prefs.BLOCK_SIZE_ID)`. -/
def Fe.blockSize (f : Fe) : Nat := Machine.blockSize f.prefs.blockSizeId

/-- Bytes written and the frame encoder after them. -/
structure Emitted where
  bytes : List Byte
  fe : Fe
  deriving DecidableEq, Repr

/-- `EMIT_BLOCK(blk)` (R466). -/
def emitBlock (cfg : Config) (blk : List Byte) (f : Fe) : Emitted :=
  let c := if f.prefs.blockMode then f.cctx.clear else f.cctx
  let r := encodeBlock cfg blk c
  { bytes := if r.bytes.length + 1 ≤ blk.length then blkCBytes r.bytes else blkSBytes blk
    fe := { f with cctx := r.cctx } }

/-- Emit the first `k` blocks of `B` bytes of `data`; what is left becomes `buf` (R464). -/
def emitBlocks (cfg : Config) (B : Nat) : Nat → List Byte → Fe → Emitted
  | 0, data, f => ⟨[], { f with buf := data }⟩
  | k + 1, data, f =>
    let e := emitBlock cfg (data.take B) f
    let r := emitBlocks cfg B k (data.drop B) e.fe
    ⟨e.bytes ++ r.bytes, r.fe⟩

/-- The flush of R468 and R469: a record of what `buf` holds, if it holds any byte. -/
def flushBlock (cfg : Config) (f : Fe) : Emitted :=
  if f.buf.isEmpty then ⟨[], f⟩
  else
    let e := emitBlock cfg f.buf f
    ⟨e.bytes, { e.fe with buf := [] }⟩

/-- The worst case of a flush: `4 + |buf|`, or 0 (R468, R469). -/
def flushRoom (f : Fe) : Nat := if f.buf.isEmpty then 0 else 4 + f.buf.length

/-- What FE_END needs (R469). -/
def endRoom (f : Fe) : Nat := flushRoom f + 4 + (if f.prefs.contentChecksum then 4 else 0)

/-- The content checksum trailer (R465, R469). -/
def trailer (cfg : Config) (f : Fe) : List Byte :=
  if f.prefs.contentChecksum then cksumBytes (xxh32 f.content cfg.xxhSeed) else []

/-! ## Commands -/

/-- The preferences FE_BEGIN latches (R460). -/
def latchPrefs (prefsWord contentSize level : U64) : Prefs where
  blockSizeId := prefsBlockSizeId prefsWord
  blockMode := prefsBlockMode prefsWord
  contentChecksum := prefsContentChecksum prefsWord
  blockChecksum := false
  contentSize := contentSize
  level := clampLevel level.toNat

/-- A frame encoder just opened (R460). -/
def Fe.opened (cfg : Config) (p : Prefs) (f : Fe) : Fe where
  stage := .active
  prefs := p
  cctx := f.cctx.configure cfg p.level
  buf := []
  content := []
  total := 0#64
  err := 0#8
  alloc := true

/-- `hsz` (R460). -/
def headerSize (contentSize : U64) : Nat := if contentSize = 0#64 then 7 else 15

/-- FE_BEGIN (R460, R461). -/
def execFeBegin (h : BitVec 16) (fl : Byte) (prefsWord contentSize level dstAddr dstCap : U64)
    (s : State) : Answer :=
  withFe h fl s fun f =>
    let dst := buffer dstAddr dstCap
    let p := latchPrefs prefsWord contentSize level
    if f.stage = .active then raise .protocolViolation s
    else if prefsReserved prefsWord ≠ 0#58 then raise .reservedFlagSet s
    else if prefsBlockChecksum prefsWord then raise .protocolViolation s
    else if dst.len < headerSize contentSize then raise .outputTooSmall s
    else if !tablesFit s.cfg p.level then raise .allocationFailed s
    else
      withBuffers s.cfg [] dst <|
        done (BitVec.ofNat 64 (headerSize contentSize))
          ((s.setFe h.toNat (f.opened s.cfg p)).memWrite dst.addr (frameHeader s.cfg p))

/-- The frame encoder that has taken `bytes` as content (R464, R465). -/
def Fe.accept (f : Fe) (bytes : List Byte) : Fe :=
  { f with
    content := f.content ++ bytes
    total := f.total + BitVec.ofNat 64 bytes.length }

/-- FE_UPDATE (R464). -/
def execFeUpdate (h : BitVec 16) (fl : Byte) (srcAddr srcLen dstAddr dstCap : U64)
    (s : State) : Answer :=
  withActiveFe h fl s fun f =>
    let src := buffer srcAddr srcLen
    let dst := buffer dstAddr dstCap
    let k := (f.buf.length + src.len) / f.blockSize
    if dst.len < k * (4 + f.blockSize) then raise .outputTooSmall s
    else
      withBuffers s.cfg [src] dst <|
        let bytes := s.readBuffer src
        let e := emitBlocks s.cfg f.blockSize k (f.buf ++ bytes) (f.accept bytes)
        done (BitVec.ofNat 64 e.bytes.length) ((s.setFe h.toNat e.fe).memWrite dst.addr e.bytes)

/-- FE_FLUSH (R468). -/
def execFeFlush (h : BitVec 16) (fl : Byte) (dstAddr dstCap : U64) (s : State) : Answer :=
  withActiveFe h fl s fun f =>
    let dst := buffer dstAddr dstCap
    if dst.len < flushRoom f then raise .outputTooSmall s
    else
      withBuffers s.cfg [] dst <|
        let e := flushBlock s.cfg f
        done (BitVec.ofNat 64 e.bytes.length) ((s.setFe h.toNat e.fe).memWrite dst.addr e.bytes)

/-- The declared size differs from the bytes given (R469). -/
def sizeMismatch (f : Fe) : Bool :=
  f.prefs.contentSize != 0#64 && f.total != f.prefs.contentSize

/-- FE_END (R469). -/
def execFeEnd (h : BitVec 16) (fl : Byte) (dstAddr dstCap : U64) (s : State) : Answer :=
  withActiveFe h fl s fun f =>
    let dst := buffer dstAddr dstCap
    if sizeMismatch f then
      raise .frameSizeMismatch
        (s.setFe h.toNat { f with stage := .error, err := Err.frameSizeMismatch.code })
    else if dst.len < endRoom f then raise .outputTooSmall s
    else
      withBuffers s.cfg [] dst <|
        let e := flushBlock s.cfg f
        let out := e.bytes ++ endMarkBytes ++ trailer s.cfg f
        done (BitVec.ofNat 64 out.length)
          ((s.setFe h.toNat { e.fe with stage := .idle }).memWrite dst.addr out)

end Sys2Proof.Machine
end

