-- ==== Sys2Proof/Machine/Dispatch.lean ====
section
/-! DEFINITION. One arm per instruction. -/

namespace Sys2Proof.Machine

def exec (i : Instr) (s : State) : Host.Outcome State Fault Refusal :=
  match i with
  | .ctxInit h fl level => Sys2Proof.Machine.execCtxInit h fl level s
  | .ctxReset h fl level => Sys2Proof.Machine.execCtxReset h fl level s
  | .ctxFree h fl => Sys2Proof.Machine.execCtxFree h fl s
  | .blkCompress h fl a b c d => Sys2Proof.Machine.execBlkCompress h fl a b c d s
  | .blkCompressContinue h fl a b c d => Sys2Proof.Machine.execBlkCompressContinue h fl a b c d s
  | .blkDecompress h fl a b c d e f g => Sys2Proof.Machine.execBlkDecompress h fl a b c d e f g s
  | .blkDecompressContinue h fl a b c d => Sys2Proof.Machine.execBlkDecompressContinue h fl a b c d s
  | .loadDict h fl a b => Sys2Proof.Machine.execLoadDict h fl a b s
  | .saveDict h fl a b => Sys2Proof.Machine.execSaveDict h fl a b s
  | .compressBound h fl n => Sys2Proof.Machine.execCompressBound h fl n s
  | .sdReset h fl a b => Sys2Proof.Machine.execSdReset h fl a b s
  | .feBegin h fl a b c d e => Sys2Proof.Machine.execFeBegin h fl a b c d e s
  | .feUpdate h fl a b c d => Sys2Proof.Machine.execFeUpdate h fl a b c d s
  | .feFlush h fl a b => Sys2Proof.Machine.execFeFlush h fl a b s
  | .feEnd h fl a b => Sys2Proof.Machine.execFeEnd h fl a b s
  | .fdReset h fl => Sys2Proof.Machine.execFdReset h fl s
  | .fdDecode h fl a b c d e => Sys2Proof.Machine.execFdDecode h fl a b c d e s
  | .mfInsert p => Sys2Proof.Machine.execMfInsert p s
  | .mfFindBest p high => Sys2Proof.Machine.execMfFindBest p high s
  | .mfFindAll p high minLen => Sys2Proof.Machine.execMfFindAll p high minLen s
  | .btInsert q => Sys2Proof.Machine.execBtInsert q s
  | .btFindAll p high minLen => Sys2Proof.Machine.execBtFindAll p high minLen s
  | .renorm => Sys2Proof.Machine.execRenorm s
  | .emitSeq a b d ml => Sys2Proof.Machine.execEmitSeq a b d ml s
  | .emitLast a b => Sys2Proof.Machine.execEmitLast a b s
  | .seqShort off lits ml => Sys2Proof.Machine.execSeqShort off lits ml s
  | .seqRepeat lits ml => Sys2Proof.Machine.execSeqRepeat lits ml s
  | .seqLong off lits ml => Sys2Proof.Machine.execSeqLong off lits ml s
  | .seqMid off lits ml => Sys2Proof.Machine.execSeqMid off lits ml s
  | .seqLast cls hi mf lits => Sys2Proof.Machine.execSeqLast cls hi mf lits s
  | .hdr flg bd csize hc => Sys2Proof.Machine.execHdr flg bd csize hc s
  | .skip low payload => Sys2Proof.Machine.execSkip low payload s
  | .endMark => Sys2Proof.Machine.execEndMark s
  | .blkC payload => Sys2Proof.Machine.execBlkC payload s
  | .blkS payload => Sys2Proof.Machine.execBlkS payload s
  | .cksum value => Sys2Proof.Machine.execCksum value s

end Sys2Proof.Machine
end

