-- ==== Sys2Proof/Machine/Fetch.lean ====
section
/-! DEFINITION. Fetching the next instruction from the stream the state selects
(spec/00_scope.md R8, R9; notes/assumptions/8.md), and placing a word of the opcode table there
(notes/assumptions/9.md). -/

namespace Sys2Proof.Machine

/-- What a fetch finds. -/
inductive Fetched
  /-- Nothing to run: the machine fetches nothing on its own (R701). -/
  | idle
  /-- The fetch itself ends the step. -/
  | answer (a : Answer)
  /-- Run an instruction in a state. -/
  | run (i : Instr) (s : State)

/-- The host stream: the next descriptor leaves the queue; a reserved or micro-operation opcode
raises `ProtocolViolation` (R169). -/
def fetchHost (s : State) : Fetched :=
  match s.queue with
  | [] => .idle
  | d :: rest =>
    match decodeCommand d with
    | .ok i => .run i { s with queue := rest }
    | .error _ =>
      .answer (command { s with queue := rest } (raise .protocolViolation { s with queue := rest }))

/-- The micro-operation stream; a word outside R174 is treated as R169 treats it
(notes/assumptions/12.md). -/
def fetchMicro (s : State) : Fetched :=
  match s.uops with
  | [] => .idle
  | d :: rest =>
    match decodeUop d with
    | some i => .run i { s with uops := rest }
    | none => .answer (raise .protocolViolation { s with uops := rest })

/-- The Sequence stream (R363, R364, R378); what a Sequence that cannot be read leaves: `Bd.failAt`. -/
def fetchSequence (s : State) : Fetched :=
  match bdFetch s.bd with
  | .idle => .idle
  | .full => .answer (.next (s.setBd s.bd.finish))
  | .malformed c => .answer (raiseMalformed c (s.setBd (s.bd.failAt c)))
  | .sequence q => .run q.toInstr s

/-- The record stream (R79). -/
def fetchRecord (s : State) : Fetched :=
  match s.fd[s.rcd.h]? with
  | none => .answer (.fault .noSuchContext)
  | some f =>
    match recFetch s.cfg f s.rcd with
    | .idle => .idle
    | .record i => .run i s
    | .bytes bs => .answer (feedBytes bs s)

/-- Fetch from the selected stream. -/
def fetch (s : State) : Fetched :=
  match s.stream with
  | .host => fetchHost s
  | .micro => fetchMicro s
  | .sequence => fetchSequence s
  | .record => fetchRecord s

/-! ## Placing a word of the opcode table -/

/-- Put frame decoder 0 at a stage. -/
def State.decoderAt (s : State) (d : DStage) : State :=
  match s.fd with
  | [] => s
  | f :: t => { s with fd := f.goto d :: t }

/-- Select the record stream with these bytes, decoder 0 at the stage that reads them. -/
def placeRecord (s : State) (d : DStage) (bytes : List Byte) : State :=
  { s.decoderAt d with stream := .record, rcd := ⟨0, bytes, 0, tableLimits.room, []⟩ }

/-- Put a table word where its stream fetches next, and select that stream. -/
def placeWord (s : State) (nbits w : Nat) : State :=
  match tableWordStream nbits w with
  | .command => { s with stream := .host, queue := tableDescriptor w :: s.queue }
  | .uop => { s with stream := .micro, uops := tableDescriptor w :: s.uops }
  | .sequence =>
    { s with
      stream := .sequence
      bd := Bd.start (tableBytes nbits w) tableLimits.room [] false false 0 }
  | .header => placeRecord s .getHeader (tableBytes nbits w)
  | .blockWord => placeRecord s .getCBlockSize (tableBytes nbits w)

end Sys2Proof.Machine
end

