-- ==== Sys2Proof/Safety.lean ====
section
/-! DEFINITION. What a safe step is, and the invariants of the machine (spec/10_state.md R49, R55,
R59, R70; spec/46_frame_decoder.md R523). They hold between host commands; micro-operations and the
Sequence stream work inside one. -/

namespace Sys2Proof.Machine

/-- A step is safe when it does not end in a fault. -/
def Safe (s : State) : Prop := ∀ f, step s ≠ .fault f

/-- Parameters for which the arithmetic of R424, R290 and R294 holds: one renormalization is enough,
positions are u32, every frame block is a legal `ENCODE` input, and no position without 4 bytes to
hash is probed. -/
abbrev paramsFit (cfg : Config) : Prop :=
  cfg.maxInputSize + windowSize < cfg.renormLimit ∧ 2 * windowSize ≤ cfg.renormLimit ∧
  cfg.renormLimit < 2 ^ 32 ∧ 2 ^ 28 ≤ cfg.maxInputSize ∧ 4 ≤ cfg.mfLimit

/-- R49. -/
abbrev Cctx.Inv (cfg : Config) (c : Cctx) : Prop :=
  windowSize ≤ c.currentOffset.toNat ∧ c.currentOffset.toNat ≤ cfg.renormLimit ∧
  c.lowLimit ≤ c.dictLimit ∧ c.dictLimit = c.currentOffset ∧
  c.currentOffset.toNat ≤ c.lowLimit.toNat + windowSize ∧
  c.hist.length = c.currentOffset.toNat - c.lowLimit.toNat ∧
  (∀ e ∈ c.hashTable, e.2 < c.currentOffset) ∧ (∀ e ∈ c.hashTable3, e.2 < c.currentOffset) ∧
  c.nextInsert ≤ c.currentOffset

/-- R55. -/
abbrev Sd.Inv (d : Sd) : Prop := d.hist.length ≤ windowSize

/-- A frame encoder between commands: R59, R60, and the legal values of R39, R56, R61. -/
abbrev Fe.Inv (cfg : Config) (f : Fe) : Prop :=
  f.cctx.Inv cfg ∧ f.buf.length < f.blockSize ∧
  f.total = BitVec.ofNat 64 f.content.length ∧
  (f.stage = .error → f.err = Err.frameSizeMismatch.code) ∧
  (f.stage = .active → f.alloc = true) ∧
  f.prefs.blockSizeId ≠ 0#3 ∧ f.prefs.blockChecksum = false ∧
  1 ≤ f.prefs.level ∧ f.prefs.level ≤ 5

/-- The stages that no command leaves a decoder in (R70). -/
abbrev DStage.transient : DStage → Bool
  | .decodeCBlock => true
  | .decodeCBlockIntoDst => true
  | .decodeCBlockIntoTmp => true
  | _ => false

/-- A frame decoder between commands: the bounds of R523, R70, R75 and R78, and what the stages in
which a field is under way rest on. -/
abbrev Fd.Inv (f : Fd) : Prop :=
  f.tmpIn.length ≤ max maxHeader f.frameInfo.maxBlockSize ∧
  f.tmpOut.length ≤ f.frameInfo.maxBlockSize ∧
  f.hist.length ≤ windowSize ∧
  f.dStage.transient = false ∧
  (f.dStage = .error ↔ f.err ≠ 0#8) ∧
  (f.dStage ≠ .error → f.total = BitVec.ofNat 64 f.content.length) ∧
  (f.dStage ≠ .flushOut → f.dStage ≠ .error → f.tmpOut = []) ∧
  (f.dStage = .storeHeader → f.tmpIn.length ≤ maxHeader ∧ f.tmpInTarget ≤ maxHeader) ∧
  (f.dStage = .getCBlock ∨ f.dStage = .storeCBlock → f.cBlockSize ≤ f.frameInfo.maxBlockSize)

/-- Everything that holds between host commands. -/
abbrev State.Inv (s : State) : Prop :=
  paramsFit s.cfg ∧ s.mem.wf = true ∧
  (∀ c ∈ s.cctx, c.Inv s.cfg) ∧ (∀ d ∈ s.sd, d.Inv) ∧
  (∀ f ∈ s.fe, f.Inv s.cfg) ∧ (∀ f ∈ s.fd, f.Inv)

end Sys2Proof.Machine
end

