-- ==== Sys2Proof/Certificates/Slice0/Obligations.lean ====
section
/-! DEFINITION. The statements for the provers. Helper notions first, then one definition per
statement. Statements are about every state, except that those which could fail only in states no
run reaches assume an invariant of Safety.lean, which other statements say every host step keeps. -/

namespace Sys2Proof.Claims

open Sys2Proof.Machine

/-! ## Which instruction is what -/

/-- A host command (spec/30_encoding.md R168). -/
def isCommand (i : Instr) : Bool :=
  match encode Config.default i with
  | .command _ => true
  | _ => false

/-- A micro-operation (spec/30_encoding.md R174). -/
def isMicroOp (i : Instr) : Bool :=
  match encode Config.default i with
  | .uop _ => true
  | _ => false

/-- A Sequence (spec/30_encoding.md R140). -/
def isSequence (i : Instr) : Bool :=
  match encode Config.default i with
  | .sequence _ => true
  | _ => false

/-- A frame record (spec/30_encoding.md R155). -/
def isRecord (i : Instr) : Bool :=
  match encode Config.default i with
  | .record _ => true
  | _ => false

/-- The handle, the flag byte and the defined flag bits of the commands on a compression context,
`CTX_INIT` among them (spec/44_streaming_dict.md R420). -/
def cctxCommand : Instr → Option (BitVec 16 × Byte × Byte)
  | .ctxInit h fl _ => some (h, fl, 0x00#8)
  | .ctxReset h fl _ => some (h, fl, 0x00#8)
  | .ctxFree h fl => some (h, fl, 0x00#8)
  | .blkCompress h fl _ _ _ _ => some (h, fl, 0x01#8)
  | .blkCompressContinue h fl _ _ _ _ => some (h, fl, 0x01#8)
  | .loadDict h fl _ _ => some (h, fl, 0x00#8)
  | .saveDict h fl _ _ => some (h, fl, 0x00#8)
  | _ => none

/-- Handle and flags of the stream-decoder commands; no flag bit is defined. -/
def sdCommand : Instr → Option (BitVec 16 × Byte)
  | .blkDecompressContinue h fl _ _ _ _ => some (h, fl)
  | .sdReset h fl _ _ => some (h, fl)
  | _ => none

/-- Handle and flags of the frame-encoder commands; no flag bit is defined. -/
def feCommand : Instr → Option (BitVec 16 × Byte)
  | .feBegin h fl _ _ _ _ _ => some (h, fl)
  | .feUpdate h fl _ _ _ _ => some (h, fl)
  | .feFlush h fl _ _ => some (h, fl)
  | .feEnd h fl _ _ => some (h, fl)
  | _ => none

/-- Handle and flags of the frame-decoder commands; no flag bit is defined. -/
def fdCommand : Instr → Option (BitVec 16 × Byte)
  | .fdReset h fl => some (h, fl)
  | .fdDecode h fl _ _ _ _ _ => some (h, fl)
  | _ => none

/-- The output buffer of a command, empty where it has none. -/
def outputOf : Instr → Buffer
  | .blkCompress _ _ _ _ d n => buffer d n
  | .blkCompressContinue _ _ _ _ d n => buffer d n
  | .blkDecompress _ _ _ _ d n _ _ _ => buffer d n
  | .blkDecompressContinue _ _ _ _ d n => buffer d n
  | .saveDict _ _ d n => buffer d n
  | .feBegin _ _ _ _ _ d n => buffer d n
  | .feUpdate _ _ _ _ d n => buffer d n
  | .feFlush _ _ d n => buffer d n
  | .feEnd _ _ d n => buffer d n
  | .fdDecode _ _ _ _ _ d n => buffer d n
  | _ => noBuffer

/-- The input buffers of a command; `none` where a prefix dictionary would begin below address 0
(notes/assumptions/41.md). -/
def inputsOf : Instr → Option (List Buffer)
  | .blkCompress _ _ a n _ _ => some [buffer a n]
  | .blkCompressContinue _ _ a n _ _ => some [buffer a n]
  | .blkDecompress _ fl a n d c x y _ =>
      (dictRegion (dictMode fl) (buffer d c) x y).map (fun r => [buffer a n, r])
  | .blkDecompressContinue _ _ a n _ _ => some [buffer a n]
  | .loadDict _ _ a n => some [buffer a n]
  | .sdReset _ _ a n => some [buffer a n]
  | .feUpdate _ _ a n _ _ => some [buffer a n]
  | .fdDecode _ _ _ a n _ _ => some [buffer a n]
  | _ => some []

/-- Buffers that R101 and R102 let a command run with. -/
def buffersOk (cfg : Config) (ins : List Buffer) (out : Buffer) : Prop :=
  (∀ b ∈ out :: ins, b.valid cfg = true) ∧ ∀ b ∈ ins, b.overlaps out = false

/-- Handle `h` names an allocated compression context and no flag outside `mask` is set. -/
def cctxReady (s : State) (h : BitVec 16) (fl mask : Byte) : Prop :=
  (∃ c, s.cctx[h.toNat]? = some c ∧ c.alloc = true) ∧ fl &&& ~~~mask = 0#8

/-- A command passes every check that raises an error before it uses its buffers: the checks of its
own rule (R312, R425, R360, R429, R426, R427, R428, R460, R464, R468, R469, R501). -/
def usesBuffers (s : State) : Instr → Prop
  | .blkCompress h fl _ n _ cap =>
      cctxReady s h fl 1#8 ∧ n.toNat ≤ s.cfg.maxInputSize ∧
      (fl = 1#8 ∨ n.toNat + n.toNat / 128 + 16 ≤ cap.toNat)
  | .blkCompressContinue h fl _ n _ cap =>
      cctxReady s h fl 1#8 ∧ n.toNat ≤ s.cfg.maxInputSize ∧
      (fl = 1#8 ∨ n.toNat + n.toNat / 128 + 16 ≤ cap.toNat)
  | .blkDecompress _ fl _ _ _ _ _ y _ =>
      fl.extractLsb' 4 4 = 0#4 ∧ fl.extractLsb' 2 2 ≠ 3#2 ∧
      ¬ (fl.getLsbD 0 = true ∧ fl.getLsbD 1 = true) ∧
      ¬ (fl.extractLsb' 2 2 = 1#2 ∧ prefixSize < y.toNat)
  | .blkDecompressContinue h fl _ _ _ _ => h.toNat < s.sd.length ∧ fl = 0#8
  | .loadDict h fl _ _ => cctxReady s h fl 0#8
  | .saveDict h fl _ _ => cctxReady s h fl 0#8
  | .sdReset h fl _ _ => h.toNat < s.sd.length ∧ fl = 0#8
  | .feBegin h fl w size level _ cap =>
      (∃ f, s.fe[h.toNat]? = some f ∧ f.stage ≠ .active) ∧ fl = 0#8 ∧
      w.extractLsb' 5 59 = 0#59 ∧ (if size = 0#64 then 7 else 15) ≤ cap.toNat ∧
      tableMemory (levelRow s.cfg (clampLevel level.toNat)) ≤ s.cfg.tableMemLimit
  | .feUpdate h fl _ n _ cap =>
      fl = 0#8 ∧ ∃ f, s.fe[h.toNat]? = some f ∧ f.stage = .active ∧
        (f.buf.length + n.toNat) / 2 ^ (14 + 2 * f.prefs.blockSizeId.toNat) *
          (4 + 2 ^ (14 + 2 * f.prefs.blockSizeId.toNat)) ≤ cap.toNat
  | .feFlush h fl _ cap =>
      fl = 0#8 ∧ ∃ f, s.fe[h.toNat]? = some f ∧ f.stage = .active ∧
        (if f.buf = [] then 0 else 4 + f.buf.length) ≤ cap.toNat
  | .feEnd h fl _ cap =>
      fl = 0#8 ∧ ∃ f, s.fe[h.toNat]? = some f ∧ f.stage = .active ∧
        (f.prefs.contentSize = 0#64 ∨ f.total = f.prefs.contentSize) ∧
        (if f.buf = [] then 0 else 4 + f.buf.length) + 4 +
          (if f.prefs.contentChecksum then 4 else 0) ≤ cap.toNat
  | .fdDecode h fl pos _ _ _ _ =>
      fl = 0#8 ∧ ∃ f, s.fd[h.toNat]? = some f ∧ f.dStage ≠ .error ∧
        (f.srcExpect = .anywhere ∨ f.srcExpect = .offset pos)
  | _ => False

/-- `a` lies outside the `len` bytes at `lo`. -/
def outside (a lo len : Nat) : Prop := a < lo ∨ lo + len ≤ a

/-- Memory `m'` is `m` but for the `len` bytes at `lo`, of which the first are `bs`. -/
def wrote (m m' : Memory) (lo : Nat) (bs : List Byte) (len : Nat) : Prop :=
  m'.readBytes lo bs.length = bs ∧ ∀ a, outside a lo (max bs.length len) → m'.read a = m.read a

/-! ## Compression contexts, matches and parses -/

/-- A context with empty tables and no history at `CLEAR()`'s positions (R422). -/
def cleared (alloc : Bool) (level : Nat) (row : LevelRow) : Cctx where
  alloc := alloc
  level := level
  row := row
  hashTable := []
  hashTable3 := []
  chainTable := []
  lastOff := 0#32
  currentOffset := 4194304#32
  dictLimit := 4194304#32
  lowLimit := 4194304#32
  nextInsert := 4194304#32
  hist := []

/-- Two contexts differ in their tables and `nextInsert` only (R220). -/
def sameButTables (c c' : Cctx) : Prop :=
  c' = { c with
    hashTable := c'.hashTable
    hashTable3 := c'.hashTable3
    chainTable := c'.chainTable
    nextInsert := c'.nextInsert }

/-- A match the finders may return at `p` below `high` (R205, R219). -/
def goodMatch (c : Cctx) (p : Nat) (m : Match) : Prop :=
  1 ≤ m.offset.toNat ∧ m.offset.toNat ≤ maxOffset ∧ lowEff c p + m.offset.toNat ≤ p ∧
  minMatch ≤ m.length.toNat ∧
  (m.length.toNat < mainHashMinLen → m.offset.toNat < hash3TrustLimit) ∧ m.backAdjust = 0#32

/-- The bytes of a match agree (R201). -/
def verified (c : Cctx) (src : List Byte) (p high : Nat) (m : Match) : Prop :=
  p + m.length.toNat ≤ high ∧
  ∀ j, j < m.length.toNat → ref c src (p + j) = ref c src (p + j - m.offset.toNat)

/-- The `k` bytes from `q` on equal those from `p` on, which stay below `high`: `count(p, q, high)`
is at least `k` (R16). -/
def agrees (c : Cctx) (src : List Byte) (p q high k : Nat) : Prop :=
  p + k ≤ high ∧ ∀ j, j < k → ref c src (q + j) = ref c src (p + j)

/-- `q` is a usable candidate for a query at `p` (R205). -/
def candidate (c : Cctx) (p q : Nat) : Prop := q ≠ 0 ∧ q < p ∧ lowEff c p ≤ q

/-- `q` is the 3-byte candidate of a query at `p` (R209), read from `t`, the context's tables. -/
def candidate3 (cfg : Config) (c t : Cctx) (src : List Byte) (p q : Nat) : Prop :=
  c.row.hash3Log ≠ 0 ∧ q = (t.hashTable3.read (hash3 cfg c src p)).toNat ∧ candidate c p q ∧
  p - q < hash3TrustLimit

/-- Some match of the list is at least `k` bytes long. -/
def findsAtLeast (ms : List Match) (k : Nat) : Prop := ∃ m ∈ ms, k ≤ m.length.toNat

/-- Lengths strictly ascending. -/
def ascending : List Match → Prop
  | [] => True
  | [_] => True
  | a :: b :: t => a.length.toNat < b.length.toNat ∧ ascending (b :: t)

/-- A parse of `src` against the dictionary `D` from `anchor` on that meets R262, R264's distances
and lengths, and whose matches are matches. -/
def parseOk (D src : List Byte) : Nat → List Triple → Prop
  | anchor, [] => anchor ≤ src.length
  | anchor, t :: ts =>
    anchor ≤ t.start ∧ t.start + t.ml ≤ src.length ∧ minMatch ≤ t.ml ∧
    1 ≤ t.d ∧ t.d ≤ maxOffset ∧ t.d ≤ t.start + D.length ∧
    (∀ j, j < t.ml →
      (D ++ src)[D.length + t.start + j]? = (D ++ src)[D.length + t.start + j - t.d]?) ∧
    parseOk D src (t.start + t.ml) ts

/-- The bytes of EMIT_SEQ, computed as the pseudocode of R260 does, the class chosen as R148 says. -/
def emitSeqR260 (lits : List Byte) (d ml lastOff : Nat) : List Byte :=
  let cls : OffClass :=
    if d = lastOff then .rep else if d < 1024 then .short else if d < 65536 then .mid else .long
  let bits := if cls = .mid then 3 else 2
  let mask := 2 ^ bits - 1
  let high := match cls with
    | .short => 128 + 32 * (d / 256)
    | .mid => 0
    | .long => 64
    | .rep => 96
  let ext := fun e => List.replicate (e / 255) 255#8 ++ [BitVec.ofNat 8 (e % 255)]
  [BitVec.ofNat 8 (high + 8 * min lits.length mask + min (ml - 3) 7)] ++
    (if mask ≤ lits.length then ext (lits.length - mask) else []) ++ lits ++
    (match cls with
      | .short => [BitVec.ofNat 8 d]
      | .mid => [BitVec.ofNat 8 d, BitVec.ofNat 8 (d / 256)]
      | .long => [BitVec.ofNat 8 d, BitVec.ofNat 8 (d / 256), BitVec.ofNat 8 (d / 65536)]
      | .rep => []) ++
    (if 7 ≤ ml - 3 then ext (ml - 10) else [])

/-! ## The block decoder -/

/-- `out'` is `out` followed by `ml` bytes, each equal to the byte `off` places before it in the
dictionary followed by the output (R107, R111, R375). -/
def matchRun (D out : List Byte) (off ml : Nat) (out' : List Byte) : Prop :=
  out'.length = out.length + ml ∧ out'.take out.length = out ∧
  ∀ j, j < ml → out'[out.length + j]? = (D ++ out')[D.length + out.length + j - off]?

/-- The literal run of length `n` fits and the decode goes on after it. -/
def litsGoOn (b : Bd) (n : Nat) : Prop :=
  b.out.length + n ≤ b.cap ∧ (b.partialMode = true → b.out.length + n < b.target) ∧
  (b.eoo = true → b.out.length + n ≠ b.cap)

/-- What a Sequence with a match does when nothing fails: the new registers (R363). -/
def matchDone (b : Bd) (token : Byte) (cls : OffClass) (lits : List Byte) (off ml : Nat)
    (out' : List Byte) : Bd :=
  { b with
    ip := b.ip + seqLen lits.length cls ml
    out := out'
    lastOff := u32 off
    token := token
    litLen := lits.length
    matchLen := ml
    off := u32 off
    phase := if b.partialMode = true ∧ b.target ≤ out'.length then .ended else .running }

/-- The four Sequences with a match, each with its token, class, offset, literals and length; the
repeat offset is the `last_off` it is executed with (R367 to R370). -/
def matchForm (lastOff : Nat) : Instr → Option (Byte × OffClass × Nat × List Byte × Nat)
  | .seqShort off lits ml =>
      some (Sequence.token (.short off lits ml), .short, off.toNat, lits, ml)
  | .seqMid off lits ml => some (Sequence.token (.mid off lits ml), .mid, off.toNat, lits, ml)
  | .seqLong off lits ml => some (Sequence.token (.long off lits ml), .long, off.toNat, lits, ml)
  | .seqRepeat lits ml => some (Sequence.token (.rep lits ml), .rep, lastOff, lits, ml)
  | _ => none

/-- A step of the Sequence stream fails `MalformedStream` with `n` bytes of the Sequence read (R379,
R381); that it leaves every other working register as before is the model's choice
(notes/assumptions/38.md). -/
def seqFailsAt (s : State) (n : Nat) : Prop :=
  step s = .next { s with
    bd := { s.bd with ip := s.bd.ip + n, phase := .failed (s.bd.ip + n) }
    status := 4#8, res0 := -(BitVec.ofNat 64 (s.bd.ip + n + 1)), res1 := 0#64, res2 := 0#64 }

/-- `ext` and the field `lit` say a literal run of `n` bytes, the field's greatest value being `mask`
(R143, R145). -/
def litRun (mask lit n : Nat) (ext : List Byte) : Prop :=
  (n < mask ∧ lit = n ∧ ext = []) ∨
  (mask ≤ n ∧ lit = mask ∧
    ext = List.replicate ((n - mask) / 255) 255#8 ++ [BitVec.ofNat 8 ((n - mask) % 255)])

/-- The dictionary of a BLK_DECOMPRESS (R361). -/
def dictBytes (s : State) (mode : BitVec 2) (dst : Buffer) (dictAddr dictLen : U64) : List Byte :=
  if mode = 0#2 then []
  else if mode = 1#2 then s.mem.readBytes (dst.addr - dictLen.toNat) dictLen.toNat
  else s.mem.readBytes dictAddr.toNat dictLen.toNat

/-! ## The frame decoder -/

/-- The decoder `rcd` selects is `f`, at a record of kind `p`, not in ERROR. -/
def atRecord (s : State) (f : Fd) (p : RecordPlace) : Prop :=
  s.fd[s.rcd.h]? = some f ∧ f.place = some p

/-- The cursor at stream offset `pos`: a u64 that does not wrap (R76, R79); what stands there from 2^64
on is the model's (notes/assumptions/24.md). -/
def cursorAt (pos : Nat) : Cursor :=
  if pos < 2 ^ 64 then .offset (BitVec.ofNat 64 pos) else .pastEnd

/-- The cursor `n` bytes after a decoder's; that a record on a decoder without one stands at offset 0,
and that one past the last u64 offset runs and stays there, is the model's choice
(notes/assumptions/14.md, 24.md). -/
def cursorPast (f : Fd) (n : Nat) : Cursor :=
  match f.srcExpect with
  | .anywhere => cursorAt n
  | .offset pos => cursorAt (pos.toNat + n)
  | .pastEnd => .pastEnd

/-- What a record leaves of the state when its decoder ends as `f'`: `n` bytes consumed, `out`
produced, a status and a hint; the decoder's cursor moves past the record (R502). -/
def afterRecord (s : State) (f f' : Fd) (n : Nat) (out : List Byte) (st : Byte) (hint : Nat) :
    State :=
  { s with
    fd := s.fd.set s.rcd.h { f' with srcExpect := cursorPast f n }
    rcd := { s.rcd with
      ip := s.rcd.ip + n
      room := s.rcd.room - out.length
      out := s.rcd.out ++ out }
    status := st
    res0 := BitVec.ofNat 64 n
    res1 := BitVec.ofNat 64 out.length
    res2 := BitVec.ofNat 64 hint }

/-- The decoder after `ACCOUNT(blk)` succeeds (R520). -/
def accounted (f : Fd) (blk : List Byte) : Fd :=
  { f with
    total := f.total + BitVec.ofNat 64 blk.length
    content := f.content ++ blk
    hist := if f.frameInfo.blockMode then f.hist else lastBytes windowSize (f.hist ++ blk) }

/-- `ACCOUNT(blk)` does not fail (R519, R520). -/
def accountOk (f : Fd) (blk : List Byte) : Prop :=
  f.frameInfo.contentSizeFlag = true → f.frameInfo.contentSize ≠ 0#64 →
    f.total.toNat + blk.length ≤ f.frameInfo.contentSize.toNat

/-- The header bytes from FLG on are those the header checksum covers. -/
def covered (flg bd : Byte) (csize : Option U64) : List Byte :=
  [flg, bd] ++
    match csize with
    | some n => leBytes 8 n.toNat
    | none => []

/-- `frameInfo` as R508 latches it. -/
def infoOf (flg bd : Byte) (csize : Option U64) : FrameInfo where
  blockMode := flg.getLsbD 5
  blockSizeId := bd.extractLsb' 4 3
  maxBlockSize := 2 ^ (14 + 2 * (bd.extractLsb' 4 3).toNat)
  contentChecksumFlag := flg.getLsbD 2
  contentSizeFlag := flg.getLsbD 3
  contentSize := csize.getD 0#64

end Sys2Proof.Claims

open Sys2Proof Sys2Proof.Machine Sys2Proof.Claims

/-! ## Encoding -/

/-- Words written out from the spec's encodings decode to their instructions (R140 to R168). -/
def Obligations.SpecWordsDecode : Prop :=
  decodeCommand ⟨0x00020006#32, 0x1000#64, 21#64, 0x2000#64, 37#64, 0#64, 0#64, 0#64⟩
    = .ok (.blkCompress 2#16 0#8 0x1000#64 21#64 0x2000#64 37#64) ∧
  decodeCommand ⟨0x0000010C#32, 5#64, 0#64, 0#64, 0#64, 0#64, 0#64, 0#64⟩
    = .ok (.compressBound 0#16 1#8 5#64) ∧
  decodeCommand ⟨0x00000045#32, 0#64, 0#64, 0#64, 0#64, 0#64, 0#64, 0#64⟩ = .error .microOpcode ∧
  decodeSeq ⟨64, false, none⟩
      [0x9D#8, 0x05#8, 0x61#8, 0x62#8, 0x63#8, 0x64#8, 0x65#8, 0x66#8, 0x67#8, 0x68#8, 0x08#8, 0x28#8]
    = .seq (.short 8#10 [0x61#8, 0x62#8, 0x63#8, 0x64#8, 0x65#8, 0x66#8, 0x67#8, 0x68#8] 8) 11 ∧
  decodeSeq ⟨64, false, none⟩ [0x47#8, 0x00#8, 0x00#8, 0x40#8, 0x07#8, 0x00#8]
    = .seq (.long 0x400000#24 [] 17) 5 ∧
  decodeRecord Config.default .blockWord [0x03#8, 0x00#8, 0x00#8, 0x80#8, 0x61#8, 0x62#8, 0x63#8]
    = .record (.blkS [0x61#8, 0x62#8, 0x63#8]) 7

/-- `encode_token(decode_token(t)) = t` for every token, and the other way round for every field
value a token can hold (R175). -/
def Obligations.TokenRoundTrip : Prop :=
  (∀ t : Byte, encodeToken (decodeToken t) = t) ∧
  (∀ f : TokenFields, (f.cls ≠ .mid → f.lit.toNat ≤ 3) → (f.cls ≠ .short → f.hi = 0#2) →
    decodeToken (encodeToken f) = f)

/-- Decoding the words of every command and micro-operation gives it back, with every operand (R167,
R168; the operand words of micro-operations are the model's choice, notes/assumptions/12.md). -/
def Obligations.DescriptorRoundTrip : Prop :=
  ∀ (cfg : Config) (i : Instr) (d : Descriptor),
    (encode cfg i = .command d → decodeCommand d = .ok i) ∧
    (encode cfg i = .uop d → decodeUop d = some i)

/-- Decoding the bytes of a Sequence gives it back and takes exactly its bytes, wherever the room is
enough and the position makes it the non-terminal or terminal Sequence it is (R140 to R149, R173). -/
def Obligations.SequenceRoundTrip : Prop :=
  ∀ (q : Sequence) (lim : SeqLimits) (rest : List Byte),
    q.toInstr.wf = true → q.lits.length ≤ lim.room →
    (∀ cls hi mf lits, q = .last cls hi mf lits → endsAfterLits lim q.lits.length rest = true) →
    ((∀ cls hi mf lits, q ≠ .last cls hi mf lits) →
      endsAfterLits lim q.lits.length
        ((q.encode ++ rest).drop (lastLen q.lits.length (classOf (q.encode.headD 0#8)))) = false) →
    decodeSeq lim (q.encode ++ rest) = .seq q q.encode.length

/-- The encoded length of a Sequence (R153). -/
def Obligations.SequenceLength : Prop :=
  (∀ off lits ml, (Sequence.short off lits ml).encode.length = seqLen lits.length .short ml) ∧
  (∀ off lits ml, (Sequence.mid off lits ml).encode.length = seqLen lits.length .mid ml) ∧
  (∀ off lits ml, (Sequence.long off lits ml).encode.length = seqLen lits.length .long ml) ∧
  (∀ lits ml, (Sequence.rep lits ml).encode.length = seqLen lits.length .rep ml) ∧
  (∀ hi mf lits, (Sequence.last .mid hi mf lits).encode.length
    = 1 + (if lits.length < 7 then 0 else 1 + (lits.length - 7) / 255) + lits.length)

/-- Decoding the bytes of a well-formed record gives it back, whatever follows it, with any magic
numbers that can be told apart (R155 to R164). -/
def Obligations.RecordRoundTrip : Prop :=
  ∀ (cfg : Config) (i : Instr) (bs rest : List Byte),
    cfg.skippableBase &&& 0xF#32 = 0#32 → isSkippable cfg cfg.magic = false →
    i.wf = true → encode cfg i = .record bs →
    decodeRecord cfg
      (match i with
        | .hdr _ _ _ _ => .header
        | .skip _ _ => .header
        | .cksum _ => .suffix
        | _ => .blockWord) (bs ++ rest) = .record i bs.length

/-! ## Steps -/

/-- A step runs the instruction its stream holds: the next host command, with the queue moved on; the
next micro-operation; the Sequence at `ip`; the record at the record stream's index. With nothing to
run the state stays (the streams are the model's, notes/assumptions/8.md). -/
def Obligations.StepRunsDecodedInstruction : Prop :=
  (∀ s d rest i, s.stream = .host → s.queue = d :: rest → decodeCommand d = .ok i →
    step s = exec i { s with queue := rest }) ∧
  (∀ s d rest i, s.stream = .micro → s.uops = d :: rest → decodeUop d = some i →
    step s = exec i { s with uops := rest }) ∧
  (∀ s q n, s.stream = .sequence → s.bd.phase = .running →
    ¬ (s.bd.eoo = true ∧ s.bd.out.length = s.bd.cap) →
    decodeSeq s.bd.limits (s.bd.src.drop s.bd.ip) = .seq q n → step s = exec q.toInstr s) ∧
  (∀ s f p i n, s.stream = .record → s.fd[s.rcd.h]? = some f → f.place = some p →
    s.rcd.src.drop s.rcd.ip ≠ [] →
    decodeRecord s.cfg p (s.rcd.src.drop s.rcd.ip) = .record i n → step s = exec i s) ∧
  (∀ s, s.stream = .host → s.queue = [] → step s = .next s) ∧
  (∀ s, s.stream = .micro → s.uops = [] → step s = .next s) ∧
  (∀ s, s.stream = .sequence → s.bd.phase ≠ .running → step s = .next s) ∧
  (∀ s f, s.stream = .record → s.fd[s.rcd.h]? = some f → s.rcd.src.drop s.rcd.ip = [] →
    f.dStage ≠ .flushOut → step s = .next s)

/-- A host command with a reserved or micro-operation opcode raises `ProtocolViolation` and changes
no state; the opcodes are those R169 lists. -/
def Obligations.ReservedOpcodeRejected : Prop :=
  ∀ (s : State) (d : Descriptor) (rest : List Descriptor),
    s.cfg.legal = true → s.stream = .host → s.queue = d :: rest →
    (d.opcode.toNat = 0x00 ∨ d.opcode.toNat = 0x04 ∨ d.opcode.toNat = 0x05 ∨
      d.opcode.toNat = 0x0E ∨ d.opcode.toNat = 0x0F ∨
      (0x14 ≤ d.opcode.toNat ∧ d.opcode.toNat ≤ 0x17) ∨ 0x1A ≤ d.opcode.toNat) →
    step s = .next { s with
      queue := rest, status := 8#8, res0 := 0#64, res1 := 0#64, res2 := 0#64 }

/-- Power-on of a machine with any parameters and any counts of contexts: every state field of the spec
at R82's value, a compression context's derived fields from `LEVEL_TABLE[1]`; the reset state is that
power-on state for its own parameters, whose `LEVEL_TABLE` begins with the default's row of R298
(R11, R82, R298). -/
def Obligations.PowerOnState : Prop :=
  (∀ (cfg : Config) (nCctx nSd nFe nFd : Nat),
    let s := State.powerOn cfg nCctx nSd nFe nFd
    s.cfg = cfg ∧ s.cctx.length = nCctx ∧ s.sd.length = nSd ∧ s.fe.length = nFe ∧
    s.fd.length = nFd ∧
    s.status = 0#8 ∧ s.res0 = 0#64 ∧ s.res1 = 0#64 ∧ s.res2 = 0#64 ∧
    (∀ c ∈ s.cctx, c = cleared false 1 cfg.levelTable.level1) ∧
    (∀ d ∈ s.sd, d.hist = []) ∧
    (∀ f ∈ s.fe,
      f.stage = .idle ∧ f.prefs = ⟨1#3, true, false, false, 0#64, 1⟩ ∧
      f.cctx = cleared false 1 cfg.levelTable.level1 ∧
      f.buf = [] ∧ f.content = [] ∧ f.total = 0#64 ∧ f.err = 0#8 ∧ f.alloc = false) ∧
    (∀ f ∈ s.fd,
      f.dStage = .getHeader ∧ f.frameInfo = ⟨false, 0#3, 0, false, false, 0#64⟩ ∧
      f.tmpIn = [] ∧ f.tmpInTarget = 0 ∧ f.tmpOut = [] ∧ f.hist = [] ∧ f.content = [] ∧
      f.total = 0#64 ∧ f.srcExpect = .anywhere ∧ f.remaining = 0 ∧ f.cBlockSize = 0 ∧
      f.err = 0#8) ∧
    s.bd.ip = 0 ∧ s.bd.out = [] ∧ s.bd.lastOff = 0#32) ∧
  State.reset = State.powerOn State.reset.cfg State.reset.cctx.length State.reset.sd.length
    State.reset.fe.length State.reset.fd.length ∧
  State.reset.cfg.levelTable.level1 = ⟨.fast, 16, 0, 0, 1, 0⟩

/-- No step changes a parameter; the four context counts are the lengths of State's lists (R705). -/
def Obligations.ParametersFixed : Prop :=
  ∀ s t, step s = .next t →
    t.cfg = s.cfg ∧ t.cctx.length = s.cctx.length ∧ t.sd.length = s.sd.length ∧
    t.fe.length = s.fe.length ∧ t.fd.length = s.fd.length

/-! ## What every command does -/

/-- A handle at or above the count of its kind raises `ProtocolViolation` and changes no state
(R32). -/
def Obligations.HandleOutOfRange : Prop :=
  ∀ (i : Instr) (s : State), s.cfg.legal = true →
    ((∃ h fl mask, cctxCommand i = some (h, fl, mask) ∧ s.cctx.length ≤ h.toNat) ∨
     (∃ h fl, sdCommand i = some (h, fl) ∧ s.sd.length ≤ h.toNat) ∨
     (∃ h fl, feCommand i = some (h, fl) ∧ s.fe.length ≤ h.toNat) ∨
     (∃ h fl, fdCommand i = some (h, fl) ∧ s.fd.length ≤ h.toNat)) →
    exec i s = .next { s with status := 8#8, res0 := 0#64, res1 := 0#64, res2 := 0#64 }

/-- The common checks of the compression-context commands, in R420's order: the handle, the
allocation for every command but `CTX_INIT`, the flags. None changes any state. -/
def Obligations.CompressionContextChecks : Prop :=
  ∀ (i : Instr) (s : State) (h : BitVec 16) (fl mask : Byte), s.cfg.legal = true →
    cctxCommand i = some (h, fl, mask) →
    (s.cctx[h.toNat]? = none →
      exec i s = .next { s with status := 8#8, res0 := 0#64, res1 := 0#64, res2 := 0#64 }) ∧
    (∀ c, s.cctx[h.toNat]? = some c → (∀ lv, i ≠ .ctxInit h fl lv) → c.alloc = false →
      exec i s = .next { s with status := 8#8, res0 := 0#64, res1 := 0#64, res2 := 0#64 }) ∧
    (∀ c, s.cctx[h.toNat]? = some c → ((∃ lv, i = .ctxInit h fl lv) ∨ c.alloc = true) →
      fl &&& ~~~mask ≠ 0#8 →
      exec i s = .next { s with status := 9#8, res0 := 0#64, res1 := 0#64, res2 := 0#64 })

/-- A flag bit a command does not define raises `ReservedFlagSet` and changes no state: the commands
that have no compression context, those that have one being in `CompressionContextChecks` (R167). -/
def Obligations.UndefinedFlagRejected : Prop :=
  ∀ (i : Instr) (s : State), s.cfg.legal = true →
    ((∃ h fl, sdCommand i = some (h, fl) ∧ h.toNat < s.sd.length ∧ fl ≠ 0#8) ∨
     (∃ h fl, feCommand i = some (h, fl) ∧ h.toNat < s.fe.length ∧ fl ≠ 0#8) ∨
     (∃ h fl, fdCommand i = some (h, fl) ∧ h.toNat < s.fd.length ∧ fl ≠ 0#8) ∨
     (∃ h fl n, i = .compressBound h fl n ∧ fl ≠ 0#8) ∨
     (∃ h fl a b c d e f g, i = .blkDecompress h fl a b c d e f g ∧
        (fl.extractLsb' 4 4 ≠ 0#4 ∨ fl.extractLsb' 2 2 = 3#2))) →
    exec i s = .next { s with status := 9#8, res0 := 0#64, res1 := 0#64, res2 := 0#64 }

/-- Result registers of every command: the secondary ones are 0 but for FD_DECODE, and a failing
command leaves `RES0` 0 too, but for the sentinel of a failed block decode (R33, R616). -/
def Obligations.ResultRegisters : Prop :=
  ∀ (i : Instr) (s t : State), isCommand i = true → exec i s = .next t →
    (∀ h fl a b c d e, i ≠ .fdDecode h fl a b c d e) →
    t.res1 = 0#64 ∧ t.res2 = 0#64 ∧
    (t.status ≠ 0#8 → t.res0 = 0#64 ∨
      (t.status = 4#8 ∧ (∃ c : Nat, t.res0 = -(BitVec.ofNat 64 (c + 1))) ∧
        ((∃ h fl a b c d e f g, i = .blkDecompress h fl a b c d e f g) ∨
         (∃ h fl a b c d, i = .blkDecompressContinue h fl a b c d))))

/-- Frame of every command: it changes no context but the one it names, and nothing of the other
streams' working registers, the pending instructions or the parameters (R31, R702). -/
def Obligations.CommandFrame : Prop :=
  ∀ (i : Instr) (s t : State), isCommand i = true → exec i s = .next t →
    t.cfg = s.cfg ∧ t.stream = s.stream ∧ t.queue = s.queue ∧ t.uops = s.uops ∧
    t.bd = s.bd ∧ t.enc = s.enc ∧ t.rcd = s.rcd ∧
    t.cctx.length = s.cctx.length ∧ t.sd.length = s.sd.length ∧
    t.fe.length = s.fe.length ∧ t.fd.length = s.fd.length ∧
    (∀ k : Nat, (∀ h fl mask, cctxCommand i = some (h, fl, mask) → h.toNat ≠ k) →
      t.cctx[k]? = s.cctx[k]?) ∧
    (∀ k : Nat, (∀ h fl, sdCommand i = some (h, fl) → h.toNat ≠ k) → t.sd[k]? = s.sd[k]?) ∧
    (∀ k : Nat, (∀ h fl, feCommand i = some (h, fl) → h.toNat ≠ k) → t.fe[k]? = s.fe[k]?) ∧
    (∀ k : Nat, (∀ h fl, fdCommand i = some (h, fl) → h.toNat ≠ k) → t.fd[k]? = s.fd[k]?)

/-- A command writes host memory only inside its output buffer: every other byte reads as before
(R103). A command with no output buffer writes none. -/
def Obligations.OnlyOutputWritten : Prop :=
  ∀ (i : Instr) (s t : State), s.Inv → isCommand i = true → exec i s = .next t →
    ∀ a, outside a (outputOf i).addr (outputOf i).len → t.mem.read a = s.mem.read a

/-- Every instruction other than a command leaves all of host memory alone. A micro-operation writes no
result register, no decoder and, of the contexts, only the compression context that is selected; a
Sequence changes no context at all, and a result register only to fail; a record changes no context
but the frame decoder that is selected. -/
def Obligations.InternalFrame : Prop :=
  ∀ (i : Instr) (s t : State), isCommand i = false → exec i s = .next t →
    t.cfg = s.cfg ∧ t.mem = s.mem ∧ t.draws = s.draws ∧ t.stream = s.stream ∧ t.queue = s.queue ∧
    t.uops = s.uops ∧ t.sd = s.sd ∧
    (isMicroOp i = true →
      t.status = s.status ∧ t.res0 = s.res0 ∧ t.res1 = s.res1 ∧ t.res2 = s.res2 ∧
      t.fd = s.fd ∧ t.bd = s.bd ∧ t.rcd = s.rcd ∧
      t.enc.sel = s.enc.sel ∧ t.enc.src = s.enc.src ∧ t.enc.opHigh = s.enc.opHigh ∧
      (∀ k : Nat, s.enc.sel ≠ .cctx k → t.cctx[k]? = s.cctx[k]?) ∧
      (∀ k : Nat, s.enc.sel ≠ .fe k → t.fe[k]? = s.fe[k]?) ∧
      (∀ (k : Nat) (f : Fe), s.enc.sel = .fe k → s.fe[k]? = some f →
        ∃ c, t.fe[k]? = some { f with cctx := c })) ∧
    (isSequence i = true →
      t.cctx = s.cctx ∧ t.fe = s.fe ∧ t.fd = s.fd ∧ t.enc = s.enc ∧ t.rcd = s.rcd ∧
      ((t.status = s.status ∧ t.res0 = s.res0 ∧ t.res1 = s.res1 ∧ t.res2 = s.res2) ∨
        t.status = 4#8)) ∧
    (isRecord i = true →
      t.cctx = s.cctx ∧ t.fe = s.fe ∧ t.bd = s.bd ∧ t.enc = s.enc ∧
      t.rcd.h = s.rcd.h ∧ t.rcd.src = s.rcd.src ∧
      (∀ k : Nat, k ≠ s.rcd.h → t.fd[k]? = s.fd[k]?))

/-- A command is refused exactly for what R620 names: an illegal LEVEL_TABLE, a buffer that does not fit
host memory, or buffers that overlap. It is refused for nothing else; an illegal table refuses every
command; and a command that gets as far as using its buffers is refused where one is invalid or where
an input overlaps the output. That an error of the command is raised before its buffers are looked at
is the model's reading (notes/assumptions/15.md), and so is that a prefix dictionary which would begin
below address 0 is a buffer that does not fit (notes/assumptions/41.md). -/
def Obligations.RefusedOnlyForBuffersOrTable : Prop :=
  (∀ (i : Instr) (s : State) (r : Refusal), isCommand i = true → exec i s = .refused r →
    (r = .illegalLevelTable ∧ s.cfg.legal = false) ∨
    (r = .bufferInvalid ∧
      (inputsOf i = none ∨
        ∃ ins, inputsOf i = some ins ∧ ∃ b ∈ outputOf i :: ins, b.valid s.cfg = false)) ∨
    (r = .buffersOverlap ∧
      ∃ ins, inputsOf i = some ins ∧ ∃ b ∈ ins, b.overlaps (outputOf i) = true)) ∧
  (∀ (i : Instr) (s : State), isCommand i = true → s.cfg.legal = false →
    exec i s = .refused .illegalLevelTable) ∧
  (∀ (i : Instr) (s : State), s.cfg.legal = true → usesBuffers s i →
    (inputsOf i = none → exec i s = .refused .bufferInvalid) ∧
    ∀ ins, inputsOf i = some ins →
      ((∃ b ∈ outputOf i :: ins, b.valid s.cfg = false) →
        exec i s = .refused .bufferInvalid) ∧
      ((∀ b ∈ outputOf i :: ins, b.valid s.cfg = true) →
        (∃ b ∈ ins, b.overlaps (outputOf i) = true) → exec i s = .refused .buffersOverlap))

/-- Every command terminates: no host command runs past a step bound or faults otherwise (R731). -/
def Obligations.EveryCommandTerminates : Prop :=
  ∀ (i : Instr) (s : State) (f : Fault), isCommand i = true → exec i s ≠ .fault f

/-! ## Invariants that a step keeps -/

/-- Memory keeps its canonical form at every step of every stream (the form is the model's). -/
def Obligations.StepKeepsMemoryForm : Prop :=
  ∀ s t, s.mem.wf = true → step s = .next t → t.mem.wf = true

/-- The power-on state meets every invariant. -/
def Obligations.ResetMeetsInvariants : Prop := State.reset.Inv

/-- Every host step keeps the compression-context invariants of R49. -/
def Obligations.StepKeepsCompressionContexts : Prop :=
  ∀ s t, s.stream = .host → paramsFit s.cfg → (∀ c ∈ s.cctx, c.Inv s.cfg) → step s = .next t →
    ∀ c ∈ t.cctx, c.Inv t.cfg

/-- Every step of every stream keeps `|sd.hist| ≤ WINDOW_SIZE` (R55), and power-on meets it. -/
def Obligations.StreamHistoryBounded : Prop :=
  (∀ d ∈ State.reset.sd, d.hist.length ≤ windowSize) ∧
  ∀ s t, (∀ d ∈ s.sd, d.hist.length ≤ windowSize) → step s = .next t →
    ∀ d ∈ t.sd, d.hist.length ≤ windowSize

/-- Every host step keeps the frame-encoder invariants (R39, R56, R59 to R62). -/
def Obligations.StepKeepsFrameEncoders : Prop :=
  ∀ s t, s.stream = .host → paramsFit s.cfg → (∀ f ∈ s.fe, f.Inv s.cfg) → step s = .next t →
    ∀ f ∈ t.fe, f.Inv t.cfg

/-- Every step of every stream keeps the frame-decoder invariants: the memory bound of R523, and
R70, R75, R78. -/
def Obligations.StepKeepsFrameDecoders : Prop :=
  ∀ s t, (∀ f ∈ s.fd, f.Inv) → step s = .next t → ∀ f ∈ t.fd, f.Inv

/-! ## Compression contexts -/

/-- CTX_INIT and CTX_RESET: the whole new context; without table memory `AllocationFailed`, CTX_INIT
leaving a context with no tables and CTX_RESET changing nothing (R421, R422). That the memory
compared with `TABLE_MEM_LIMIT` is the tables' alone is the model's reading of R118 and D62
(notes/assumptions/4.md). -/
def Obligations.CtxInitResetMeaning : Prop :=
  ∀ (s : State) (h : BitVec 16) (level : U64) (c : Cctx), s.cfg.legal = true →
    s.cctx[h.toNat]? = some c →
    let row := levelRow s.cfg (clampLevel level.toNat)
    let fresh : State := { s with
      cctx := s.cctx.set h.toNat (cleared true (clampLevel level.toNat) row)
      status := 0#8, res0 := 0#64, res1 := 0#64, res2 := 0#64 }
    (tableMemory row ≤ s.cfg.tableMemLimit →
      exec (.ctxInit h 0#8 level) s = .next fresh ∧
      (c.alloc = true → exec (.ctxReset h 0#8 level) s = .next fresh)) ∧
    (s.cfg.tableMemLimit < tableMemory row →
      (∃ c', exec (.ctxInit h 0#8 level) s = .next { s with
          cctx := s.cctx.set h.toNat c'
          status := 1#8, res0 := 0#64, res1 := 0#64, res2 := 0#64 } ∧
        c'.alloc = false ∧ c'.hashTable = [] ∧ c'.hashTable3 = [] ∧ c'.chainTable = []) ∧
      (c.alloc = true → exec (.ctxReset h 0#8 level) s = .next { s with
        status := 1#8, res0 := 0#64, res1 := 0#64, res2 := 0#64 }))

/-- CTX_FREE: not allocated, no tables, no history, the level kept; freeing a free context raises
`ProtocolViolation` (R423). -/
def Obligations.CtxFreeMeaning : Prop :=
  ∀ (s : State) (h : BitVec 16) (c : Cctx), s.cfg.legal = true → s.cctx[h.toNat]? = some c →
    (c.alloc = true →
      ∃ c', exec (.ctxFree h 0#8) s = .next { s with
          cctx := s.cctx.set h.toNat c'
          status := 0#8, res0 := 0#64, res1 := 0#64, res2 := 0#64 } ∧
        c'.alloc = false ∧ c'.level = c.level ∧
        c'.hashTable = [] ∧ c'.hashTable3 = [] ∧ c'.chainTable = [] ∧ c'.hist = []) ∧
    (c.alloc = false →
      exec (.ctxFree h 0#8) s = .next { s with
        status := 8#8, res0 := 0#64, res1 := 0#64, res2 := 0#64 })

/-- LOAD_DICT: the kept bytes become the history, the position registers are R426's, and the bucket
of every dictionary position with 4 bytes to hash names it or a later one. -/
def Obligations.LoadDictMeaning : Prop :=
  ∀ (s : State) (h : BitVec 16) (a n : U64) (c : Cctx), s.cfg.legal = true →
    s.cctx[h.toNat]? = some c → c.alloc = true → (buffer a n).valid s.cfg = true →
    let d := lastBytes (min n.toNat windowSize) (s.mem.readBytes a.toNat n.toNat)
    ∃ c', exec (.loadDict h 0#8 a n) s = .next { s with
        cctx := s.cctx.set h.toNat c'
        status := 0#8, res0 := BitVec.ofNat 64 (min n.toNat windowSize)
        res1 := 0#64, res2 := 0#64 } ∧
      c'.hist = d ∧ c'.lowLimit.toNat = windowSize ∧
      c'.currentOffset.toNat = windowSize + d.length ∧
      c'.dictLimit.toNat = windowSize + d.length ∧
      c'.nextInsert.toNat = max windowSize (windowSize + d.length - 3) ∧
      c'.lastOff = 0#32 ∧ c'.alloc = true ∧ c'.level = c.level ∧ c'.row = c.row ∧
      ∀ q, windowSize ≤ q → q + 4 ≤ windowSize + d.length →
        q ≤ (c'.hashTable.read (hash4 s.cfg c' [] q)).toNat

/-- SAVE_DICT: the last `min(maxSize, |hist|)` bytes of the history go to memory; no context changes
(R427). -/
def Obligations.SaveDictMeaning : Prop :=
  ∀ (s : State) (h : BitVec 16) (a n : U64) (c : Cctx), s.cfg.legal = true → s.mem.wf = true →
    s.cctx[h.toNat]? = some c → c.alloc = true → (buffer a n).valid s.cfg = true →
    let k := min n.toNat c.hist.length
    ∃ m', exec (.saveDict h 0#8 a n) s = .next { s with
        mem := m'
        status := 0#8, res0 := BitVec.ofNat 64 k, res1 := 0#64, res2 := 0#64 } ∧
      wrote s.mem m' a.toNat (c.hist.drop (c.hist.length - k)) k

/-- SD_RESET: the history becomes the last `min(W2, WINDOW_SIZE)` bytes of the dictionary (R428). -/
def Obligations.SdResetMeaning : Prop :=
  ∀ (s : State) (h : BitVec 16) (a n : U64), s.cfg.legal = true → h.toNat < s.sd.length →
    (buffer a n).valid s.cfg = true →
    exec (.sdReset h 0#8 a n) s = .next { s with
      sd := s.sd.set h.toNat
        ⟨(s.mem.readBytes a.toNat n.toNat).drop (n.toNat - min n.toNat windowSize)⟩
      status := 0#8, res0 := 0#64, res1 := 0#64, res2 := 0#64 }

/-- COMPRESS_BOUND: `n + ⌊n/128⌋ + 16` up to `MAX_INPUT_SIZE`, otherwise `InputTooLarge`; nothing else
changes (R292, R313). -/
def Obligations.CompressBoundMeaning : Prop :=
  ∀ (s : State) (h : BitVec 16) (n : U64), s.cfg.legal = true →
    (n.toNat ≤ s.cfg.maxInputSize →
      exec (.compressBound h 0#8 n) s = .next { s with
        status := 0#8, res0 := BitVec.ofNat 64 (n.toNat + n.toNat / 128 + 16)
        res1 := 0#64, res2 := 0#64 }) ∧
    (s.cfg.maxInputSize < n.toNat →
      exec (.compressBound h 0#8 n) s = .next { s with
        status := 2#8, res0 := 0#64, res1 := 0#64, res2 := 0#64 })

/-! ## The block encoder -/

/-- BLK_COMPRESS and BLK_COMPRESS_CONTINUE: the block of `ENCODE` on the cleared or the continued
context goes to memory with its length in `RES0`; a limited block that does not fit raises
`OutputTooSmall` and still leaves the context as `ENCODE` left it; input size and capacity are checked
first and change nothing (R291, R312, R425). -/
def Obligations.CompressMeaning : Prop :=
  ∀ (s : State) (h : BitVec 16) (fl : Byte) (a n d cap : U64) (c : Cctx), s.cfg.legal = true →
    s.mem.wf = true → s.cctx[h.toNat]? = some c → c.alloc = true → (fl = 0#8 ∨ fl = 1#8) →
    ∀ (i : Instr) (c0 : Cctx),
      (i = .blkCompress h fl a n d cap ∧ c0 = cleared true c.level c.row) ∨
      (i = .blkCompressContinue h fl a n d cap ∧ c0 = c) →
    let e := encodeBlock s.cfg (s.mem.readBytes a.toNat n.toNat) c0
    (s.cfg.maxInputSize < n.toNat →
      exec i s = .next { s with status := 2#8, res0 := 0#64, res1 := 0#64, res2 := 0#64 }) ∧
    (n.toNat ≤ s.cfg.maxInputSize → fl = 0#8 → cap.toNat < n.toNat + n.toNat / 128 + 16 →
      exec i s = .next { s with status := 3#8, res0 := 0#64, res1 := 0#64, res2 := 0#64 }) ∧
    (n.toNat ≤ s.cfg.maxInputSize → buffersOk s.cfg [buffer a n] (buffer d cap) →
      (fl = 0#8 ∧ n.toNat + n.toNat / 128 + 16 ≤ cap.toNat) ∨
        (fl = 1#8 ∧ e.bytes.length ≤ cap.toNat) →
      ∃ m', exec i s = .next { s with
          cctx := s.cctx.set h.toNat e.cctx
          mem := m'
          status := 0#8, res0 := BitVec.ofNat 64 e.bytes.length
          res1 := 0#64, res2 := 0#64 } ∧
        wrote s.mem m' d.toNat e.bytes e.bytes.length) ∧
    (n.toNat ≤ s.cfg.maxInputSize → buffersOk s.cfg [buffer a n] (buffer d cap) → fl = 1#8 →
      cap.toNat < e.bytes.length →
      ∃ m', exec i s = .next { s with
          cctx := s.cctx.set h.toNat e.cctx
          mem := m', draws := s.draws + 1
          status := 3#8, res0 := 0#64, res1 := 0#64, res2 := 0#64 } ∧
        wrote s.mem m' d.toNat [] cap.toNat)

/-- No block is longer than `compressBound` of its input, whatever the strategy, the history and the
tables; and an input shorter than `MFLIMIT + 1` bytes gives a terminal Sequence alone: a mid token, the
literal extension and the input, `lastLen(n)` bytes (R292, R293, R295, R296). -/
def Obligations.EncodeWithinBound : Prop :=
  ∀ (cfg : Config) (src : List Byte) (c : Cctx),
    (encodeBlock cfg src c).bytes.length ≤ src.length + src.length / 128 + 16 ∧
    (src.length < cfg.mfLimit + 1 →
      (encodeBlock cfg src c).bytes =
        [BitVec.ofNat 8 (8 * min src.length 7)] ++
          (if 7 ≤ src.length then
            List.replicate ((src.length - 7) / 255) 255#8 ++
              [BitVec.ofNat 8 ((src.length - 7) % 255)]
           else []) ++ src)

/-- A block decodes to its input against the context's history, for every strategy, every history and
every content of the tables (R22, R201, R293). -/
def Obligations.EncodeThenDecode : Prop :=
  ∀ (cfg : Config) (src : List Byte) (c : Cctx) (cap : Nat), paramsFit cfg → c.Inv cfg →
    src.length ≤ cfg.maxInputSize → src.length ≤ cap →
    (decodeBlock (encodeBlock cfg src c).bytes cap c.hist false false 0).phase = .ended ∧
    (decodeBlock (encodeBlock cfg src c).bytes cap c.hist false false 0).out = src

/-- The packer's round trip: decoding a packed parse with the same dictionary reproduces the input
(R265). -/
def Obligations.PackThenDecode : Prop :=
  ∀ (D src : List Byte) (parse : List Triple) (cap : Nat), parseOk D src 0 parse →
    src.length ≤ cap →
    (decodeBlock (pack src parse).1 cap D false false 0).phase = .ended ∧
    (decodeBlock (pack src parse).1 cap D false false 0).out = src

/-- `HISTORY_UPDATE` at the end of every `ENCODE`: the history is the last `WINDOW_SIZE` bytes of
history and input, which is what the stream decoder keeps, and the position registers follow
(R430, R431, R46). -/
def Obligations.EncodeUpdatesHistory : Prop :=
  ∀ (cfg : Config) (src : List Byte) (c : Cctx), paramsFit cfg → c.Inv cfg →
    src.length ≤ cfg.maxInputSize →
    let c' := (encodeBlock cfg src c).cctx
    c'.hist = lastBytes windowSize (c.hist ++ src) ∧
    c'.dictLimit = c'.currentOffset ∧
    c'.currentOffset.toNat = (if cfg.renormLimit < c.currentOffset.toNat + src.length
      then windowSize + src.length else c.currentOffset.toNat + src.length) ∧
    c'.currentOffset.toNat - c'.lowLimit.toNat = min windowSize (c.hist.length + src.length) ∧
    c'.alloc = c.alloc ∧ c'.level = c.level ∧ c'.row = c.row

/-- RENORM: every stored position lowered by `currentOffset - WINDOW_SIZE`, those at or below it
cleared; chains, tree and history as they were (R424). That the micro-operation works on the
compression context State.enc selects, whatever its `alloc` bit, is the model's choice
(notes/assumptions/12.md, 35.md). -/
def Obligations.RenormMeaning : Prop :=
  ∀ (s : State) (c : Cctx), s.selected s.enc.sel = some c →
    let delta := c.currentOffset.toNat - windowSize
    let lowered := fun (v w : U32) => w.toNat = if delta < v.toNat then v.toNat - delta else 0
    ∃ c', exec .renorm s = .next (s.setSelected s.enc.sel c') ∧
      (∀ k, c.hashTable.wf = true → lowered (c.hashTable.read k) (c'.hashTable.read k)) ∧
      (∀ k, c.hashTable3.wf = true → lowered (c.hashTable3.read k) (c'.hashTable3.read k)) ∧
      c'.chainTable = c.chainTable ∧ c'.hist = c.hist ∧ c'.lastOff = c.lastOff ∧
      c'.lowLimit.toNat = c.lowLimit.toNat - delta ∧
      c'.dictLimit.toNat = c.dictLimit.toNat - delta ∧
      lowered c.nextInsert c'.nextInsert ∧
      c'.currentOffset.toNat = windowSize ∧
      c'.alloc = c.alloc ∧ c'.level = c.level ∧ c'.row = c.row

/-! ## The match finders -/

/-- MF_INSERT: the bucket names the position, the chain entry the distance to the previous
occurrence (0 past `MAX_OFFSET`), the 3-byte bucket too where the level has one (R206). That the
micro-operation works on the compression context State.enc selects, whatever its `alloc` bit and its
STRATEGY, on the current input State.enc holds and on the position in its operand word, is the model's
choice (notes/assumptions/12.md, 35.md, 36.md), and so is that it moves `nextInsert` past the position
(notes/assumptions/13.md). With the default parameters the buckets are the multiplicative hashes of
R202 and R203. -/
def Obligations.MfInsertMeaning : Prop :=
  (∀ (s : State) (p : U32) (c : Cctx), s.selected s.enc.sel = some c →
    c.nextInsert.toNat ≤ p.toNat → c.lowLimit.toNat ≤ p.toNat →
    p.toNat + 4 ≤ c.dictLimit.toNat + s.enc.src.length →
    let k := hash4 s.cfg c s.enc.src p.toNat
    let prev := (c.hashTable.read k).toNat
    exec (.mfInsert p) s = .next (s.setSelected s.enc.sel { c with
      hashTable := c.hashTable.write k p
      chainTable := c.chainTable.write (p.toNat % 2 ^ c.row.contentLog)
        (u32 (if prev = 0 ∨ maxOffset < p.toNat - prev then 0 else p.toNat - prev))
      hashTable3 := if c.row.hash3Log = 0 then c.hashTable3
        else c.hashTable3.write (hash3 s.cfg c s.enc.src p.toNat) p
      nextInsert := p + 1#32 })) ∧
  (∀ (c : Cctx) (src : List Byte) (p : Nat),
    let r := fun j => (ref c src (p + j)).toNat
    hash4 Config.default c src p =
      ((r 0 + 2 ^ 8 * r 1 + 2 ^ 16 * r 2 + 2 ^ 24 * r 3) * 2654435761 % 2 ^ 32) /
        2 ^ (32 - c.row.hashLog) ∧
    hash3 Config.default c src p =
      ((2 ^ 8 * r 0 + 2 ^ 16 * r 1 + 2 ^ 24 * r 2) * 506832829 % 2 ^ 32) /
        2 ^ (32 - c.row.hash3Log))

/-- MF_FIND_BEST and MF_FIND_ALL complete, return matches whose bytes agree, within the bounds of
R205 and R219, in ascending order of length and within `FIND_ALL_CAP`, and change nothing of the
context but its tables and `nextInsert` (R201, R210, R212, R219, R220). They find at least what the
bucket heads give: where the usable head of the 4-byte bucket agrees in at least 4 bytes, or the 3-byte
candidate in at least 3, a match at least as long is returned (R209, R210, R212). That a finder asked
for a `high` below `p` finds nothing is the model's choice (notes/assumptions/39.md). A cap of 0, which
the premise leaves out, is notes/assumptions/42.md. -/
def Obligations.ChainFindersVerified : Prop :=
  ∀ (s : State) (p high minLen : U32) (c : Cctx), s.selected s.enc.sel = some c →
    c.lowLimit.toNat ≤ p.toNat → c.lowLimit.toNat ≤ c.nextInsert.toNat →
    p.toNat + 4 ≤ c.dictLimit.toNat + s.enc.src.length →
    high.toNat ≤ c.dictLimit.toNat + s.enc.src.length → 1 ≤ s.cfg.findAllCap →
    let head := fun (t : Cctx) => (t.hashTable.read (hash4 s.cfg c s.enc.src p.toNat)).toNat
    (∃ c' ms, exec (.mfFindBest p high) s =
        .next ((s.setSelected s.enc.sel c').setEnc { s.enc with found := ms }) ∧
      sameButTables c c' ∧ c'.nextInsert.toNat = max c.nextInsert.toNat p.toNat ∧ ms.length ≤ 1 ∧
      (∀ m ∈ ms, goodMatch c p.toNat m ∧ verified c s.enc.src p.toNat high.toNat m) ∧
      (∀ k, 1 ≤ c.row.searchNum → candidate c p.toNat (head c') → 4 ≤ k →
        agrees c s.enc.src p.toNat (head c') high.toNat k → findsAtLeast ms k) ∧
      (∀ k q, candidate3 s.cfg c c' s.enc.src p.toNat q → 3 ≤ k →
        agrees c s.enc.src p.toNat q high.toNat k → findsAtLeast ms k)) ∧
    (∃ c' ms, exec (.mfFindAll p high minLen) s =
        .next ((s.setSelected s.enc.sel c').setEnc { s.enc with found := ms }) ∧
      sameButTables c c' ∧ c'.nextInsert.toNat = max c.nextInsert.toNat p.toNat ∧
      ascending ms ∧ ms.length ≤ s.cfg.findAllCap ∧
      (∀ m ∈ ms, minLen.toNat ≤ m.length.toNat ∧ goodMatch c p.toNat m ∧
        verified c s.enc.src p.toNat high.toNat m) ∧
      (∀ k, 1 ≤ c.row.searchNum → 2 ≤ s.cfg.findAllCap → candidate c p.toNat (head c') → 4 ≤ k →
        minLen.toNat ≤ k → agrees c s.enc.src p.toNat (head c') high.toNat k →
        findsAtLeast ms k) ∧
      (∀ k q, candidate3 s.cfg c c' s.enc.src p.toNat q → 3 ≤ k → minLen.toNat ≤ k →
        agrees c s.enc.src p.toNat q high.toNat k → findsAtLeast ms k))

/-- BT_INSERT and BT_FIND_ALL complete, BT_INSERT whatever `nextInsert` leaves out below it; a query inserts its own position, returns matches whose bytes
agree, within the bounds of R205 and R219, in ascending order of length and within `FIND_ALL_CAP`, and
changes nothing of the context but its tables and `nextInsert` (R201, R214, R215, R219, R220). It finds
at least what the bucket heads give after the lazy insertion of R207: where the root of the bucket's
tree is usable, no farther than the tree reaches, and agrees in at least 4 bytes, or the 3-byte
candidate in at least 3, a match at least as long is returned (R209, R214). That a finder asked for a
`high` below `p` finds nothing is the model's choice (notes/assumptions/39.md). A cap of 0, which the
premise leaves out, is notes/assumptions/42.md. -/
def Obligations.TreeFinders : Prop :=
  ∀ (s : State) (p high minLen : U32) (c : Cctx), s.selected s.enc.sel = some c →
    c.lowLimit.toNat ≤ p.toNat → c.nextInsert.toNat ≤ p.toNat →
    p.toNat + 4 ≤ c.dictLimit.toNat + s.enc.src.length →
    high.toNat ≤ c.dictLimit.toNat + s.enc.src.length →
    s.enc.opHigh.toNat ≤ c.dictLimit.toNat + s.enc.src.length → 1 ≤ s.cfg.findAllCap →
    let before := insertUpTo (btInsert s.cfg s.enc.src s.enc.opHigh.toNat) p.toNat c
    let root := (before.hashTable.read (hash4 s.cfg c s.enc.src p.toNat)).toNat
    (∃ c', exec (.btInsert p) s = .next (s.setSelected s.enc.sel c') ∧
      sameButTables c c' ∧ c'.nextInsert = p + 1#32 ∧
      c'.hashTable = c.hashTable.write (hash4 s.cfg c s.enc.src p.toNat) p) ∧
    (c.lowLimit.toNat ≤ c.nextInsert.toNat → ∃ c' ms, exec (.btFindAll p high minLen) s =
        .next ((s.setSelected s.enc.sel c').setEnc { s.enc with found := ms }) ∧
      sameButTables c c' ∧ c'.nextInsert = p + 1#32 ∧
      ascending ms ∧ ms.length ≤ s.cfg.findAllCap ∧
      (∀ m ∈ ms, minLen.toNat ≤ m.length.toNat ∧ goodMatch c p.toNat m ∧
        verified c s.enc.src p.toNat high.toNat m) ∧
      (∀ k, 1 ≤ c.row.searchNum → 2 ≤ s.cfg.findAllCap → candidate c p.toNat root →
        p.toNat - root ≤ 2 ^ c.row.contentLog - 1 → 4 ≤ k → minLen.toNat ≤ k →
        agrees c s.enc.src p.toNat root high.toNat k → findsAtLeast ms k) ∧
      (∀ k q, candidate3 s.cfg c before s.enc.src p.toNat q → 3 ≤ k → minLen.toNat ≤ k →
        agrees c s.enc.src p.toNat q high.toNat k → findsAtLeast ms k))

/-! ## The packer -/

/-- EMIT_SEQ: the bytes are those of R260's pseudocode, the class repeat where the distance is the
selected context's `last_off`, short below 1024, mid below 65536 and long otherwise (R148), and
`last_off` becomes the distance. EMIT_LAST: a mid token with match field 0, the literal extension and
the literals (R261). That the literals stand in the current input, the bytes go to the packer's output
and `last_off` is the selected context's is the model's (notes/assumptions/12.md). -/
def Obligations.PackerMeaning : Prop :=
  (∀ (s : State) (st len d ml : U32) (c : Cctx), s.selected s.enc.sel = some c →
    st.toNat + len.toNat ≤ s.enc.src.length → 1 ≤ d.toNat → d.toNat ≤ maxOffset →
    minMatch ≤ ml.toNat →
    exec (.emitSeq st len d ml) s =
      .next ((s.setSelected s.enc.sel { c with lastOff := d }).setEnc { s.enc with
        out := s.enc.out ++
          emitSeqR260 ((s.enc.src.drop st.toNat).take len.toNat) d.toNat ml.toNat
            c.lastOff.toNat })) ∧
  (∀ (s : State) (st len : U32), st.toNat + len.toNat ≤ s.enc.src.length →
    let lits := (s.enc.src.drop st.toNat).take len.toNat
    exec (.emitLast st len) s = .next { s with enc := { s.enc with
      out := s.enc.out ++ [BitVec.ofNat 8 (8 * min lits.length 7)] ++
        (if 7 ≤ lits.length then
          List.replicate ((lits.length - 7) / 255) 255#8 ++
            [BitVec.ofNat 8 ((lits.length - 7) % 255)]
         else []) ++ lits } })

/-! ## The block decoder -/

/-- SEQ_SHORT, SEQ_MID, SEQ_LONG and SEQ_REPEAT: literals, then the match copied byte by byte from the
decoder's reference space, `last_off` updated, `ip` past the Sequence. SEQ_LAST, whatever its token:
the literals, and the decode ends. No flag is set (R366 to R370, R375 to R377). -/
def Obligations.SequenceMeaning : Prop :=
  (∀ (s : State) (i : Instr) (token : Byte) (cls : OffClass) (off : Nat) (lits : List Byte)
      (ml : Nat),
    matchForm s.bd.lastOff.toNat i = some (token, cls, off, lits, ml) → i.wf = true →
    litsGoOn s.bd lits.length →
    1 ≤ off → off ≤ s.bd.out.length + lits.length + s.bd.dict.length →
    s.bd.out.length + lits.length + ml ≤ s.bd.cap →
    ∃ out', exec i s = .next { s with bd := matchDone s.bd token cls lits off ml out' } ∧
      matchRun s.bd.dict (s.bd.out ++ lits) off ml out') ∧
  (∀ (s : State) (cls : OffClass) (hi : BitVec 2) (mf : BitVec 3) (lits : List Byte),
    s.bd.out.length + lits.length ≤ s.bd.cap →
    exec (.seqLast cls hi mf lits) s = .next { s with bd := { s.bd with
      ip := s.bd.ip + lastLen lits.length cls
      out := s.bd.out ++ lits
      token := Sequence.token (.last cls hi mf lits)
      litLen := lits.length
      phase := .ended } })

/-- The failing checks of a Sequence, with their counts. On its output and offset: a literal run past
the capacity, of a terminal Sequence too (counted up to its extension), an offset of 0 or past the
reference space, and a match past the capacity (both counted past the whole Sequence). On its input,
met while the step reads it: no token, a length extension that does not end, a literal run longer than
what is left (counted up to its extension) and missing offset bytes (counted up to the literals).
`STATUS` is `MalformedStream` and `RES0` the sentinel (R364, R365, R371 to R374, R376, R379, R381).
That a Sequence which fails while it is read leaves the working registers but `ip` as before is the
model's choice (notes/assumptions/38.md). -/
def Obligations.SequenceFailures : Prop :=
  (∀ (s : State) (i : Instr) (token : Byte) (cls : OffClass) (off : Nat) (lits : List Byte)
    (ml : Nat), matchForm s.bd.lastOff.toNat i = some (token, cls, off, lits, ml) →
    (s.bd.cap < s.bd.out.length + lits.length →
      ∃ b', exec i s = .next { s with
          bd := b'
          status := 4#8
          res0 := -(BitVec.ofNat 64 (s.bd.ip + 1 + litExt lits.length (litBits cls) + 1))
          res1 := 0#64, res2 := 0#64 } ∧ b'.out = s.bd.out) ∧
    (litsGoOn s.bd lits.length →
      (off = 0 ∨ s.bd.out.length + lits.length + s.bd.dict.length < off ∨
        s.bd.cap < s.bd.out.length + lits.length + ml) →
      ∃ b', exec i s = .next { s with
          bd := b'
          status := 4#8
          res0 := -(BitVec.ofNat 64 (s.bd.ip + seqLen lits.length cls ml + 1))
          res1 := 0#64, res2 := 0#64 } ∧
        b'.phase = .failed (s.bd.ip + seqLen lits.length cls ml) ∧ b'.lastOff = s.bd.lastOff)) ∧
  (∀ (s : State) (cls : OffClass) (hi : BitVec 2) (mf : BitVec 3) (lits : List Byte),
    s.bd.cap < s.bd.out.length + lits.length →
    ∃ b', exec (.seqLast cls hi mf lits) s = .next { s with
        bd := b'
        status := 4#8
        res0 := -(BitVec.ofNat 64 (s.bd.ip + 1 + litExt lits.length (litBits cls) + 1))
        res1 := 0#64, res2 := 0#64 } ∧ b'.out = s.bd.out) ∧
  (∀ (s : State), s.stream = .sequence → s.bd.phase = .running →
    ¬ (s.bd.eoo = true ∧ s.bd.out.length = s.bd.cap) →
    (s.bd.src.drop s.bd.ip = [] → seqFailsAt s 0) ∧
    ∀ (tok : Byte) (r : List Byte), s.bd.src.drop s.bd.ip = tok :: r →
      let f := decodeToken tok
      (f.lit.toNat = litMask f.cls → r = List.replicate r.length 255#8 →
        seqFailsAt s (1 + r.length)) ∧
      ∀ (n : Nat) (ext r2 : List Byte), litRun (litMask f.cls) f.lit.toNat n ext → r = ext ++ r2 →
        (r2.length < n → seqFailsAt s (1 + ext.length)) ∧
        (n ≤ r2.length → litsGoOn s.bd n → (s.bd.eoo = true ∨ n < r2.length) →
          (r2.length < n + offBytes f.cls → seqFailsAt s (1 + ext.length + n)) ∧
          (n + offBytes f.cls ≤ r2.length → f.mf = 7#3 →
            (∀ b ∈ r2.drop (n + offBytes f.cls), b = 255#8) →
            seqFailsAt s (1 + ext.length + r2.length))))

/-- BLK_DECOMPRESS in every mode: the decode of R363 with the dictionary of R361; on success the
output and at most 7 bytes of overshoot are written and `RES0` is `op`, or `ip` in endOnOutput; on
failure the output buffer holds any value and `RES0` is the sentinel; invalid combinations raise
`ProtocolViolation` (R360 to R363, R380 to R382). -/
def Obligations.BlkDecompressMeaning : Prop :=
  ∀ (s : State) (h : BitVec 16) (fl : Byte) (a n d cap x y target : U64), s.cfg.legal = true →
    s.mem.wf = true → fl.extractLsb' 4 4 = 0#4 → fl.extractLsb' 2 2 ≠ 3#2 →
    let i : Instr := .blkDecompress h fl a n d cap x y target
    let b := decodeBlock (s.mem.readBytes a.toNat n.toNat) cap.toNat
      (dictBytes s (fl.extractLsb' 2 2) (buffer d cap) x y) (fl.getLsbD 0) (fl.getLsbD 1)
      target.toNat
    ((fl.getLsbD 0 = true ∧ fl.getLsbD 1 = true) ∨
        (fl.extractLsb' 2 2 = 1#2 ∧ prefixSize < y.toNat) →
      exec i s = .next { s with status := 8#8, res0 := 0#64, res1 := 0#64, res2 := 0#64 }) ∧
    (¬ (fl.getLsbD 0 = true ∧ fl.getLsbD 1 = true) →
      ¬ (fl.extractLsb' 2 2 = 1#2 ∧ prefixSize < y.toNat) →
      ∀ ins, inputsOf i = some ins → buffersOk s.cfg ins (buffer d cap) →
      (b.phase = .ended →
        ∃ m', exec i s = .next { s with
            mem := m', draws := s.draws + 1
            status := 0#8
            res0 := BitVec.ofNat 64 (if fl.getLsbD 0 then b.ip else b.out.length)
            res1 := 0#64, res2 := 0#64 } ∧
          wrote s.mem m' d.toNat b.out (min cap.toNat (b.out.length + 7))) ∧
      (∀ c, b.phase = .failed c →
        ∃ m', exec i s = .next { s with
            mem := m', draws := s.draws + 1
            status := 4#8, res0 := -(BitVec.ofNat 64 (c + 1)), res1 := 0#64, res2 := 0#64 } ∧
          wrote s.mem m' d.toNat [] cap.toNat))

/-- BLK_DECOMPRESS_CONTINUE: the decode against the stream's history, which takes the output on
success and stays as it is on failure (R429). -/
def Obligations.BlkDecompressContinueMeaning : Prop :=
  ∀ (s : State) (h : BitVec 16) (a n d cap : U64) (e : Sd), s.cfg.legal = true →
    s.mem.wf = true → s.sd[h.toNat]? = some e → buffersOk s.cfg [buffer a n] (buffer d cap) →
    let b := decodeBlock (s.mem.readBytes a.toNat n.toNat) cap.toNat e.hist false false 0
    (b.phase = .ended →
      ∃ m', exec (.blkDecompressContinue h 0#8 a n d cap) s = .next { s with
          sd := s.sd.set h.toNat ⟨lastBytes windowSize (e.hist ++ b.out)⟩
          mem := m', draws := s.draws + 1
          status := 0#8, res0 := BitVec.ofNat 64 b.out.length, res1 := 0#64, res2 := 0#64 } ∧
        wrote s.mem m' d.toNat b.out (min cap.toNat (b.out.length + 7))) ∧
    (∀ c, b.phase = .failed c →
      ∃ m', exec (.blkDecompressContinue h 0#8 a n d cap) s = .next { s with
          mem := m', draws := s.draws + 1
          status := 4#8, res0 := -(BitVec.ofNat 64 (c + 1)), res1 := 0#64, res2 := 0#64 } ∧
        wrote s.mem m' d.toNat [] cap.toNat)

/-- Safety of the block decoder for every input: it ends within its bound, never produces more than
`cap` bytes, never reads past the input, and in endOnOutput succeeds only with the output full
(R371, R378, R379, R384, R385). -/
def Obligations.DecodeSafety : Prop :=
  ∀ (src : List Byte) (cap : Nat) (D : List Byte) (eoo part : Bool) (target : Nat),
    let b := decodeBlock src cap D eoo part target
    b.phase ≠ .running ∧ b.out.length ≤ cap ∧ b.ip ≤ src.length ∧
    (∀ c, b.phase = .failed c → c ≤ src.length) ∧
    (b.phase = .ended → eoo = true → part = false → b.out.length = cap) ∧
    (src = [] → eoo = false → b.phase = .failed 0)

/-! ## The frame encoder -/

/-- FE_BEGIN: its checks in R460's order, none changing state; then the whole new encoder, the header
in memory and its size in `RES0` (R39, R460, R461, R463). That the memory compared with
`TABLE_MEM_LIMIT` is the tables' alone is the model's reading of R118 and D62
(notes/assumptions/4.md). -/
def Obligations.FeBeginMeaning : Prop :=
  ∀ (s : State) (h : BitVec 16) (w size level d cap : U64) (f : Fe), s.cfg.legal = true →
    s.mem.wf = true → s.fe[h.toNat]? = some f →
    let i : Instr := .feBegin h 0#8 w size level d cap
    let hsz := if size = 0#64 then 7 else 15
    let lv := clampLevel level.toNat
    let fails := fun (st : Byte) => exec i s =
      .next { s with status := st, res0 := 0#64, res1 := 0#64, res2 := 0#64 }
    let p : Prefs := ⟨if w.extractLsb' 0 3 = 0#3 then 1#3 else w.extractLsb' 0 3,
      w.getLsbD 3, w.getLsbD 4, false, size, lv⟩
    (f.stage = .active → fails 8#8) ∧
    (f.stage ≠ .active → w.extractLsb' 6 58 ≠ 0#58 → fails 9#8) ∧
    (f.stage ≠ .active → w.extractLsb' 6 58 = 0#58 →
      (w.getLsbD 5 = true → fails 8#8) ∧
      (w.getLsbD 5 = false → cap.toNat < hsz → fails 3#8) ∧
      (w.getLsbD 5 = false → hsz ≤ cap.toNat →
        s.cfg.tableMemLimit < tableMemory (levelRow s.cfg lv) → fails 1#8) ∧
      (w.getLsbD 5 = false → hsz ≤ cap.toNat →
        tableMemory (levelRow s.cfg lv) ≤ s.cfg.tableMemLimit →
        buffersOk s.cfg [] (buffer d cap) →
        ∃ m', exec i s = .next { s with
            fe := s.fe.set h.toNat
              ⟨.active, p, cleared true lv (levelRow s.cfg lv), [], [], 0#64, 0#8, true⟩
            mem := m'
            status := 0#8, res0 := BitVec.ofNat 64 hsz, res1 := 0#64, res2 := 0#64 } ∧
          (frameHeader s.cfg p).length = hsz ∧
          wrote s.mem m' d.toNat (frameHeader s.cfg p) hsz))

/-- FE_UPDATE, FE_FLUSH and FE_END on an open frame complete: FE_UPDATE takes its input as content and
writes the records of the `k` blocks it fills, in stream order, keeping the rest in `buf`; FE_FLUSH
writes the record of `buf`, if it holds any byte, and empties it; FE_END does the same, adds the end
mark and the checksum and closes the frame. Each leaves the encoder and writes the bytes that
`EMIT_BLOCK` gives, with their number in `RES0`. FE_END latches `FrameSizeMismatch` instead where the
declared size is not met. `emitBlocks` gives the record of the first `B` bytes, then, from the encoder
that leaves, the records of the other blocks (R464, R465, R466, R468, R469). -/
def Obligations.FrameEncoderMeaning : Prop :=
  ∀ (s : State) (h : BitVec 16) (a n d cap : U64) (f : Fe), s.cfg.legal = true →
    s.mem.wf = true → s.fe[h.toNat]? = some f → f.stage = .active →
    let B := 2 ^ (14 + 2 * f.prefs.blockSizeId.toNat)
    let src := s.mem.readBytes a.toNat n.toNat
    let k := (f.buf.length + n.toNat) / B
    let up := emitBlocks s.cfg B k (f.buf ++ src) (f.accept src)
    let fl := flushBlock s.cfg f
    let flush := if f.buf = [] then 0 else 4 + f.buf.length
    let trailer := [0#8, 0#8, 0#8, 0#8] ++
      (if f.prefs.contentChecksum then leBytes 4 (xxh32 f.content s.cfg.xxhSeed).toNat else [])
    (∀ data g, emitBlocks s.cfg B 0 data g = ⟨[], { g with buf := data }⟩) ∧
    (∀ j data g,
      let e := emitBlock s.cfg (data.take B) g
      let r := emitBlocks s.cfg B j (data.drop B) e.fe
      emitBlocks s.cfg B (j + 1) data g = ⟨e.bytes ++ r.bytes, r.fe⟩) ∧
    (up.fe = { f with
        buf := (f.buf ++ src).drop (k * B)
        content := f.content ++ src
        total := f.total + n
        cctx := up.fe.cctx } ∧
      up.bytes.length ≤ k * (4 + B) ∧ (k = 0 → up.bytes = [] ∧ up.fe.cctx = f.cctx)) ∧
    (fl.fe = { f with buf := [], cctx := fl.fe.cctx } ∧ fl.bytes.length ≤ flush ∧
      (f.buf = [] → fl.bytes = [] ∧ fl.fe = f) ∧
      (f.buf ≠ [] → fl.bytes = (emitBlock s.cfg f.buf f).bytes ∧
        fl.fe.cctx = (emitBlock s.cfg f.buf f).fe.cctx)) ∧
    (k * (4 + B) ≤ cap.toNat → buffersOk s.cfg [buffer a n] (buffer d cap) →
      ∃ m', exec (.feUpdate h 0#8 a n d cap) s = .next { s with
          fe := s.fe.set h.toNat up.fe
          mem := m'
          status := 0#8, res0 := BitVec.ofNat 64 up.bytes.length, res1 := 0#64, res2 := 0#64 } ∧
        wrote s.mem m' d.toNat up.bytes up.bytes.length) ∧
    (flush ≤ cap.toNat → buffersOk s.cfg [] (buffer d cap) →
      ∃ m', exec (.feFlush h 0#8 d cap) s = .next { s with
          fe := s.fe.set h.toNat fl.fe
          mem := m'
          status := 0#8, res0 := BitVec.ofNat 64 fl.bytes.length, res1 := 0#64, res2 := 0#64 } ∧
        wrote s.mem m' d.toNat fl.bytes fl.bytes.length) ∧
    ((f.prefs.contentSize = 0#64 ∨ f.total = f.prefs.contentSize) →
      flush + 4 + (if f.prefs.contentChecksum then 4 else 0) ≤ cap.toNat →
      buffersOk s.cfg [] (buffer d cap) →
      ∃ m', exec (.feEnd h 0#8 d cap) s = .next { s with
          fe := s.fe.set h.toNat { fl.fe with stage := .idle }
          mem := m'
          status := 0#8
          res0 := BitVec.ofNat 64
            (fl.bytes.length + 4 + (if f.prefs.contentChecksum then 4 else 0))
          res1 := 0#64, res2 := 0#64 } ∧
        wrote s.mem m' d.toNat (fl.bytes ++ trailer) 0) ∧
    (f.prefs.contentSize ≠ 0#64 → f.total ≠ f.prefs.contentSize →
      exec (.feEnd h 0#8 d cap) s = .next { s with
        fe := s.fe.set h.toNat { f with stage := .error, err := 7#8 }
        status := 7#8, res0 := 0#64, res1 := 0#64, res2 := 0#64 })

/-- Where FE_UPDATE, FE_FLUSH and FE_END change no state: outside ACTIVE (`ProtocolViolation` in IDLE,
the latched code again in ERROR), and without room for the worst case (`OutputTooSmall`)
(R462, R464, R468, R469, R716). -/
def Obligations.FrameEncoderRejections : Prop :=
  ∀ (s : State) (h : BitVec 16) (a n d cap : U64) (f : Fe), s.cfg.legal = true →
    s.fe[h.toNat]? = some f →
    let B := 2 ^ (14 + 2 * f.prefs.blockSizeId.toNat)
    let flush := if f.buf = [] then 0 else 4 + f.buf.length
    let turnedAway := fun (i : Instr) (st : Byte) =>
      exec i s = .next { s with status := st, res0 := 0#64, res1 := 0#64, res2 := 0#64 }
    (∀ i : Instr, i = .feUpdate h 0#8 a n d cap ∨ i = .feFlush h 0#8 d cap ∨
        i = .feEnd h 0#8 d cap →
      (f.stage = .idle → turnedAway i 8#8) ∧ (f.stage = .error → turnedAway i f.err)) ∧
    (f.stage = .active →
      (cap.toNat < (f.buf.length + n.toNat) / B * (4 + B) →
        turnedAway (.feUpdate h 0#8 a n d cap) 3#8) ∧
      (cap.toNat < flush → turnedAway (.feFlush h 0#8 d cap) 3#8) ∧
      ((f.prefs.contentSize = 0#64 ∨ f.total = f.prefs.contentSize) →
        cap.toNat < flush + 4 + (if f.prefs.contentChecksum then 4 else 0) →
        turnedAway (.feEnd h 0#8 d cap) 3#8))

/-- A block record is the compressed block where that is strictly smaller than the block, and the
stored block otherwise; either fits `4 + |blk|` bytes, and independent mode starts from a cleared
context (R466). -/
def Obligations.BlockRecordForm : Prop :=
  ∀ (cfg : Config) (blk : List Byte) (f : Fe),
    let c := if f.prefs.blockMode then cleared f.cctx.alloc f.cctx.level f.cctx.row else f.cctx
    let e := encodeBlock cfg blk c
    (emitBlock cfg blk f).fe = { f with cctx := e.cctx } ∧
    (e.bytes.length < blk.length →
      (emitBlock cfg blk f).bytes = leBytes 4 e.bytes.length ++ e.bytes) ∧
    (blk.length ≤ e.bytes.length →
      (emitBlock cfg blk f).bytes = leBytes 4 (2 ^ 31 + blk.length) ++ blk) ∧
    (emitBlock cfg blk f).bytes.length ≤ 4 + blk.length

/-- Split invariance: giving the encoder `x ++ y` at once writes the same bytes, and leaves the same
encoder, as giving it `x` and then `y` (R464, R471). -/
def Obligations.SplitInvariance : Prop :=
  ∀ (cfg : Config) (f : Fe) (x y : List Byte), f.buf.length < f.blockSize →
    let upd := fun (g : Fe) (z : List Byte) =>
      emitBlocks cfg g.blockSize ((g.buf.length + z.length) / g.blockSize) (g.buf ++ z)
        (g.accept z)
    (upd f (x ++ y)).bytes = (upd f x).bytes ++ (upd (upd f x).fe y).bytes ∧
    (upd f (x ++ y)).fe = (upd (upd f x).fe y).fe

/-- The decoder accepts every header the encoder writes and latches what it says (R463, R508). -/
def Obligations.EncoderHeaderAccepted : Prop :=
  ∀ (cfg : Config) (p : Prefs), p.blockSizeId ≠ 0#3 →
    headerError cfg (frameHeader cfg p) = none ∧
    headerInfo (frameHeader cfg p) =
      ⟨p.blockMode, p.blockSizeId, 2 ^ (14 + 2 * p.blockSizeId.toNat), p.contentChecksum,
        p.contentSize != 0#64, p.contentSize⟩

/-! ## The frame decoder -/

/-- FD_RESET gives the power-on state of the decoder, in every stage, ERROR too (R500). In ERROR,
FD_DECODE changes no state and returns the latched code with zeros (R503); elsewhere a call at another
offset than the cursor latches `ProtocolViolation`, consuming and producing nothing (R502, R522), as
does every call once the stream is past the last u64 offset (R79, notes/assumptions/24.md). That such
a call writes no byte of its output buffer, where R528 lets the bytes it did not produce hold any
value, is the model's choice (notes/assumptions/23.md). -/
def Obligations.FdResetStickyCursor : Prop :=
  ∀ (s : State) (h : BitVec 16) (pos a n d cap : U64) (f : Fd), s.cfg.legal = true →
    s.fd[h.toNat]? = some f →
    exec (.fdReset h 0#8) s = .next { s with
      fd := s.fd.set h.toNat
        ⟨.getHeader, ⟨false, 0#3, 0, false, false, 0#64⟩, [], 0, [], [], [], 0#64, .anywhere, 0, 0,
          0#8⟩
      status := 0#8, res0 := 0#64, res1 := 0#64, res2 := 0#64 } ∧
    (f.dStage = .error →
      exec (.fdDecode h 0#8 pos a n d cap) s = .next { s with
        status := f.err, res0 := 0#64, res1 := 0#64, res2 := 0#64 }) ∧
    (f.dStage ≠ .error → f.srcExpect ≠ .anywhere → f.srcExpect ≠ .offset pos →
      exec (.fdDecode h 0#8 pos a n d cap) s = .next { s with
        fd := s.fd.set h.toNat { f with err := 8#8, dStage := .error, srcExpect := .offset pos }
        status := 8#8, res0 := 0#64, res1 := 0#64, res2 := 0#64 })

/-- FD_DECODE at the cursor answers a next state, that of the stage machine run on its input bytes with
its output capacity (R504): it consumes at most its input and produces at most its capacity, the
cursor moves by what it consumed and does not wrap, the bytes produced stand at the start of the output
and no byte outside the output buffer changes; a status other than OK is latched with stage ERROR and
hint 0 (R79, R501, R502, R504, R522, R528). A frame record as an instruction is such a call on the
record's bytes, at the decoder's cursor and with the stream's room (the record stream, and where a
record stands that has no offset to stand at, are the model's, notes/assumptions/14.md, 24.md). -/
def Obligations.FdDecodeCompletes : Prop :=
  (∀ (s : State) (h : BitVec 16) (pos a n d cap : U64) (f : Fd), s.cfg.legal = true → s.Inv →
    s.fd[h.toNat]? = some f → f.dStage ≠ .error →
    (f.srcExpect = .anywhere ∨ f.srcExpect = .offset pos) →
    buffersOk s.cfg [buffer a n] (buffer d cap) →
    ∃ (r : FdResult) (m' : Memory),
      fdRun s.cfg f (.offset pos) (s.mem.readBytes a.toNat n.toNat) cap.toNat = some r ∧
      exec (.fdDecode h 0#8 pos a n d cap) s = .next { s with
        fd := s.fd.set h.toNat r.fd
        mem := m', draws := s.draws + 1
        status := r.status, res0 := BitVec.ofNat 64 r.consumed
        res1 := BitVec.ofNat 64 r.out.length, res2 := BitVec.ofNat 64 r.hint } ∧
      r.consumed ≤ n.toNat ∧ r.out.length ≤ cap.toNat ∧
      r.fd.srcExpect = cursorAt (pos.toNat + r.consumed) ∧
      wrote s.mem m' d.toNat r.out cap.toNat ∧
      ((r.status = 0#8 ∧ r.fd.dStage ≠ .error) ∨
        (r.fd.dStage = .error ∧ r.fd.err = r.status ∧ r.status ≠ 0#8 ∧ r.hint = 0))) ∧
  (∀ (i : Instr) (s : State) (f : Fd) (bs : List Byte), encode s.cfg i = .record bs →
    s.fd[s.rcd.h]? = some f → f.Inv → f.dStage ≠ .error →
    ∃ r : FdResult,
      fdRun s.cfg f (cursorPast f 0) bs s.rcd.room = some r ∧ r.consumed ≤ bs.length ∧
      r.out.length ≤ s.rcd.room ∧
      exec i s = .next (afterRecord s f r.fd r.consumed r.out r.status r.hint))

/-- FD_DECODE inside a stored block that the call does not finish: it copies `min(avail, room)` bytes,
accounts for them and returns the hint `remaining + 4` (R514, R520, R521). -/
def Obligations.StoredBlockCopied : Prop :=
  ∀ (s : State) (h : BitVec 16) (pos a n d cap : U64) (f : Fd), s.cfg.legal = true →
    s.mem.wf = true → s.fd[h.toNat]? = some f → f.dStage = .copyDirect →
    (f.srcExpect = .anywhere ∨ f.srcExpect = .offset pos) →
    buffersOk s.cfg [buffer a n] (buffer d cap) → min n.toNat cap.toNat < f.remaining →
    let chunk := (s.mem.readBytes a.toNat n.toNat).take (min n.toNat cap.toNat)
    accountOk f chunk →
    ∃ m', exec (.fdDecode h 0#8 pos a n d cap) s = .next { s with
        fd := s.fd.set h.toNat { accounted f chunk with
          remaining := f.remaining - chunk.length
          srcExpect := cursorAt (pos.toNat + chunk.length) }
        mem := m', draws := s.draws + 1
        status := 0#8, res0 := BitVec.ofNat 64 chunk.length
        res1 := BitVec.ofNat 64 chunk.length
        res2 := BitVec.ofNat 64 (f.remaining - chunk.length + 4) } ∧
      wrote s.mem m' d.toNat chunk cap.toNat

/-- HDR: a legal header with its checksum latches `frameInfo`, empties `content`, `hist` and `total`
and leaves the decoder before a block word with hint 4; with any other checksum byte it fails
`HeaderChecksumInvalid`. A header with an illegal descriptor fails with the error of the first of
R508's checks it does not pass: the version (`UnknownFrameType`), the block checksum
(`ProtocolViolation`), the reserved bits and the block size 0 (`ReservedFlagSet`). A first word that is
no magic number fails `UnknownFrameType`, in FD_DECODE (R505 to R508, R521, R526). Before a block word the
decoder is in the store stage with no byte held, which R504 makes equivalent to its get stage. That it
is left in that stage, where R70 speaks of 1 to 3 bytes, and that `tmpInTarget` (R72) is then 4, is the
model's choice (notes/assumptions/21.md, 20.md); so are the record stream (14.md) and the counter `draws`
of free ranges (7.md). -/
def Obligations.HeaderRecordMeaning : Prop :=
  (∀ (s : State) (f : Fd) (flg bd hc : Byte) (csize : Option U64),
    isSkippable s.cfg s.cfg.magic = false → atRecord s f .header → f.dStage = .getHeader →
    csize.isSome = flg.getLsbD 3 →
    let n := if flg.getLsbD 3 then 15 else 7
    let ok := (xxh32 (covered flg bd csize) s.cfg.xxhSeed >>> s.cfg.hcShift).setWidth 8
    let fails := fun (e : Byte) => exec (.hdr flg bd csize hc) s = .next (afterRecord s f
      { f with
        dStage := .error, err := e
        tmpIn := hdrBytes s.cfg flg bd csize hc, tmpInTarget := n }
      n [] e 0)
    (flg.extractLsb' 6 2 ≠ 1#2 → fails 10#8) ∧
    (flg.extractLsb' 6 2 = 1#2 →
      (flg.getLsbD 4 = true → fails 8#8) ∧
      (flg.getLsbD 4 = false →
        (flg.extractLsb' 0 2 ≠ 0#2 ∨ bd.getLsbD 7 = true ∨ bd.extractLsb' 0 4 ≠ 0#4 ∨
          bd.extractLsb' 4 3 = 0#3 → fails 9#8) ∧
        (flg.extractLsb' 0 2 = 0#2 → bd.getLsbD 7 = false → bd.extractLsb' 0 4 = 0#4 →
          bd.extractLsb' 4 3 ≠ 0#3 →
          (hc = ok →
            exec (.hdr flg bd csize hc) s = .next (afterRecord s f
              { f with
                dStage := .storeCBlockSize, tmpIn := [], tmpInTarget := 4
                frameInfo := infoOf flg bd csize, total := 0#64, content := [], hist := [] }
              n [] 0#8 4)) ∧
          (hc ≠ ok → fails 5#8))))) ∧
  (∀ (s : State) (h : BitVec 16) (pos a n d cap : U64) (f : Fd), s.cfg.legal = true →
    s.mem.wf = true → s.fd[h.toNat]? = some f → f.dStage = .getHeader →
    (f.srcExpect = .anywhere ∨ f.srcExpect = .offset pos) →
    buffersOk s.cfg [buffer a n] (buffer d cap) → 4 ≤ n.toNat →
    let word := BitVec.ofNat 32 (leNat (s.mem.readBytes a.toNat 4))
    word &&& 0xFFFFFFF0#32 ≠ s.cfg.skippableBase → word ≠ s.cfg.magic →
    let used := min n.toNat 7
    ∃ m', exec (.fdDecode h 0#8 pos a n d cap) s = .next { s with
        fd := s.fd.set h.toNat { f with
          dStage := .error, err := 10#8
          tmpIn := s.mem.readBytes a.toNat used, tmpInTarget := 7
          srcExpect := cursorAt (pos.toNat + used) }
        mem := m', draws := s.draws + 1
        status := 10#8, res0 := BitVec.ofNat 64 used, res1 := 0#64, res2 := 0#64 } ∧
      wrote s.mem m' d.toNat [] cap.toNat)

/-- BLK_S: a stored block of a legal size within the room is copied, accounted for, and leaves the
decoder before the next block word with hint 4; of one larger than the room, what fits is copied and
accounted for, and the decoder stays in `copyDirect` with the rest as `remaining` and hint
`remaining + 4`. Where what is copied passes the declared size it fails `FrameSizeMismatch`, consumed but
not produced. A size of 0 (the word `0x80000000`) or above `maxBlockSize` fails `MalformedStream` with
the block word consumed (R511 to R514, R519 to R522). Before a block word the decoder is in the store
stage with no byte held, which R504 makes equivalent to its get stage. That it is left in that stage,
where R70 speaks of 1 to 3 bytes, and that `tmpInTarget` (R72) is then 4, is the model's choice
(notes/assumptions/21.md, 20.md); so is the record stream (14.md). -/
def Obligations.StoredRecordMeaning : Prop :=
  ∀ (s : State) (f : Fd) (payload : List Byte), atRecord s f .blockWord →
    payload.length < 2 ^ 31 →
    (1 ≤ payload.length → payload.length ≤ f.frameInfo.maxBlockSize →
      payload.length ≤ s.rcd.room →
      (accountOk f payload →
        exec (.blkS payload) s = .next (afterRecord s f
          { accounted f payload with
            dStage := .storeCBlockSize, tmpIn := [], tmpInTarget := 4, remaining := 0 }
          (4 + payload.length) payload 0#8 4)) ∧
      (¬ accountOk f payload →
        ∃ f', exec (.blkS payload) s =
            .next (afterRecord s f f' (4 + payload.length) [] 7#8 0) ∧
          f'.dStage = .error ∧ f'.err = 7#8 ∧ f'.content = f.content ∧ f'.hist = f.hist ∧
          f'.total = f.total + BitVec.ofNat 64 payload.length ∧ f'.frameInfo = f.frameInfo)) ∧
    (1 ≤ payload.length → payload.length ≤ f.frameInfo.maxBlockSize →
      s.rcd.room < payload.length →
      let chunk := payload.take s.rcd.room
      (accountOk f chunk →
        ∃ k, exec (.blkS payload) s = .next (afterRecord s f
          { accounted f chunk with
            dStage := .copyDirect, tmpIn := leBytes 4 (2 ^ 31 + payload.length), tmpInTarget := k
            remaining := payload.length - s.rcd.room }
          (4 + s.rcd.room) chunk 0#8 (payload.length - s.rcd.room + 4))) ∧
      (¬ accountOk f chunk →
        ∃ f', exec (.blkS payload) s =
            .next (afterRecord s f f' (4 + s.rcd.room) [] 7#8 0) ∧
          f'.dStage = .error ∧ f'.err = 7#8 ∧ f'.content = f.content ∧ f'.hist = f.hist ∧
          f'.total = f.total + BitVec.ofNat 64 chunk.length ∧ f'.frameInfo = f.frameInfo)) ∧
    (payload = [] ∨ f.frameInfo.maxBlockSize < payload.length →
      ∃ k, exec (.blkS payload) s = .next (afterRecord s f
        { f with
          dStage := .error, err := 4#8
          tmpIn := leBytes 4 (2 ^ 31 + payload.length), tmpInTarget := k }
        4 [] 4#8 0))

/-- BLK_C: a compressed block that decodes (against the history in linked mode, against nothing in
independent mode) is produced, directly or through `tmpOut` as the room allows; one that passes the
declared size fails `FrameSizeMismatch`, consumed but not produced; one that does not decode fails
`MalformedStream`; and so does a size above `maxBlockSize`, with the block word consumed. The hint is 4
where the block is produced whole, the next block word, and where output waits
(R511 to R513, R515 to R517, R519 to R522). Before a block word the decoder is in the store stage with
no byte held, which R504 makes equivalent to its get stage. That it is left in that stage, where R70
speaks of 1 to 3 bytes, and that `tmpInTarget` (R72) is the length of the field last started, is the
model's choice (notes/assumptions/21.md, 20.md); so are that the payload is consumed with no room at all
(37.md), where the decoded block waits (25.md) and the record stream (14.md). -/
def Obligations.CompressedRecordMeaning : Prop :=
  ∀ (s : State) (f : Fd) (payload : List Byte), atRecord s f .blockWord → f.tmpOut = [] →
    1 ≤ payload.length → payload.length < 2 ^ 31 →
    let b := decodeBlock payload f.frameInfo.maxBlockSize
      (if f.frameInfo.blockMode then [] else f.hist) false false 0
    (payload.length ≤ f.frameInfo.maxBlockSize →
      (b.phase = .ended → accountOk f b.out → b.out.length ≤ s.rcd.room →
        exec (.blkC payload) s = .next (afterRecord s f
          { accounted f b.out with
            dStage := .storeCBlockSize, tmpIn := [], tmpInTarget := 4
            cBlockSize := payload.length }
          (4 + payload.length) b.out 0#8 4)) ∧
      (b.phase = .ended → accountOk f b.out → s.rcd.room < b.out.length →
        exec (.blkC payload) s = .next (afterRecord s f
          { accounted f b.out with
            dStage := .flushOut, tmpIn := payload, tmpInTarget := payload.length
            cBlockSize := payload.length, tmpOut := b.out.drop s.rcd.room }
          (4 + payload.length) (b.out.take s.rcd.room) 0#8 4)) ∧
      (b.phase = .ended → ¬ accountOk f b.out →
        exec (.blkC payload) s = .next (afterRecord s f
          { f with
            dStage := .error, err := 7#8, tmpIn := payload, tmpInTarget := payload.length
            cBlockSize := payload.length, total := f.total + BitVec.ofNat 64 b.out.length }
          (4 + payload.length) [] 7#8 0)) ∧
      (∀ c, b.phase = .failed c →
        exec (.blkC payload) s = .next (afterRecord s f
          { f with
            dStage := .error, err := 4#8, tmpIn := payload, tmpInTarget := payload.length
            cBlockSize := payload.length }
          (4 + payload.length) [] 4#8 0))) ∧
    (f.frameInfo.maxBlockSize < payload.length →
      ∃ k, exec (.blkC payload) s = .next (afterRecord s f
        { f with
          dStage := .error, err := 4#8, tmpIn := leBytes 4 payload.length, tmpInTarget := k }
        4 [] 4#8 0))

/-- ENDMARK: `FrameSizeMismatch` where the declared size is not met; otherwise the checksum comes next
(hint 4) or the frame ends (hint 0). CKSUM: the frame ends with hint 0 where the value is XXH32 of the
content, and fails `ContentChecksumInvalid` otherwise (R512, R518, R519, R521, R522, R526). Before the
checksum the decoder is in the store stage with no byte held, which R504 makes equivalent to its get
stage. That it is left in that stage, where R70 speaks of 1 to 3 bytes, and that `tmpInTarget` (R72) is
then 4, is the model's choice (notes/assumptions/21.md, 20.md); so is the record stream (14.md). -/
def Obligations.FrameEndRecords : Prop :=
  (∀ (s : State) (f : Fd), atRecord s f .blockWord →
    let met := f.frameInfo.contentSizeFlag = false ∨ f.frameInfo.contentSize = 0#64 ∨
      f.total = f.frameInfo.contentSize
    (met → f.frameInfo.contentChecksumFlag = true →
      exec .endMark s = .next (afterRecord s f
        { f with dStage := .storeSuffix, tmpIn := [], tmpInTarget := 4 } 4 [] 0#8 4)) ∧
    (met → f.frameInfo.contentChecksumFlag = false →
      ∃ k, exec .endMark s = .next (afterRecord s f
        { f with dStage := .getHeader, tmpIn := [0#8, 0#8, 0#8, 0#8], tmpInTarget := k }
        4 [] 0#8 0)) ∧
    (¬ met →
      ∃ k, exec .endMark s = .next (afterRecord s f
        { f with
          dStage := .error, err := 7#8, tmpIn := [0#8, 0#8, 0#8, 0#8], tmpInTarget := k }
        4 [] 7#8 0))) ∧
  (∀ (s : State) (f : Fd) (v : U32), atRecord s f .suffix →
    (v = xxh32 f.content s.cfg.xxhSeed →
      ∃ k, exec (.cksum v) s = .next (afterRecord s f
        { f with dStage := .getHeader, tmpIn := leBytes 4 v.toNat, tmpInTarget := k }
        4 [] 0#8 0)) ∧
    (v ≠ xxh32 f.content s.cfg.xxhSeed →
      ∃ k, exec (.cksum v) s = .next (afterRecord s f
        { f with
          dStage := .error, err := 6#8, tmpIn := leBytes 4 v.toNat, tmpInTarget := k }
        4 [] 6#8 0)))

/-- SKIP: a skippable frame of any size is consumed whole, nothing is produced, and the decoder is
before the next header with hint 0 (R507, R509, R510). That `tmpInTarget` (R72) is the length of the field
last started, and that the payload is consumed with no room at all, is the model's choice
(notes/assumptions/20.md, 37.md); so is the record stream (14.md). -/
def Obligations.SkipRecordMeaning : Prop :=
  ∀ (s : State) (f : Fd) (low : BitVec 4) (payload : List Byte),
    s.cfg.skippableBase &&& 0xF#32 = 0#32 → atRecord s f .header → f.dStage = .getHeader →
    payload.length < 2 ^ 32 →
    exec (.skip low payload) s = .next (afterRecord s f
      { f with
        tmpIn := (skipBytes s.cfg low payload).take 8, tmpInTarget := 8, remaining := 0 }
      (8 + payload.length) [] 0#8 0)
end

