-- ==== Sys2Proof/Laws/Memory.lean ====
section
/-! SUPPORT. Laws of sparse lists, tables and host memory: read after write, what a write leaves
alone, and that every operation keeps the canonical form. -/

namespace Sys2Proof.Machine

variable {β : Type}

/-! ## Sparse lists -/

theorem sparseSorted_mono {lo lo' : Nat} (h : lo' ≤ lo) :
    ∀ {l : List (Nat × β)}, sparseSorted lo l = true → sparseSorted lo' l = true
  | [], _ => rfl
  | (x, v) :: t, hs => by
    simp only [sparseSorted, Bool.and_eq_true, decide_eq_true_eq] at hs ⊢
    exact ⟨Nat.le_trans h hs.1, hs.2⟩

theorem sparseGet_below {k lo : Nat} (h : k < lo) :
    ∀ {l : List (Nat × β)}, sparseSorted lo l = true → sparseGet k l = none
  | [], _ => rfl
  | (x, v) :: t, hs => by
    simp only [sparseSorted, Bool.and_eq_true, decide_eq_true_eq] at hs
    have hx : k < x := Nat.lt_of_lt_of_le h hs.1
    simp [sparseGet, Nat.ne_of_lt hx, hx]

@[simp] theorem sparseGet_set_same (k : Nat) (v : β) :
    ∀ l : List (Nat × β), sparseGet k (sparseSet k v l) = some v
  | [] => by simp [sparseSet, sparseGet]
  | (x, w) :: t => by
    simp only [sparseSet]
    split
    · simp [sparseGet]
    · split
      · simp [sparseGet]
      · rename_i h1 h2
        simp [sparseGet, h1, h2, sparseGet_set_same k v t]

theorem sparseGet_set_ne {k j : Nat} (h : j ≠ k) (v : β) :
    ∀ l : List (Nat × β), sparseGet j (sparseSet k v l) = sparseGet j l
  | [] => by simp [sparseSet, sparseGet, h]
  | (x, w) :: t => by
    simp only [sparseSet]
    split
    · rename_i hkx
      simp only [sparseGet, h, if_false]
      by_cases hjk : j < k
      · simp [hjk, show j ≠ x by omega, show j < x by omega]
      · simp [hjk]
    · split
      · rename_i h1 h2
        subst h2
        simp [sparseGet, h]
      · simp only [sparseGet, sparseGet_set_ne h v t]

theorem sparseGet_erase_same {k lo : Nat} :
    ∀ {l : List (Nat × β)}, sparseSorted lo l = true → sparseGet k (sparseErase k l) = none
  | [], _ => rfl
  | (x, w) :: t, hs => by
    simp only [sparseSorted, Bool.and_eq_true, decide_eq_true_eq] at hs
    simp only [sparseErase]
    split
    · rename_i h
      simp [sparseGet, Nat.ne_of_lt h, h]
    · split
      · rename_i h1 h2
        exact sparseGet_below (by omega) hs.2
      · rename_i h1 h2
        simp [sparseGet, h1, h2, sparseGet_erase_same hs.2]

theorem sparseGet_erase_ne {k j : Nat} (h : j ≠ k) :
    ∀ {l : List (Nat × β)} {lo : Nat}, sparseSorted lo l = true →
      sparseGet j (sparseErase k l) = sparseGet j l
  | [], _, _ => rfl
  | (x, w) :: t, lo, hs => by
    simp only [sparseSorted, Bool.and_eq_true, decide_eq_true_eq] at hs
    simp only [sparseErase]
    split
    · rfl
    · split
      · rename_i h1 h2
        subst h2
        simp only [sparseGet, h, if_false]
        split
        · exact sparseGet_below (by omega) hs.2
        · rfl
      · simp only [sparseGet, sparseGet_erase_ne h hs.2]

theorem sparseSorted_set {k lo : Nat} (v : β) (h : lo ≤ k) :
    ∀ {l : List (Nat × β)} {lo : Nat}, lo ≤ k → sparseSorted lo l = true →
      sparseSorted lo (sparseSet k v l) = true
  | [], _, hk, _ => by simp [sparseSet, sparseSorted, hk]
  | (x, w) :: t, _, hk, hs => by
    simp only [sparseSorted, Bool.and_eq_true, decide_eq_true_eq] at hs
    simp only [sparseSet]
    split
    · simp only [sparseSorted, Bool.and_eq_true, decide_eq_true_eq]
      exact ⟨hk, by omega, hs.2⟩
    · split
      · rename_i h1 h2
        subst h2
        simp [sparseSorted, hk, hs.2]
      · simp only [sparseSorted, Bool.and_eq_true, decide_eq_true_eq]
        exact ⟨hs.1, sparseSorted_set v h (by omega) hs.2⟩

theorem sparseSorted_erase {k : Nat} :
    ∀ {l : List (Nat × β)} {lo : Nat}, sparseSorted lo l = true →
      sparseSorted lo (sparseErase k l) = true
  | [], _, _ => rfl
  | (x, w) :: t, _, hs => by
    have hs' := hs
    simp only [sparseSorted, Bool.and_eq_true, decide_eq_true_eq] at hs
    simp only [sparseErase]
    split
    · exact hs'
    · split
      · exact sparseSorted_mono (by omega) hs.2
      · simp only [sparseSorted, Bool.and_eq_true, decide_eq_true_eq]
        exact ⟨hs.1, sparseSorted_erase hs.2⟩

theorem sparseSorted_filter (p : Nat × β → Bool) :
    ∀ {l : List (Nat × β)} {lo : Nat}, sparseSorted lo l = true →
      sparseSorted lo (l.filter p) = true
  | [], _, _ => rfl
  | (x, w) :: t, _, hs => by
    simp only [sparseSorted, Bool.and_eq_true, decide_eq_true_eq] at hs
    have ht := sparseSorted_filter p hs.2
    simp only [List.filter_cons]
    split
    · simp [sparseSorted, hs.1, ht]
    · exact sparseSorted_mono (by omega) ht

theorem mem_sparseSet {k : Nat} {v : β} {e : Nat × β} :
    ∀ {l : List (Nat × β)}, e ∈ sparseSet k v l → e = (k, v) ∨ e ∈ l
  | [], he => by simp [sparseSet] at he; exact .inl he
  | (x, w) :: t, he => by
    simp only [sparseSet] at he
    split at he
    · simpa using he
    · split at he
      · simp only [List.mem_cons] at he ⊢
        tauto
      · simp only [List.mem_cons] at he ⊢
        rcases he with he | he
        · exact .inr (.inl he)
        · rcases mem_sparseSet he with h | h <;> tauto

theorem mem_sparseErase {k : Nat} {e : Nat × β} :
    ∀ {l : List (Nat × β)}, e ∈ sparseErase k l → e ∈ l
  | [], he => he
  | (x, w) :: t, he => by
    simp only [sparseErase] at he
    split at he
    · exact he
    · split at he
      · exact List.mem_cons_of_mem _ he
      · simp only [List.mem_cons] at he ⊢
        exact he.imp_right mem_sparseErase

theorem sparseGet_filter_keep {p : Nat × β → Bool} {j : Nat} (hp : ∀ v, p (j, v) = true) :
    ∀ {l : List (Nat × β)} {lo : Nat}, sparseSorted lo l = true →
      sparseGet j (l.filter p) = sparseGet j l
  | [], _, _ => rfl
  | (x, w) :: t, _, hs => by
    simp only [sparseSorted, Bool.and_eq_true, decide_eq_true_eq] at hs
    simp only [List.filter_cons]
    split
    · simp only [sparseGet, sparseGet_filter_keep hp hs.2]
    · rename_i hx
      have hne : j ≠ x := by rintro rfl; exact hx (hp w)
      simp only [sparseGet, hne, if_false]
      split
      · exact sparseGet_below (by omega) (sparseSorted_filter p hs.2)
      · exact sparseGet_filter_keep hp hs.2

/-! ## Tables -/

theorem Table.wf_nil : Table.wf [] = true := rfl

theorem Table.read_write_same {t : Table} (h : t.wf = true) (k : Nat) (v : U32) :
    (t.write k v).read k = v := by
  simp only [Table.wf, Bool.and_eq_true] at h
  simp only [Table.write, Table.read]
  split
  · rename_i hv
    simp [sparseGet_erase_same h.1, hv]
  · simp

theorem Table.read_write_ne {t : Table} (h : t.wf = true) {j k : Nat} (hj : j ≠ k) (v : U32) :
    (t.write k v).read j = t.read j := by
  simp only [Table.wf, Bool.and_eq_true] at h
  simp only [Table.write, Table.read]
  split
  · rw [sparseGet_erase_ne hj h.1]
  · rw [sparseGet_set_ne hj]

theorem Table.wf_write {t : Table} (h : t.wf = true) (k : Nat) (v : U32) : (t.write k v).wf = true := by
  simp only [Table.wf, Bool.and_eq_true, List.all_eq_true] at h ⊢
  simp only [Table.write]
  split
  · exact ⟨sparseSorted_erase h.1, fun e he => h.2 e (mem_sparseErase he)⟩
  · rename_i hv
    refine ⟨sparseSorted_set v (Nat.zero_le k) (Nat.zero_le k) h.1, fun e he => ?_⟩
    rcases mem_sparseSet he with rfl | he
    · simpa using hv
    · exact h.2 e he

/-! ## Host memory -/

theorem Memory.wf_empty : Memory.wf ⟨[], []⟩ = true := rfl

/-- Memory at power-on has the canonical form. -/
theorem reset_mem_wf : State.reset.mem.wf = true := rfl

@[simp] theorem Memory.write_free (m : Memory) (a : Nat) (b : Byte) : (m.write a b).free = m.free := by
  simp only [Memory.write]; split <;> rfl

@[simp] theorem Memory.write_freeAt (m : Memory) (a : Nat) (b : Byte) (j : Nat) :
    (m.write a b).freeAt j = m.freeAt j := by simp [Memory.freeAt]

theorem Memory.wf_sorted {m : Memory} (h : m.wf = true) : sparseSorted 0 m.cells = true := by
  simp only [Memory.wf, Bool.and_eq_true] at h; exact h.1

/-- Read after write. -/
theorem Memory.read_write_same {m : Memory} (h : m.wf = true) (a : Nat) (b : Byte) :
    (m.write a b).read a = b := by
  have hs := Memory.wf_sorted h
  simp only [Memory.write]
  split
  · rename_i hb
    simp [Memory.read, sparseGet_erase_same hs, Memory.unlisted, Memory.freeAt, hb.1]
    have := hb.2
    simp only [Memory.freeAt] at this
    simp [this]
  · simp [Memory.read]

/-- A write leaves every other byte alone. -/
theorem Memory.read_write_ne {m : Memory} (h : m.wf = true) {a j : Nat} (hj : j ≠ a) (b : Byte) :
    (m.write a b).read j = m.read j := by
  have hs := Memory.wf_sorted h
  simp only [Memory.write]
  split
  · simp only [Memory.read, sparseGet_erase_ne hj hs]; rfl
  · simp only [Memory.read, sparseGet_set_ne hj]; rfl

/-- A write keeps the canonical form. -/
theorem Memory.wf_write {m : Memory} (h : m.wf = true) (a : Nat) (b : Byte) :
    (m.write a b).wf = true := by
  have h' := h
  simp only [Memory.wf, Bool.and_eq_true, List.all_eq_true, Bool.or_eq_true] at h ⊢
  simp only [Memory.write_freeAt]
  simp only [Memory.write]
  split
  · exact ⟨sparseSorted_erase h.1, fun e he => h.2 e (mem_sparseErase he)⟩
  · rename_i hb
    refine ⟨sparseSorted_set b (Nat.zero_le a) (Nat.zero_le a) h.1, fun e he => ?_⟩
    rcases mem_sparseSet he with rfl | he
    · by_cases hz : b = 0#8
      · right
        cases hf : m.freeAt a with
        | none => exact absurd ⟨hz, hf⟩ hb
        | some r => rfl
      · left; simpa using hz
    · exact h.2 e he

/-- A block write keeps the canonical form. -/
theorem Memory.wf_writeBytes {m : Memory} (h : m.wf = true) (a : Nat) (bs : List Byte) :
    (m.writeBytes a bs).wf = true := by
  induction bs generalizing m a with
  | nil => exact h
  | cons b t ih => exact ih (Memory.wf_write h a b) (a + 1)

/-- A block write leaves alone every byte outside it. -/
theorem Memory.read_writeBytes_outside {m : Memory} (h : m.wf = true) (a : Nat) (bs : List Byte)
    {j : Nat} (hj : j < a ∨ a + bs.length ≤ j) : (m.writeBytes a bs).read j = m.read j := by
  induction bs generalizing m a with
  | nil => rfl
  | cons b t ih =>
    simp only [Memory.writeBytes, List.length_cons] at hj ⊢
    rw [ih (Memory.wf_write h a b) (a + 1) (by omega), Memory.read_write_ne h (by omega)]

/-- A block write puts its bytes there. -/
theorem Memory.readBytes_writeBytes {m : Memory} (h : m.wf = true) (a : Nat) (bs : List Byte) :
    (m.writeBytes a bs).readBytes a bs.length = bs := by
  induction bs generalizing m a with
  | nil => rfl
  | cons b t ih =>
    simp only [Memory.writeBytes, List.length_cons, Memory.readBytes]
    rw [ih (Memory.wf_write h a b) (a + 1),
      Memory.read_writeBytes_outside (Memory.wf_write h a b) (a + 1) t (by omega),
      Memory.read_write_same h]

/-- A fresh free range leaves alone every byte outside it. -/
theorem Memory.read_writeAny_outside {m : Memory} (h : m.wf = true) (lo len k : Nat) {j : Nat}
    (hj : j < lo ∨ lo + len ≤ j) : (m.writeAny lo len k).read j = m.read j := by
  simp only [Memory.writeAny]
  split
  · rfl
  · have hcells := sparseGet_filter_keep (p := fun c => !(FreeRange.has ⟨lo, len, k⟩ c.1)) (j := j)
      (by intro v; simp [FreeRange.has]; omega) (Memory.wf_sorted h)
    have hfree : (({ cells := m.cells.filter (fun c => !(FreeRange.has ⟨lo, len, k⟩ c.1))
                     free := ⟨lo, len, k⟩ ::
                       m.free.filter (fun r => !(decide (lo ≤ r.lo ∧ r.lo + r.len ≤ lo + len))) } :
                    Memory).freeAt j) = m.freeAt j := by
      simp only [Memory.freeAt]
      rw [List.find?_cons_of_neg (by simp [FreeRange.has]; omega), List.find?_filter]
      congr 1
      funext r
      by_cases hr : r.has j = true
      · have : ¬ (lo ≤ r.lo ∧ r.lo + r.len ≤ lo + len) := by
          simp only [FreeRange.has, decide_eq_true_eq] at hr; omega
        simp [hr, this]
      · simp [Bool.eq_false_iff.mpr hr]
    simp only [Memory.read, hcells, Memory.unlisted, hfree]

/-- A fresh free range keeps the canonical form. -/
theorem Memory.wf_writeAny {m : Memory} (h : m.wf = true) (lo len k : Nat) :
    (m.writeAny lo len k).wf = true := by
  simp only [Memory.writeAny]
  split
  · exact h
  · have h' := h
    simp only [Memory.wf, Bool.and_eq_true, List.all_eq_true, Bool.or_eq_true] at h ⊢
    refine ⟨sparseSorted_filter _ h.1, fun e he => ?_⟩
    simp only [List.mem_filter, FreeRange.has, Bool.not_eq_true', decide_eq_false_iff_not] at he
    rcases h.2 e he.1 with hz | hf
    · exact .inl hz
    · right
      have : (({ cells := m.cells.filter (fun c => !(FreeRange.has ⟨lo, len, k⟩ c.1))
                 free := ⟨lo, len, k⟩ ::
                   m.free.filter (fun r => !(decide (lo ≤ r.lo ∧ r.lo + r.len ≤ lo + len))) } :
                Memory).freeAt e.1) = m.freeAt e.1 := by
        simp only [Memory.freeAt]
        rw [List.find?_cons_of_neg (by simp [FreeRange.has]; omega), List.find?_filter]
        congr 1
        funext r
        by_cases hr : r.has e.1 = true
        · have : ¬ (lo ≤ r.lo ∧ r.lo + r.len ≤ lo + len) := by
            simp only [FreeRange.has, decide_eq_true_eq] at hr; omega
          simp [hr, this]
        · simp [Bool.eq_false_iff.mpr hr]
      exact this ▸ hf

end Sys2Proof.Machine
end

