-- ==== Sys2Proof/Laws/State.lean ====
section
/-! SUPPORT. One lemma per field per update of State: what each field is after it. -/

namespace Sys2Proof.Machine.State

/-! ### `report` -/

@[simp] theorem report_cfg (s : State) (c : Byte) (a b d : U64) :
    (s.report c a b d).cfg = s.cfg := rfl
@[simp] theorem report_status (s : State) (c : Byte) (a b d : U64) :
    (s.report c a b d).status = c := rfl
@[simp] theorem report_res0 (s : State) (c : Byte) (a b d : U64) :
    (s.report c a b d).res0 = a := rfl
@[simp] theorem report_res1 (s : State) (c : Byte) (a b d : U64) :
    (s.report c a b d).res1 = b := rfl
@[simp] theorem report_res2 (s : State) (c : Byte) (a b d : U64) :
    (s.report c a b d).res2 = d := rfl
@[simp] theorem report_cctx (s : State) (c : Byte) (a b d : U64) :
    (s.report c a b d).cctx = s.cctx := rfl
@[simp] theorem report_sd (s : State) (c : Byte) (a b d : U64) :
    (s.report c a b d).sd = s.sd := rfl
@[simp] theorem report_fe (s : State) (c : Byte) (a b d : U64) :
    (s.report c a b d).fe = s.fe := rfl
@[simp] theorem report_fd (s : State) (c : Byte) (a b d : U64) :
    (s.report c a b d).fd = s.fd := rfl
@[simp] theorem report_mem (s : State) (c : Byte) (a b d : U64) :
    (s.report c a b d).mem = s.mem := rfl
@[simp] theorem report_draws (s : State) (c : Byte) (a b d : U64) :
    (s.report c a b d).draws = s.draws := rfl
@[simp] theorem report_stream (s : State) (c : Byte) (a b d : U64) :
    (s.report c a b d).stream = s.stream := rfl
@[simp] theorem report_queue (s : State) (c : Byte) (a b d : U64) :
    (s.report c a b d).queue = s.queue := rfl
@[simp] theorem report_uops (s : State) (c : Byte) (a b d : U64) :
    (s.report c a b d).uops = s.uops := rfl
@[simp] theorem report_bd (s : State) (c : Byte) (a b d : U64) :
    (s.report c a b d).bd = s.bd := rfl
@[simp] theorem report_enc (s : State) (c : Byte) (a b d : U64) :
    (s.report c a b d).enc = s.enc := rfl
@[simp] theorem report_rcd (s : State) (c : Byte) (a b d : U64) :
    (s.report c a b d).rcd = s.rcd := rfl

/-! ### `setMem` -/

@[simp] theorem setMem_cfg (s : State) (m : Memory) :
    (s.setMem m).cfg = s.cfg := rfl
@[simp] theorem setMem_status (s : State) (m : Memory) :
    (s.setMem m).status = s.status := rfl
@[simp] theorem setMem_res0 (s : State) (m : Memory) :
    (s.setMem m).res0 = s.res0 := rfl
@[simp] theorem setMem_res1 (s : State) (m : Memory) :
    (s.setMem m).res1 = s.res1 := rfl
@[simp] theorem setMem_res2 (s : State) (m : Memory) :
    (s.setMem m).res2 = s.res2 := rfl
@[simp] theorem setMem_cctx (s : State) (m : Memory) :
    (s.setMem m).cctx = s.cctx := rfl
@[simp] theorem setMem_sd (s : State) (m : Memory) :
    (s.setMem m).sd = s.sd := rfl
@[simp] theorem setMem_fe (s : State) (m : Memory) :
    (s.setMem m).fe = s.fe := rfl
@[simp] theorem setMem_fd (s : State) (m : Memory) :
    (s.setMem m).fd = s.fd := rfl
@[simp] theorem setMem_mem (s : State) (m : Memory) :
    (s.setMem m).mem = m := rfl
@[simp] theorem setMem_draws (s : State) (m : Memory) :
    (s.setMem m).draws = s.draws := rfl
@[simp] theorem setMem_stream (s : State) (m : Memory) :
    (s.setMem m).stream = s.stream := rfl
@[simp] theorem setMem_queue (s : State) (m : Memory) :
    (s.setMem m).queue = s.queue := rfl
@[simp] theorem setMem_uops (s : State) (m : Memory) :
    (s.setMem m).uops = s.uops := rfl
@[simp] theorem setMem_bd (s : State) (m : Memory) :
    (s.setMem m).bd = s.bd := rfl
@[simp] theorem setMem_enc (s : State) (m : Memory) :
    (s.setMem m).enc = s.enc := rfl
@[simp] theorem setMem_rcd (s : State) (m : Memory) :
    (s.setMem m).rcd = s.rcd := rfl

/-! ### `memWrite` -/

@[simp] theorem memWrite_cfg (s : State) (a : Nat) (bs : List Byte) :
    (s.memWrite a bs).cfg = s.cfg := rfl
@[simp] theorem memWrite_status (s : State) (a : Nat) (bs : List Byte) :
    (s.memWrite a bs).status = s.status := rfl
@[simp] theorem memWrite_res0 (s : State) (a : Nat) (bs : List Byte) :
    (s.memWrite a bs).res0 = s.res0 := rfl
@[simp] theorem memWrite_res1 (s : State) (a : Nat) (bs : List Byte) :
    (s.memWrite a bs).res1 = s.res1 := rfl
@[simp] theorem memWrite_res2 (s : State) (a : Nat) (bs : List Byte) :
    (s.memWrite a bs).res2 = s.res2 := rfl
@[simp] theorem memWrite_cctx (s : State) (a : Nat) (bs : List Byte) :
    (s.memWrite a bs).cctx = s.cctx := rfl
@[simp] theorem memWrite_sd (s : State) (a : Nat) (bs : List Byte) :
    (s.memWrite a bs).sd = s.sd := rfl
@[simp] theorem memWrite_fe (s : State) (a : Nat) (bs : List Byte) :
    (s.memWrite a bs).fe = s.fe := rfl
@[simp] theorem memWrite_fd (s : State) (a : Nat) (bs : List Byte) :
    (s.memWrite a bs).fd = s.fd := rfl
@[simp] theorem memWrite_mem (s : State) (a : Nat) (bs : List Byte) :
    (s.memWrite a bs).mem = s.mem.writeBytes a bs := rfl
@[simp] theorem memWrite_draws (s : State) (a : Nat) (bs : List Byte) :
    (s.memWrite a bs).draws = s.draws := rfl
@[simp] theorem memWrite_stream (s : State) (a : Nat) (bs : List Byte) :
    (s.memWrite a bs).stream = s.stream := rfl
@[simp] theorem memWrite_queue (s : State) (a : Nat) (bs : List Byte) :
    (s.memWrite a bs).queue = s.queue := rfl
@[simp] theorem memWrite_uops (s : State) (a : Nat) (bs : List Byte) :
    (s.memWrite a bs).uops = s.uops := rfl
@[simp] theorem memWrite_bd (s : State) (a : Nat) (bs : List Byte) :
    (s.memWrite a bs).bd = s.bd := rfl
@[simp] theorem memWrite_enc (s : State) (a : Nat) (bs : List Byte) :
    (s.memWrite a bs).enc = s.enc := rfl
@[simp] theorem memWrite_rcd (s : State) (a : Nat) (bs : List Byte) :
    (s.memWrite a bs).rcd = s.rcd := rfl

/-! ### `anyValue` -/

@[simp] theorem anyValue_cfg (s : State) (lo len : Nat) :
    (s.anyValue lo len).cfg = s.cfg := rfl
@[simp] theorem anyValue_status (s : State) (lo len : Nat) :
    (s.anyValue lo len).status = s.status := rfl
@[simp] theorem anyValue_res0 (s : State) (lo len : Nat) :
    (s.anyValue lo len).res0 = s.res0 := rfl
@[simp] theorem anyValue_res1 (s : State) (lo len : Nat) :
    (s.anyValue lo len).res1 = s.res1 := rfl
@[simp] theorem anyValue_res2 (s : State) (lo len : Nat) :
    (s.anyValue lo len).res2 = s.res2 := rfl
@[simp] theorem anyValue_cctx (s : State) (lo len : Nat) :
    (s.anyValue lo len).cctx = s.cctx := rfl
@[simp] theorem anyValue_sd (s : State) (lo len : Nat) :
    (s.anyValue lo len).sd = s.sd := rfl
@[simp] theorem anyValue_fe (s : State) (lo len : Nat) :
    (s.anyValue lo len).fe = s.fe := rfl
@[simp] theorem anyValue_fd (s : State) (lo len : Nat) :
    (s.anyValue lo len).fd = s.fd := rfl
@[simp] theorem anyValue_mem (s : State) (lo len : Nat) :
    (s.anyValue lo len).mem = s.mem.writeAny lo len s.draws := rfl
@[simp] theorem anyValue_draws (s : State) (lo len : Nat) :
    (s.anyValue lo len).draws = s.draws + 1 := rfl
@[simp] theorem anyValue_stream (s : State) (lo len : Nat) :
    (s.anyValue lo len).stream = s.stream := rfl
@[simp] theorem anyValue_queue (s : State) (lo len : Nat) :
    (s.anyValue lo len).queue = s.queue := rfl
@[simp] theorem anyValue_uops (s : State) (lo len : Nat) :
    (s.anyValue lo len).uops = s.uops := rfl
@[simp] theorem anyValue_bd (s : State) (lo len : Nat) :
    (s.anyValue lo len).bd = s.bd := rfl
@[simp] theorem anyValue_enc (s : State) (lo len : Nat) :
    (s.anyValue lo len).enc = s.enc := rfl
@[simp] theorem anyValue_rcd (s : State) (lo len : Nat) :
    (s.anyValue lo len).rcd = s.rcd := rfl

/-! ### `setCctx` -/

@[simp] theorem setCctx_cfg (s : State) (h : Nat) (c : Cctx) :
    (s.setCctx h c).cfg = s.cfg := rfl
@[simp] theorem setCctx_status (s : State) (h : Nat) (c : Cctx) :
    (s.setCctx h c).status = s.status := rfl
@[simp] theorem setCctx_res0 (s : State) (h : Nat) (c : Cctx) :
    (s.setCctx h c).res0 = s.res0 := rfl
@[simp] theorem setCctx_res1 (s : State) (h : Nat) (c : Cctx) :
    (s.setCctx h c).res1 = s.res1 := rfl
@[simp] theorem setCctx_res2 (s : State) (h : Nat) (c : Cctx) :
    (s.setCctx h c).res2 = s.res2 := rfl
@[simp] theorem setCctx_cctx (s : State) (h : Nat) (c : Cctx) :
    (s.setCctx h c).cctx = s.cctx.set h c := rfl
@[simp] theorem setCctx_sd (s : State) (h : Nat) (c : Cctx) :
    (s.setCctx h c).sd = s.sd := rfl
@[simp] theorem setCctx_fe (s : State) (h : Nat) (c : Cctx) :
    (s.setCctx h c).fe = s.fe := rfl
@[simp] theorem setCctx_fd (s : State) (h : Nat) (c : Cctx) :
    (s.setCctx h c).fd = s.fd := rfl
@[simp] theorem setCctx_mem (s : State) (h : Nat) (c : Cctx) :
    (s.setCctx h c).mem = s.mem := rfl
@[simp] theorem setCctx_draws (s : State) (h : Nat) (c : Cctx) :
    (s.setCctx h c).draws = s.draws := rfl
@[simp] theorem setCctx_stream (s : State) (h : Nat) (c : Cctx) :
    (s.setCctx h c).stream = s.stream := rfl
@[simp] theorem setCctx_queue (s : State) (h : Nat) (c : Cctx) :
    (s.setCctx h c).queue = s.queue := rfl
@[simp] theorem setCctx_uops (s : State) (h : Nat) (c : Cctx) :
    (s.setCctx h c).uops = s.uops := rfl
@[simp] theorem setCctx_bd (s : State) (h : Nat) (c : Cctx) :
    (s.setCctx h c).bd = s.bd := rfl
@[simp] theorem setCctx_enc (s : State) (h : Nat) (c : Cctx) :
    (s.setCctx h c).enc = s.enc := rfl
@[simp] theorem setCctx_rcd (s : State) (h : Nat) (c : Cctx) :
    (s.setCctx h c).rcd = s.rcd := rfl

/-! ### `setSd` -/

@[simp] theorem setSd_cfg (s : State) (h : Nat) (d : Sd) :
    (s.setSd h d).cfg = s.cfg := rfl
@[simp] theorem setSd_status (s : State) (h : Nat) (d : Sd) :
    (s.setSd h d).status = s.status := rfl
@[simp] theorem setSd_res0 (s : State) (h : Nat) (d : Sd) :
    (s.setSd h d).res0 = s.res0 := rfl
@[simp] theorem setSd_res1 (s : State) (h : Nat) (d : Sd) :
    (s.setSd h d).res1 = s.res1 := rfl
@[simp] theorem setSd_res2 (s : State) (h : Nat) (d : Sd) :
    (s.setSd h d).res2 = s.res2 := rfl
@[simp] theorem setSd_cctx (s : State) (h : Nat) (d : Sd) :
    (s.setSd h d).cctx = s.cctx := rfl
@[simp] theorem setSd_sd (s : State) (h : Nat) (d : Sd) :
    (s.setSd h d).sd = s.sd.set h d := rfl
@[simp] theorem setSd_fe (s : State) (h : Nat) (d : Sd) :
    (s.setSd h d).fe = s.fe := rfl
@[simp] theorem setSd_fd (s : State) (h : Nat) (d : Sd) :
    (s.setSd h d).fd = s.fd := rfl
@[simp] theorem setSd_mem (s : State) (h : Nat) (d : Sd) :
    (s.setSd h d).mem = s.mem := rfl
@[simp] theorem setSd_draws (s : State) (h : Nat) (d : Sd) :
    (s.setSd h d).draws = s.draws := rfl
@[simp] theorem setSd_stream (s : State) (h : Nat) (d : Sd) :
    (s.setSd h d).stream = s.stream := rfl
@[simp] theorem setSd_queue (s : State) (h : Nat) (d : Sd) :
    (s.setSd h d).queue = s.queue := rfl
@[simp] theorem setSd_uops (s : State) (h : Nat) (d : Sd) :
    (s.setSd h d).uops = s.uops := rfl
@[simp] theorem setSd_bd (s : State) (h : Nat) (d : Sd) :
    (s.setSd h d).bd = s.bd := rfl
@[simp] theorem setSd_enc (s : State) (h : Nat) (d : Sd) :
    (s.setSd h d).enc = s.enc := rfl
@[simp] theorem setSd_rcd (s : State) (h : Nat) (d : Sd) :
    (s.setSd h d).rcd = s.rcd := rfl

/-! ### `setFe` -/

@[simp] theorem setFe_cfg (s : State) (h : Nat) (f : Fe) :
    (s.setFe h f).cfg = s.cfg := rfl
@[simp] theorem setFe_status (s : State) (h : Nat) (f : Fe) :
    (s.setFe h f).status = s.status := rfl
@[simp] theorem setFe_res0 (s : State) (h : Nat) (f : Fe) :
    (s.setFe h f).res0 = s.res0 := rfl
@[simp] theorem setFe_res1 (s : State) (h : Nat) (f : Fe) :
    (s.setFe h f).res1 = s.res1 := rfl
@[simp] theorem setFe_res2 (s : State) (h : Nat) (f : Fe) :
    (s.setFe h f).res2 = s.res2 := rfl
@[simp] theorem setFe_cctx (s : State) (h : Nat) (f : Fe) :
    (s.setFe h f).cctx = s.cctx := rfl
@[simp] theorem setFe_sd (s : State) (h : Nat) (f : Fe) :
    (s.setFe h f).sd = s.sd := rfl
@[simp] theorem setFe_fe (s : State) (h : Nat) (f : Fe) :
    (s.setFe h f).fe = s.fe.set h f := rfl
@[simp] theorem setFe_fd (s : State) (h : Nat) (f : Fe) :
    (s.setFe h f).fd = s.fd := rfl
@[simp] theorem setFe_mem (s : State) (h : Nat) (f : Fe) :
    (s.setFe h f).mem = s.mem := rfl
@[simp] theorem setFe_draws (s : State) (h : Nat) (f : Fe) :
    (s.setFe h f).draws = s.draws := rfl
@[simp] theorem setFe_stream (s : State) (h : Nat) (f : Fe) :
    (s.setFe h f).stream = s.stream := rfl
@[simp] theorem setFe_queue (s : State) (h : Nat) (f : Fe) :
    (s.setFe h f).queue = s.queue := rfl
@[simp] theorem setFe_uops (s : State) (h : Nat) (f : Fe) :
    (s.setFe h f).uops = s.uops := rfl
@[simp] theorem setFe_bd (s : State) (h : Nat) (f : Fe) :
    (s.setFe h f).bd = s.bd := rfl
@[simp] theorem setFe_enc (s : State) (h : Nat) (f : Fe) :
    (s.setFe h f).enc = s.enc := rfl
@[simp] theorem setFe_rcd (s : State) (h : Nat) (f : Fe) :
    (s.setFe h f).rcd = s.rcd := rfl

/-! ### `setFd` -/

@[simp] theorem setFd_cfg (s : State) (h : Nat) (f : Fd) :
    (s.setFd h f).cfg = s.cfg := rfl
@[simp] theorem setFd_status (s : State) (h : Nat) (f : Fd) :
    (s.setFd h f).status = s.status := rfl
@[simp] theorem setFd_res0 (s : State) (h : Nat) (f : Fd) :
    (s.setFd h f).res0 = s.res0 := rfl
@[simp] theorem setFd_res1 (s : State) (h : Nat) (f : Fd) :
    (s.setFd h f).res1 = s.res1 := rfl
@[simp] theorem setFd_res2 (s : State) (h : Nat) (f : Fd) :
    (s.setFd h f).res2 = s.res2 := rfl
@[simp] theorem setFd_cctx (s : State) (h : Nat) (f : Fd) :
    (s.setFd h f).cctx = s.cctx := rfl
@[simp] theorem setFd_sd (s : State) (h : Nat) (f : Fd) :
    (s.setFd h f).sd = s.sd := rfl
@[simp] theorem setFd_fe (s : State) (h : Nat) (f : Fd) :
    (s.setFd h f).fe = s.fe := rfl
@[simp] theorem setFd_fd (s : State) (h : Nat) (f : Fd) :
    (s.setFd h f).fd = s.fd.set h f := rfl
@[simp] theorem setFd_mem (s : State) (h : Nat) (f : Fd) :
    (s.setFd h f).mem = s.mem := rfl
@[simp] theorem setFd_draws (s : State) (h : Nat) (f : Fd) :
    (s.setFd h f).draws = s.draws := rfl
@[simp] theorem setFd_stream (s : State) (h : Nat) (f : Fd) :
    (s.setFd h f).stream = s.stream := rfl
@[simp] theorem setFd_queue (s : State) (h : Nat) (f : Fd) :
    (s.setFd h f).queue = s.queue := rfl
@[simp] theorem setFd_uops (s : State) (h : Nat) (f : Fd) :
    (s.setFd h f).uops = s.uops := rfl
@[simp] theorem setFd_bd (s : State) (h : Nat) (f : Fd) :
    (s.setFd h f).bd = s.bd := rfl
@[simp] theorem setFd_enc (s : State) (h : Nat) (f : Fd) :
    (s.setFd h f).enc = s.enc := rfl
@[simp] theorem setFd_rcd (s : State) (h : Nat) (f : Fd) :
    (s.setFd h f).rcd = s.rcd := rfl

/-! ### `setBd` -/

@[simp] theorem setBd_cfg (s : State) (b : Bd) :
    (s.setBd b).cfg = s.cfg := rfl
@[simp] theorem setBd_status (s : State) (b : Bd) :
    (s.setBd b).status = s.status := rfl
@[simp] theorem setBd_res0 (s : State) (b : Bd) :
    (s.setBd b).res0 = s.res0 := rfl
@[simp] theorem setBd_res1 (s : State) (b : Bd) :
    (s.setBd b).res1 = s.res1 := rfl
@[simp] theorem setBd_res2 (s : State) (b : Bd) :
    (s.setBd b).res2 = s.res2 := rfl
@[simp] theorem setBd_cctx (s : State) (b : Bd) :
    (s.setBd b).cctx = s.cctx := rfl
@[simp] theorem setBd_sd (s : State) (b : Bd) :
    (s.setBd b).sd = s.sd := rfl
@[simp] theorem setBd_fe (s : State) (b : Bd) :
    (s.setBd b).fe = s.fe := rfl
@[simp] theorem setBd_fd (s : State) (b : Bd) :
    (s.setBd b).fd = s.fd := rfl
@[simp] theorem setBd_mem (s : State) (b : Bd) :
    (s.setBd b).mem = s.mem := rfl
@[simp] theorem setBd_draws (s : State) (b : Bd) :
    (s.setBd b).draws = s.draws := rfl
@[simp] theorem setBd_stream (s : State) (b : Bd) :
    (s.setBd b).stream = s.stream := rfl
@[simp] theorem setBd_queue (s : State) (b : Bd) :
    (s.setBd b).queue = s.queue := rfl
@[simp] theorem setBd_uops (s : State) (b : Bd) :
    (s.setBd b).uops = s.uops := rfl
@[simp] theorem setBd_bd (s : State) (b : Bd) :
    (s.setBd b).bd = b := rfl
@[simp] theorem setBd_enc (s : State) (b : Bd) :
    (s.setBd b).enc = s.enc := rfl
@[simp] theorem setBd_rcd (s : State) (b : Bd) :
    (s.setBd b).rcd = s.rcd := rfl

/-! ### `setEnc` -/

@[simp] theorem setEnc_cfg (s : State) (e : Enc) :
    (s.setEnc e).cfg = s.cfg := rfl
@[simp] theorem setEnc_status (s : State) (e : Enc) :
    (s.setEnc e).status = s.status := rfl
@[simp] theorem setEnc_res0 (s : State) (e : Enc) :
    (s.setEnc e).res0 = s.res0 := rfl
@[simp] theorem setEnc_res1 (s : State) (e : Enc) :
    (s.setEnc e).res1 = s.res1 := rfl
@[simp] theorem setEnc_res2 (s : State) (e : Enc) :
    (s.setEnc e).res2 = s.res2 := rfl
@[simp] theorem setEnc_cctx (s : State) (e : Enc) :
    (s.setEnc e).cctx = s.cctx := rfl
@[simp] theorem setEnc_sd (s : State) (e : Enc) :
    (s.setEnc e).sd = s.sd := rfl
@[simp] theorem setEnc_fe (s : State) (e : Enc) :
    (s.setEnc e).fe = s.fe := rfl
@[simp] theorem setEnc_fd (s : State) (e : Enc) :
    (s.setEnc e).fd = s.fd := rfl
@[simp] theorem setEnc_mem (s : State) (e : Enc) :
    (s.setEnc e).mem = s.mem := rfl
@[simp] theorem setEnc_draws (s : State) (e : Enc) :
    (s.setEnc e).draws = s.draws := rfl
@[simp] theorem setEnc_stream (s : State) (e : Enc) :
    (s.setEnc e).stream = s.stream := rfl
@[simp] theorem setEnc_queue (s : State) (e : Enc) :
    (s.setEnc e).queue = s.queue := rfl
@[simp] theorem setEnc_uops (s : State) (e : Enc) :
    (s.setEnc e).uops = s.uops := rfl
@[simp] theorem setEnc_bd (s : State) (e : Enc) :
    (s.setEnc e).bd = s.bd := rfl
@[simp] theorem setEnc_enc (s : State) (e : Enc) :
    (s.setEnc e).enc = e := rfl
@[simp] theorem setEnc_rcd (s : State) (e : Enc) :
    (s.setEnc e).rcd = s.rcd := rfl

/-! ### `setRec` -/

@[simp] theorem setRec_cfg (s : State) (r : Rec) :
    (s.setRec r).cfg = s.cfg := rfl
@[simp] theorem setRec_status (s : State) (r : Rec) :
    (s.setRec r).status = s.status := rfl
@[simp] theorem setRec_res0 (s : State) (r : Rec) :
    (s.setRec r).res0 = s.res0 := rfl
@[simp] theorem setRec_res1 (s : State) (r : Rec) :
    (s.setRec r).res1 = s.res1 := rfl
@[simp] theorem setRec_res2 (s : State) (r : Rec) :
    (s.setRec r).res2 = s.res2 := rfl
@[simp] theorem setRec_cctx (s : State) (r : Rec) :
    (s.setRec r).cctx = s.cctx := rfl
@[simp] theorem setRec_sd (s : State) (r : Rec) :
    (s.setRec r).sd = s.sd := rfl
@[simp] theorem setRec_fe (s : State) (r : Rec) :
    (s.setRec r).fe = s.fe := rfl
@[simp] theorem setRec_fd (s : State) (r : Rec) :
    (s.setRec r).fd = s.fd := rfl
@[simp] theorem setRec_mem (s : State) (r : Rec) :
    (s.setRec r).mem = s.mem := rfl
@[simp] theorem setRec_draws (s : State) (r : Rec) :
    (s.setRec r).draws = s.draws := rfl
@[simp] theorem setRec_stream (s : State) (r : Rec) :
    (s.setRec r).stream = s.stream := rfl
@[simp] theorem setRec_queue (s : State) (r : Rec) :
    (s.setRec r).queue = s.queue := rfl
@[simp] theorem setRec_uops (s : State) (r : Rec) :
    (s.setRec r).uops = s.uops := rfl
@[simp] theorem setRec_bd (s : State) (r : Rec) :
    (s.setRec r).bd = s.bd := rfl
@[simp] theorem setRec_enc (s : State) (r : Rec) :
    (s.setRec r).enc = s.enc := rfl
@[simp] theorem setRec_rcd (s : State) (r : Rec) :
    (s.setRec r).rcd = r := rfl

/-! ### `setSelected`: only compression contexts, a `cctx` or a frame encoder's, change -/

@[simp] theorem setSelected_cfg (s : State) (sel : CtxSel) (c : Cctx) :
    (s.setSelected sel c).cfg = s.cfg := by
  cases sel with
  | cctx h => rfl
  | fe h => simp only [setSelected]; split <;> rfl
@[simp] theorem setSelected_status (s : State) (sel : CtxSel) (c : Cctx) :
    (s.setSelected sel c).status = s.status := by
  cases sel with
  | cctx h => rfl
  | fe h => simp only [setSelected]; split <;> rfl
@[simp] theorem setSelected_res0 (s : State) (sel : CtxSel) (c : Cctx) :
    (s.setSelected sel c).res0 = s.res0 := by
  cases sel with
  | cctx h => rfl
  | fe h => simp only [setSelected]; split <;> rfl
@[simp] theorem setSelected_res1 (s : State) (sel : CtxSel) (c : Cctx) :
    (s.setSelected sel c).res1 = s.res1 := by
  cases sel with
  | cctx h => rfl
  | fe h => simp only [setSelected]; split <;> rfl
@[simp] theorem setSelected_res2 (s : State) (sel : CtxSel) (c : Cctx) :
    (s.setSelected sel c).res2 = s.res2 := by
  cases sel with
  | cctx h => rfl
  | fe h => simp only [setSelected]; split <;> rfl
@[simp] theorem setSelected_sd (s : State) (sel : CtxSel) (c : Cctx) :
    (s.setSelected sel c).sd = s.sd := by
  cases sel with
  | cctx h => rfl
  | fe h => simp only [setSelected]; split <;> rfl
@[simp] theorem setSelected_fd (s : State) (sel : CtxSel) (c : Cctx) :
    (s.setSelected sel c).fd = s.fd := by
  cases sel with
  | cctx h => rfl
  | fe h => simp only [setSelected]; split <;> rfl
@[simp] theorem setSelected_mem (s : State) (sel : CtxSel) (c : Cctx) :
    (s.setSelected sel c).mem = s.mem := by
  cases sel with
  | cctx h => rfl
  | fe h => simp only [setSelected]; split <;> rfl
@[simp] theorem setSelected_draws (s : State) (sel : CtxSel) (c : Cctx) :
    (s.setSelected sel c).draws = s.draws := by
  cases sel with
  | cctx h => rfl
  | fe h => simp only [setSelected]; split <;> rfl
@[simp] theorem setSelected_stream (s : State) (sel : CtxSel) (c : Cctx) :
    (s.setSelected sel c).stream = s.stream := by
  cases sel with
  | cctx h => rfl
  | fe h => simp only [setSelected]; split <;> rfl
@[simp] theorem setSelected_queue (s : State) (sel : CtxSel) (c : Cctx) :
    (s.setSelected sel c).queue = s.queue := by
  cases sel with
  | cctx h => rfl
  | fe h => simp only [setSelected]; split <;> rfl
@[simp] theorem setSelected_uops (s : State) (sel : CtxSel) (c : Cctx) :
    (s.setSelected sel c).uops = s.uops := by
  cases sel with
  | cctx h => rfl
  | fe h => simp only [setSelected]; split <;> rfl
@[simp] theorem setSelected_bd (s : State) (sel : CtxSel) (c : Cctx) :
    (s.setSelected sel c).bd = s.bd := by
  cases sel with
  | cctx h => rfl
  | fe h => simp only [setSelected]; split <;> rfl
@[simp] theorem setSelected_enc (s : State) (sel : CtxSel) (c : Cctx) :
    (s.setSelected sel c).enc = s.enc := by
  cases sel with
  | cctx h => rfl
  | fe h => simp only [setSelected]; split <;> rfl
@[simp] theorem setSelected_rcd (s : State) (sel : CtxSel) (c : Cctx) :
    (s.setSelected sel c).rcd = s.rcd := by
  cases sel with
  | cctx h => rfl
  | fe h => simp only [setSelected]; split <;> rfl

end Sys2Proof.Machine.State
end

