-- ==== Sys2Proof/Laws/Ops.lean ====
section
/-! SUPPORT. One lemma per shared operation: everything it can do when it answers a next state, and
that a prologue never faults on its own. -/

namespace Sys2Proof.Machine

/-! ## Ending a command -/

@[simp] theorem raise_next {e : Err} {s t : State} :
    raise e s = .next t ↔ t = s.report e.code 0#64 0#64 0#64 := by
  simp [raise, eq_comm]

@[simp] theorem raiseLatched_next {c : Byte} {s t : State} :
    raiseLatched c s = .next t ↔ t = s.report c 0#64 0#64 0#64 := by
  simp [raiseLatched, eq_comm]

@[simp] theorem raiseMalformed_next {c : Nat} {s t : State} :
    raiseMalformed c s = .next t ↔ t = s.report 4#8 (sentinel c) 0#64 0#64 := by
  simp [raiseMalformed, Err.code, eq_comm]

@[simp] theorem done_next {r : U64} {s t : State} :
    done r s = .next t ↔ t = s.report 0#8 r 0#64 0#64 := by
  simp [done, statusOk, eq_comm]

/-! ## Hash functions -/

/-- A bucket lies inside its table (R202), for every table R36 allows. -/
theorem hashBucket_lt (f : HashFn) {log : Nat} (h : log ≤ 32) (word : Nat) :
    hashBucket f log word < 2 ^ log := by
  simp only [hashBucket]
  split
  · exact Nat.mod_lt _ (Nat.pow_pos (by decide))
  · rw [Nat.shiftRight_eq_div_pow, Nat.div_lt_iff_lt_mul (Nat.pow_pos (by decide)), ← Nat.pow_add,
      show log + (32 - log) = 32 by omega]
    exact Nat.mod_lt _ (by decide)

/-- Points for every log below `m` and every word below `w` make a hash function the given one there. -/
theorem hashBucket_points {m w : Nat} (g : Nat → Nat → Nat)
    (hg : ∀ log word, log < m → word < w → g log word < 2 ^ log) {log word : Nat} (hl : log < m)
    (hw : word < w) :
    hashBucket ⟨0, (List.range m).flatMap fun i => (List.range w).map fun j => ⟨i, j, g i j⟩⟩ log word
      = g log word := by
  simp only [hashBucket]
  split
  · rename_i e he
    have hmem := List.mem_of_find?_eq_some he
    have hk := List.find?_some he
    simp only [List.mem_flatMap, List.mem_map] at hmem
    obtain ⟨i, -, j, -, rfl⟩ := hmem
    simp only [Bool.and_eq_true, beq_iff_eq] at hk ⊢
    rw [hk.1, hk.2, Nat.mod_eq_of_lt (hg log word hl hw)]
  · rename_i he
    have := List.find?_eq_none.mp he ⟨log, word, g log word⟩ (List.mem_flatMap.mpr
      ⟨log, List.mem_range.mpr hl, List.mem_map.mpr ⟨word, List.mem_range.mpr hw, rfl⟩⟩)
    simp at this

/-- Every function of the table's log and the hashed bytes into `[0, 2^log)` can be configured
(R11, R202, R203). -/
theorem hash_function_any (g : Nat → Nat → Nat)
    (hg : ∀ log word, log < 27 → word < 2 ^ 32 → g log word < 2 ^ log) :
    ∃ f : HashFn, ∀ log word, log < 27 → word < 2 ^ 32 → hashBucket f log word = g log word :=
  ⟨_, fun _ _ => hashBucket_points g hg⟩

/-! ## Prologues -/

theorem command_next {s t : State} {k : Answer} (h : command s k = .next t) :
    s.cfg.legal = true ∧ k = .next t := by
  simp only [command] at h
  split at h
  · exact ⟨‹_›, h⟩
  · cases h

theorem command_legal {s : State} {k : Answer} (h : s.cfg.legal = true) : command s k = k := by
  simp [command, h]

/-- What a command of a compression context does before its own work: two errors that change only
the result registers, or the work on an allocated context. -/
theorem withCctx_next {h : BitVec 16} {fl mask : Byte} {s t : State} {k : Cctx → Answer}
    (hn : withCctx h fl mask s k = .next t) :
    (t = s.report 8#8 0#64 0#64 0#64) ∨ (t = s.report 9#8 0#64 0#64 0#64) ∨
    ∃ c, s.cctx[h.toNat]? = some c ∧ c.alloc = true ∧ flagsWithin fl mask = true ∧ k c = .next t := by
  have hn := (command_next hn).2
  split at hn
  · simp only [raise_next] at hn
    exact .inl hn
  · rename_i c hc
    split at hn
    · exact .inl (raise_next.mp hn)
    · split at hn
      · exact .inr (.inl (raise_next.mp hn))
      · rename_i h1 h2
        exact .inr (.inr ⟨c, hc, by simpa using h1, by simpa using h2, hn⟩)

theorem withSd_next {h : BitVec 16} {fl : Byte} {s t : State} {k : Sd → Answer}
    (hn : withSd h fl s k = .next t) :
    (t = s.report 8#8 0#64 0#64 0#64) ∨ (t = s.report 9#8 0#64 0#64 0#64) ∨
    ∃ d, s.sd[h.toNat]? = some d ∧ flagsWithin fl 0#8 = true ∧ k d = .next t := by
  have hn := (command_next hn).2
  split at hn
  · exact .inl (raise_next.mp hn)
  · rename_i d hd
    split at hn
    · exact .inr (.inl (raise_next.mp hn))
    · rename_i h1
      exact .inr (.inr ⟨d, hd, by simpa using h1, hn⟩)

theorem withFe_next {h : BitVec 16} {fl : Byte} {s t : State} {k : Fe → Answer}
    (hn : withFe h fl s k = .next t) :
    (t = s.report 8#8 0#64 0#64 0#64) ∨ (t = s.report 9#8 0#64 0#64 0#64) ∨
    ∃ f, s.fe[h.toNat]? = some f ∧ flagsWithin fl 0#8 = true ∧ k f = .next t := by
  have hn := (command_next hn).2
  split at hn
  · exact .inl (raise_next.mp hn)
  · rename_i d hd
    split at hn
    · exact .inr (.inl (raise_next.mp hn))
    · rename_i h1
      exact .inr (.inr ⟨d, hd, by simpa using h1, hn⟩)

theorem withFd_next {h : BitVec 16} {fl : Byte} {s t : State} {k : Fd → Answer}
    (hn : withFd h fl s k = .next t) :
    (t = s.report 8#8 0#64 0#64 0#64) ∨ (t = s.report 9#8 0#64 0#64 0#64) ∨
    ∃ f, s.fd[h.toNat]? = some f ∧ flagsWithin fl 0#8 = true ∧ k f = .next t := by
  have hn := (command_next hn).2
  split at hn
  · exact .inl (raise_next.mp hn)
  · rename_i d hd
    split at hn
    · exact .inr (.inl (raise_next.mp hn))
    · rename_i h1
      exact .inr (.inr ⟨d, hd, by simpa using h1, hn⟩)

theorem withActiveFe_next {h : BitVec 16} {fl : Byte} {s t : State} {k : Fe → Answer}
    (hn : withActiveFe h fl s k = .next t) :
    (t = s.report 8#8 0#64 0#64 0#64) ∨ (t = s.report 9#8 0#64 0#64 0#64) ∨
    (∃ f, s.fe[h.toNat]? = some f ∧ f.stage = .error ∧ t = s.report f.err 0#64 0#64 0#64) ∨
    ∃ f, s.fe[h.toNat]? = some f ∧ flagsWithin fl 0#8 = true ∧ f.stage = .active ∧
      k f = .next t := by
  rcases withFe_next hn with h1 | h1 | ⟨f, hf, hfl, hk⟩
  · exact .inl h1
  · exact .inr (.inl h1)
  · split at hk
    · exact .inl (raise_next.mp hk)
    · rename_i hs
      exact .inr (.inr (.inl ⟨f, hf, hs, raiseLatched_next.mp hk⟩))
    · rename_i hs
      exact .inr (.inr (.inr ⟨f, hf, hfl, hs, hk⟩))

/-- A command whose buffers pass R101 and R102 runs; one whose buffers do not is refused. -/
theorem withBuffers_next {cfg : Config} {ins : List Buffer} {out : Buffer} {k : Answer} {t : State}
    (h : withBuffers cfg ins out k = .next t) :
    (∀ b ∈ out :: ins, b.valid cfg = true) ∧ (∀ b ∈ ins, b.overlaps out = false) ∧ k = .next t := by
  simp only [withBuffers] at h
  split at h
  · cases h
  · rename_i h1
    split at h
    · cases h
    · rename_i h2
      refine ⟨fun b hb => ?_, fun b hb => ?_, h⟩
      · exact List.all_eq_true.mp (by simpa only [Bool.not_eq_true', Bool.not_eq_false] using h1) b hb
      · cases hov : b.overlaps out
        · rfl
        · exact absurd (List.any_eq_true.mpr ⟨b, hb, hov⟩) h2

/-- Ending a block decode: it succeeded, or it failed with the sentinel and a free output buffer. -/
theorem finishDecode_next {b : Bd} {dst : Buffer} {s t : State} {ok : Answer}
    (h : finishDecode b dst s ok = .next t) :
    (b.phase = .ended ∧ ok = .next t) ∨
    ∃ c, b.phase = .failed c ∧
      t = (s.anyValue dst.addr dst.len).report 4#8 (sentinel c) 0#64 0#64 := by
  simp only [finishDecode] at h
  split at h
  · exact .inl ⟨‹_›, h⟩
  · rename_i c hc
    exact .inr ⟨c, hc, raiseMalformed_next.mp h⟩
  · cases h

/-- What BLK_COMPRESS and BLK_COMPRESS_CONTINUE can do. -/
theorem compressCommand_next {prep : Cctx → Cctx} {h : BitVec 16} {fl : Byte} {a n d cap : U64}
    {s t : State} (hn : compressCommand prep h fl a n d cap s = .next t) :
    (∃ e, t = s.report e 0#64 0#64 0#64) ∨
    ∃ c, s.cctx[h.toNat]? = some c ∧
      ((limitedFlag fl = true ∧
        cap.toNat < (encodeBlock s.cfg (s.readBuffer (buffer a n)) (prep c)).bytes.length ∧
        t = ((s.setCctx h.toNat (encodeBlock s.cfg (s.readBuffer (buffer a n)) (prep c)).cctx).anyValue
          d.toNat cap.toNat).report 3#8 0#64 0#64 0#64) ∨
       t = ((s.setCctx h.toNat (encodeBlock s.cfg (s.readBuffer (buffer a n)) (prep c)).cctx).memWrite
          d.toNat (encodeBlock s.cfg (s.readBuffer (buffer a n)) (prep c)).bytes).report 0#8
          (BitVec.ofNat 64 (encodeBlock s.cfg (s.readBuffer (buffer a n)) (prep c)).bytes.length)
          0#64 0#64) := by
  rcases withCctx_next hn with h1 | h1 | ⟨c, hc, -, -, hk⟩
  · exact .inl ⟨_, h1⟩
  · exact .inl ⟨_, h1⟩
  · simp only at hk
    split at hk
    · exact .inl ⟨_, raise_next.mp hk⟩
    · split at hk
      · exact .inl ⟨_, raise_next.mp hk⟩
      · have hk := (withBuffers_next hk).2.2
        split at hk
        · rename_i hl
          simp only [Bool.and_eq_true, decide_eq_true_eq] at hl
          exact .inr ⟨c, hc, .inl ⟨hl.1, hl.2, raise_next.mp hk⟩⟩
        · exact .inr ⟨c, hc, .inr (done_next.mp hk)⟩

/-- Giving bytes to the record stream's decoder: the latched code again, or one call. -/
theorem feedBytes_next {bs : List Byte} {s t : State} (h : feedBytes bs s = .next t) :
    ∃ f, s.fd[s.rcd.h]? = some f ∧
      ((f.dStage = .error ∧ t = s.report f.err 0#64 0#64 0#64) ∨
       ∃ r, fdRun s.cfg f f.recordCursor bs s.rcd.room = some r ∧
        t = ((s.setFd s.rcd.h r.fd).setRec (s.rcd.advance r)).reportFd r) := by
  simp only [feedBytes] at h
  split at h
  · cases h
  · rename_i f hf
    refine ⟨f, hf, ?_⟩
    split at h
    · rename_i he
      exact .inl ⟨he, raiseLatched_next.mp h⟩
    · split at h
      · cases h
      · rename_i r hr
        cases h
        exact .inr ⟨r, hr, rfl⟩

/-- The selected context of a micro-operation. -/
theorem withSelected_next {s t : State} {k : Cctx → Answer} (h : withSelected s k = .next t) :
    ∃ c, s.selected s.enc.sel = some c ∧ k c = .next t := by
  simp only [withSelected] at h
  split at h
  · cases h
  · rename_i c hc
    exact ⟨c, hc, h⟩

/-! ## Byte sequences -/

@[simp] theorem length_lastBytes (k : Nat) (bs : List Byte) :
    (lastBytes k bs).length = min k bs.length := by
  simp [lastBytes]; omega

@[simp] theorem length_readBytes (m : Memory) (a n : Nat) : (m.readBytes a n).length = n := by
  induction n generalizing a with
  | zero => rfl
  | succ n ih => simp [Memory.readBytes, ih]

@[simp] theorem length_leBytes (n v : Nat) : (leBytes n v).length = n := by
  induction n generalizing v with
  | zero => rfl
  | succ n ih => simp [leBytes, ih]

@[simp] theorem length_matchCopy (dict : List Byte) (off k : Nat) (out : List Byte) :
    (matchCopy dict off k out).length = out.length + k := by
  induction k generalizing out with
  | zero => rfl
  | succ k ih => simp [matchCopy, ih]; omega

/-- The length extension of a length is as long as R153 says. -/
theorem length_lenExt (n bits : Nat) : (lenExt n (2 ^ bits - 1)).length = litExt n bits := by
  simp only [lenExt, litExt, extBytes]
  split
  · rename_i h
    have : ¬ n < 2 ^ bits - 1 := by omega
    simp [this]; omega
  · rename_i h
    have : n < 2 ^ bits - 1 := by omega
    simp [this]

/-- Reading an extension undoes writing it, whatever follows (R145). -/
theorem readExt_extBytes (e : Nat) (rest : List Byte) :
    readExt (extBytes e ++ rest) = some (e, rest) := by
  have hlt : e % 255 < 255 := Nat.mod_lt _ (by decide)
  have key : ∀ q, readExt (List.replicate q 0xFF#8 ++ ([BitVec.ofNat 8 (e % 255)] ++ rest))
      = some (255 * q + e % 255, rest) := by
    intro q
    induction q with
    | zero =>
      have hne : BitVec.ofNat 8 (e % 255) ≠ 0xFF#8 := by
        intro h
        have := congrArg BitVec.toNat h
        simp at this
        omega
      simp only [List.replicate_zero, List.nil_append, List.cons_append, readExt, hne, if_false]
      simp; omega
    | succ q ih =>
      simp only [List.replicate_succ, List.cons_append, readExt, if_true]
      simp only [List.cons_append] at ih
      rw [ih]
      simp
      omega
  simp only [extBytes, List.append_assoc]
  rw [key]
  have := Nat.div_add_mod e 255
  simp; omega

/-- The little-endian number of the bytes of a number that fits (R108). -/
theorem leNat_leBytes (n v : Nat) (h : v < 256 ^ n) : leNat (leBytes n v) = v := by
  induction n generalizing v with
  | zero => simp at h; simp [leBytes, leNat, h]
  | succ n ih =>
    have : v / 256 < 256 ^ n := by
      rw [Nat.div_lt_iff_lt_mul (by decide)]
      rw [Nat.pow_succ] at h; exact h
    simp only [leBytes, leNat, ih _ this, BitVec.toNat_ofNat]
    omega

@[simp] theorem Match.commit_offset (m : Match) (b : Nat) : (m.commit b).offset = m.offset := rfl

@[simp] theorem Match.commit_length (m : Match) (b : Nat) : (m.commit b).length = m.length := rfl

/-- The committed match holds `b`, and its triple starts `b` bytes earlier and is `b` bytes longer
(R211). -/
theorem Match.triple_commit (m : Match) (i : Nat) {b : Nat} (h : b < 2 ^ 32) :
    (m.commit b).backAdjust.toNat = b ∧
    (m.commit b).triple i = ⟨i - b, m.offset.toNat, m.length.toNat + b⟩ := by
  simp [Match.commit, Match.triple]
  omega

/-- The decode loop does nothing more once the decode is over. -/
theorem bdLoop_idle (k : Nat) (b : Bd) (h : b.phase ≠ .running) : bdLoop k b = b := by
  induction k with
  | zero => rfl
  | succ k ih =>
    have : bdRound b = b := by
      simp only [bdRound, bdFetch]
    simp [bdLoop, this, ih]

end Sys2Proof.Machine
end

