-- ==== Sys2Proof/Tests/Slice0.lean ====
section
/-! SUPPORT. The model's own tests. The expected words, bytes and results are those of
spec/95_test_vectors.md and of the worked examples of the rules, or hand computed from the encodings
of spec/30_encoding.md. The last part shows, for every statement of
Sys2Proof/Certificates/Slice0/Obligations.lean that has hypotheses, concrete values that meet them. -/

namespace Sys2Proof.Tests

set_option Elab.async false

open Sys2Proof.Machine Sys2Proof.Claims

/-! ## Helpers -/

/-- Bytes from numbers. -/
def B (l : List Nat) : List Byte := l.map (BitVec.ofNat 8)

/-- A descriptor from numbers. -/
def D (w0 : Nat) (w1 w2 w3 w4 w5 w6 w7 : Nat := 0) : Descriptor :=
  ⟨BitVec.ofNat 32 w0, BitVec.ofNat 64 w1, BitVec.ofNat 64 w2, BitVec.ofNat 64 w3,
    BitVec.ofNat 64 w4, BitVec.ofNat 64 w5, BitVec.ofNat 64 w6, BitVec.ofNat 64 w7⟩

/-- The next state of an answer. -/
def after : Answer → Option State
  | .next t => some t
  | _ => none

/-- An answer is a next state. -/
def isNext : Answer → Bool
  | .next _ => true
  | _ => false

/-- The fault of an answer. -/
def faultOf : Answer → Option Fault
  | .fault f => some f
  | _ => none

/-- The refusal of an answer. -/
def refusalOf : Answer → Option Refusal
  | .refused r => some r
  | _ => none

theorem next_of_isNext {a : Answer} (h : isNext a = true) : ∃ t, a = .next t := by
  cases a <;> simp_all [isNext]

/-- Status and result registers of an answer. -/
def results (a : Answer) : Option (Byte × Nat × Nat × Nat) :=
  (after a).map fun t => (t.status, t.res0.toNat, t.res1.toNat, t.res2.toNat)

/-- The four results and `n` bytes of memory from `a` on. -/
def resultsAt (x : Answer) (a n : Nat) : Option (Byte × Nat × Nat × Nat × List Byte) :=
  (after x).map fun t =>
    (t.status, t.res0.toNat, t.res1.toNat, t.res2.toNat, t.mem.readBytes a n)

/-- "abcdefgh". -/
def alpha : List Byte := B [0x61, 0x62, 0x63, 0x64, 0x65, 0x66, 0x67, 0x68]

/-- "abcdefghabcdefgh12345", the input of BE1. -/
def text : List Byte := alpha ++ alpha ++ B [0x31, 0x32, 0x33, 0x34, 0x35]

/-- The block of BE1. -/
def be1 : List Byte := B [0x9D, 0x05] ++ alpha ++ B [0x08, 0x28, 0x31, 0x32, 0x33, 0x34, 0x35]

/-- A compression context and a frame encoder at power-on, with the default parameters. -/
def cctx0 : Cctx := Cctx.powerOn Config.default
def fe0 : Fe := Fe.powerOn Config.default

/-- A cleared context of level `k`. -/
def ctx (k : Nat) : Cctx := cctx0.configure Config.default k

/-- A level-2 context in handle 0, `text` at 0x1000 and `be1` at 0x2000. -/
def ready : State :=
  { State.reset with
    cctx := [ctx 2, cctx0]
    mem := (State.reset.mem.writeBytes 0x1000 text).writeBytes 0x2000 be1 }

/-- A state whose encoder works on `text` with a context of level `k`. -/
def encAt (k : Nat) : State := { ready with cctx := [ctx k], enc := ⟨.cctx 0, text, 0x400010, [], []⟩ }

/-- A block decode in progress. -/
def bdAt (out dict : List Byte) (cap lastOff : Nat) : State :=
  { ready with bd := { Bd.start [] cap dict false false 0 with out := out, lastOff := lastOff } }

/-- A frame encoder in use. -/
def feAt (f : Fe) : State := { ready with fe := [f] }

/-- An open frame encoder: independent blocks of 64 KiB, content checksum, level 1. -/
def open1 : Fe := Fe.opened Config.default ⟨1#3, true, true, false, 0#64, 1⟩ fe0

/-- A frame decoder in use, with the record stream on it and room for 64 bytes. -/
def fdAt (f : Fd) : State := { ready with fd := [f], rcd := ⟨0, [], 0, 64, []⟩ }

/-- A frame decoder before a block word; content checksum on, independent blocks of 64 KiB. -/
def inFrame : Fd :=
  { Fd.powerOn with
    dStage := .getCBlockSize
    frameInfo := ⟨true, 1#3, 65536, true, false, 0#64⟩ }

/-! ## Well-formedness: each check refuses an ill-formed term -/

theorem test_wf_flag_bits :
    [Instr.ctxInit 0 1 1, .ctxReset 0 1 1, .ctxFree 0 2, .blkCompress 0 2 0 0 0 0,
      .blkCompressContinue 0 2 0 0 0 0, .blkDecompress 0 0x10 0 0 0 0 0 0 0,
      .blkDecompressContinue 0 1 0 0 0 0, .loadDict 0 1 0 0, .saveDict 0 1 0 0,
      .compressBound 0 1 0, .sdReset 0 1 0 0, .feBegin 0 1 0 0 0 0 0, .feUpdate 0 1 0 0 0 0,
      .feFlush 0 1 0 0, .feEnd 0 1 0 0, .fdReset 0 1, .fdDecode 0 1 0 0 0 0 0].all
      (fun i => !i.wf) = true := by decide

theorem test_wf_decompress :
    [Instr.blkDecompress 1 0 0 0 0 0 0 0 0, .blkDecompress 0 0x0C 0 0 0 0 0 0 0,
      .blkDecompress 0 0x03 0 0 0 0 0 0 0, .blkDecompress 0 0x04 0 0 0 0 0 65537 0].all
      (fun i => !i.wf) = true ∧
    Instr.wf (.blkDecompress 0 0x04 0 0 0 0 0 65536 0) = true := by decide

theorem test_wf_handle_and_prefs :
    Instr.wf (.compressBound 1 0 5) = false ∧ Instr.wf (.feBegin 0 0 0x20 0 0 0 0) = false ∧
    Instr.wf (.feBegin 0 0 0x1F 0 0 0 0) = true := by decide

theorem test_wf_sequences :
    [Instr.emitSeq 0 0 0 3, .emitSeq 0 0 0x400001 3, .emitSeq 0 0 1 2, .seqShort 1 [] 2,
      .seqRepeat [] 2, .seqLong 1 [] 2, .seqMid 1 [] 2, .seqLast .mid 1 0 []].all
      (fun i => !i.wf) = true := by decide

theorem test_wf_records :
    [Instr.hdr 0x24 0x10 none 0, .hdr 0x74 0x10 none 0, .hdr 0x65 0x10 none 0,
      .hdr 0x64 0x00 none 0, .hdr 0x64 0x11 none 0, .hdr 0x64 0x90 none 0,
      .hdr 0x64 0x10 (some 1) 0, .hdr 0x6C 0x10 none 0, .blkC [], .blkS []].all
      (fun i => !i.wf) = true ∧ Instr.wf (.hdr 0x64 0x10 none 0x1C) = true := by decide

/-! ## Decoding: words written out from the encodings -/

theorem test_decode_context_commands :
    decodeCommand (D 0x00020001 7) = .ok (.ctxInit 2 0 7) ∧
    decodeCommand (D 0x00020002 7) = .ok (.ctxReset 2 0 7) ∧
    decodeCommand (D 0x00020003) = .ok (.ctxFree 2 0) ∧
    decodeCommand (D 0x00000106 1 2 3 4) = .ok (.blkCompress 0 1 1 2 3 4) ∧
    decodeCommand (D 0x00010007 1 2 3 4) = .ok (.blkCompressContinue 1 0 1 2 3 4) ∧
    decodeCommand (D 0x0001000A 1 2) = .ok (.loadDict 1 0 1 2) ∧
    decodeCommand (D 0x0001000B 1 2) = .ok (.saveDict 1 0 1 2) ∧
    decodeCommand (D 0x0000000C 5) = .ok (.compressBound 0 0 5) := by decide

theorem test_decode_decoder_commands :
    decodeCommand (D 0x00000908 1 2 3 4 5 6 7) = .ok (.blkDecompress 0 9 1 2 3 4 5 6 7) ∧
    decodeCommand (D 0x00010009 1 2 3 4) = .ok (.blkDecompressContinue 1 0 1 2 3 4) ∧
    decodeCommand (D 0x0001000D 1 2) = .ok (.sdReset 1 0 1 2) ∧
    decodeCommand (D 0x00030018) = .ok (.fdReset 3 0) ∧
    decodeCommand (D 0x00030019 1 2 3 4 5) = .ok (.fdDecode 3 0 1 2 3 4 5) := by decide

theorem test_decode_frame_commands :
    decodeCommand (D 0x00010010 0x19 2 3 4 5) = .ok (.feBegin 1 0 0x19 2 3 4 5) ∧
    decodeCommand (D 0x00010011 1 2 3 4) = .ok (.feUpdate 1 0 1 2 3 4) ∧
    decodeCommand (D 0x00010012 1 2) = .ok (.feFlush 1 0 1 2) ∧
    decodeCommand (D 0x00010013 1 2) = .ok (.feEnd 1 0 1 2) := by decide

/-- EX1 to EX4 and the edges of the reserved space. -/
theorem test_decode_reserved :
    [0x00, 0x04, 0x05, 0x0E, 0x0F, 0x14, 0x17, 0x1A, 0x3F, 0x48, 0xFF].all
      (fun w => decide (decodeCommand (D w) = .error .reservedOpcode)) = true ∧
    [0x40, 0x45, 0x47].all
      (fun w => decide (decodeCommand (D w) = .error .microOpcode)) = true := by
  decide +kernel

theorem test_decode_uops :
    decodeUop (D 0x40 1) = some (.mfInsert 1) ∧ decodeUop (D 0x41 1 2) = some (.mfFindBest 1 2) ∧
    decodeUop (D 0x42 1 2 3) = some (.mfFindAll 1 2 3) ∧ decodeUop (D 0x43 1) = some (.btInsert 1) ∧
    decodeUop (D 0x44 1 2 3) = some (.btFindAll 1 2 3) ∧ decodeUop (D 0x45) = some .renorm ∧
    decodeUop (D 0x46 1 2 3 4) = some (.emitSeq 1 2 3 4) ∧
    decodeUop (D 0x47 1 2) = some (.emitLast 1 2) ∧ decodeUop (D 0x48) = none := by decide

/-- V-TK. -/
theorem test_tokens :
    decodeToken 0x28 = ⟨5, .mid, 0, 0⟩ ∧ decodeToken 0x3F = ⟨7, .mid, 7, 0⟩ ∧
    decodeToken 0x40 = ⟨0, .long, 0, 0⟩ ∧ decodeToken 0x5F = ⟨3, .long, 7, 0⟩ ∧
    decodeToken 0x60 = ⟨0, .rep, 0, 0⟩ ∧ decodeToken 0x7F = ⟨3, .rep, 7, 0⟩ ∧
    decodeToken 0x80 = ⟨0, .short, 0, 0⟩ ∧ decodeToken 0x9D = ⟨3, .short, 5, 0⟩ ∧
    decodeToken 0xE7 = ⟨0, .short, 7, 3⟩ ∧ decodeToken 0xFF = ⟨3, .short, 7, 3⟩ := by decide

/-- V-XT. -/
theorem test_extensions :
    extBytes 0 = B [0] ∧ extBytes 254 = B [0xFE] ∧ extBytes 255 = B [0xFF, 0] ∧
    extBytes 509 = B [0xFF, 0xFE] ∧ extBytes 765 = B [0xFF, 0xFF, 0xFF, 0] := by decide

/-- PK3, PK4, PK6, PK8, PK9 read back, and PL4. -/
theorem test_decode_sequences :
    decodeSeq ⟨400, false, none⟩ (B [0xE7, 0xFF, 0x00, 0x00]) = .seq (.short 1023 [] 10) 3 ∧
    decodeSeq ⟨400, false, none⟩ (B [0xA7, 0x2C, 0xFF, 0x00, 0x00]) = .seq (.short 300 [] 265) 4 ∧
    decodeSeq ⟨400, false, none⟩
      (B [0x38, 0, 0x61, 0x62, 0x63, 0x64, 0x65, 0x66, 0x67, 0xFF, 0xFF, 0])
      = .seq (.mid 65535 (alpha.take 7) 3) 11 ∧
    decodeSeq ⟨400, false, none⟩ (B [0x47, 0x00, 0x00, 0x40, 0x07, 0x00])
      = .seq (.long 0x400000 [] 17) 5 ∧
    decodeSeq ⟨400, false, none⟩ (B [0x77, 0x78, 0x79, 0x02, 0x00])
      = .seq (.rep (B [0x78, 0x79]) 12) 4 ∧
    decodeSeq ⟨400, false, none⟩ (B [0x38, 0x00] ++ alpha.take 7)
      = .seq (.last .mid 0 0 (alpha.take 7)) 9 := by decide +kernel

theorem test_decode_records :
    decodeRecord Config.default .header (B [0x05, 0x22, 0x4D, 0x18, 0x64, 0x10, 0x1C, 0xAA])
      = .record (.hdr 0x64 0x10 none 0x1C) 7 ∧
    decodeRecord Config.default .header
      (B [0x05, 0x22, 0x4D, 0x18, 0x48, 0x10, 0x10, 0, 0, 0, 0, 0, 0, 0, 0x89])
      = .record (.hdr 0x48 0x10 (some 16) 0x89) 15 ∧
    decodeRecord Config.default .header
      (B [0x5F, 0x2A, 0x4D, 0x18, 0x03, 0, 0, 0, 0xAA, 0xBB, 0xCC])
      = .record (.skip 15 (B [0xAA, 0xBB, 0xCC])) 11 ∧
    decodeRecord Config.default .header (B [0, 0, 0, 0]) = .unknownMagic ∧
    decodeRecord Config.default .blockWord (B [0, 0, 0, 0]) = .record .endMark 4 ∧
    decodeRecord Config.default .blockWord (B [2, 0, 0, 0, 0x80, 0x05])
      = .record (.blkC (B [0x80, 0x05])) 6 ∧
    decodeRecord Config.default .blockWord (B [1, 0, 0, 0x80, 0x41])
      = .record (.blkS (B [0x41])) 5 ∧
    decodeRecord Config.default .suffix (B [0x55, 0x6E, 0xF9, 0xB3])
      = .record (.cksum 0xB3F96E55) 4 := by decide +kernel

/-- A table word of each stream, placed and run as the first instruction after reset. -/
theorem test_table_words :
    decodeTableWord 8 0x01 = some (.ctxInit 0 0 0) ∧ decodeTableWord 8 0x47 = some (.emitLast 0 0) ∧
    decodeTableWord 8 0x80 = some (.seqShort 0 [] 3) ∧
    decodeTableWord 32 0x184D2205 = some (.hdr 0 0 none 0) ∧
    decodeTableWord 32 0 = some .endMark ∧
    results (step (State.reset.withFetchWord 8 0x01)) = some (0, 0, 0, 0) ∧
    results (step (State.reset.withFetchWord 8 0x80)) = some (4, 2 ^ 64 - 3, 0, 0) := by
  decide +kernel

/-! ## Packing and acceptance -/

/-- PK1, PK2, PK5, PK7, PK9, PK10. -/
theorem test_pack_sequences :
    emitSeqBytes [] 1 3 0 = B [0x80, 0x01] ∧
    emitSeqBytes (alpha.take 3) 5 4 0 = B [0x99, 0x00, 0x61, 0x62, 0x63, 0x05] ∧
    emitSeqBytes [] 1024 4 0 = B [0x01, 0x00, 0x04] ∧
    emitSeqBytes [] 65536 5 0 = B [0x42, 0x00, 0x00, 0x01] ∧
    emitSeqBytes (B [0x78, 0x79]) 8 12 8 = B [0x77, 0x78, 0x79, 0x02] ∧
    emitSeqBytes (alpha ++ B [0x69, 0x6A]) 2 4 0 =
      B [0x99, 0x07] ++ alpha ++ B [0x69, 0x6A, 0x02] := by decide +kernel

/-- V-NX. -/
theorem test_acceptance :
    accept 0 1 3 0 = true ∧ accept 0 1024 3 0 = true ∧ accept 3 1024 3 0 = true ∧
    accept 0 65536 3 0 = false ∧ accept 0 65536 4 0 = true ∧ accept 3 65536 4 0 = false ∧
    accept 7 65535 3 0 = false := by decide +kernel

/-- EMIT_SEQ and EMIT_LAST as steps: PK2's shape with `text`, and PL2. -/
theorem test_emit :
    (after (exec (.emitSeq 0 3 5 4) (encAt 2))).map (fun t => (t.enc.out, (t.cctx.map (·.lastOff))))
      = some (B [0x99, 0x00, 0x61, 0x62, 0x63, 0x05], [5]) ∧
    (after (exec (.emitLast 16 5) (encAt 2))).map (fun t => t.enc.out)
      = some (B [0x28, 0x31, 0x32, 0x33, 0x34, 0x35]) := by decide +kernel

/-! ## Match finders -/

/-- MF1. -/
theorem test_mf_find_best :
    (after (exec (.mfFindBest 0x400008 0x400010) (encAt 2))).map
      (fun t => (t.enc.found.map (fun m => (m.offset.toNat, m.length.toNat)), t.cctx.map (·.nextInsert.toNat)))
      = some ([(8, 8)], [0x400008]) := by decide +kernel

/-- MF5: the nearest of two equally long matches. -/
theorem test_mf_find_all :
    (mfFindAll Config.default (List.replicate 8 (alpha.take 3)).flatten 0x400006 0x400013 3
      (ctx 4)).1.map (fun m => (m.offset.toNat, m.length.toNat)) = [(3, 13)] := by decide +kernel

/-- MF3. -/
theorem test_bt_find_all :
    (after (exec (.btFindAll 0x400008 0x400010 3) (encAt 5))).map
      (fun t => (t.enc.found.map (fun m => (m.offset.toNat, m.length.toNat)), t.cctx.map (·.nextInsert.toNat)))
      = some ([(8, 8)], [0x400009]) := by decide +kernel

/-- A stale tree link (R424): the third candidate of the walk agrees only behind the bytes the walk
skips, and is not returned (R201). -/
theorem test_bt_stale_link :
    let src := B [0x51, 0x51, 0x51, 0x51, 0x51, 0x66, 0x67, 0x68, 0x69, 0x6A] ++
      B [0x61, 0x62, 0x63, 0x64, 0x65, 0x66, 0x7A, 0x68, 0x69, 0x6A] ++
      B [0x61, 0x62, 0x63, 0x64, 0x65, 0x41, 0x67, 0x68, 0x69, 0x6A] ++
      B [0x61, 0x62, 0x63, 0x64, 0x65, 0x66, 0x67, 0x68, 0x69, 0x6A] ++ text.take 5
    let c : Cctx := { ctx 5 with
      hashTable := [(hash4 Config.default (ctx 5) src 0x40001E, 0x400014)]
      chainTable := [(20, 10), (41, 10)]
      nextInsert := 0x40001E }
    (btFindAll Config.default src 0x400028 0x40001E 0x400028 3 c).1.map
      (fun m => (m.offset.toNat, m.length.toNat)) = [(10, 5), (20, 6)] := by decide +kernel

/-- `HASH4` is a parameter (R202): one bucket changed, "abcd" to bucket 9; and its default value. -/
theorem test_hash_parameter :
    hash4 { Config.default with hash4 := ⟨2654435761, [⟨16, 0x64636261, 9⟩]⟩ } (ctx 2) text 0x400000
      = 9 ∧
    hash4 Config.default (ctx 2) text 0x400000 = 0x64636261 * 2654435761 % 2 ^ 32 / 2 ^ 16 := by
  decide +kernel

/-- R206's example: the delta of a second occurrence. -/
theorem test_mf_insert :
    (after (exec (.mfInsert 0x400000) (encAt 2))).bind
      (fun t => (after (exec (.mfInsert 0x400008) t)).map
        (fun u => u.cctx.map (fun c => (c.chainTable.read 8, c.nextInsert))))
      = some [(8, 0x400009)] := by decide +kernel

/-- R211 by hand: found at index 9 at distance 8 up to index 16, pulled back one byte to the anchor. -/
theorem test_back_adjust :
    let m := probeMatch ⟨0x400000, text⟩ (ctx 1) 9 8 0x400001
    m = ⟨8, 7, 1⟩ ∧ m.triple 9 = ⟨8, 8, 8⟩ := by decide +kernel

/-- R208. -/
theorem test_insert_order :
    faultOf (exec (.mfInsert 0x400000)
      { encAt 2 with cctx := [{ ctx 2 with nextInsert := 0x400001 }] }) = some .nonMonotonicInsert ∧
    isNext (exec (.btInsert 0x400000) (encAt 5)) = true := by decide +kernel

/-- R214 reads nothing below `q` for `nextInsert`: BT_INSERT alone runs where `nextInsert` is below the
window, and BT_FIND_ALL, which inserts the positions between, does not. -/
theorem test_bt_insert_gap :
    let s : State := { encAt 5 with cctx := [{ ctx 5 with nextInsert := 0x3FFFFF }] }
    isNext (exec (.btInsert 0x400000) s) = true ∧
    faultOf (exec (.btFindAll 0x400000 0x400010 3) s) = some .positionOutOfRange := by decide +kernel

/-- V-ST-6. -/
theorem test_renorm :
    let c : Cctx := { ctx 2 with
      currentOffset := 0x7FFFFFF0, dictLimit := 0x7FFFFFF0, lowLimit := 0x7FBFFFF0
      hashTable := [(1, 0x7FFFFF00), (2, 0x7FBFFFF0), (3, 0x500000)] }
    (after (exec .renorm { encAt 2 with cctx := [c] })).map
      (fun t => t.cctx.map (fun c => (c.hashTable, c.lowLimit, c.dictLimit, c.currentOffset)))
      = some [([(1, 0x3FFF10)], 0, 0x400000, 0x400000)] := by decide +kernel

/-! ## Block encoder and streaming -/

/-- BE20 and BE21. -/
theorem test_blk_compress :
    resultsAt (exec (.blkCompress 0 0 0x1000 21 0x3000 37) ready) 0x3000 17
      = some (0, 17, 0, 0, be1) ∧
    results (exec (.blkCompress 0 0 0x1000 21 0x3000 36) ready) = some (3, 0, 0, 0) := by
  decide +kernel

/-- BE23 then BE24: the failed block is history. -/
theorem test_compress_continue :
    ((after (exec (.blkCompress 0 1 0x1000 21 0x3000 16) ready)).bind fun t =>
      resultsAt (exec (.blkCompressContinue 0 0 0x1000 21 0x3000 100) t) 0x3000 9)
      = some (0, 9, 0, 0, B [0x87, 0x15, 0x06, 0x28, 0x31, 0x32, 0x33, 0x34, 0x35]) := by
  decide +kernel

/-- BE3 at level 1, BE5 at level 3, BE6 at level 4. -/
theorem test_encode_levels :
    (encodeBlock Config.default (List.replicate 8 (alpha.take 3)).flatten (ctx 1)).bytes
      = B [0x9F, 0, 0x61, 0x62, 0x63, 3, 6, 0x28, 0x62, 0x63, 0x61, 0x62, 0x63] ∧
    (encodeBlock Config.default (List.replicate 13 0x41) (ctx 3)).bytes
      = B [0x8C, 0x41, 0x01, 0x28, 0x41, 0x41, 0x41, 0x41, 0x41] ∧
    (encodeBlock Config.default (List.replicate 12 0x41) (ctx 4)).bytes
      = B [0x38, 0x05] ++ List.replicate 12 0x41 := by decide +kernel

/-- R296: 12 bytes after a history they could match are literals. -/
theorem test_short_input :
    (encodeBlock Config.default (List.replicate 12 0x41)
      (encodeBlock Config.default (List.replicate 13 0x41) (ctx 3)).cctx).bytes
      = B [0x38, 0x05] ++ List.replicate 12 0x41 := by decide +kernel

/-- R301 at n = MFLIMIT by hand: index 0 is probed and its bucket named, though no match may start. -/
theorem test_short_input_probed :
    (encodeBlock Config.default (List.replicate 12 0x41) (ctx 1)).cctx.hashTable.map (·.2)
      = [0x400000] := by decide +kernel

/-- BE5 at level 5. -/
theorem test_encode_bt :
    (encodeBlock Config.default (List.replicate 13 0x41) (ctx 5)).bytes
      = B [0x8C, 0x41, 0x01, 0x28, 0x41, 0x41, 0x41, 0x41, 0x41] := by decide +kernel

/-- EX6, EX5 and the last row of S4. -/
theorem test_compress_bound :
    results (exec (.compressBound 0 0 5) ready) = some (0, 21, 0, 0) ∧
    results (exec (.compressBound 0 1 5) ready) = some (9, 0, 0, 0) ∧
    results (exec (.compressBound 0 0 0x7E000000) ready) = some (0, 2130444304, 0, 0) ∧
    results (exec (.compressBound 0 0 0x7E000001) ready) = some (2, 0, 0, 0) := by decide +kernel

/-- CX1, CX2, CX4, CX5. -/
theorem test_context_commands :
    (after (exec (.ctxInit 0 0 9) ready)).map (fun t => t.cctx.map (·.level)) = some [5, 1] ∧
    (after (exec (.ctxReset 0 0 0) ready)).map (fun t => t.cctx.map (·.level)) = some [1, 1] ∧
    results (exec (.blkCompress 1 2 0 0 0 0) ready) = some (8, 0, 0, 0) ∧
    results (exec (.blkCompress 0 2 0 0 0 0) ready) = some (9, 0, 0, 0) := by decide +kernel

/-- CX3 and CX6. -/
theorem test_context_free :
    ((after (exec (.ctxFree 0 0) ready)).bind fun t =>
      (results (exec (.ctxFree 0 0) t)).map fun r => (t.status, r)) = some (0, 8, 0, 0, 0) ∧
    (after (exec (.ctxInit 0 0 2) { ready with cfg := { Config.default with tableMemLimit := 0 } })).map
      (fun t => (t.status, t.cctx.map (·.alloc))) = some (1, [false, false]) := by decide +kernel

/-- V-ST-2 at level 2, and V-ST-3. -/
theorem test_dictionaries :
    ((after (exec (.loadDict 0 0 0x1000 8) ready)).bind fun t =>
      resultsAt (exec (.blkCompressContinue 0 0 0x1008 13 0x3000 29) t) 0x3000 8)
      = some (0, 8, 0, 0, B [0x85, 0x08, 0x28, 0x31, 0x32, 0x33, 0x34, 0x35]) ∧
    resultsAt (exec (.saveDict 0 0 0x4000 4) { ready with cctx := [{ ctx 2 with hist := text }] })
      0x4000 5 = some (0, 4, 0, 0, B [0x32, 0x33, 0x34, 0x35, 0]) := by refine ⟨?_, ?_⟩ <;> decide +kernel

/-! ## Block decoder -/

/-- The Sequence of R367's example, then R370's. -/
theorem test_sequences :
    (after (exec (.seqShort 8 alpha 8) (bdAt [] [] 64 0))).map
      (fun t => (t.bd.ip, t.bd.out, t.bd.lastOff)) = some (11, alpha ++ alpha, 8) ∧
    (after (exec (.seqRepeat [] 4) (bdAt (alpha ++ alpha) [] 64 8))).map
      (fun t => (t.bd.ip, t.bd.out)) = some (1, alpha ++ alpha ++ alpha.take 4) := by decide +kernel

/-- A mid offset into the dictionary, BD6's long class, and R376's example. -/
theorem test_sequences_more :
    (after (exec (.seqMid 11 [] 3) (bdAt [] (alpha ++ alpha.take 3) 64 0))).map (fun t => t.bd.out)
      = some (alpha.take 3) ∧
    (after (exec (.seqLong 1 (B [0x41]) 5) (bdAt [] [] 64 0))).map (fun t => t.bd.out)
      = some (List.replicate 6 0x41) ∧
    (after (exec (.seqLast .mid 0 0 (text.drop 16)) (bdAt [] [] 64 0))).map
      (fun t => (t.bd.out, t.bd.phase, t.bd.ip)) = some (text.drop 16, .ended, 6) := by
  decide +kernel

/-- BD4, BD7, BD20, BD24, BD26. -/
theorem test_blk_decompress :
    ((decodeBlock (B [0x88, 0x41, 1, 0]) 64 [] false false 0).out = List.replicate 4 0x41) ∧
    ((decodeBlock be1 64 [] false false 0).out = text) ∧
    ((decodeBlock (B [0x88, 0x41, 1, 0]) 4 [] true false 0).ip = 3) ∧
    ((decodeBlock be1 21 [] false true 5).out = alpha) ∧
    ((decodeBlock be1 21 [] false true 10).out = alpha ++ alpha) := by decide +kernel

/-- BDE1 to BDE7, BDE9, BDE10 and BD22. -/
theorem test_blk_decompress_failures :
    [([], 64), (B [0x80, 0], 64), (B [0x80, 5], 64), (B [0x60, 0], 64), (B [0x18, 0x61], 64),
      (B [0x38], 64), (B [0x48, 0x41, 0], 64), (B [0x88, 0x41, 1, 0], 3),
      (B [0x88, 0x41, 1], 64)].map
      (fun x => (decodeBlock x.1 x.2 [] false false 0).phase)
      = [.failed 0, .failed 2, .failed 2, .failed 1, .failed 1, .failed 1, .failed 2, .failed 3,
        .failed 3] ∧
    (decodeBlock (B [0x28, 0x31, 0x32, 0x33, 0x34, 0x35]) 3 [] true false 0).phase = .failed 1 := by
  decide +kernel

/-- P1 step 4, BD11, BDE20, BDE22. -/
theorem test_decompress_command :
    resultsAt (exec (.blkDecompress 0 0 0x2000 17 0x3000 64 0 0 0) ready) 0x3000 21
      = some (0, 21, 0, 0, text) ∧
    resultsAt (exec (.blkDecompress 0 4 0x5000 3 0x1015 64 0 21 0)
      { ready with mem := ready.mem.writeBytes 0x5000 (B [0x85, 0x15, 0x00]) }) 0x1015 8
      = some (0, 8, 0, 0, alpha) ∧
    results (exec (.blkDecompress 0 0x0C 0 0 0 0 0 0 0) ready) = some (9, 0, 0, 0) ∧
    results (exec (.blkDecompress 0 4 0 0 0 0 0 65537 0) ready) = some (8, 0, 0, 0) := by
  refine ⟨?_, ?_, ?_, ?_⟩ <;> decide +kernel

/-- V-ST-4 and BDE12. -/
theorem test_decompress_continue :
    let s : State := { ready with
      sd := [⟨[]⟩]
      mem := ready.mem.writeBytes 0x5000 (B [0x85, 0x08, 0x28, 0x31, 0x32, 0x33, 0x34, 0x35]) }
    ((after (exec (.sdReset 0 0 0x1000 8) s)).bind fun t =>
      (after (exec (.blkDecompressContinue 0 0 0x5000 8 0x6000 64) t)).map fun u =>
        (u.res0.toNat, u.sd.map (·.hist))) = some (13, [text]) ∧
    results (exec (.blkDecompressContinue 0 0 0x5000 8 0x6000 64) s)
      = some (4, 2 ^ 64 - 3, 0, 0) := by decide +kernel

/-! ## Frames -/

/-- XXH32 of nothing (S1) and two header checksums of the header table. -/
theorem test_xxh32_and_headers :
    xxh32 [] 0 = 0x02CC5D05 ∧
    frameHeader Config.default ⟨1#3, true, true, false, 0#64, 1⟩
      = B [0x05, 0x22, 0x4D, 0x18, 0x64, 0x10, 0x1C] ∧
    frameHeader Config.default ⟨7#3, false, false, false, 0#64, 1⟩
      = B [0x05, 0x22, 0x4D, 0x18, 0x40, 0x70, 0x19] ∧
    frameHeader Config.default ⟨1#3, true, true, false, 21#64, 1⟩
      = B [0x05, 0x22, 0x4D, 0x18, 0x6C, 0x10, 0x15, 0, 0, 0, 0, 0, 0, 0, 0x22] := by
  decide +kernel

/-- FE1's commands: FE_BEGIN, FE_UPDATE, FE_FLUSH. -/
theorem test_frame_encoder :
    results (exec (.feBegin 0 0 0x19 0 1 0x5000 16) ready) = some (0, 7, 0, 0) ∧
    (after (exec (.feUpdate 0 0 0x1000 21 0x5007 0) (feAt open1))).map
      (fun t => (t.status, t.res0.toNat, t.fe.map (·.buf))) = some (0, 0, [text]) ∧
    resultsAt (exec (.feFlush 0 0 0x5007 64) (feAt { open1 with buf := text })) 0x5007 21
      = some (0, 21, 0, 0, B [0x11, 0, 0, 0] ++ be1) := by decide +kernel

/-- R464, R466 by hand: two stored blocks in order, and the rest. -/
theorem test_emit_blocks :
    let e := emitBlocks Config.default 4 2
      (B [0x61, 0x62, 0x63, 0x64, 0x65, 0x66, 0x67, 0x68, 0x69]) open1
    e.bytes = B [4, 0, 0, 0x80, 0x61, 0x62, 0x63, 0x64, 4, 0, 0, 0x80, 0x65, 0x66, 0x67, 0x68] ∧
    e.fe.buf = B [0x69] := by decide +kernel

/-- FE5's end, and FE25. -/
theorem test_frame_end :
    resultsAt (exec (.feEnd 0 0 0x5000 8) (feAt open1)) 0x5000 8
      = some (0, 8, 0, 0, B [0, 0, 0, 0, 0x05, 0x5D, 0xCC, 0x02]) ∧
    (after (exec (.feEnd 0 0 0x5000 64)
      (feAt { open1 with prefs := { open1.prefs with contentSize := 5 }, total := 4 }))).map
      (fun t => (t.status, t.fe.map (fun f => (f.stage, f.err)))) = some (7, [(.error, 7)]) := by
  decide +kernel

/-- FE2's frame, decoded whole at power-on, and S1's empty frame. -/
theorem test_fd_decode :
    (fdRun Config.default Fd.powerOn (.offset 0) (B [0x05, 0x22, 0x4D, 0x18, 0x60, 0x10, 0x0D, 0x01, 0x00,
      0x00, 0x80, 0x41, 0x00, 0x00, 0x00, 0x00]) 100).map
      (fun r => (r.status, r.consumed, r.out, r.hint)) = some (0, 16, B [0x41], 0) ∧
    (fdRun Config.default Fd.powerOn (.offset 0) (B [0x05, 0x22, 0x4D, 0x18, 0x64, 0x10, 0x1C, 0, 0, 0, 0,
      0x05, 0x5D, 0xCC, 0x02]) 100).map
      (fun r => (r.status, r.consumed, r.out, r.hint)) = some (0, 15, [], 0) := by decide +kernel

/-- R79: the cursor does not wrap. -/
theorem test_fd_cursor :
    (fdRun Config.default Fd.powerOn (.offset 0xFFFFFFFFFFFFFFFF) (B [0x05]) 0).map
      (fun r => r.fd.srcExpect) = some .pastEnd ∧
    (fdRun Config.default Fd.powerOn (.offset 0xFFFFFFFFFFFFFFFE) (B [0x05]) 0).map
      (fun r => r.fd.srcExpect) = some (.offset 0xFFFFFFFFFFFFFFFF) ∧
    Fd.wrongCursor { Fd.powerOn with srcExpect := .pastEnd } 0 = true := by decide +kernel

/-- R514 by hand: a stored block of two bytes with room for one. -/
theorem test_stored_record_room :
    (after (exec (.blkS (B [0x41, 0x42]))
      { fdAt inFrame with rcd := { (fdAt inFrame).rcd with room := 1 } })).map
      (fun t => (t.res0.toNat, t.rcd.out, t.res2.toNat, t.fd.map (fun f => (f.dStage, f.remaining))))
      = some (5, B [0x41], 5, [(.copyDirect, 1)]) := by decide +kernel

/-- R519 at the last u64 size, by hand: one byte more passes it, and so 2^64 too. -/
theorem test_account_at_the_top :
    let f : Fd := { inFrame with
      frameInfo := { inFrame.frameInfo with contentSizeFlag := true, contentSize := 0xFFFFFFFFFFFFFFFF }
      total := 0xFFFFFFFFFFFFFFFE }
    (f.account (B [0x41])).1 = true ∧ ((f.account (B [0x41])).2.account (B [0x41])).1 = false := by
  decide +kernel

/-- FDE1, FDE6, FDE11, FDE13. -/
theorem test_fd_failures :
    [B [0x05, 0x22, 0x4D, 0x18, 0x64, 0x10, 0x1D], B [0x05, 0x22, 0x4D, 0x18, 0x74, 0x10, 0x00],
      B [0x05, 0x22, 0x4D, 0x18, 0x60, 0x10, 0x0D, 0, 0, 0, 0x80],
      B [0x05, 0x22, 0x4D, 0x18, 0x60, 0x10, 0x0D, 2, 0, 0, 0, 0x80, 0x05]].map
      (fun x => (fdRun Config.default Fd.powerOn (.offset 0) x 100).map (fun r => (r.status, r.consumed)))
      = [some (5, 7), some (8, 7), some (4, 11), some (4, 13)] := by decide +kernel

/-- FD8's last rows and RS5: the command on a decoder in a frame, and after FD_RESET. -/
theorem test_fd_commands :
    results (exec (.fdDecode 0 0 0 0 0 0x6000 16) (fdAt { Fd.powerOn with dStage := .storeCBlockSize }))
      = some (0, 0, 0, 4) ∧
    (after (exec (.fdReset 0 0) (fdAt { inFrame with dStage := .error, err := 5 }))).map
      (fun t => t.fd) = some [Fd.powerOn] := by decide +kernel

/-- FE1's records through the record stream. -/
theorem test_records :
    results (exec (.hdr 0x64 0x10 none 0x1C) (fdAt Fd.powerOn)) = some (0, 7, 0, 4) ∧
    (after (exec (.blkC be1) (fdAt inFrame))).map (fun t => (t.res0.toNat, t.rcd.out, t.res2.toNat))
      = some (21, text, 4) ∧
    results (exec .endMark (fdAt inFrame)) = some (0, 4, 0, 4) ∧
    results (exec (.cksum 0xB3F96E55) (fdAt { inFrame with dStage := .getSuffix, content := text }))
      = some (0, 4, 0, 0) := by decide +kernel

/-- FD6's skippable frame and FE2's stored block. -/
theorem test_records_more :
    results (exec (.skip 15 (B [0xAA, 0xBB, 0xCC])) (fdAt Fd.powerOn)) = some (0, 11, 0, 0) ∧
    (after (exec (.blkS (B [0x41])) (fdAt inFrame))).map (fun t => (t.res0.toNat, t.rcd.out))
      = some (5, B [0x41]) := by decide +kernel

/-! ## Witnesses: values that meet the hypotheses of each statement -/

theorem witness_DescriptorRoundTrip :
    encode Config.default (.blkDecompress 0 15 1 2 3 4 5 6 7) = .command (D 0x0F08 1 2 3 4 5 6 7) ∧
    encode Config.default (.emitSeq 1 2 3 0xFFFFFFFF) = .uop (D 0x46 1 2 3 0xFFFFFFFF) := by
  decide +kernel

/-- A Sequence with a match at exactly the room left, and a terminal one. -/
theorem witness_SequenceRoundTrip :
    (Sequence.short 8 alpha 8).toInstr.wf = true ∧
    endsAfterLits ⟨8, false, none⟩ 8 (((Sequence.short 8 alpha 8).encode ++ B [0]).drop
      (lastLen 8 (classOf ((Sequence.short 8 alpha 8).encode.headD 0)))) = false ∧
    (Sequence.last .mid 0 0 alpha).toInstr.wf = true ∧
    endsAfterLits ⟨8, false, none⟩ 8 [] = true := by decide +kernel

theorem witness_RecordRoundTrip :
    Config.default.skippableBase &&& 0xF#32 = 0#32 ∧
    isSkippable Config.default Config.default.magic = false ∧
    Instr.wf (.hdr 0x6C 0x10 (some 21) 0x22) = true ∧ Instr.wf (.skip 15 []) = true ∧
    Instr.wf (.blkS (B [0])) = true ∧ Instr.wf (.cksum 0) = true ∧
    encode Config.default .endMark = .record (B [0, 0, 0, 0]) := by decide +kernel

/-- Host and micro-operation streams. -/
theorem witness_StepRunsDecodedInstruction_words :
    ready.stream = .host ∧ { ready with queue := [D 3] }.queue = D 3 :: [] ∧
    decodeCommand (D 3) = .ok (.ctxFree 0 0) ∧ { ready with stream := .micro }.stream = .micro ∧
    { ready with uops := [D 0x45] }.uops = D 0x45 :: [] ∧ decodeUop (D 0x45) = some .renorm := by
  decide +kernel

/-- The Sequence at `ip`, and the record at the record stream's index. -/
theorem witness_StepRunsDecodedInstruction_bytes :
    (Bd.start be1 64 [] false false 0).phase = .running ∧
    (Bd.start be1 64 [] false false 0).eoo = false ∧
    decodeSeq (Bd.start be1 64 [] false false 0).limits be1 = .seq (.short 8 alpha 8) 11 ∧
    inFrame.place = some .blockWord ∧
    decodeRecord Config.default .blockWord (B [1, 0, 0, 0x80, 0x41]) = .record (.blkS (B [0x41])) 5 ∧
    State.reset.queue = [] := by decide +kernel

/-- Nothing to run, in each of the other streams. -/
theorem witness_StepRunsDecodedInstruction_idle :
    State.reset.uops = [] ∧ ({ Bd.start be1 64 [] false false 0 with phase := .ended } : Bd).phase ≠ .running ∧
    (fdAt inFrame).fd[(fdAt inFrame).rcd.h]? = some inFrame ∧
    State.reset.rcd.src.drop State.reset.rcd.ip = [] ∧ inFrame.dStage ≠ .flushOut := by decide +kernel

theorem witness_ReservedOpcodeRejected :
    ready.cfg.legal = true ∧ ready.stream = .host ∧
    [0x00, 0x04, 0x05, 0x0E, 0x0F, 0x14, 0x17, 0x1A, 0xFF].all
      (fun w => decide ((D w).opcode.toNat = w)) = true := by decide +kernel

/-- The first handle out of range, for each kind. -/
theorem witness_HandleOutOfRange :
    State.reset.cfg.legal = true ∧ cctxCommand (.ctxFree 4 0) = some (4, 0, 0) ∧
    State.reset.cctx.length = 4 ∧ sdCommand (.sdReset 4 0 0 0) = some (4, 0) ∧
    State.reset.sd.length = 4 ∧ feCommand (.feFlush 4 0 0 0) = some (4, 0) ∧
    State.reset.fe.length = 4 ∧ fdCommand (.fdReset 4 0) = some (4, 0) ∧
    State.reset.fd.length = 4 := by decide +kernel

theorem witness_CompressionContextChecks :
    ready.cfg.legal = true ∧ cctxCommand (.blkCompress 2 2 0 0 0 0) = some (2, 2, 1) ∧
    ready.cctx[2]? = none ∧ ready.cctx[1]? = some cctx0 ∧ cctx0.alloc = false ∧
    ready.cctx[0]? = some (ctx 2) ∧ (ctx 2).alloc = true ∧ 2#8 &&& ~~~1#8 ≠ 0#8 := by decide +kernel

theorem witness_UndefinedFlagRejected :
    ready.cfg.legal = true ∧ sdCommand (.sdReset 3 1 0 0) = some (3, 1) ∧ 3 < ready.sd.length ∧
    feCommand (.feFlush 3 1 0 0) = some (3, 1) ∧ 3 < ready.fe.length ∧
    fdCommand (.fdReset 3 1) = some (3, 1) ∧ 3 < ready.fd.length ∧
    (0x10#8).extractLsb' 4 4 ≠ 0#4 ∧ (0x0C#8).extractLsb' 2 2 = 3#2 := by decide +kernel

/-- A command that succeeds, one that fails, and a failed decode. -/
theorem witness_ResultRegisters :
    isCommand (.compressBound 0 0 5) = true ∧ isNext (exec (.compressBound 0 0 5) ready) = true ∧
    (results (exec (.ctxFree 1 0) ready) = some (8, 0, 0, 0)) ∧
    (results (exec (.blkDecompress 0 0 0 0 0 0 0 0 0) ready) = some (4, 2 ^ 64 - 1, 0, 0)) := by
  decide +kernel

theorem witness_CommandFrame :
    isCommand (.ctxFree 0 0) = true ∧ ∃ t, exec (.ctxFree 0 0) ready = .next t :=
  ⟨by decide, next_of_isNext (by decide +kernel)⟩

theorem ready_inv : ready.Inv :=
  ⟨by decide +kernel, by decide +kernel, by decide +kernel, by decide +kernel, by decide +kernel,
    by decide +kernel⟩

theorem witness_OnlyOutputWritten :
    ready.Inv ∧ isCommand (.blkCompress 0 0 0x1000 21 0x3000 37) = true ∧
    (∃ t, exec (.blkCompress 0 0 0x1000 21 0x3000 37) ready = .next t) ∧
    outside 0x3025 0x3000 37 ∧ outside 0x2FFF 0x3000 37 :=
  ⟨ready_inv, by decide, next_of_isNext (by decide +kernel), by unfold outside; omega,
    by unfold outside; omega⟩

/-- A micro-operation on a context and on a frame encoder's, a Sequence, a record. -/
theorem witness_InternalFrame :
    isMicroOp .renorm = true ∧ (∃ t, exec .renorm (encAt 2) = .next t) ∧
    (∃ t, exec .renorm { encAt 2 with enc := { (encAt 2).enc with sel := .fe 0 } } = .next t) ∧
    isSequence (.seqShort 8 alpha 8) = true ∧
    (∃ t, exec (.seqShort 8 alpha 8) (bdAt [] [] 64 0) = .next t) ∧
    isRecord .endMark = true ∧ ∃ t, exec .endMark (fdAt inFrame) = .next t :=
  ⟨by decide, next_of_isNext (by decide +kernel), next_of_isNext (by decide +kernel), by decide,
    next_of_isNext (by decide +kernel), by decide, next_of_isNext (by decide +kernel)⟩

/-- Each refusal happens. -/
theorem witness_RefusedOnlyForBuffersOrTable :
    refusalOf (exec (.ctxFree 0 0) { ready with cfg := { Config.default with
      levelTable := { Config.defaultLevelTable with level1 := ⟨.fast, 9, 0, 0, 1, 0⟩ } } })
      = some .illegalLevelTable ∧
    refusalOf (exec (.saveDict 0 0 0xFFFFFFFFFFFFFFFF 2) ready) = some .bufferInvalid ∧
    refusalOf (exec (.blkDecompress 0 4 0 0 1 1 0 2 0) ready) = some .bufferInvalid ∧
    refusalOf (exec (.blkDecompress 0 0 0x1000 4 0x1003 1 0 0 0) ready) = some .buffersOverlap := by
  decide +kernel

/-- Commands that use a buffer that is invalid, that starts below 0, and that overlaps. -/
theorem witness_UsesBuffers :
    usesBuffers ready (.saveDict 0 0 0xFFFFFFFFFFFFFFFF 2) ∧
    (buffer 0xFFFFFFFFFFFFFFFF 2).valid ready.cfg = false ∧
    usesBuffers ready (.blkDecompress 0 4 0 0 1 1 0 2 0) ∧
    inputsOf (.blkDecompress 0 4 0 0 1 1 0 2 0) = none ∧
    usesBuffers ready (.blkDecompress 0 0 0x1000 4 0x1003 1 0 0 0) ∧
    (buffer 0x1000 4).overlaps (buffer 0x1003 1) = true ∧
    usesBuffers ready (.blkCompress 0 0 0x1000 21 0x2000 37) ∧
    usesBuffers ready (.feBegin 0 0 0x19 0 1 0x5000 7) ∧
    usesBuffers (feAt open1) (.feEnd 0 0 0x5000 8) ∧
    usesBuffers ready (.fdDecode 0 0 5 0x1000 1 0x6000 0) := by
  refine ⟨⟨⟨ctx 2, by decide +kernel, by decide⟩, by decide⟩, by decide +kernel, by
    unfold usesBuffers; decide +kernel, by decide +kernel, by unfold usesBuffers; decide +kernel,
    by decide +kernel, ⟨⟨⟨ctx 2, by decide +kernel, by decide⟩, by decide⟩, by decide +kernel,
      by decide⟩,
    ⟨⟨fe0, by decide +kernel, by decide⟩, by decide, by decide, by decide, by decide +kernel⟩,
    ⟨by decide, open1, by decide +kernel, by decide, by decide, by decide⟩,
    ⟨by decide, Fd.powerOn, by decide +kernel, by decide, by decide⟩⟩

theorem witness_EveryCommandTerminates : isCommand (.fdDecode 0 0 0 0 0 0 0) = true := by decide

/-- The hypotheses of the statements about a step and an invariant. -/
theorem witness_StepKeeps :
    ({ ready with queue := [D 3] } : State).Inv ∧ ({ ready with queue := [D 3] } : State).stream = .host ∧
    ∃ t, step { ready with queue := [D 3] } = .next t :=
  ⟨ready_inv, rfl, next_of_isNext (by decide +kernel)⟩

/-- Enough table memory, and too little. -/
theorem witness_CtxInitResetMeaning :
    ready.cfg.legal = true ∧ ready.cctx[0]? = some (ctx 2) ∧ (ctx 2).alloc = true ∧
    tableMemory (levelRow ready.cfg (clampLevel 2)) ≤ ready.cfg.tableMemLimit ∧
    tableMemory (levelRow ready.cfg (clampLevel 2)) = 540672 ∧
    ({ Config.default with tableMemLimit := 540671 } : Config).legal = true := by decide +kernel

theorem witness_CtxFreeMeaning :
    ready.cfg.legal = true ∧ ready.cctx[0]? = some (ctx 2) ∧ (ctx 2).alloc = true ∧
    ready.cctx[1]? = some cctx0 ∧ cctx0.alloc = false := by decide +kernel

/-- LOAD_DICT and SD_RESET read, SAVE_DICT writes, a valid buffer. -/
theorem witness_DictionaryCommands :
    ready.cfg.legal = true ∧ ready.mem.wf = true ∧ ready.cctx[0]? = some (ctx 2) ∧
    (ctx 2).alloc = true ∧ (buffer 0x1000 21).valid ready.cfg = true ∧
    (0#16).toNat < ready.sd.length := by decide +kernel

theorem witness_CompressBoundMeaning :
    ready.cfg.legal = true ∧ (0x7E000000#64).toNat ≤ ready.cfg.maxInputSize ∧
    ready.cfg.maxInputSize < (0x7E000001#64).toNat := by decide +kernel

theorem buffers_ok {cfg : Config} {ins : List Buffer} {out : Buffer}
    (h : ((out :: ins).all (fun b => b.valid cfg) && ins.all (fun b => !b.overlaps out)) = true) :
    buffersOk cfg ins out := by
  simp only [Bool.and_eq_true, List.all_eq_true] at h
  exact ⟨h.1, fun b hb => by simpa using h.2 b hb⟩

/-- The four ends of a compress command: input too large, capacity below the bound, a block that fits
(both modes, at the last byte), a limited block that does not. -/
theorem witness_CompressMeaning :
    ready.cfg.legal = true ∧ ready.mem.wf = true ∧ ready.cctx[0]? = some (ctx 2) ∧
    (ctx 2).alloc = true ∧ ready.cfg.maxInputSize < (0x7E000001#64).toNat ∧
    buffersOk ready.cfg [buffer 0x1000 21] (buffer 0x3000 37) ∧ 36 < 21 + 21 / 128 + 16 ∧
    21 + 21 / 128 + 16 ≤ 37 ∧ buffersOk ready.cfg [buffer 0x1000 21] (buffer 0x3000 17) ∧
    (encodeBlock ready.cfg (ready.mem.readBytes 0x1000 21) (cleared true 2 (ctx 2).row)).bytes.length
      = 17 ∧ buffersOk ready.cfg [buffer 0x1000 21] (buffer 0x3000 16) :=
  ⟨by decide, by decide +kernel, by decide, by decide, by decide, buffers_ok (by decide +kernel),
    by decide, by decide, buffers_ok (by decide +kernel), by decide +kernel,
    buffers_ok (by decide +kernel)⟩

/-- Each of the five strategies, on a context that meets R49. -/
theorem witness_EncodeThenDecode :
    paramsFit Config.default ∧
    [1, 2, 3, 4, 5].all (fun k => decide ((ctx k).Inv Config.default)) = true ∧
    text.length ≤ Config.default.maxInputSize := by decide +kernel

/-- One byte short of `MFLIMIT + 1`. -/
theorem witness_EncodeWithinBound : (text.take 12).length < Config.default.mfLimit + 1 := by decide

theorem witness_EncodeUpdatesHistory :
    paramsFit Config.default ∧ (ctx 5).Inv Config.default ∧
    text.length ≤ Config.default.maxInputSize := by decide +kernel

/-- BE1's parse; its match is at the lowest distance the dictionary-free input allows. -/
theorem witness_PackThenDecode : parseOk [] text 0 [⟨8, 8, 8⟩] := by
  simp only [parseOk]
  decide +kernel

theorem witness_RenormMeaning :
    (encAt 2).selected (encAt 2).enc.sel = some (ctx 2) ∧ (ctx 2).hashTable.wf = true ∧
    (ctx 2).hashTable3.wf = true := by decide +kernel

/-- At the lowest and the highest position that holds four bytes. -/
theorem witness_Finders :
    (encAt 2).selected (encAt 2).enc.sel = some (ctx 2) ∧ (ctx 2).nextInsert.toNat = windowSize ∧
    (ctx 2).lowLimit.toNat = windowSize ∧
    (ctx 2).dictLimit.toNat + (encAt 2).enc.src.length = windowSize + 21 ∧
    (encAt 2).enc.opHigh.toNat ≤ windowSize + 21 ∧ (0x400011#32).toNat + 4 = windowSize + 21 ∧
    1 ≤ (encAt 2).cfg.findAllCap := by decide +kernel

/-- The chain after the insertions before `P0 + 8`: the head and the 3-byte candidate are `P0`, which
agrees in the 4, the 3 and the 8 bytes up to `high`. -/
theorem witness_ChainFindersVerified :
    let t := insertUpTo (mfInsert Config.default text) 0x400008 (ctx 2)
    1 ≤ (ctx 2).row.searchNum ∧ 2 ≤ Config.default.findAllCap ∧
    (t.hashTable.read (hash4 Config.default (ctx 2) text 0x400008)).toNat = 0x400000 ∧
    candidate (ctx 2) 0x400008 0x400000 ∧
    candidate3 Config.default (ctx 2) t text 0x400008 0x400000 ∧
    agrees (ctx 2) text 0x400008 0x400000 0x400010 3 ∧
    agrees (ctx 2) text 0x400008 0x400000 0x400010 8 := by
  simp only [candidate3, candidate, agrees]
  decide +kernel

/-- The same for the tree: its root after the insertions before `P0 + 8`. -/
theorem witness_TreeFinders :
    let t := insertUpTo (btInsert Config.default text 0x400010) 0x400008 (ctx 5)
    (encAt 5).selected (encAt 5).enc.sel = some (ctx 5) ∧ 1 ≤ (ctx 5).row.searchNum ∧
    (t.hashTable.read (hash4 Config.default (ctx 5) text 0x400008)).toNat = 0x400000 ∧
    candidate (ctx 5) 0x400008 0x400000 ∧
    0x400008 - 0x400000 ≤ 2 ^ (ctx 5).row.contentLog - 1 ∧
    candidate3 Config.default (ctx 5) t text 0x400008 0x400000 ∧
    agrees (ctx 5) text 0x400008 0x400000 0x400010 3 ∧
    agrees (ctx 5) text 0x400008 0x400000 0x400010 8 := by
  simp only [candidate3, candidate, agrees]
  decide +kernel

/-- An empty run at the end of the input, and the widest distance. -/
theorem witness_PackerMeaning :
    (encAt 2).selected (encAt 2).enc.sel = some (ctx 2) ∧ 21 + 0 ≤ (encAt 2).enc.src.length ∧
    (0x400000#32).toNat ≤ maxOffset ∧ minMatch ≤ (3#32).toNat := by decide +kernel

/-- A match from distance 1 and one from the furthest place, ending at the capacity. -/
theorem witness_SequenceMeaning :
    matchForm 0 (.seqShort 11 alpha 8) = some (0x9D, .short, 11, alpha, 8) ∧
    Instr.wf (.seqShort 11 alpha 8) = true ∧
    litsGoOn (bdAt [] (alpha.take 3) 16 0).bd alpha.length ∧
    11 ≤ 0 + alpha.length + (alpha.take 3).length ∧ 0 + alpha.length + 8 ≤ 16 :=
  ⟨by decide +kernel, by decide, by unfold litsGoOn; decide +kernel, by decide, by decide⟩

/-- A literal run past the capacity; then offset 0, an offset one past the reference space, and a match
one byte past the capacity. -/
theorem witness_SequenceFailures :
    matchForm 0 (.seqShort 12 alpha 8) = some (0x9D, .short, 12, alpha, 8) ∧
    7 < 0 + alpha.length ∧ litsGoOn (bdAt [] (alpha.take 3) 15 0).bd alpha.length ∧
    0 + alpha.length + (alpha.take 3).length < 12 ∧ 15 < 0 + alpha.length + 8 ∧
    matchForm 0 (.seqRepeat alpha 8) = some (0x7D, .rep, 0, alpha, 8) :=
  ⟨by decide +kernel, by decide, by unfold litsGoOn; decide +kernel, by decide, by decide,
    by decide +kernel⟩

/-- The input failures: a missing token, an extension that does not end, a run of 3 with 1 byte left, a
long offset with 1 of its 3 bytes, a match extension that does not end, and a run of 7 with its
extension; and a terminal run one byte past the capacity. -/
theorem witness_SequenceFailures_input :
    (decodeToken 0x38).lit.toNat = litMask (decodeToken 0x38).cls ∧
    B [0xFF, 0xFF] = List.replicate 2 255#8 ∧
    litRun (litMask (decodeToken 0x18).cls) (decodeToken 0x18).lit.toNat 3 [] ∧
    (B [0x61]).length < 3 ∧
    litRun (litMask (decodeToken 0x48).cls) (decodeToken 0x48).lit.toNat 1 [] ∧
    litsGoOn (bdAt [] [] 64 0).bd 1 ∧ (B [0x41, 0]).length < 1 + offBytes (decodeToken 0x48).cls ∧
    litRun (litMask (decodeToken 0x87).cls) (decodeToken 0x87).lit.toNat 0 [] ∧
    0 + offBytes (decodeToken 0x87).cls ≤ (B [1, 0xFF]).length ∧ (decodeToken 0x87).mf = 7#3 ∧
    (∀ b ∈ (B [1, 0xFF]).drop (0 + offBytes (decodeToken 0x87).cls), b = 255#8) ∧
    litRun (litMask (decodeToken 0x38).cls) (decodeToken 0x38).lit.toNat 7 (B [0]) ∧
    7 < 0 + alpha.length := by
  simp only [litRun, litsGoOn]
  decide +kernel

/-- A decode that succeeds, one that fails, with an external dictionary, and both invalid
combinations. -/
theorem witness_BlkDecompressMeaning :
    ready.cfg.legal = true ∧ ready.mem.wf = true ∧ (8#8).extractLsb' 4 4 = 0#4 ∧
    inputsOf (.blkDecompress 0 8 0x2000 17 0x3000 64 0x1000 8 0)
      = some [buffer 0x2000 17, buffer 0x1000 8] ∧
    buffersOk ready.cfg [buffer 0x2000 17, buffer 0x1000 8] (buffer 0x3000 64) ∧
    (decodeBlock (ready.mem.readBytes 0x2000 17) 64 alpha false false 0).phase = .ended ∧
    (decodeBlock (ready.mem.readBytes 0x2000 16) 64 alpha false false 0).phase = .failed 12 ∧
    ((3#8).getLsbD 0 = true ∧ (3#8).getLsbD 1 = true) ∧
    ((4#8).extractLsb' 2 2 = 1#2 ∧ prefixSize < (65537#64).toNat) :=
  ⟨by decide, by decide +kernel, by decide, by decide +kernel, buffers_ok (by decide +kernel),
    by decide +kernel, by decide +kernel, by decide, by decide⟩

theorem witness_BlkDecompressContinueMeaning :
    ready.sd[3]? = some ⟨[]⟩ ∧ buffersOk ready.cfg [buffer 0x2000 17] (buffer 0x3000 64) ∧
    (decodeBlock (ready.mem.readBytes 0x2000 17) 64 [] false false 0).phase = .ended ∧
    (decodeBlock [] 64 [] false false 0).phase = .failed 0 :=
  ⟨by decide, buffers_ok (by decide +kernel), by decide +kernel, by decide +kernel⟩

/-- Each end of FE_BEGIN. -/
theorem witness_FeBeginMeaning :
    (feAt open1).fe[0]? = some open1 ∧ open1.stage = .active ∧
    (feAt fe0).fe[0]? = some fe0 ∧ fe0.stage ≠ .active ∧
    (0x40#64).extractLsb' 6 58 ≠ 0#58 ∧ (0x39#64).extractLsb' 6 58 = 0#58 ∧
    (0x39#64).getLsbD 5 = true ∧ (0x19#64).extractLsb' 6 58 = 0#58 ∧ (0x19#64).getLsbD 5 = false ∧
    tableMemory (levelRow Config.default 1) = 262148 ∧ 262148 ≤ Config.default.tableMemLimit ∧
    buffersOk Config.default [] (buffer 0x5000 7) :=
  ⟨by decide +kernel, by decide, by decide +kernel, by decide, by decide, by decide, by decide,
    by decide, by decide, by decide, by decide, buffers_ok (by decide +kernel)⟩

/-- Room for no full block, for a flush of 21 bytes, for an end, and a size that is not met. -/
theorem witness_FrameEncoderMeaning :
    (feAt { open1 with buf := text }).fe[0]? = some { open1 with buf := text } ∧
    open1.stage = .active ∧ open1.prefs.blockSizeId = 1#3 ∧ (21 + 21) / 2 ^ 16 * (4 + 2 ^ 16) ≤ 0 ∧
    buffersOk (feAt open1).cfg [buffer 0x1000 21] (buffer 0x5000 0) ∧
    buffersOk (feAt open1).cfg [] (buffer 0x5000 33) ∧ open1.prefs.contentSize = 0#64 ∧
    ({ open1 with prefs := { open1.prefs with contentSize := 5 } } : Fe).total ≠ 5#64 :=
  ⟨by decide +kernel, by decide, by decide, by decide, buffers_ok (by decide +kernel),
    buffers_ok (by decide +kernel), by decide, by decide⟩

/-- One byte less than a block of 65536. -/
@[irreducible] def almostBlock : List Byte := List.replicate 65535 0x41

theorem almostBlock_length : almostBlock.length = 65535 := by
  unfold almostBlock
  exact List.length_replicate

/-- A buffer one byte short of a block, which one byte more fills: `k = 1`, with exactly its room. -/
theorem witness_FrameEncoderMeaning_block :
    let f : Fe := { open1 with buf := almostBlock }
    (feAt f).fe[0]? = some f ∧ f.stage = .active ∧
    (f.buf.length + (1#64).toNat) / 2 ^ (14 + 2 * f.prefs.blockSizeId.toNat) = 1 ∧
    1 * (4 + 2 ^ (14 + 2 * f.prefs.blockSizeId.toNat)) ≤ (65540#64).toNat ∧
    buffersOk (feAt f).cfg [buffer 0x1000 1] (buffer 0x5000 65540) :=
  ⟨rfl, rfl, by
    change (almostBlock.length + 1) / 2 ^ 16 = 1
    rw [almostBlock_length]
    rfl, by change 1 * (4 + 2 ^ 16) ≤ 65540; decide, by
    change buffersOk Config.default _ _
    exact buffers_ok (by decide +kernel)⟩

/-- The three stages, and one byte too few (FE28, FE29). -/
theorem witness_FrameEncoderRejections :
    (feAt fe0).fe[0]? = some fe0 ∧ fe0.stage = .idle ∧
    ({ open1 with stage := .error, err := 7 } : Fe).stage = .error ∧ open1.stage = .active ∧
    65539 < (0 + 65536) / 2 ^ 16 * (4 + 2 ^ 16) ∧ text ≠ [] ∧ 24 < 4 + text.length ∧
    32 < 4 + text.length + 4 + 4 := by decide +kernel

theorem witness_SplitInvariance : open1.buf.length < open1.blockSize := by decide +kernel

theorem witness_EncoderHeaderAccepted : (7#3) ≠ 0#3 := by decide

/-- A decoder in ERROR, one whose cursor is elsewhere, and one past the last offset. -/
theorem witness_FdResetStickyCursor :
    (fdAt { inFrame with dStage := .error, err := 5 }).fd[0]?
      = some { inFrame with dStage := .error, err := 5 } ∧
    inFrame.dStage ≠ .error ∧
    ({ inFrame with srcExpect := .offset 10 } : Fd).srcExpect ≠ .anywhere ∧
    ({ inFrame with srcExpect := .offset 10 } : Fd).srcExpect ≠ .offset 5 ∧
    ({ inFrame with srcExpect := .pastEnd } : Fd).srcExpect ≠ .offset 5 := by decide +kernel

theorem witness_FdDecodeCompletes :
    ready.cfg.legal = true ∧ ready.Inv ∧ ready.fd[0]? = some Fd.powerOn ∧
    Fd.powerOn.dStage ≠ .error ∧ Fd.powerOn.srcExpect = .anywhere ∧
    buffersOk ready.cfg [buffer 0x1000 21] (buffer 0x6000 64) ∧
    encode Config.default .endMark = .record (B [0, 0, 0, 0]) ∧
    (fdAt inFrame).fd[(fdAt inFrame).rcd.h]? = some inFrame ∧ inFrame.Inv ∧
    inFrame.dStage ≠ .error :=
  ⟨by decide, ready_inv, by decide, by decide, rfl, buffers_ok (by decide +kernel), by decide +kernel,
    by decide +kernel, by decide +kernel, by decide⟩

theorem witness_StoredBlockCopied :
    let f : Fd := { inFrame with dStage := .copyDirect, remaining := 22 }
    (fdAt f).fd[0]? = some f ∧ (fdAt f).mem.wf = true ∧ f.srcExpect = .anywhere ∧
    min 21 64 < f.remaining ∧ buffersOk (fdAt f).cfg [buffer 0x1000 21] (buffer 0x6000 64) ∧
    accountOk f text :=
  ⟨by decide +kernel, by decide +kernel, rfl, by decide, buffers_ok (by decide +kernel),
    by unfold accountOk; decide +kernel⟩

theorem witness_HeaderRecordMeaning :
    isSkippable (fdAt Fd.powerOn).cfg (fdAt Fd.powerOn).cfg.magic = false ∧
    atRecord (fdAt Fd.powerOn) Fd.powerOn .header ∧ Fd.powerOn.dStage = .getHeader ∧
    (some 21#64).isSome = (0x6C#8).getLsbD 3 ∧ (0x6C#8).extractLsb' 6 2 = 1#2 ∧
    (0x6C#8).getLsbD 4 = false ∧ (0x6C#8).extractLsb' 0 2 = 0#2 ∧ (0x10#8).getLsbD 7 = false ∧
    (0x10#8).extractLsb' 0 4 = 0#4 ∧ (0x10#8).extractLsb' 4 3 ≠ 0#3 ∧
    (0x22#8) = (xxh32 (covered 0x6C 0x10 (some 21)) 0 >>> 24).setWidth 8 ∧
    (0x23#8) ≠ (xxh32 (covered 0x6C 0x10 (some 21)) 0 >>> 24).setWidth 8 :=
  ⟨by decide +kernel, ⟨by decide, by decide⟩, rfl, by decide, by decide, by decide, by decide,
    by decide, by decide, by decide, by decide +kernel, by decide +kernel⟩

/-- Each illegal descriptor, and a first word ("abcd") that is no magic number. -/
theorem witness_HeaderRecordMeaning_illegal :
    (none : Option U64).isSome = (0x24#8).getLsbD 3 ∧ (0x24#8).extractLsb' 6 2 ≠ 1#2 ∧
    (0x74#8).extractLsb' 6 2 = 1#2 ∧ (0x74#8).getLsbD 4 = true ∧
    (0x65#8).getLsbD 4 = false ∧ (0x65#8).extractLsb' 0 2 ≠ 0#2 ∧ (0x90#8).getLsbD 7 = true ∧
    (0x11#8).extractLsb' 0 4 ≠ 0#4 ∧ (0x80#8).extractLsb' 4 3 = 0#3 ∧
    ready.fd[0]? = some Fd.powerOn ∧ buffersOk ready.cfg [buffer 0x1000 4] (buffer 0x6000 0) ∧
    BitVec.ofNat 32 (leNat (ready.mem.readBytes 0x1000 4)) &&& 0xFFFFFFF0#32
      ≠ ready.cfg.skippableBase ∧
    BitVec.ofNat 32 (leNat (ready.mem.readBytes 0x1000 4)) ≠ ready.cfg.magic :=
  ⟨by decide, by decide, by decide, by decide, by decide, by decide, by decide, by decide, by decide,
    by decide, buffers_ok (by decide +kernel), by decide +kernel, by decide +kernel⟩

/-- Within the declared size, at it, and past it. -/
theorem witness_StoredRecordMeaning_room :
    let s : State := { fdAt inFrame with rcd := { (fdAt inFrame).rcd with room := 1 } }
    let full : Fd := { inFrame with
      frameInfo := { inFrame.frameInfo with contentSizeFlag := true, contentSize := 1 }, total := 1 }
    atRecord s inFrame .blockWord ∧ s.rcd.room < (B [0x41, 0x42]).length ∧
    (B [0x41, 0x42]).length ≤ inFrame.frameInfo.maxBlockSize ∧
    accountOk inFrame ((B [0x41, 0x42]).take s.rcd.room) ∧
    ¬ accountOk full ((B [0x41, 0x42]).take s.rcd.room) :=
  ⟨⟨by decide, by decide⟩, by decide, by decide, by unfold accountOk; decide +kernel,
    by unfold accountOk; decide +kernel⟩

theorem witness_StoredRecordMeaning :
    atRecord (fdAt inFrame) inFrame .blockWord ∧ 1 ≤ (B [0x41]).length ∧
    (B [0x41]).length ≤ inFrame.frameInfo.maxBlockSize ∧ (B [0x41]).length ≤ (fdAt inFrame).rcd.room ∧
    accountOk inFrame (B [0x41]) ∧
    accountOk { inFrame with frameInfo := { inFrame.frameInfo with
      contentSizeFlag := true, contentSize := 1 } } (B [0x41]) ∧
    ¬ accountOk { inFrame with frameInfo := { inFrame.frameInfo with
      contentSizeFlag := true, contentSize := 1 } } (B [0x41, 0x42]) :=
  ⟨⟨by decide, by decide⟩, by decide, by decide, by decide, by unfold accountOk; decide +kernel,
    by unfold accountOk; decide +kernel, by unfold accountOk; decide +kernel⟩

/-- A size one above the greatest (R513). -/
theorem witness_RecordTooLarge :
    inFrame.frameInfo.maxBlockSize < (List.replicate 65537 0#8).length ∧
    (List.replicate 65537 0#8).length < 2 ^ 31 := by
  simp only [List.length_replicate]
  decide

/-- A block that decodes, with room 64 and with room 20, one past the declared size, and one that does
not decode. -/
theorem witness_CompressedRecordMeaning :
    atRecord (fdAt inFrame) inFrame .blockWord ∧ inFrame.tmpOut = [] ∧
    be1.length ≤ inFrame.frameInfo.maxBlockSize ∧
    (decodeBlock be1 65536 [] false false 0).phase = .ended ∧
    (decodeBlock be1 65536 [] false false 0).out.length = 21 ∧ accountOk inFrame text ∧
    ¬ accountOk { inFrame with frameInfo := { inFrame.frameInfo with
      contentSizeFlag := true, contentSize := 20 } } text ∧
    (decodeBlock (B [0x80, 0x05]) 65536 [] false false 0).phase = .failed 2 :=
  ⟨⟨by decide, by decide⟩, rfl, by decide, by decide +kernel, by decide +kernel,
    by unfold accountOk; decide +kernel, by unfold accountOk; decide +kernel, by decide +kernel⟩

/-- A frame with a checksum, one without, one whose declared size is not met, and both checksums. -/
theorem witness_FrameEndRecords :
    atRecord (fdAt inFrame) inFrame .blockWord ∧ inFrame.frameInfo.contentSizeFlag = false ∧
    inFrame.frameInfo.contentChecksumFlag = true ∧
    atRecord (fdAt { inFrame with frameInfo := ⟨true, 1#3, 65536, false, true, 5#64⟩ })
      { inFrame with frameInfo := ⟨true, 1#3, 65536, false, true, 5#64⟩ } .blockWord ∧
    inFrame.total ≠ 5#64 ∧
    atRecord (fdAt { inFrame with dStage := .storeSuffix })
      { inFrame with dStage := .storeSuffix } .suffix ∧
    (0x02CC5D05#32) = xxh32 inFrame.content 0 ∧ (0#32) ≠ xxh32 inFrame.content 0 :=
  ⟨⟨by decide, by decide⟩, rfl, rfl, ⟨by decide, by decide⟩, by decide, ⟨by decide, by decide⟩,
    by decide +kernel, by decide +kernel⟩

theorem witness_SkipRecordMeaning :
    (fdAt Fd.powerOn).cfg.skippableBase &&& 0xF#32 = 0#32 ∧
    atRecord (fdAt Fd.powerOn) Fd.powerOn .header ∧ Fd.powerOn.dStage = .getHeader ∧
    ([] : List Byte).length < 2 ^ 32 :=
  ⟨by decide, ⟨by decide, by decide⟩, rfl, by decide⟩

end Sys2Proof.Tests
end

section
/-! What a step does with what its stream holds (spec/00_scope.md R8, R9; spec/43_block_decoder.md
R363; spec/10_state.md R79; spec/70_reset_and_hazards.md R701): one lemma per fetch function and
outcome, then the step over each stream. -/

namespace Sys2Proof.Machine

variable {s : State} {i : Instr}

/-! ## The step over an outcome of the fetch -/

theorem step_of_fetch_run {s1 : State} (h : fetch s = .run i s1) : step s = exec i s1 := by
  simp only [step, h]

theorem step_of_fetch_idle (h : fetch s = .idle) : step s = .next s := by
  simp only [step, h]

/-! ## The stream the state selects -/

theorem fetch_host (h : s.stream = .host) : fetch s = fetchHost s := by simp only [fetch, h]

theorem fetch_micro (h : s.stream = .micro) : fetch s = fetchMicro s := by simp only [fetch, h]

theorem fetch_sequence (h : s.stream = .sequence) : fetch s = fetchSequence s := by
  simp only [fetch, h]

theorem fetch_record (h : s.stream = .record) : fetch s = fetchRecord s := by simp only [fetch, h]

/-! ## Host commands and micro-operations -/

theorem fetchHost_command {d : Descriptor} {rest : List Descriptor} (hq : s.queue = d :: rest)
    (hd : decodeCommand d = .ok i) : fetchHost s = .run i { s with queue := rest } := by
  simp only [fetchHost, hq, hd]

theorem fetchHost_idle (hq : s.queue = []) : fetchHost s = .idle := by simp only [fetchHost, hq]

theorem fetchMicro_uop {d : Descriptor} {rest : List Descriptor} (hq : s.uops = d :: rest)
    (hd : decodeUop d = some i) : fetchMicro s = .run i { s with uops := rest } := by
  simp only [fetchMicro, hq, hd]

theorem fetchMicro_idle (hq : s.uops = []) : fetchMicro s = .idle := by simp only [fetchMicro, hq]

/-! ## Sequences -/

/-- A running decode whose output may still grow (R378) finds the Sequence its bytes decode to. -/
theorem bdFetch_sequence {b : Bd} {q : Sequence} {n : Nat} (hp : b.phase = .running)
    (hfull : ¬ (b.eoo = true ∧ b.out.length = b.cap))
    (hd : decodeSeq b.limits (b.src.drop b.ip) = .seq q n) : bdFetch b = .sequence q := by
  have hopen : ¬ (b.eoo && b.out.length == b.cap) = true := by simpa using hfull
  simp only [bdFetch, hp, if_neg hopen, hd]

theorem bdFetch_idle {b : Bd} (hp : b.phase ≠ .running) : bdFetch b = .idle := by
  cases h : b.phase with
  | running => exact absurd h hp
  | ended | failed => simp only [bdFetch, h]

theorem fetchSequence_run {q : Sequence} (h : bdFetch s.bd = .sequence q) :
    fetchSequence s = .run q.toInstr s := by
  simp only [fetchSequence, h]

theorem fetchSequence_idle (h : bdFetch s.bd = .idle) : fetchSequence s = .idle := by
  simp only [fetchSequence, h]

/-! ## Records -/

/-- At a place where a record begins, the decoder finds the record its bytes decode to. -/
theorem recFetch_record {cfg : Config} {f : Fd} {r : Rec} {p : RecordPlace} {n : Nat}
    (hp : f.place = some p) (hne : r.src.drop r.ip ≠ [])
    (hd : decodeRecord cfg p (r.src.drop r.ip) = .record i n) : recFetch cfg f r = .record i := by
  simp [recFetch, hp, hne, hd, -List.drop_eq_nil_iff]

/-- With no bytes left only held output (`flushOut`) keeps the record stream going. -/
theorem recFetch_idle {cfg : Config} {f : Fd} {r : Rec} (hnil : r.src.drop r.ip = [])
    (hflush : f.dStage ≠ .flushOut) : recFetch cfg f r = .idle := by
  cases hp : f.place with
  | some p => simp [recFetch, hp, hnil, -List.drop_eq_nil_iff]
  | none => simp [recFetch, hp, hnil, hflush, -List.drop_eq_nil_iff]

theorem fetchRecord_run {f : Fd} (hf : s.fd[s.rcd.h]? = some f)
    (h : recFetch s.cfg f s.rcd = .record i) : fetchRecord s = .run i s := by
  simp only [fetchRecord, hf, h]

theorem fetchRecord_idle {f : Fd} (hf : s.fd[s.rcd.h]? = some f)
    (h : recFetch s.cfg f s.rcd = .idle) : fetchRecord s = .idle := by
  simp only [fetchRecord, hf, h]

/-! ## The step over each stream -/

theorem step_host_command {d : Descriptor} {rest : List Descriptor} (hs : s.stream = .host)
    (hq : s.queue = d :: rest) (hd : decodeCommand d = .ok i) :
    step s = exec i { s with queue := rest } :=
  step_of_fetch_run ((fetch_host hs).trans (fetchHost_command hq hd))

theorem step_micro_uop {d : Descriptor} {rest : List Descriptor} (hs : s.stream = .micro)
    (hq : s.uops = d :: rest) (hd : decodeUop d = some i) :
    step s = exec i { s with uops := rest } :=
  step_of_fetch_run ((fetch_micro hs).trans (fetchMicro_uop hq hd))

theorem step_sequence {q : Sequence} (hs : s.stream = .sequence)
    (h : bdFetch s.bd = .sequence q) : step s = exec q.toInstr s :=
  step_of_fetch_run ((fetch_sequence hs).trans (fetchSequence_run h))

theorem step_record {f : Fd} (hs : s.stream = .record) (hf : s.fd[s.rcd.h]? = some f)
    (h : recFetch s.cfg f s.rcd = .record i) : step s = exec i s :=
  step_of_fetch_run ((fetch_record hs).trans (fetchRecord_run hf h))

theorem step_host_idle (hs : s.stream = .host) (hq : s.queue = []) : step s = .next s :=
  step_of_fetch_idle ((fetch_host hs).trans (fetchHost_idle hq))

theorem step_micro_idle (hs : s.stream = .micro) (hq : s.uops = []) : step s = .next s :=
  step_of_fetch_idle ((fetch_micro hs).trans (fetchMicro_idle hq))

theorem step_sequence_idle (hs : s.stream = .sequence) (hp : s.bd.phase ≠ .running) :
    step s = .next s :=
  step_of_fetch_idle ((fetch_sequence hs).trans (fetchSequence_idle (bdFetch_idle hp)))

theorem step_record_idle {f : Fd} (hs : s.stream = .record) (hf : s.fd[s.rcd.h]? = some f)
    (hnil : s.rcd.src.drop s.rcd.ip = []) (hflush : f.dStage ≠ .flushOut) : step s = .next s :=
  step_of_fetch_idle ((fetch_record hs).trans (fetchRecord_idle hf (recFetch_idle hnil hflush)))

end Sys2Proof.Machine

namespace Sys2Proof.Proofs
open Sys2Proof.Machine

/-- Settles O7: the step over each stream, with an instruction to run and with none. -/
theorem stepRunsDecodedInstruction : Obligations.StepRunsDecodedInstruction := by
  refine ⟨?host, ?micro, ?sequence, ?record, ?hostIdle, ?microIdle, ?sequenceIdle, ?recordIdle⟩
  case host => exact fun _ _ _ _ => step_host_command
  case micro => exact fun _ _ _ _ => step_micro_uop
  case sequence => exact fun _ _ _ hs hp hfull hd => step_sequence hs (bdFetch_sequence hp hfull hd)
  case record => exact fun _ _ _ _ _ hs hf hp hne hd => step_record hs hf (recFetch_record hp hne hd)
  case hostIdle => exact fun _ => step_host_idle
  case microIdle => exact fun _ => step_micro_idle
  case sequenceIdle => exact fun _ => step_sequence_idle
  case recordIdle => exact fun _ _ => step_record_idle

end Sys2Proof.Proofs
end

section
/-! What the finders and parsers leave of a compression context (spec/40_match_finder.md R206 to R220,
spec/42_block_encoder.md R290 to R309), and that `ENCODE`, `CLEAR()`, CTX_INIT's and LOAD_DICT's
contexts meet R49. The one fact the parsers turn on: they insert positions of the current input only,
so every bucket stays below the position after it. -/

namespace Sys2Proof.Machine
open Sys2Proof.Claims (sameButTables)

variable {cfg : Config} {lim : Nat} {c c' c'' : Cctx} {src : List Byte}

/-! ## Numbers as u32 words and tables after a write -/

theorem toNat_u32 {n : Nat} (h : n < 2 ^ 32) : (u32 n).toNat = n := by
  simpa [u32] using h

theorem toNat_u32_le (n : Nat) : (u32 n).toNat ≤ n := by
  simpa [u32] using Nat.mod_le n _

theorem Table.mem_write {t : Table} {k : Nat} {v : U32} {e : Nat × U32} (h : e ∈ t.write k v) :
    e = (k, v) ∨ e ∈ t := by
  simp only [Table.write] at h
  split at h
  · exact .inr (mem_sparseErase h)
  · exact mem_sparseSet h

/-- Every entry of a table is a position below `lim`. -/
def Table.Below (lim : Nat) (t : Table) : Prop := ∀ e ∈ t, e.2.toNat < lim

theorem Table.Below.mono {t : Table} {lim' : Nat} (h : t.Below lim) (hl : lim ≤ lim') :
    t.Below lim' := fun e he => Nat.lt_of_lt_of_le (h e he) hl

theorem Table.Below.write {t : Table} (h : t.Below lim) (k : Nat) {p : Nat} (hp : p < lim) :
    Table.Below lim (t.write k (u32 p)) := by
  intro e he
  rcases Table.mem_write he with rfl | he
  · exact Nat.lt_of_le_of_lt (toNat_u32_le p) hp
  · exact h e he

/-! ## What a search may change -/

/-- The buckets and `nextInsert` of a context are positions up to `lim`. -/
structure Cctx.Below (lim : Nat) (c : Cctx) : Prop where
  table : Table.Below lim c.hashTable
  table3 : Table.Below lim c.hashTable3
  next : c.nextInsert.toNat ≤ lim

theorem Cctx.Below.mono {lim' : Nat} (h : c.Below lim) (hl : lim ≤ lim') : c.Below lim' :=
  ⟨h.table.mono hl, h.table3.mono hl, Nat.le_trans h.next hl⟩

/-- A search or insertion of positions below `lim` leads from `c` to `c'`: only the tables and
`nextInsert` changed (R220), and nothing at or above `lim` was inserted. -/
structure Searched (lim : Nat) (c c' : Cctx) : Prop where
  same : sameButTables c c'
  below : c.Below lim → c'.Below lim

theorem Searched.refl : Searched lim c c := ⟨rfl, id⟩

theorem Searched.trans (h : Searched lim c c') (h' : Searched lim c' c'') : Searched lim c c'' := by
  refine ⟨?_, h'.below ∘ h.below⟩
  have hs := h.same
  have hs' := h'.same
  unfold sameButTables at hs hs' ⊢
  rw [hs] at hs'
  exact hs'

theorem Searched.mono {lim' : Nat} (h : Searched lim c c') (hl : lim ≤ lim')
    (hb : c.Below lim) : c'.Below lim' := (h.below hb).mono hl

/-- Putting a position below `lim` into the main table. -/
theorem searched_hashTable (k : Nat) {p : Nat} (hp : p < lim) :
    Searched lim c { c with hashTable := c.hashTable.write k (u32 p) } :=
  ⟨rfl, fun h => ⟨h.table.write k hp, h.table3, h.next⟩⟩

/-- The chain and the tree hold distances, of which `Below` says nothing. -/
theorem searched_chainTable (t : Table) : Searched lim c { c with chainTable := t } :=
  ⟨rfl, fun h => ⟨h.table, h.table3, h.next⟩⟩

theorem searched_nextInsert {p : Nat} (hp : p ≤ lim) :
    Searched lim c { c with nextInsert := u32 p } :=
  ⟨rfl, fun h => ⟨h.table, h.table3, Nat.le_trans (toNat_u32_le p) hp⟩⟩

/-! ## Hash-chain insertion -/

theorem searched_insertHash3 {p : Nat} (hp : p < lim) : Searched lim c (insertHash3 cfg src p c) := by
  simp only [insertHash3]
  split
  · exact .refl
  · exact ⟨rfl, fun h => ⟨h.table, h.table3.write _ hp, h.next⟩⟩

theorem searched_mfInsert {p : Nat} (hp : p < lim) : Searched lim c (mfInsert cfg src p c) := by
  refine Searched.trans ?_ (searched_insertHash3 hp)
  exact ⟨rfl, fun h => ⟨h.table.write _ hp, h.table3, h.next⟩⟩

theorem searched_insertRun {ins : Nat → Cctx → Cctx}
    (hins : ∀ q, q < lim → ∀ c, Searched lim c (ins q c)) :
    ∀ k c, c.nextInsert.toNat + k ≤ lim → Searched lim c (insertRun ins k c)
  | 0, _, _ => .refl
  | k + 1, c, hk => by
    have hone : Searched lim c (ins c.nextInsert.toNat c) := hins _ (by omega) c
    have hle := toNat_u32_le (c.nextInsert.toNat + 1)
    exact (hone.trans (searched_nextInsert (by omega))).trans
      (searched_insertRun hins k _ (by dsimp only; omega))

/-- `insertUpTo(p)` inserts positions below `p` only (R207). -/
theorem searched_insertUpTo {ins : Nat → Cctx → Cctx} {p : Nat}
    (hins : ∀ q, q < lim → ∀ c, Searched lim c (ins q c)) (hp : p ≤ lim) :
    Searched lim c (insertUpTo ins p c) := by
  rcases Nat.le_total p c.nextInsert.toNat with h | h
  · simpa [insertUpTo, Nat.sub_eq_zero_of_le h, insertRun] using Searched.refl
  · exact searched_insertRun hins _ c (by omega)

theorem searched_mfFindBest {p high : Nat} (hp : p ≤ lim) :
    Searched lim c (mfFindBest cfg src p high c).2 :=
  searched_insertUpTo (fun _ hq _ => searched_mfInsert hq) hp

theorem searched_mfFindAll {p high minLen : Nat} (hp : p ≤ lim) :
    Searched lim c (mfFindAll cfg src p high minLen c).2 :=
  searched_insertUpTo (fun _ hq _ => searched_mfInsert hq) hp

/-! ## Binary tree: the walk itself changes links only -/

theorem searched_btWrite (w : Slot) (v : Nat) : Searched lim c (btWrite w v c) := searched_chainTable _

theorem searched_btClose (w : BtWalk) : Searched lim c (btClose w c) :=
  (searched_btWrite _ _).trans (searched_btWrite _ _)

theorem searched_btAdopt (w : BtWalk) (q : Nat) : Searched lim c (btAdopt w q c) :=
  (searched_btWrite _ _).trans (searched_btWrite _ _)

theorem searched_btLoop {p high : Nat} {collect : Bool} :
    ∀ attempts q w (c : Cctx), Searched lim c (btLoop src p high collect attempts q w c).2
  | 0, _, w, _ => searched_btClose w
  | attempts + 1, q, w, c => by
    rw [btLoop]
    split
    · exact searched_btClose w
    · dsimp only
      split
      · exact searched_btAdopt _ q
      · split <;> exact (searched_btWrite _ _).trans (searched_btLoop attempts _ _ _)

theorem searched_btSearch {p high minLen : Nat} {collect : Bool} (hp : p < lim) :
    Searched lim c (btSearch cfg src p collect high minLen c).2 :=
  ((searched_hashTable _ hp).trans (searched_insertHash3 hp)).trans (searched_btLoop _ _ _ _)

theorem searched_btInsert {opHigh q : Nat} (hq : q < lim) :
    Searched lim c (btInsert cfg src opHigh q c) := searched_btSearch hq

theorem searched_btFindAll {opHigh p high minLen : Nat} (hp : p < lim) :
    Searched lim c (btFindAll cfg src opHigh p high minLen c).2 :=
  ((searched_insertUpTo (fun _ hq _ => searched_btInsert hq) (Nat.le_of_lt hp)).trans
    (searched_btSearch hp)).trans (searched_nextInsert hp)

/-! ## The parsers -/

/-- An eligible index has `MFLIMIT` bytes left, so its position lies inside the input (R294). -/
theorem Input.eligible_lt {x : Input} {i : Nat} (hm : 4 ≤ cfg.mfLimit) (h : x.eligible cfg i = true) :
    x.p0 + i < x.p0 + x.n := by
  simp only [Input.eligible, decide_eq_true_eq] at h
  omega

section Parsers
variable {x : Input} (hm : 4 ≤ cfg.mfLimit)
include hm

theorem searched_fastLoop :
    ∀ fuel i anchor misses last (c : Cctx),
      Searched (x.p0 + x.n) c (fastLoop cfg x fuel i anchor misses last c).cctx
  | 0, _, _, _, _, _ => .refl
  | fuel + 1, i, anchor, misses, last, c => by
    rw [fastLoop]
    split
    · exact .refl
    · next he =>
      have hp : x.p0 + i < x.p0 + x.n := Input.eligible_lt hm (by simpa using he)
      dsimp only
      split <;> exact (searched_hashTable _ hp).trans (searched_fastLoop fuel _ _ _ _ _)

theorem searched_parseFast : Searched (x.p0 + x.n) c (parseFast cfg x c).cctx :=
  (searched_fastLoop hm _ _ _ _ _ c).trans (searched_nextInsert (Nat.le_refl _))

theorem searched_bestAcc {i anchor last : Nat} (he : x.eligible cfg i = true) :
    Searched (x.p0 + x.n) c (bestAcc cfg x i anchor last c).2 :=
  searched_mfFindBest (high := x.high) (Nat.le_of_lt (Input.eligible_lt hm he))

theorem searched_lookahead {anchor last : Nat} :
    ∀ k j m (c : Cctx), Searched (x.p0 + x.n) c (lookahead cfg x anchor last k j m c).2.2
  | 0, _, _, _ => .refl
  | k + 1, j, m, c => by
    rw [lookahead]
    split
    · exact .refl
    · next he =>
      have hacc := searched_bestAcc (c := c) (anchor := anchor) (last := last) hm (by simpa using he)
      split
      · next m2 c1 heq =>
        rw [heq] at hacc
        split
        · exact hacc.trans (searched_lookahead k _ _ _)
        · exact hacc
      · next c1 heq =>
        rw [heq] at hacc
        exact hacc

theorem searched_lookaheadLoop {depth : Nat} :
    ∀ fuel i anchor last (c : Cctx),
      Searched (x.p0 + x.n) c (lookaheadLoop cfg x depth fuel i anchor last c).cctx
  | 0, _, _, _, _ => .refl
  | fuel + 1, i, anchor, last, c => by
    rw [lookaheadLoop]
    split
    · exact .refl
    · next he =>
      have hacc := searched_bestAcc (c := c) (anchor := anchor) (last := last) hm (by simpa using he)
      split
      · next c1 heq =>
        rw [heq] at hacc
        exact hacc.trans (searched_lookaheadLoop fuel _ _ _ _)
      · next m0 c1 heq =>
        rw [heq] at hacc
        have hlook := hacc.trans
          (searched_lookahead (anchor := anchor) (last := last) hm depth i m0 c1)
        dsimp only
        split <;> exact hlook.trans (searched_lookaheadLoop fuel _ _ _ _)

omit hm in
theorem searched_findAll {bt : Bool} {p : Nat} (hp : p < x.p0 + x.n) :
    Searched (x.p0 + x.n) c (findAll cfg x bt p c).2 := by
  cases bt with
  | true => exact searched_btFindAll hp
  | false => exact searched_mfFindAll (Nat.le_of_lt hp)

omit hm in
/-- The nodes of a window that ends inside the input (R305, R308). -/
theorem searched_windowLoop {bt : Bool} {i : Nat} :
    ∀ cnt k w (c : Cctx), x.p0 + i + k + cnt ≤ x.p0 + x.n →
      Searched (x.p0 + x.n) c (windowLoop cfg x bt i cnt k w c).2
  | 0, _, _, _, _ => .refl
  | cnt + 1, k, w, c, hk => by
    rw [windowLoop]
    split
    · exact .refl
    · have hfind := searched_findAll (c := c) (cfg := cfg) (bt := bt)
        (show x.p0 + i + k < x.p0 + x.n by omega)
      dsimp only
      generalize (if x.small cfg = true then [] else _ : List Cand) = cands
      split
      · exact hfind
      · exact hfind.trans (searched_windowLoop cnt (k + 1) _ _ (by omega))

theorem searched_optimalLoop {bt : Bool} :
    ∀ fuel i anchor last (c : Cctx),
      Searched (x.p0 + x.n) c (optimalLoop cfg x bt fuel i anchor last c).cctx
  | 0, _, _, _, _ => .refl
  | fuel + 1, i, anchor, last, c => by
    rw [optimalLoop]
    split
    · exact .refl
    · next he =>
      simp only [Input.eligible, Bool.not_eq_true', decide_eq_false_iff_not, not_not] at he
      have hcount : min optNum (x.n - cfg.mfLimit - i + 1) ≤ x.n - i := by omega
      exact (searched_windowLoop _ 0 _ c (by omega)).trans (searched_optimalLoop fuel _ _ _ _)

/-- Every parser inserts positions of its input only. -/
theorem searched_parseWith (strategy : Strategy) :
    Searched (x.p0 + x.n) c (parseWith cfg strategy x c).cctx := by
  cases strategy with
  | fast => exact searched_parseFast hm
  | priceFast => exact searched_lookaheadLoop hm _ _ _ _ c
  | lowestPrice => exact searched_lookaheadLoop hm _ _ _ _ c
  | optimalPrice => exact searched_optimalLoop hm _ _ _ _ c
  | optimalPriceBt => exact searched_optimalLoop hm _ _ _ _ c

end Parsers

end Sys2Proof.Machine
end

section
/-! R49 on every context a command makes: `CLEAR()`, CTX_INIT and CTX_FREE (R421 to R423), `ENCODE`
with its renormalization and history update (R290, R424, R430), and LOAD_DICT (R426). -/

namespace Sys2Proof.Machine
open Sys2Proof.Claims (sameButTables)

variable {cfg : Config} {c c' : Cctx}

/-! ## Positions and histories -/

/-- R49 over the naturals. -/
theorem Cctx.inv_iff : c.Inv cfg ↔
    windowSize ≤ c.currentOffset.toNat ∧ c.currentOffset.toNat ≤ cfg.renormLimit ∧
    c.lowLimit.toNat ≤ c.currentOffset.toNat ∧ c.dictLimit = c.currentOffset ∧
    c.currentOffset.toNat ≤ c.lowLimit.toNat + windowSize ∧
    c.hist.length = c.currentOffset.toNat - c.lowLimit.toNat ∧
    c.Below c.currentOffset.toNat := by
  constructor
  · rintro ⟨hwin, hren, hlow, hdict, hspan, hhist, ht, ht3, hnext⟩
    exact ⟨hwin, hren, by simpa [hdict] using BitVec.le_def.mp hlow, hdict, hspan, hhist,
      fun e he => BitVec.lt_def.mp (ht e he), fun e he => BitVec.lt_def.mp (ht3 e he),
      BitVec.le_def.mp hnext⟩
  · rintro ⟨hwin, hren, hlow, hdict, hspan, hhist, ht, ht3, hnext⟩
    exact ⟨hwin, hren, BitVec.le_def.mpr (by simpa [hdict] using hlow), hdict, hspan, hhist,
      fun e he => BitVec.lt_def.mpr (ht e he), fun e he => BitVec.lt_def.mpr (ht3 e he),
      BitVec.le_def.mpr hnext⟩

/-- The level, the row and the allocation of a context are no part of R49. -/
theorem Cctx.clear_inv (hp : paramsFit cfg) (c : Cctx) : c.clear.Inv cfg := by
  obtain ⟨-, hren, -⟩ := hp
  have hw : (u32 windowSize).toNat = windowSize := rfl
  refine ⟨Nat.le_of_eq hw.symm, ?_, Nat.le_refl _, rfl, Nat.le_add_right _ _, ?_, ?_, ?_, Nat.le_refl _⟩
  · change (u32 windowSize).toNat ≤ _
    omega
  · simp [Cctx.clear]
  · simp [Cctx.clear]
  · simp [Cctx.clear]

theorem Cctx.discard_inv (hp : paramsFit cfg) (c : Cctx) : c.discard.Inv cfg := c.clear_inv hp

theorem Cctx.configure_inv (hp : paramsFit cfg) (level : Nat) (c : Cctx) :
    (c.configure cfg level).Inv cfg := c.clear_inv hp

theorem Cctx.powerOn_inv (hp : paramsFit cfg) : (Cctx.powerOn cfg).Inv cfg :=
  (Cctx.powerOn cfg).clear_inv hp

/-! ## `ENCODE` -/

theorem renormEntry_le (delta : Nat) (v : U32) : (renormEntry delta v).toNat ≤ v.toNat - delta := by
  simp only [renormEntry]
  split
  · exact toNat_u32_le _
  · exact Nat.zero_le _

/-- After RENORM every bucket lies `delta` lower, and one that would name no position is empty
(R424). -/
theorem Table.Below.renorm {t : Table} {lim delta : Nat} (h : t.Below lim) :
    Table.Below (lim - delta) (renormTable delta t) := by
  intro e he
  simp only [renormTable, List.mem_filter, List.mem_map, bne_iff_ne, ne_eq] at he
  obtain ⟨⟨e, he, rfl⟩, hne⟩ := he
  have hlt := h e he
  have hle := renormEntry_le delta e.2
  have hpos : (renormEntry delta e.2).toNat ≠ 0 := fun h0 => hne (BitVec.eq_of_toNat_eq h0)
  dsimp only
  omega

theorem renormalize_inv (hp : paramsFit cfg) (hc : c.Inv cfg) : (renormalize c).Inv cfg := by
  obtain ⟨-, hfit, -⟩ := hp
  obtain ⟨hwin, hren, hlow, hdict, hspan, hhist, hbelow⟩ := Cctx.inv_iff.mp hc
  have hlt : c.currentOffset.toNat < 2 ^ 32 := c.currentOffset.isLt
  have hoff : (renormalize c).currentOffset = u32 windowSize := rfl
  have hw : (u32 windowSize).toNat = windowSize := rfl
  have hdelta : c.currentOffset.toNat - (c.currentOffset.toNat - windowSize) = windowSize := by omega
  have hlow' : (renormalize c).lowLimit.toNat
      = c.lowLimit.toNat - (c.currentOffset.toNat - windowSize) := toNat_u32 (by omega)
  rw [Cctx.inv_iff, hoff, hw, hlow']
  refine ⟨Nat.le_refl _, by omega, by omega, ?_, by omega, ?_, ?_, ?_, ?_⟩
  · simp only [renormalize, hdict, hdelta]
  · simp only [renormalize, hhist]
    omega
  · exact hbelow.table.renorm.mono (Nat.le_of_eq hdelta)
  · exact hbelow.table3.renorm.mono (Nat.le_of_eq hdelta)
  · have hle := renormEntry_le (c.currentOffset.toNat - windowSize) c.nextInsert
    have hnext := hbelow.next
    simp only [renormalize]
    omega

/-- `ENCODE` starts from a context that meets R49 and has room for the input below
`RENORM_LIMIT` (R290). -/
theorem encodeStart_inv (hp : paramsFit cfg) {n : Nat} (hn : n ≤ cfg.maxInputSize) (hc : c.Inv cfg) :
    (encodeStart cfg n c).Inv cfg ∧
      (encodeStart cfg n c).currentOffset.toNat + n ≤ cfg.renormLimit := by
  have key : ∀ c1 : Cctx, c1.Inv cfg →
      { c1 with nextInsert := u32 (max c1.nextInsert.toNat c1.lowLimit.toNat),
                lastOff := 0#32 }.Inv cfg := by
    intro c1 h1
    obtain ⟨hwin, hren, hlow, hdict, hspan, hhist, hbelow⟩ := Cctx.inv_iff.mp h1
    have hnext : c1.nextInsert.toNat ≤ c1.currentOffset.toNat := hbelow.next
    exact Cctx.inv_iff.mpr ⟨hwin, hren, hlow, hdict, hspan, hhist, hbelow.table, hbelow.table3,
      Nat.le_trans (toNat_u32_le _) (Nat.max_le.mpr ⟨hnext, hlow⟩)⟩
  simp only [encodeStart]
  split
  · refine ⟨key _ (renormalize_inv hp hc), ?_⟩
    have hw : (u32 windowSize).toNat = windowSize := rfl
    have := hp.1
    simp only [renormalize, hw]
    omega
  · exact ⟨key _ hc, by omega⟩

/-- The history after a block whose positions the search has inserted (R430). -/
theorem historyUpdate_inv (hp : paramsFit cfg) {src : List Byte} {o : U32} (hc : c.Inv cfg)
    (hroom : c.currentOffset.toNat + src.length ≤ cfg.renormLimit)
    (hs : Searched (c.currentOffset.toNat + src.length) c c') :
    (historyUpdate src { c' with lastOff := o }).Inv cfg := by
  obtain ⟨-, -, hword, -⟩ := hp
  obtain ⟨hwin, hren, hlow, hdict, hspan, hhist, hbelow⟩ := Cctx.inv_iff.mp hc
  obtain ⟨ht, ht3, hnext⟩ := hs.mono (Nat.le_refl _) (hbelow.mono (Nat.le_add_right _ src.length))
  have hsame := hs.same
  unfold sameButTables at hsame
  have hlow' : c'.lowLimit = c.lowLimit := by rw [hsame]
  have hdict' : c'.dictLimit = c.currentOffset := by rw [hsame, ← hdict]
  have hhist' : c'.hist = c.hist := by rw [hsame]
  have hoff : (u32 (c.currentOffset.toNat + src.length)).toNat = c.currentOffset.toNat + src.length :=
    toNat_u32 (by omega)
  have hmax : (u32 (max c.lowLimit.toNat (c.currentOffset.toNat + src.length - windowSize))).toNat
      = max c.lowLimit.toNat (c.currentOffset.toNat + src.length - windowSize) := toNat_u32 (by omega)
  simp only [Cctx.inv_iff, historyUpdate, hlow', hdict', hhist', hoff, hmax]
  refine ⟨by omega, hroom, by omega, trivial, by omega, ?_, ht, ht3, hnext⟩
  rw [length_lastBytes, List.length_append, hhist]
  omega

theorem encodeBlock_inv (hp : paramsFit cfg) {src : List Byte} (hn : src.length ≤ cfg.maxInputSize)
    (hc : c.Inv cfg) : (encodeBlock cfg src c).cctx.Inv cfg := by
  obtain ⟨hstart, hroom⟩ := encodeStart_inv hp hn hc
  have ⟨_, _, _, _, hm⟩ := hp
  exact historyUpdate_inv hp hstart hroom (searched_parseWith (x := ⟨_, src⟩) hm _)

/-! ## LOAD_DICT -/

theorem Cctx.withHistory_inv (hp : paramsFit cfg) {d : List Byte} (hd : d.length ≤ windowSize) :
    (c.withHistory d).Inv cfg := by
  obtain ⟨-, hfit, hword, -⟩ := hp
  have hw : (u32 windowSize).toNat = windowSize := rfl
  have hoff : (u32 (windowSize + d.length)).toNat = windowSize + d.length := toNat_u32 (by omega)
  simp only [Cctx.inv_iff, Cctx.withHistory, Cctx.clear, hoff, hw]
  exact ⟨by omega, by omega, by omega, trivial, by omega, by omega,
    by simp [Table.Below], by simp [Table.Below], by dsimp only; omega⟩

theorem searched_fastInsert {src : List Byte} {lim q : Nat} (hq : q < lim) :
    Searched lim c (fastInsert cfg src q c) := searched_hashTable _ hq

theorem searched_insertOne {strategy : Strategy} {opHigh lim q : Nat} (hq : q < lim) :
    Searched lim c (insertOne cfg strategy opHigh q c) := by
  cases strategy with
  | fast => exact searched_fastInsert hq
  | priceFast | lowestPrice | optimalPrice => exact searched_mfInsert hq
  | optimalPriceBt => exact searched_btInsert hq

/-- A search below the context's own `currentOffset` keeps R49. -/
theorem Searched.inv (hc : c.Inv cfg) (hs : Searched c.currentOffset.toNat c c') : c'.Inv cfg := by
  obtain ⟨hwin, hren, hlow, hdict, hspan, hhist, hbelow⟩ := Cctx.inv_iff.mp hc
  have hbelow' := hs.below hbelow
  have hsame := hs.same
  unfold sameButTables at hsame
  have hoff : c'.currentOffset = c.currentOffset := by rw [hsame]
  have hlow' : c'.lowLimit = c.lowLimit := by rw [hsame]
  have hdict' : c'.dictLimit = c.dictLimit := by rw [hsame]
  have hhist' : c'.hist = c.hist := by rw [hsame]
  rw [Cctx.inv_iff, hoff, hlow', hdict', hhist']
  exact ⟨hwin, hren, hlow, hdict, hspan, hhist, hbelow'⟩

theorem loadDict_inv (hp : paramsFit cfg) {d : List Byte} (hd : d.length ≤ windowSize) :
    (loadDict cfg d c).Inv cfg := by
  have ⟨_, hfit, hword, _⟩ := hp
  have hoff : (c.withHistory d).currentOffset.toNat = windowSize + d.length := toNat_u32 (by omega)
  exact (searched_insertUpTo (fun _ hq _ => searched_insertOne hq) (by omega)).inv
    (Cctx.withHistory_inv hp hd)

end Sys2Proof.Machine
end

section
/-! The frame encoder's invariants (spec/10_state.md R39, R56, R59 to R62) over everything a command
makes of a frame encoder (spec/45_frame_encoder.md R460 to R469). -/

namespace Sys2Proof.Machine

variable {cfg : Config} {f : Fe}

/-! ## Block sizes -/

theorem Fe.blockSize_pos (f : Fe) : 0 < f.blockSize := Nat.pow_pos (by decide)

/-- Every frame block is a legal `ENCODE` input (R10, R291). -/
theorem Fe.blockSize_le_maxInput (hp : paramsFit cfg) (f : Fe) : f.blockSize ≤ cfg.maxInputSize := by
  have ⟨_, _, _, hmax, _⟩ := hp
  have hid : f.prefs.blockSizeId.toNat < 8 := f.prefs.blockSizeId.isLt
  exact Nat.le_trans (Nat.pow_le_pow_right (by decide) (by omega)) hmax

/-! ## Parts of a frame encoder that the invariant treats apart -/

theorem Fe.Inv.withCctx (hf : f.Inv cfg) {c : Cctx} (hc : c.Inv cfg) :
    Fe.Inv cfg { f with cctx := c } := ⟨hc, hf.2⟩

theorem Fe.Inv.withBuf (hf : f.Inv cfg) {data : List Byte} (hd : data.length < f.blockSize) :
    Fe.Inv cfg { f with buf := data } := ⟨hf.1, hd, hf.2.2⟩

theorem Fe.Inv.accept (hf : f.Inv cfg) (bytes : List Byte) : (f.accept bytes).Inv cfg := by
  obtain ⟨hc, hbuf, htotal, hrest⟩ := hf
  refine ⟨hc, hbuf, ?_, hrest⟩
  simp only [Fe.accept, htotal, List.length_append, BitVec.ofNat_add]

/-! ## Blocks -/

theorem emitBlock_inv (hp : paramsFit cfg) {blk : List Byte} (hb : blk.length ≤ f.blockSize)
    (hf : f.Inv cfg) : (emitBlock cfg blk f).fe.Inv cfg := by
  have hn : blk.length ≤ cfg.maxInputSize := Nat.le_trans hb (f.blockSize_le_maxInput hp)
  refine hf.withCctx (encodeBlock_inv hp hn ?_)
  split
  · exact f.cctx.clear_inv hp
  · exact hf.1

theorem emitBlocks_inv (hp : paramsFit cfg) :
    ∀ k (data : List Byte) (f : Fe), data.length < (k + 1) * f.blockSize → f.Inv cfg →
      (emitBlocks cfg f.blockSize k data f).fe.Inv cfg
  | 0, data, f, hd, hf => hf.withBuf (by simpa using hd)
  | k + 1, data, f, hd, hf => by
    have hone : (emitBlock cfg (data.take f.blockSize) f).fe.Inv cfg :=
      emitBlock_inv hp (List.length_take_le _ _) hf
    have hpos : 0 < (k + 1) * f.blockSize := Nat.mul_pos k.succ_pos f.blockSize_pos
    have hrest : (data.drop f.blockSize).length < (k + 1) * f.blockSize := by
      rw [Nat.succ_mul] at hd
      rw [List.length_drop]
      omega
    exact emitBlocks_inv hp k _ (emitBlock cfg (data.take f.blockSize) f).fe hrest hone

theorem flushBlock_inv (hp : paramsFit cfg) (hf : f.Inv cfg) : (flushBlock cfg f).fe.Inv cfg := by
  simp only [flushBlock]
  split
  · exact hf
  · exact (emitBlock_inv hp (Nat.le_of_lt hf.2.1) hf).withBuf f.blockSize_pos

/-! ## Preferences -/

theorem clampLevel_bounds (v : Nat) : 1 ≤ clampLevel v ∧ clampLevel v ≤ 5 := by
  simp only [clampLevel]
  split
  · omega
  · split <;> omega

theorem prefsBlockSizeId_ne_zero (w : U64) : prefsBlockSizeId w ≠ 0#3 := by
  simp only [prefsBlockSizeId]
  split
  · decide
  · assumption

/-! ## What a command makes of a frame encoder -/

/-- Everything a frame-encoder command can leave in the place of `f`. -/
inductive FeAfter (cfg : Config) (f : Fe) : Fe → Prop
  /-- FE_BEGIN (R460). -/
  | opened (prefsWord contentSize level : U64) :
      FeAfter cfg f (f.opened cfg (latchPrefs prefsWord contentSize level))
  /-- FE_UPDATE (R464). -/
  | updated (bytes : List Byte) :
      FeAfter cfg f (emitBlocks cfg f.blockSize ((f.buf.length + bytes.length) / f.blockSize)
        (f.buf ++ bytes) (f.accept bytes)).fe
  /-- FE_FLUSH (R468). -/
  | flushed : FeAfter cfg f (flushBlock cfg f).fe
  /-- FE_END with a declared size that the content does not have (R469). -/
  | mismatched : FeAfter cfg f { f with stage := .error, err := Err.frameSizeMismatch.code }
  /-- FE_END (R469). -/
  | ended : FeAfter cfg f { (flushBlock cfg f).fe with stage := .idle }

theorem FeAfter.inv (hp : paramsFit cfg) {f' : Fe} (hf : f.Inv cfg) (h : FeAfter cfg f f') :
    f'.Inv cfg := by
  cases h with
  | opened prefsWord contentSize level =>
    exact ⟨Cctx.configure_inv hp _ _, Fe.blockSize_pos _, rfl, nofun, fun _ => rfl,
      prefsBlockSizeId_ne_zero prefsWord, rfl, clampLevel_bounds level.toNat⟩
  | updated bytes =>
    refine emitBlocks_inv hp _ _ (f.accept bytes) ?_ (hf.accept bytes)
    rw [List.length_append]
    exact (Nat.div_lt_iff_lt_mul f.blockSize_pos).mp (Nat.lt_succ_self _)
  | flushed => exact flushBlock_inv hp hf
  | mismatched =>
    obtain ⟨hc, hbuf, htotal, -, -, hprefs⟩ := hf
    exact ⟨hc, hbuf, htotal, fun _ => rfl, nofun, hprefs⟩
  | ended =>
    obtain ⟨hc, hbuf, htotal, -, -, hprefs⟩ := flushBlock_inv hp hf
    exact ⟨hc, hbuf, htotal, nofun, nofun, hprefs⟩

theorem Fe.powerOn_inv (hp : paramsFit cfg) : (Fe.powerOn cfg).Inv cfg :=
  ⟨Cctx.powerOn_inv hp, Fe.blockSize_pos _, rfl, nofun, nofun,
    (by decide : 1#3 ≠ 0#3), rfl, Nat.le_refl 1, (by decide : 1 ≤ 5)⟩

end Sys2Proof.Machine
end

section
/-! What a host command can do when it answers a next state, said once: which context it changes and
how (spec/10_state.md R31), and what it reports (R33, R616). One lemma per command; the frame, the
result registers and the invariants of R49, R55 and R59 follow from these. -/

namespace Sys2Proof.Machine
open Sys2Proof.Claims

variable {i : Instr} {s t u : State}

/-! ## The effects -/

/-- Everything a command can leave in the place of the compression context `c`. -/
inductive CctxAfter (cfg : Config) (c : Cctx) : Cctx → Prop
  /-- CTX_FREE, and CTX_INIT without table memory (R421, R423). -/
  | discarded : CctxAfter cfg c c.discard
  /-- CTX_INIT and CTX_RESET (R421, R422). -/
  | configured (level : Nat) : CctxAfter cfg c (c.configure cfg level)
  /-- BLK_COMPRESS (R312). -/
  | compressed (src : List Byte) (h : src.length ≤ cfg.maxInputSize) :
      CctxAfter cfg c (encodeBlock cfg src c.clear).cctx
  /-- BLK_COMPRESS_CONTINUE (R425). -/
  | continued (src : List Byte) (h : src.length ≤ cfg.maxInputSize) :
      CctxAfter cfg c (encodeBlock cfg src c).cctx
  /-- LOAD_DICT (R426). -/
  | loaded (d : List Byte) (h : d.length ≤ windowSize) : CctxAfter cfg c (loadDict cfg d c)

theorem CctxAfter.inv {cfg : Config} {c c' : Cctx} (hp : paramsFit cfg) (hc : c.Inv cfg)
    (h : CctxAfter cfg c c') : c'.Inv cfg := by
  cases h with
  | discarded => exact c.discard_inv hp
  | configured level => exact c.configure_inv hp level
  | compressed src hn => exact encodeBlock_inv hp hn (c.clear_inv hp)
  | continued src hn => exact encodeBlock_inv hp hn hc
  | loaded d hd => exact loadDict_inv hp hd

/-- The contexts of `u` are those of `s` but for at most one, that `i` names. -/
inductive ContextChange (i : Instr) (s : State) : State → Prop
  | none : ContextChange i s s
  | cctx {h : BitVec 16} {fl mask : Byte} {c c' : Cctx} (hi : cctxCommand i = some (h, fl, mask))
      (hc : s.cctx[h.toNat]? = some c) (hc' : CctxAfter s.cfg c c') :
      ContextChange i s (s.setCctx h.toNat c')
  | sd {h : BitVec 16} {fl : Byte} (hi : sdCommand i = some (h, fl)) (bs : List Byte) :
      ContextChange i s (s.setSd h.toNat ⟨lastBytes windowSize bs⟩)
  | fe {h : BitVec 16} {fl : Byte} {f f' : Fe} (hi : feCommand i = some (h, fl))
      (hf : s.fe[h.toNat]? = some f) (hf' : FeAfter s.cfg f f') :
      ContextChange i s (s.setFe h.toNat f')
  | fd {h : BitVec 16} {fl : Byte} (hi : fdCommand i = some (h, fl)) (f' : Fd) :
      ContextChange i s (s.setFd h.toNat f')

/-- A block decode command. -/
def isBlockDecode (i : Instr) : Prop :=
  (∃ h fl a b c d e f g, i = .blkDecompress h fl a b c d e f g) ∨
  (∃ h fl a b c d, i = .blkDecompressContinue h fl a b c d)

/-- `STATUS` and the result registers a command can leave (R33, R616, R381, R501). -/
inductive Reports (i : Instr) : Byte → U64 → U64 → U64 → Prop
  | ok (r0 : U64) : Reports i 0#8 r0 0#64 0#64
  | error (code : Byte) : Reports i code 0#64 0#64 0#64
  | malformed (hi : isBlockDecode i) (c : Nat) : Reports i 4#8 (sentinel c) 0#64 0#64
  | frame (hi : ∃ h fl a b c d e, i = .fdDecode h fl a b c d e) (st : Byte) (r0 r1 r2 : U64) :
      Reports i st r0 r1 r2

/-- `t` is `s` after the command `i`: one context may have changed, memory may have, and the result
registers are written. -/
def CommandEffect (i : Instr) (s t : State) : Prop :=
  ∃ (u : State) (m : Memory) (k : Nat) (st : Byte) (r0 r1 r2 : U64),
    ContextChange i s u ∧ Reports i st r0 r1 r2 ∧
    t = ({ u with mem := m, draws := k } : State).report st r0 r1 r2

/-! ## Ways a command ends -/

theorem CommandEffect.of_error {code : Byte} (h : t = s.report code 0#64 0#64 0#64) :
    CommandEffect i s t :=
  ⟨s, _, _, _, _, _, _, .none, .error code, h⟩

theorem CommandEffect.of_raise (hu : ContextChange i s u) {e : Err} (h : raise e u = .next t) :
    CommandEffect i s t :=
  ⟨u, _, _, _, _, _, _, hu, .error e.code, raise_next.mp h⟩

theorem CommandEffect.of_done (hu : ContextChange i s u) {r0 : U64} (h : done r0 u = .next t) :
    CommandEffect i s t :=
  ⟨u, _, _, _, _, _, _, hu, .ok r0, done_next.mp h⟩

theorem CommandEffect.of_done_write (hu : ContextChange i s u) {r0 : U64} {a : Nat} {bs : List Byte}
    (h : done r0 (u.memWrite a bs) = .next t) : CommandEffect i s t :=
  ⟨u, _, _, _, _, _, _, hu, .ok r0, done_next.mp h⟩

/-- Both ends of a block decode (R380 to R382). -/
theorem CommandEffect.of_finishDecode (hi : isBlockDecode i) (hu : ContextChange i s u) {b : Bd}
    {dst : Buffer} {r0 : U64}
    (h : finishDecode b dst s (done r0 (u.writeDecoded dst b.out)) = .next t) :
    CommandEffect i s t := by
  rcases finishDecode_next h with ⟨-, h⟩ | ⟨c, -, h⟩
  · exact ⟨u, _, _, _, _, _, _, hu, .ok r0, done_next.mp h⟩
  · exact ⟨s, _, _, _, _, _, _, .none, .malformed hi c, h⟩

/-! ## Commands on a compression context -/

theorem execCtxInit_effect {h : BitVec 16} {fl : Byte} {level : U64}
    (hn : execCtxInit h fl level s = .next t) : CommandEffect (.ctxInit h fl level) s t := by
  have hn := (command_next hn).2
  split at hn
  · exact .of_raise .none hn
  · next c hc =>
    dsimp only at hn
    split at hn
    · exact .of_raise .none hn
    · split at hn
      · exact .of_raise (.cctx rfl hc .discarded) hn
      · exact .of_done (.cctx rfl hc (.configured _)) hn

theorem execCtxReset_effect {h : BitVec 16} {fl : Byte} {level : U64}
    (hn : execCtxReset h fl level s = .next t) : CommandEffect (.ctxReset h fl level) s t := by
  rcases withCctx_next hn with hn | hn | ⟨c, hc, -, -, hn⟩
  · exact .of_error hn
  · exact .of_error hn
  · dsimp only at hn
    split at hn
    · exact .of_raise .none hn
    · exact .of_done (.cctx rfl hc (.configured _)) hn

theorem execCtxFree_effect {h : BitVec 16} {fl : Byte} (hn : execCtxFree h fl s = .next t) :
    CommandEffect (.ctxFree h fl) s t := by
  rcases withCctx_next hn with hn | hn | ⟨c, hc, -, -, hn⟩
  · exact .of_error hn
  · exact .of_error hn
  · exact .of_done (.cctx rfl hc .discarded) hn

/-- The shared part of the compress commands; the input they encode is within `MAX_INPUT_SIZE`. -/
theorem compressCommand_effect {prep : Cctx → Cctx} {h : BitVec 16} {fl : Byte} {a n d cap : U64}
    (hi : cctxCommand i = some (h, fl, 1#8))
    (hafter : ∀ c (src : List Byte), src.length ≤ s.cfg.maxInputSize →
      CctxAfter s.cfg c (encodeBlock s.cfg src (prep c)).cctx)
    (hn : compressCommand prep h fl a n d cap s = .next t) : CommandEffect i s t := by
  rcases withCctx_next hn with hn | hn | ⟨c, hc, -, -, hn⟩
  · exact .of_error hn
  · exact .of_error hn
  · dsimp only at hn
    split at hn
    · exact .of_raise .none hn
    · next hsize =>
      have hlen : (s.readBuffer (buffer a n)).length ≤ s.cfg.maxInputSize := by
        rw [State.readBuffer, length_readBytes]
        exact Nat.not_lt.mp hsize
      split at hn
      · exact .of_raise .none hn
      · have hn := (withBuffers_next hn).2.2
        split at hn
        · exact ⟨_, _, _, _, _, _, _, .cctx hi hc (hafter c _ hlen), .error _, raise_next.mp hn⟩
        · exact .of_done_write (.cctx hi hc (hafter c _ hlen)) hn

theorem execLoadDict_effect {h : BitVec 16} {fl : Byte} {a n : U64}
    (hn : execLoadDict h fl a n s = .next t) : CommandEffect (.loadDict h fl a n) s t := by
  rcases withCctx_next hn with hn | hn | ⟨c, hc, -, -, hn⟩
  · exact .of_error hn
  · exact .of_error hn
  · have hlen : (lastBytes windowSize (s.readBuffer (buffer a n))).length ≤ windowSize := by
      rw [length_lastBytes]
      exact Nat.min_le_left _ _
    exact .of_done (.cctx rfl hc (.loaded _ hlen)) (withBuffers_next hn).2.2

theorem execSaveDict_effect {h : BitVec 16} {fl : Byte} {a n : U64}
    (hn : execSaveDict h fl a n s = .next t) : CommandEffect (.saveDict h fl a n) s t := by
  rcases withCctx_next hn with hn | hn | ⟨c, hc, -, -, hn⟩
  · exact .of_error hn
  · exact .of_error hn
  · exact .of_done_write .none (withBuffers_next hn).2.2

/-! ## Commands without a compression context, and on a stream decoder -/

theorem execBlkDecompress_effect {h : BitVec 16} {fl : Byte} {a n d cap x y target : U64}
    (hn : execBlkDecompress h fl a n d cap x y target s = .next t) :
    CommandEffect (.blkDecompress h fl a n d cap x y target) s t := by
  have hn := (command_next hn).2
  dsimp only at hn
  split at hn
  · exact .of_raise .none hn
  · split at hn
    · exact .of_raise .none hn
    · split at hn
      · cases hn
      · exact .of_finishDecode (.inl ⟨_, _, _, _, _, _, _, _, _, rfl⟩) .none
          (withBuffers_next hn).2.2

theorem execCompressBound_effect {h : BitVec 16} {fl : Byte} {n : U64}
    (hn : execCompressBound h fl n s = .next t) : CommandEffect (.compressBound h fl n) s t := by
  have hn := (command_next hn).2
  split at hn
  · exact .of_raise .none hn
  · split at hn
    · exact .of_raise .none hn
    · exact .of_done .none hn

theorem execBlkDecompressContinue_effect {h : BitVec 16} {fl : Byte} {a n d cap : U64}
    (hn : execBlkDecompressContinue h fl a n d cap s = .next t) :
    CommandEffect (.blkDecompressContinue h fl a n d cap) s t := by
  rcases withSd_next hn with hn | hn | ⟨dec, -, -, hn⟩
  · exact .of_error hn
  · exact .of_error hn
  · exact .of_finishDecode (.inr ⟨_, _, _, _, _, _, rfl⟩) (.sd rfl _) (withBuffers_next hn).2.2

theorem execSdReset_effect {h : BitVec 16} {fl : Byte} {a n : U64}
    (hn : execSdReset h fl a n s = .next t) : CommandEffect (.sdReset h fl a n) s t := by
  rcases withSd_next hn with hn | hn | ⟨dec, -, -, hn⟩
  · exact .of_error hn
  · exact .of_error hn
  · exact .of_done (.sd rfl _) (withBuffers_next hn).2.2

/-! ## Commands on a frame encoder -/

theorem execFeBegin_effect {h : BitVec 16} {fl : Byte} {w size level d cap : U64}
    (hn : execFeBegin h fl w size level d cap s = .next t) :
    CommandEffect (.feBegin h fl w size level d cap) s t := by
  rcases withFe_next hn with hn | hn | ⟨f, hf, -, hn⟩
  · exact .of_error hn
  · exact .of_error hn
  · dsimp only at hn
    split at hn
    · exact .of_raise .none hn
    · split at hn
      · exact .of_raise .none hn
      · split at hn
        · exact .of_raise .none hn
        · split at hn
          · exact .of_raise .none hn
          · split at hn
            · exact .of_raise .none hn
            · exact .of_done_write (.fe rfl hf (.opened w size level)) (withBuffers_next hn).2.2

/-- FE_UPDATE, FE_FLUSH and FE_END on a frame encoder that is not ACTIVE only report an error
(R462). -/
theorem CommandEffect.of_withActiveFe {h : BitVec 16} {fl : Byte} {k : Fe → Answer}
    (hn : withActiveFe h fl s k = .next t)
    (hk : ∀ f, s.fe[h.toNat]? = some f → k f = .next t → CommandEffect i s t) :
    CommandEffect i s t := by
  rcases withActiveFe_next hn with hn | hn | ⟨f, -, -, hn⟩ | ⟨f, hf, -, -, hn⟩
  · exact .of_error hn
  · exact .of_error hn
  · exact .of_error hn
  · exact hk f hf hn

theorem execFeUpdate_effect {h : BitVec 16} {fl : Byte} {a n d cap : U64}
    (hn : execFeUpdate h fl a n d cap s = .next t) :
    CommandEffect (.feUpdate h fl a n d cap) s t := by
  refine .of_withActiveFe hn fun f hf hn => ?_
  dsimp only at hn
  split at hn
  · exact .of_raise .none hn
  · have hafter := FeAfter.updated (cfg := s.cfg) (f := f) (s.readBuffer (buffer a n))
    rw [show (s.readBuffer (buffer a n)).length = (buffer a n).len from length_readBytes _ _ _] at hafter
    exact .of_done_write (.fe rfl hf hafter) (withBuffers_next hn).2.2

theorem execFeFlush_effect {h : BitVec 16} {fl : Byte} {d cap : U64}
    (hn : execFeFlush h fl d cap s = .next t) : CommandEffect (.feFlush h fl d cap) s t := by
  refine .of_withActiveFe hn fun f hf hn => ?_
  dsimp only at hn
  split at hn
  · exact .of_raise .none hn
  · exact .of_done_write (.fe rfl hf .flushed) (withBuffers_next hn).2.2

theorem execFeEnd_effect {h : BitVec 16} {fl : Byte} {d cap : U64}
    (hn : execFeEnd h fl d cap s = .next t) : CommandEffect (.feEnd h fl d cap) s t := by
  refine .of_withActiveFe hn fun f hf hn => ?_
  dsimp only at hn
  split at hn
  · exact .of_raise (.fe rfl hf .mismatched) hn
  · split at hn
    · exact .of_raise .none hn
    · exact .of_done_write (.fe rfl hf .ended) (withBuffers_next hn).2.2

/-! ## Commands on a frame decoder -/

theorem execFdReset_effect {h : BitVec 16} {fl : Byte} (hn : execFdReset h fl s = .next t) :
    CommandEffect (.fdReset h fl) s t := by
  rcases withFd_next hn with hn | hn | ⟨f, -, -, hn⟩
  · exact .of_error hn
  · exact .of_error hn
  · exact .of_done (.fd rfl _) hn

theorem execFdDecode_effect {h : BitVec 16} {fl : Byte} {pos a n d cap : U64}
    (hn : execFdDecode h fl pos a n d cap s = .next t) :
    CommandEffect (.fdDecode h fl pos a n d cap) s t := by
  have hframe : ∃ h' fl' a' b' c' d' e',
      Instr.fdDecode h fl pos a n d cap = .fdDecode h' fl' a' b' c' d' e' := ⟨_, _, _, _, _, _, _, rfl⟩
  rcases withFd_next hn with hn | hn | ⟨f, -, -, hn⟩
  · exact .of_error hn
  · exact .of_error hn
  · dsimp only at hn
    split at hn
    · exact .of_error (raiseLatched_next.mp hn)
    · split at hn
      · cases hn
        exact ⟨_, _, _, _, _, _, _, .fd rfl _, .frame hframe _ _ _ _, rfl⟩
      · have hn := (withBuffers_next hn).2.2
        split at hn
        · cases hn
        · cases hn
          exact ⟨_, _, _, _, _, _, _, .fd rfl _, .frame hframe _ _ _ _, rfl⟩

/-! ## Every command -/

theorem exec_effect (hi : isCommand i = true) (hn : exec i s = .next t) : CommandEffect i s t := by
  cases i with
  | ctxInit => exact execCtxInit_effect hn
  | ctxReset => exact execCtxReset_effect hn
  | ctxFree => exact execCtxFree_effect hn
  | blkCompress => exact compressCommand_effect rfl (fun _ => .compressed) hn
  | blkCompressContinue => exact compressCommand_effect rfl (fun _ => .continued) hn
  | blkDecompress => exact execBlkDecompress_effect hn
  | blkDecompressContinue => exact execBlkDecompressContinue_effect hn
  | loadDict => exact execLoadDict_effect hn
  | saveDict => exact execSaveDict_effect hn
  | compressBound => exact execCompressBound_effect hn
  | sdReset => exact execSdReset_effect hn
  | feBegin => exact execFeBegin_effect hn
  | feUpdate => exact execFeUpdate_effect hn
  | feFlush => exact execFeFlush_effect hn
  | feEnd => exact execFeEnd_effect hn
  | fdReset => exact execFdReset_effect hn
  | fdDecode => exact execFdDecode_effect hn
  | mfInsert | mfFindBest | mfFindAll | btInsert | btFindAll | renorm | emitSeq | emitLast | seqShort
  | seqRepeat | seqLong | seqMid | seqLast | hdr | skip | endMark | blkC | blkS | cksum => cases hi

/-! ## What the effects keep -/

/-- The contexts `i` does not name and everything that is no context (R31, R702). -/
theorem ContextChange.frame (h : ContextChange i s u) :
    u.cfg = s.cfg ∧ u.stream = s.stream ∧ u.queue = s.queue ∧ u.uops = s.uops ∧
    u.bd = s.bd ∧ u.enc = s.enc ∧ u.rcd = s.rcd ∧
    u.cctx.length = s.cctx.length ∧ u.sd.length = s.sd.length ∧
    u.fe.length = s.fe.length ∧ u.fd.length = s.fd.length ∧
    (∀ k : Nat, (∀ h fl mask, cctxCommand i = some (h, fl, mask) → h.toNat ≠ k) →
      u.cctx[k]? = s.cctx[k]?) ∧
    (∀ k : Nat, (∀ h fl, sdCommand i = some (h, fl) → h.toNat ≠ k) → u.sd[k]? = s.sd[k]?) ∧
    (∀ k : Nat, (∀ h fl, feCommand i = some (h, fl) → h.toNat ≠ k) → u.fe[k]? = s.fe[k]?) ∧
    (∀ k : Nat, (∀ h fl, fdCommand i = some (h, fl) → h.toNat ≠ k) → u.fd[k]? = s.fd[k]?) := by
  cases h with
  | none => simp
  | cctx hi => simpa using fun k hk => List.getElem?_set_ne (hk _ _ _ hi)
  | sd hi => simpa using fun k hk => List.getElem?_set_ne (hk _ _ hi)
  | fe hi => simpa using fun k hk => List.getElem?_set_ne (hk _ _ hi)
  | fd hi => simpa using fun k hk => List.getElem?_set_ne (hk _ _ hi)

theorem forall_mem_set {α : Type} {P : α → Prop} {l : List α} {n : Nat} {a : α}
    (hl : ∀ x ∈ l, P x) (ha : P a) : ∀ x ∈ l.set n a, P x := by
  intro x hx
  rcases List.mem_or_eq_of_mem_set hx with hx | rfl
  · exact hl x hx
  · exact ha

theorem CommandEffect.cctx_inv (h : CommandEffect i s t) (hp : paramsFit s.cfg)
    (hs : ∀ c ∈ s.cctx, c.Inv s.cfg) : ∀ c ∈ t.cctx, c.Inv t.cfg := by
  obtain ⟨u, m, k, st, r0, r1, r2, hu, -, rfl⟩ := h
  cases hu with
  | cctx hi hc hc' => exact forall_mem_set hs (hc'.inv hp (hs _ (List.mem_of_getElem? hc)))
  | none | sd | fe | fd => exact hs

theorem CommandEffect.fe_inv (h : CommandEffect i s t) (hp : paramsFit s.cfg)
    (hs : ∀ f ∈ s.fe, f.Inv s.cfg) : ∀ f ∈ t.fe, f.Inv t.cfg := by
  obtain ⟨u, m, k, st, r0, r1, r2, hu, -, rfl⟩ := h
  cases hu with
  | fe hi hf hf' => exact forall_mem_set hs (hf'.inv hp (hs _ (List.mem_of_getElem? hf)))
  | none | cctx | sd | fd => exact hs

theorem CommandEffect.sd_inv (h : CommandEffect i s t) (hs : ∀ d ∈ s.sd, d.Inv) :
    ∀ d ∈ t.sd, d.Inv := by
  obtain ⟨u, m, k, st, r0, r1, r2, hu, -, rfl⟩ := h
  cases hu with
  | sd hi bs =>
    refine forall_mem_set hs ?_
    simp [Sd.Inv]
  | none | cctx | fe | fd => exact hs

/-! ## A step of the host stream -/

theorem decodeCommand_isCommand {d : Descriptor} (h : decodeCommand d = .ok i) :
    isCommand i = true := by
  simp only [decodeCommand] at h
  split at h
  case h_18 => split at h <;> cases h
  all_goals cases h; rfl

/-- A host step idles, runs a command, or turns a descriptor away (R169). -/
theorem step_host_next (hs : s.stream = .host) (h : step s = .next t) :
    t = s ∨ ∃ q, (∃ i, isCommand i = true ∧ exec i { s with queue := q } = .next t) ∨
      t = ({ s with queue := q } : State).report 8#8 0#64 0#64 0#64 := by
  cases hq : s.queue with
  | nil =>
    rw [step_host_idle hs hq] at h
    cases h
    exact .inl rfl
  | cons d rest =>
    refine .inr ⟨rest, ?_⟩
    cases hd : decodeCommand d with
    | ok i => exact .inl ⟨i, decodeCommand_isCommand hd, step_host_command hs hq hd ▸ h⟩
    | error e =>
      simp only [step, fetch_host hs, fetchHost, hq, hd] at h
      exact .inr (raise_next.mp (command_next h).2)

end Sys2Proof.Machine

namespace Sys2Proof.Proofs
open Sys2Proof.Machine

/-- Settles O22: what a command makes of a context meets R49, `ENCODE` and LOAD_DICT because they
insert only positions below the new `currentOffset`. -/
theorem stepKeepsCompressionContexts : Obligations.StepKeepsCompressionContexts := by
  intro s t hs hp hinv h
  rcases step_host_next hs h with rfl | ⟨q, ⟨i, hi, hn⟩ | rfl⟩
  · exact hinv
  · exact (exec_effect hi hn).cctx_inv hp hinv
  · exact hinv

/-- Settles O24: what a command makes of a frame encoder meets R39, R56 and R59 to R62, every block
it hands to `ENCODE` being at most one `BLOCK_SIZE`. -/
theorem stepKeepsFrameEncoders : Obligations.StepKeepsFrameEncoders := by
  intro s t hs hp hinv h
  rcases step_host_next hs h with rfl | ⟨q, ⟨i, hi, hn⟩ | rfl⟩
  · exact hinv
  · exact (exec_effect hi hn).fe_inv hp hinv
  · exact hinv

/-- Settles O14: the four ways a command reports. -/
theorem resultRegisters : Obligations.ResultRegisters := by
  intro i s t hi hn hfd
  obtain ⟨u, m, k, st, r0, r1, r2, -, hr, rfl⟩ := exec_effect hi hn
  cases hr with
  | ok => exact ⟨rfl, rfl, fun h => absurd rfl h⟩
  | error => exact ⟨rfl, rfl, fun _ => .inl rfl⟩
  | malformed hdec c => exact ⟨rfl, rfl, fun _ => .inr ⟨rfl, ⟨c, rfl⟩, hdec⟩⟩
  | frame hframe =>
    obtain ⟨h, fl, a, b, c, d, e, rfl⟩ := hframe
    exact absurd rfl (hfd h fl a b c d e)

/-- Settles O15: a command writes memory and the result registers, and changes at most the context
its handle names. -/
theorem commandFrame : Obligations.CommandFrame := by
  intro i s t hi hn
  obtain ⟨u, m, k, st, r0, r1, r2, hu, -, rfl⟩ := exec_effect hi hn
  exact hu.frame

end Sys2Proof.Proofs
end

section
/-! What the instructions other than commands leave unchanged (spec/10_state.md R31, R34,
spec/30_encoding.md R174), the handle checks of R32, and R55 at every step of every stream. -/

namespace Sys2Proof.Machine
open Sys2Proof.Claims

variable {i : Instr} {s t : State}

/-! ## The kinds of instructions -/

theorem kind_of_not_command (h : isCommand i = false) :
    isMicroOp i = true ∨ isSequence i = true ∨ isRecord i = true := by
  simp only [isCommand, isMicroOp, isSequence, isRecord] at h ⊢
  cases hcode : encode Config.default i with
  | command d => simp [hcode] at h
  | uop d => exact .inl rfl
  | sequence bs => exact .inr (.inl rfl)
  | record bs => exact .inr (.inr rfl)

/-- What only commands change: the parameters, host memory, the pending instructions and the stream
decoders. -/
def keepsHostParts (s t : State) : Prop :=
  t.cfg = s.cfg ∧ t.mem = s.mem ∧ t.draws = s.draws ∧ t.stream = s.stream ∧ t.queue = s.queue ∧
  t.uops = s.uops ∧ t.sd = s.sd

/-! ## Replacing the selected context -/

theorem setSelected_cctx_ne {sel : CtxSel} {c : Cctx} {k : Nat} (h : sel ≠ .cctx k) :
    (s.setSelected sel c).cctx[k]? = s.cctx[k]? := by
  cases sel with
  | cctx j => exact List.getElem?_set_ne (fun hj => h (congrArg CtxSel.cctx hj))
  | fe j => simp only [State.setSelected]; split <;> rfl

theorem setSelected_fe_ne {sel : CtxSel} {c : Cctx} {k : Nat} (h : sel ≠ .fe k) :
    (s.setSelected sel c).fe[k]? = s.fe[k]? := by
  cases sel with
  | cctx j => rfl
  | fe j =>
    simp only [State.setSelected]
    split
    · exact List.getElem?_set_ne (fun hj => h (congrArg CtxSel.fe hj))
    · rfl

theorem setSelected_fe_same {c : Cctx} {k : Nat} {f : Fe} (hf : s.fe[k]? = some f) :
    (s.setSelected (.fe k) c).fe[k]? = some { f with cctx := c } := by
  obtain ⟨hk, -⟩ := List.getElem?_eq_some_iff.mp hf
  simp only [State.setSelected, hf, State.setFe]
  exact List.getElem?_set_self hk

/-! ## Micro-operations -/

/-- Working registers a micro-operation may leave: those that select its context, its input and its
high limit are as before. -/
def keepsOperands (e e' : Enc) : Prop := e'.sel = e.sel ∧ e'.src = e.src ∧ e'.opHigh = e.opHigh

/-- `t` is `s` after a micro-operation: the selected context may have changed, and the working
registers that hold results. -/
def MicroEffect (s t : State) : Prop :=
  ∃ (u : State) (e : Enc), (u = s ∨ ∃ c, u = s.setSelected s.enc.sel c) ∧ keepsOperands s.enc e ∧
    t = u.setEnc e

theorem setEnc_of_enc {u : State} {e : Enc} (h : u.enc = e) : u.setEnc e = u := by
  subst h
  rfl

/-- A micro-operation that leaves a context only. -/
theorem MicroEffect.of_context {c : Cctx} (h : .next (s.setSelected s.enc.sel c) = (.next t : Answer)) :
    MicroEffect s t := by
  cases h
  exact ⟨_, s.enc, .inr ⟨c, rfl⟩, ⟨rfl, rfl, rfl⟩, (setEnc_of_enc (by simp)).symm⟩

/-- A micro-operation that leaves a context and results. -/
theorem MicroEffect.of_results {c : Cctx} {e : Enc}
    (h : .next ((s.setSelected s.enc.sel c).setEnc e) = (.next t : Answer))
    (he : keepsOperands s.enc e) : MicroEffect s t := by
  cases h
  exact ⟨_, e, .inr ⟨c, rfl⟩, he, rfl⟩

/-- A check that faults has passed when there is a next state. -/
theorem next_of_check {p : Prop} [Decidable p] {f : Fault} {a : Answer}
    (h : (if p then .fault f else a) = .next t) : a = .next t := by
  split at h
  · cases h
  · exact h

theorem exec_micro_effect (hi : isMicroOp i = true) (hn : exec i s = .next t) : MicroEffect s t := by
  cases i with
  | mfInsert | btInsert =>
    obtain ⟨c, -, hn⟩ := withSelected_next hn
    exact .of_context (next_of_check (next_of_check hn))
  | mfFindBest | mfFindAll =>
    obtain ⟨c, -, hn⟩ := withSelected_next hn
    exact .of_results (next_of_check hn) ⟨rfl, rfl, rfl⟩
  | btFindAll | emitSeq =>
    obtain ⟨c, -, hn⟩ := withSelected_next hn
    exact .of_results (next_of_check (next_of_check hn)) ⟨rfl, rfl, rfl⟩
  | renorm =>
    obtain ⟨c, -, hn⟩ := withSelected_next hn
    exact .of_context hn
  | emitLast =>
    have hn := next_of_check hn
    cases hn
    refine ⟨s, _, .inl rfl, ?_, rfl⟩
    exact ⟨rfl, rfl, rfl⟩
  | ctxInit | ctxReset | ctxFree | blkCompress | blkCompressContinue | blkDecompress
  | blkDecompressContinue | loadDict | saveDict | compressBound | sdReset | feBegin | feUpdate | feFlush
  | feEnd | fdReset | fdDecode | seqShort | seqRepeat | seqLong | seqMid | seqLast | hdr | skip
  | endMark | blkC | blkS | cksum => cases hi

/-- A micro-operation writes no result register, no decoder and no record stream (R34). -/
theorem MicroEffect.frame (h : MicroEffect s t) :
    keepsHostParts s t ∧ t.status = s.status ∧ t.res0 = s.res0 ∧ t.res1 = s.res1 ∧ t.res2 = s.res2 ∧
    t.fd = s.fd ∧ t.bd = s.bd ∧ t.rcd = s.rcd := by
  obtain ⟨u, e, rfl | ⟨c, rfl⟩, -, rfl⟩ := h <;> simp [keepsHostParts]

theorem MicroEffect.operands (h : MicroEffect s t) : keepsOperands s.enc t.enc := by
  obtain ⟨u, e, -, he, rfl⟩ := h
  exact he

theorem MicroEffect.cctx_ne (h : MicroEffect s t) {k : Nat} (hk : s.enc.sel ≠ .cctx k) :
    t.cctx[k]? = s.cctx[k]? := by
  obtain ⟨u, e, rfl | ⟨c, rfl⟩, -, rfl⟩ := h
  · rfl
  · exact setSelected_cctx_ne hk

theorem MicroEffect.fe_ne (h : MicroEffect s t) {k : Nat} (hk : s.enc.sel ≠ .fe k) :
    t.fe[k]? = s.fe[k]? := by
  obtain ⟨u, e, rfl | ⟨c, rfl⟩, -, rfl⟩ := h
  · rfl
  · exact setSelected_fe_ne hk

theorem MicroEffect.fe_same (h : MicroEffect s t) {k : Nat} {f : Fe} (hk : s.enc.sel = .fe k)
    (hf : s.fe[k]? = some f) : ∃ c, t.fe[k]? = some { f with cctx := c } := by
  obtain ⟨u, e, rfl | ⟨c, rfl⟩, -, rfl⟩ := h
  · exact ⟨f.cctx, hf⟩
  · exact ⟨c, hk ▸ setSelected_fe_same hf⟩

/-! ## Sequences -/

/-- A Sequence leaves its working registers, and on failure the sentinel (R381). -/
theorem bdAnswer_next {b : Bd} (h : bdAnswer b s = .next t) :
    t = s.setBd b ∨ ∃ c, t = (s.setBd b).report 4#8 (sentinel c) 0#64 0#64 := by
  simp only [bdAnswer] at h
  split at h
  · next c _ => exact .inr ⟨c, raiseMalformed_next.mp h⟩
  · cases h
    exact .inl rfl

theorem exec_sequence (hi : isSequence i = true) : ∃ b, exec i s = bdAnswer b s := by
  cases i with
  | seqShort | seqRepeat | seqLong | seqMid | seqLast => exact ⟨_, rfl⟩
  | ctxInit | ctxReset | ctxFree | blkCompress | blkCompressContinue | blkDecompress
  | blkDecompressContinue | loadDict | saveDict | compressBound | sdReset | feBegin | feUpdate | feFlush
  | feEnd | fdReset | fdDecode | mfInsert | mfFindBest | mfFindAll | btInsert | btFindAll | renorm
  | emitSeq | emitLast | hdr | skip | endMark | blkC | blkS | cksum => cases hi

theorem exec_sequence_next (hi : isSequence i = true) (hn : exec i s = .next t) :
    ∃ b, t = s.setBd b ∨ ∃ c, t = (s.setBd b).report 4#8 (sentinel c) 0#64 0#64 := by
  obtain ⟨b, hb⟩ := exec_sequence (s := s) hi
  exact ⟨b, bdAnswer_next (hb ▸ hn)⟩

/-- A Sequence changes no context, and a result register only to fail. -/
theorem exec_sequence_frame (hi : isSequence i = true) (hn : exec i s = .next t) :
    keepsHostParts s t ∧
    t.cctx = s.cctx ∧ t.fe = s.fe ∧ t.fd = s.fd ∧ t.enc = s.enc ∧ t.rcd = s.rcd ∧
    ((t.status = s.status ∧ t.res0 = s.res0 ∧ t.res1 = s.res1 ∧ t.res2 = s.res2) ∨
      t.status = 4#8) := by
  obtain ⟨b, rfl | ⟨c, rfl⟩⟩ := exec_sequence_next hi hn <;> simp [keepsHostParts]

/-! ## Records -/

theorem exec_record (hi : isRecord i = true) : ∃ bs, exec i s = feedBytes bs s := by
  cases i with
  | hdr | skip | endMark | blkC | blkS | cksum => exact ⟨_, rfl⟩
  | ctxInit | ctxReset | ctxFree | blkCompress | blkCompressContinue | blkDecompress
  | blkDecompressContinue | loadDict | saveDict | compressBound | sdReset | feBegin | feUpdate | feFlush
  | feEnd | fdReset | fdDecode | mfInsert | mfFindBest | mfFindAll | btInsert | btFindAll | renorm
  | emitSeq | emitLast | seqShort | seqRepeat | seqLong | seqMid | seqLast => cases hi

/-- Bytes of the record stream change the selected frame decoder, the stream's own registers and the
result registers, and nothing else. -/
theorem feedBytes_frame {bs : List Byte} (h : feedBytes bs s = .next t) :
    keepsHostParts s t ∧
    t.cctx = s.cctx ∧ t.fe = s.fe ∧ t.bd = s.bd ∧ t.enc = s.enc ∧
    t.rcd.h = s.rcd.h ∧ t.rcd.src = s.rcd.src ∧ ∀ k : Nat, k ≠ s.rcd.h → t.fd[k]? = s.fd[k]? := by
  obtain ⟨f, -, ⟨-, rfl⟩ | ⟨r, -, rfl⟩⟩ := feedBytes_next h
  · simp [keepsHostParts]
  · simpa [keepsHostParts, State.reportFd, Rec.advance] using
      fun k hk => List.getElem?_set_ne (Ne.symm hk)

/-! ## Every instruction that is no command -/

theorem exec_internal_frame (hi : isCommand i = false) (hn : exec i s = .next t) :
    keepsHostParts s t := by
  rcases kind_of_not_command hi with hm | hq | hr
  · exact (exec_micro_effect hm hn).frame.1
  · exact (exec_sequence_frame hq hn).1
  · obtain ⟨bs, hb⟩ := exec_record (s := s) hr
    exact (feedBytes_frame (hb ▸ hn)).1

/-! ## A step of any stream -/

/-- A step runs an instruction, gives bytes to the record stream's decoder, or ends in the fetch,
which touches the pending instructions, the block decoder's registers and the result registers
only. -/
theorem step_next (h : step s = .next t) :
    (∃ i q v, exec i { s with queue := q, uops := v } = .next t) ∨
    (∃ bs, feedBytes bs s = .next t) ∨
    ∃ q v b st r0 r1 r2,
      t = ({ s with queue := q, uops := v, bd := b } : State).report st r0 r1 r2 := by
  obtain ⟨w, hs⟩ : ∃ w, s.stream = w := ⟨_, rfl⟩
  cases w with
  | host =>
    rcases step_host_next hs h with rfl | ⟨q, ⟨i, -, hn⟩ | rfl⟩
    · exact .inr (.inr ⟨_, _, _, _, _, _, _, rfl⟩)
    · exact .inl ⟨i, q, s.uops, hn⟩
    · exact .inr (.inr ⟨_, _, _, _, _, _, _, rfl⟩)
  | micro =>
    cases hq : s.uops with
    | nil =>
      rw [step_micro_idle hs hq] at h
      cases h
      exact .inr (.inr ⟨_, _, _, _, _, _, _, rfl⟩)
    | cons d rest =>
      cases hd : decodeUop d with
      | some i => exact .inl ⟨i, s.queue, rest, step_micro_uop hs hq hd ▸ h⟩
      | none =>
        simp only [step, fetch_micro hs, fetchMicro, hq, hd, raise_next] at h
        exact .inr (.inr ⟨_, _, _, _, _, _, _, h⟩)
  | sequence =>
    cases hf : bdFetch s.bd with
    | sequence q => exact .inl ⟨q.toInstr, s.queue, s.uops, step_sequence hs hf ▸ h⟩
    | idle =>
      simp only [step, fetch_sequence hs, fetchSequence, hf] at h
      cases h
      exact .inr (.inr ⟨_, _, _, _, _, _, _, rfl⟩)
    | full =>
      simp only [step, fetch_sequence hs, fetchSequence, hf] at h
      cases h
      exact .inr (.inr ⟨s.queue, s.uops, s.bd.finish, s.status, s.res0, s.res1, s.res2, rfl⟩)
    | malformed c =>
      simp only [step, fetch_sequence hs, fetchSequence, hf, raiseMalformed_next] at h
      exact .inr (.inr ⟨_, _, _, _, _, _, _, h⟩)
  | record =>
    cases hfd : s.fd[s.rcd.h]? with
    | none =>
      simp only [step, fetch_record hs, fetchRecord, hfd] at h
      cases h
    | some f =>
      cases hf : recFetch s.cfg f s.rcd with
      | record i => exact .inl ⟨i, s.queue, s.uops, step_record hs hfd hf ▸ h⟩
      | bytes bs =>
        simp only [step, fetch_record hs, fetchRecord, hfd, hf] at h
        exact .inr (.inl ⟨bs, h⟩)
      | idle =>
        simp only [step, fetch_record hs, fetchRecord, hfd, hf] at h
        cases h
        exact .inr (.inr ⟨_, _, _, _, _, _, _, rfl⟩)

/-! ## R55 at every step -/

theorem keepsHostParts.sd (h : keepsHostParts s t) : t.sd = s.sd := by
  obtain ⟨-, -, -, -, -, -, hsd⟩ := h
  exact hsd

theorem exec_sd_inv (hn : exec i s = .next t) (hs : ∀ d ∈ s.sd, d.Inv) : ∀ d ∈ t.sd, d.Inv := by
  cases hi : isCommand i with
  | true => exact (exec_effect hi hn).sd_inv hs
  | false => rwa [(exec_internal_frame hi hn).sd]

theorem step_sd_inv (h : step s = .next t) (hs : ∀ d ∈ s.sd, d.Inv) : ∀ d ∈ t.sd, d.Inv := by
  rcases step_next h with ⟨i, q, v, hn⟩ | ⟨bs, hn⟩ | ⟨q, v, b, st, r0, r1, r2, rfl⟩
  · exact exec_sd_inv hn hs
  · rwa [(feedBytes_frame hn).1.sd]
  · exact hs

/-! ## Handles out of range (R32) -/

section Absent
variable {h : BitVec 16} {fl mask : Byte} (hlegal : s.cfg.legal = true)
include hlegal

theorem withCctx_absent {k : Cctx → Answer} (hh : s.cctx.length ≤ h.toNat) :
    withCctx h fl mask s k = raise .protocolViolation s := by
  simp only [withCctx, command_legal hlegal, List.getElem?_eq_none hh]

theorem withSd_absent {k : Sd → Answer} (hh : s.sd.length ≤ h.toNat) :
    withSd h fl s k = raise .protocolViolation s := by
  simp only [withSd, command_legal hlegal, List.getElem?_eq_none hh]

theorem withFe_absent {k : Fe → Answer} (hh : s.fe.length ≤ h.toNat) :
    withFe h fl s k = raise .protocolViolation s := by
  simp only [withFe, command_legal hlegal, List.getElem?_eq_none hh]

theorem withFd_absent {k : Fd → Answer} (hh : s.fd.length ≤ h.toNat) :
    withFd h fl s k = raise .protocolViolation s := by
  simp only [withFd, command_legal hlegal, List.getElem?_eq_none hh]

theorem exec_cctx_absent (hi : cctxCommand i = some (h, fl, mask)) (hh : s.cctx.length ≤ h.toNat) :
    exec i s = raise .protocolViolation s := by
  cases i with
  | ctxInit =>
    cases hi
    simp only [exec, execCtxInit, command_legal hlegal, List.getElem?_eq_none hh]
  | ctxReset | ctxFree | blkCompress | blkCompressContinue | loadDict | saveDict =>
    cases hi
    exact withCctx_absent hlegal hh
  | _ => cases hi

theorem exec_sd_absent (hi : sdCommand i = some (h, fl)) (hh : s.sd.length ≤ h.toNat) :
    exec i s = raise .protocolViolation s := by
  cases i with
  | blkDecompressContinue | sdReset =>
    cases hi
    exact withSd_absent hlegal hh
  | _ => cases hi

theorem exec_fe_absent (hi : feCommand i = some (h, fl)) (hh : s.fe.length ≤ h.toNat) :
    exec i s = raise .protocolViolation s := by
  cases i with
  | feBegin | feUpdate | feFlush | feEnd =>
    cases hi
    exact withFe_absent hlegal hh
  | _ => cases hi

theorem exec_fd_absent (hi : fdCommand i = some (h, fl)) (hh : s.fd.length ≤ h.toNat) :
    exec i s = raise .protocolViolation s := by
  cases i with
  | fdReset | fdDecode =>
    cases hi
    exact withFd_absent hlegal hh
  | _ => cases hi

end Absent

/-! ## Power-on -/

theorem paramsFit_default : paramsFit Config.default := by decide

theorem Fd.powerOn_inv : Fd.powerOn.Inv := by decide

end Sys2Proof.Machine

namespace Sys2Proof.Proofs
open Sys2Proof.Machine Sys2Proof.Claims

/-- Settles O17: the frames of micro-operations, Sequences and records. -/
theorem internalFrame : Obligations.InternalFrame := by
  intro i s t hi hn
  obtain ⟨hcfg, hmem, hdraws, hstream, hqueue, huops, hsd⟩ := exec_internal_frame hi hn
  refine ⟨hcfg, hmem, hdraws, hstream, hqueue, huops, hsd, fun h => ?micro, fun h => ?sequence,
    fun h => ?record⟩
  case micro =>
    have heff := exec_micro_effect h hn
    obtain ⟨-, hst, h0, h1, h2, hfd, hbd, hrcd⟩ := heff.frame
    obtain ⟨hsel, hsrc, hhigh⟩ := heff.operands
    exact ⟨hst, h0, h1, h2, hfd, hbd, hrcd, hsel, hsrc, hhigh, fun _ => heff.cctx_ne,
      fun _ => heff.fe_ne, fun _ _ => heff.fe_same⟩
  case sequence => exact (exec_sequence_frame h hn).2
  case record =>
    obtain ⟨bs, hb⟩ := exec_record (s := s) h
    exact (feedBytes_frame (hb ▸ hn)).2

/-- Settles O23: a decode and SD_RESET keep the last `WINDOW_SIZE` bytes, and nothing else writes a
history. -/
theorem streamHistoryBounded : Obligations.StreamHistoryBounded := by
  refine ⟨fun d hd => ?_, fun s t hs h => step_sd_inv h hs⟩
  rw [List.eq_of_mem_replicate hd]
  exact Nat.zero_le _

/-- Settles O11: each kind of command checks its handle first. -/
theorem handleOutOfRange : Obligations.HandleOutOfRange := by
  rintro i s hlegal (⟨h, fl, mask, hi, hh⟩ | ⟨h, fl, hi, hh⟩ | ⟨h, fl, hi, hh⟩ | ⟨h, fl, hi, hh⟩)
  · exact exec_cctx_absent hlegal hi hh
  · exact exec_sd_absent hlegal hi hh
  · exact exec_fe_absent hlegal hi hh
  · exact exec_fd_absent hlegal hi hh

/-- Settles O21: the parameters fit, memory is empty, and every context is at power-on. -/
theorem resetMeetsInvariants : Obligations.ResetMeetsInvariants := by
  refine ⟨paramsFit_default, reset_mem_wf, fun c hc => ?_, fun d hd => ?_, fun f hf => ?_,
    fun f hf => ?_⟩
  · exact List.eq_of_mem_replicate hc ▸ Cctx.powerOn_inv paramsFit_default
  · exact List.eq_of_mem_replicate hd ▸ Nat.zero_le _
  · exact List.eq_of_mem_replicate hf ▸ Fe.powerOn_inv paramsFit_default
  · exact List.eq_of_mem_replicate hf ▸ Fd.powerOn_inv

end Sys2Proof.Proofs
end

section
/-! The block decoder's output never passes its capacity (spec/43_block_decoder.md R374, R384). -/

namespace Sys2Proof.Machine

variable {cap : Nat} {b : Bd}

/-- A block decode into `cap` bytes that has not passed them. -/
def Bd.Within (cap : Nat) (b : Bd) : Prop := b.cap = cap ∧ b.out.length ≤ cap

theorem within_bdLiterals {token : Byte} {cls : OffClass} {lits : List Byte} (h : b.Within cap) :
    (bdLiterals token cls lits b).2.Within cap := by
  obtain ⟨hcap, hout⟩ := h
  simp only [bdLiterals]
  split
  · exact ⟨hcap, hout⟩
  · next hfit =>
    refine ⟨hcap, ?_⟩
    rw [List.length_append, ← hcap]
    exact Nat.not_lt.mp hfit

theorem within_bdMatch {m : SeqMatch} (h : b.Within cap) : (bdMatch m b).Within cap := by
  obtain ⟨hcap, hout⟩ := h
  simp only [bdMatch]
  split
  · exact ⟨hcap, hout⟩
  · split
    · exact ⟨hcap, hout⟩
    · next hfit =>
      have hcopy : (matchCopy b.dict m.off m.ml b.out).length ≤ cap := by
        rw [length_matchCopy, ← hcap]
        exact Nat.not_lt.mp hfit
      split <;> exact ⟨hcap, hcopy⟩

theorem within_bdSequence {token : Byte} {cls : OffClass} {lits : List Byte} {off ml : Nat}
    (h : b.Within cap) : (bdSequence token cls lits off ml b).Within cap := by
  have hlits := within_bdLiterals (token := token) (cls := cls) (lits := lits) h
  simp only [bdSequence]
  split
  · exact hlits
  · split
    · exact hlits
    · exact within_bdMatch hlits

theorem within_bdLast {token : Byte} {cls : OffClass} {lits : List Byte} (h : b.Within cap) :
    (bdLast token cls lits b).Within cap := by
  have hlits := within_bdLiterals (token := token) (cls := cls) (lits := lits) h
  simp only [bdLast]
  split <;> exact hlits

theorem within_bdExec {q : Sequence} (h : b.Within cap) : (bdExec q b).Within cap := by
  cases q with
  | short | rep | long | mid => exact within_bdSequence h
  | last => exact within_bdLast h

theorem within_bdRound (h : b.Within cap) : (bdRound b).Within cap := by
  simp only [bdRound]
  split
  · exact h
  · exact h
  · exact h
  · exact within_bdExec h

theorem within_bdLoop : ∀ k (b : Bd), b.Within cap → (bdLoop k b).Within cap
  | 0, _, h => h
  | k + 1, _, h => within_bdLoop k _ (within_bdRound h)

theorem length_decodeBlock_le (src : List Byte) (cap : Nat) (dict : List Byte)
    (eoo partialMode : Bool) (target : Nat) :
    (decodeBlock src cap dict eoo partialMode target).out.length ≤ cap :=
  (within_bdLoop (cap := cap) (src.length + 1) (Bd.start src cap dict eoo partialMode target)
    ⟨rfl, Nat.zero_le cap⟩).2

end Sys2Proof.Machine
end

section
/-! How long the packer's output is (spec/30_encoding.md R153, spec/41_sequence_packer.md R260 to
R262): a parse whose triples are all accepted (R294, R295) packs into its input's length and the
terminal Sequence's overhead, which is what R292 allows. -/

namespace Sys2Proof.Machine

/-! ## Lengths of Sequences (R153) -/

theorem length_seqHead (cls : OffClass) (hi : BitVec 2) (mf : BitVec 3) (lits : List Byte) :
    (seqHead cls hi mf lits).length = lastLen lits.length cls := by
  simp only [seqHead, lastLen, litMask, List.length_cons, List.length_append, length_lenExt]
  omega

/-- The extension of a match length is as long as R153 says. -/
theorem length_lenExt_match (ml : Nat) : (lenExt (ml - minMatch) 7).length = mlExt ml := by
  rw [show 7 = 2 ^ 3 - 1 from rfl, length_lenExt, litExt, mlExt, Nat.sub_sub]
  rfl

theorem length_seqBytes (cls : OffClass) (off : Nat) (lits : List Byte) (ml : Nat) :
    (seqBytes cls off lits ml).length = seqLen lits.length cls ml := by
  simp only [seqBytes, List.length_append, length_seqHead, length_leBytes, length_lenExt_match,
    lastLen, seqLen]

/-- A match that R295 accepts pays for its Sequence's overhead. -/
theorem length_emitSeqBytes_le {lits : List Byte} {d ml last : Nat}
    (h : accept lits.length d ml last = true) :
    (emitSeqBytes lits d ml last).length ≤ lits.length + ml := by
  simp only [accept, nonExpanding, Bool.and_eq_true, decide_eq_true_eq] at h
  rw [emitSeqBytes, length_seqBytes, seqLen]
  omega

theorem length_emitLastBytes_le (lits : List Byte) :
    (emitLastBytes lits).length ≤ lits.length + 2 + lits.length / 255 := by
  rw [emitLastBytes, length_seqHead, lastLen, litExt, litBits]
  split <;> omega

/-! ## Parses -/

/-- A parse of `n` bytes from `anchor` on with `last` the `last_off` in force: in order and inside
the input (R262), every triple accepted after the literal run it ends (R264, R294, R295). -/
def acceptedParse (n : Nat) : Nat → Nat → List Triple → Prop
  | anchor, _, [] => anchor ≤ n
  | anchor, last, t :: ts =>
    anchor ≤ t.start ∧ t.start + t.ml ≤ n ∧ accept (t.start - anchor) t.d t.ml last = true ∧
    acceptedParse n (t.start + t.ml) t.d ts

theorem length_slice {src : List Byte} {a b : Nat} (h : b ≤ src.length) :
    (slice src a b).length = b - a := by
  rw [slice, List.length_take, List.length_drop]
  omega

theorem length_packFrom_le {src : List Byte} :
    ∀ ts anchor last, acceptedParse src.length anchor last ts →
      anchor + (packFrom src ts anchor last).1.length ≤ src.length + 2 + src.length / 255
  | [], anchor, _, h => by
    have hlast := length_emitLastBytes_le (src.drop anchor)
    have hle : anchor ≤ src.length := h
    rw [List.length_drop] at hlast
    simp only [packFrom]
    omega
  | t :: ts, anchor, last, ⟨hstart, hend, hacc, hrest⟩ => by
    have hlits : (slice src anchor t.start).length = t.start - anchor := length_slice (by omega)
    have hseq := length_emitSeqBytes_le (lits := slice src anchor t.start) (hlits ▸ hacc)
    have htail := length_packFrom_le ts _ _ hrest
    rw [packFrom, List.length_append]
    omega

/-- The bound of R292 on a parse of the whole input. -/
theorem length_pack_le {src : List Byte} {ts : List Triple} (h : acceptedParse src.length 0 0 ts) :
    (pack src ts).1.length ≤ compressBound src.length := by
  have hle := length_packFrom_le ts 0 0 h
  rw [pack, compressBound]
  omega

end Sys2Proof.Machine
end

section
/-! Every parser's triples are in order, inside the input and accepted (spec/42_block_encoder.md
R294, R295), whatever the tables hold: the finders return no match longer than what is left to
`high`, and the literal run a triple is accepted with is the one it ends. So a block is within R292's
bound. -/

namespace Sys2Proof.Machine

variable {cfg : Config} {c : Cctx} {src : List Byte}

/-! ## No match is longer than what is left of the input -/

theorem countFrom_le (c : Cctx) (src : List Byte) : ∀ k p q, countFrom c src p q k ≤ k
  | 0, _, _ => Nat.le_refl 0
  | k + 1, p, q => by
    have hrest := countFrom_le c src k (p + 1) (q + 1)
    rw [countFrom]
    split <;> omega

theorem count_le (c : Cctx) (src : List Byte) (p q high : Nat) : count c src p q high ≤ high - p :=
  countFrom_le c src _ p q

/-- Every match of the list is at most `k` bytes long. -/
def NoLongerThan (k : Nat) (ms : List Match) : Prop := ∀ m ∈ ms, m.length.toNat ≤ k

theorem noLongerThan_nil {k : Nat} : NoLongerThan k [] := nofun

theorem NoLongerThan.append {k : Nat} {ms ms' : List Match} (h : NoLongerThan k ms)
    (h' : NoLongerThan k ms') : NoLongerThan k (ms ++ ms') :=
  List.forall_mem_append.mpr ⟨h, h'⟩

theorem noLongerThan_of {k d l : Nat} (h : l ≤ k) : NoLongerThan k [Match.of d l] :=
  List.forall_mem_singleton.mpr (Nat.le_trans (toNat_u32_le l) h)

theorem h3Cand_noLonger {p high : Nat} :
    NoLongerThan (high - p) (h3Cand cfg c src p high).toList := by
  simp only [h3Cand]
  split
  · exact noLongerThan_nil
  · split
    · exact noLongerThan_nil
    · split
      · exact noLongerThan_of (count_le ..)
      · exact noLongerThan_nil

theorem firstOf_noLonger {m3 : Option Match} {minLen k : Nat} (h : NoLongerThan k m3.toList) :
    NoLongerThan k (firstOf m3 minLen) := by
  cases m3 with
  | none => exact noLongerThan_nil
  | some m =>
    simp only [firstOf]
    split
    · exact h
    · exact noLongerThan_nil

/-! ### Hash chain -/

theorem walkBest_noLonger {p high : Nat} :
    ∀ attempts q best bestLen, NoLongerThan (high - p) best.toList →
      NoLongerThan (high - p) (walkBest c src p high attempts q best bestLen).toList
  | 0, _, _, _, h => h
  | attempts + 1, q, best, bestLen, h => by
    rw [walkBest]
    split
    · exact h
    · dsimp only
      split
      · exact walkBest_noLonger attempts _ (some _) _ (noLongerThan_of (count_le ..))
      · exact walkBest_noLonger attempts _ _ _ h

theorem mfFindBest_noLonger {p high : Nat} :
    NoLongerThan (high - p) (mfFindBest cfg src p high c).1.toList :=
  walkBest_noLonger _ _ _ _ h3Cand_noLonger

theorem walkAll_noLonger {p high : Nat} :
    ∀ attempts q bestLen room,
      NoLongerThan (high - p) (walkAll c src p high attempts q bestLen room)
  | 0, _, _, _ => noLongerThan_nil
  | attempts + 1, q, bestLen, room => by
    rw [walkAll]
    split
    · exact noLongerThan_nil
    · dsimp only
      split
      · exact (noLongerThan_of (count_le ..)).append (walkAll_noLonger attempts _ _ _)
      · exact walkAll_noLonger attempts _ _ _

theorem mfFindAll_noLonger {p high minLen : Nat} :
    NoLongerThan (high - p) (mfFindAll cfg src p high minLen c).1 :=
  (firstOf_noLonger h3Cand_noLonger).append (walkAll_noLonger _ _ _ _)

/-! ### Binary tree -/

/-- The walk compares from the lesser of the two lengths it knows, which are themselves counted. -/
theorem btLoop_noLonger {p high : Nat} {collect : Bool} :
    ∀ attempts q (w : BtWalk) (c : Cctx), w.cs ≤ high - p → w.cl ≤ high - p →
      NoLongerThan (high - p) (btLoop src p high collect attempts q w c).1
  | 0, _, _, _, _, _ => noLongerThan_nil
  | attempts + 1, q, w, c, hcs, hcl => by
    rw [btLoop]
    split
    · exact noLongerThan_nil
    · dsimp only
      have hl : min w.cs w.cl
          + count c src (p + min w.cs w.cl) (q + min w.cs w.cl) high ≤ high - p := by
        have hcount := count_le c src (p + min w.cs w.cl) (q + min w.cs w.cl) high
        omega
      generalize min w.cs w.cl
          + count c src (p + min w.cs w.cl) (q + min w.cs w.cl) high = l at hl ⊢
      generalize (collect && _ && _ : Bool) = take
      have hfound : NoLongerThan (high - p) (if take then [Match.of (p - q) l] else []) := by
        cases take with
        | true => exact noLongerThan_of hl
        | false => exact noLongerThan_nil
      generalize hw1 : (if take then { w with bestLen := l, room := w.room - 1 } else w) = w1
      have hcs1 : w1.cs ≤ high - p := by cases take <;> exact hw1 ▸ hcs
      have hcl1 : w1.cl ≤ high - p := by cases take <;> exact hw1 ▸ hcl
      split
      · exact hfound
      · split
        · exact hfound.append (btLoop_noLonger attempts _ _ _ hl hcl1)
        · exact hfound.append (btLoop_noLonger attempts _ _ _ hcs1 hl)

theorem btSearch_noLonger {p high minLen : Nat} {collect : Bool} :
    NoLongerThan (high - p) (btSearch cfg src p collect high minLen c).1 := by
  refine NoLongerThan.append ?_ (btLoop_noLonger _ _ _ _ (Nat.zero_le _) (Nat.zero_le _))
  split
  · exact firstOf_noLonger h3Cand_noLonger
  · exact noLongerThan_nil

theorem findAll_noLonger {x : Input} {bt : Bool} {p : Nat} :
    NoLongerThan (x.high - p) (findAll cfg x bt p c).1 := by
  cases bt with
  | true => exact btSearch_noLonger
  | false => exact mfFindAll_noLonger

/-! ## The committed match -/

theorem backFrom_le (c : Cctx) (src : List Byte) (low lowBound : Nat) :
    ∀ k p q, backFrom c src low lowBound p q k ≤ k
  | 0, _, _ => Nat.le_refl 0
  | k + 1, p, q => by
    have hrest := backFrom_le c src low lowBound k (p - 1) (q - 1)
    rw [backFrom]
    split <;> omega

/-- A match is pulled backward to the anchor at most (R211). -/
theorem backAdjust_le (c : Cctx) (src : List Byte) (p d lowBound : Nat) :
    backAdjust c src p d lowBound ≤ p - lowBound := backFrom_le c src _ _ _ _ _

/-- Committing moves the start of the match and not its end (R211). -/
theorem Match.triple_commit_span (m : Match) {b i anchor : Nat} (hb : b ≤ i - anchor)
    (ha : anchor ≤ i) :
    anchor ≤ ((m.commit b).triple i).start ∧
    ((m.commit b).triple i).start + ((m.commit b).triple i).ml = i + m.length.toNat := by
  have hword : (BitVec.ofNat 32 b).toNat ≤ b := toNat_u32_le b
  simp only [Match.commit, Match.triple]
  omega

theorem Input.accept_of_accepts {x : Input} {litLen d ml last : Nat}
    (h : x.accepts cfg litLen d ml last = true) : accept litLen d ml last = true := by
  rw [Input.accepts, Bool.and_eq_true] at h
  exact h.2

theorem Input.le_of_eligible {x : Input} {i : Nat} (h : ¬ (!x.eligible cfg i) = true) :
    i ≤ x.n := by
  rw [Bool.not_eq_true', Bool.not_eq_false, Input.eligible, decide_eq_true_eq] at h
  omega

theorem Input.high_sub_le (x : Input) (i : Nat) : x.high - (x.p0 + i) ≤ x.n - i := by
  rw [Input.high]
  omega

/-! ## `fast` (R301) -/

theorem probeMatch_span {x : Input} {i anchor q : Nat} (ha : anchor ≤ i) (hi : i ≤ x.n) :
    anchor ≤ ((probeMatch x c i anchor q).triple i).start ∧
    ((probeMatch x c i anchor q).triple i).start + ((probeMatch x c i anchor q).triple i).ml
      ≤ x.n := by
  have hback := backAdjust_le c x.src (x.p0 + i) (x.p0 + i - q) (x.p0 + anchor)
  obtain ⟨hstart, hend⟩ := Match.triple_commit_span
    (Match.of (x.p0 + i - q) (count c x.src (x.p0 + i) q x.high)) (hback.trans (by omega)) ha
  have hlen : (Match.of (x.p0 + i - q) (count c x.src (x.p0 + i) q x.high)).length.toNat
      ≤ x.n - i := (toNat_u32_le _).trans ((count_le ..).trans (x.high_sub_le i))
  exact ⟨hstart, by rw [probeMatch]; omega⟩

theorem acceptedParse_fastLoop {x : Input} :
    ∀ fuel i anchor misses last (c : Cctx), anchor ≤ i → anchor ≤ x.n →
      acceptedParse x.n anchor last (fastLoop cfg x fuel i anchor misses last c).triples
  | 0, _, _, _, _, _, _, hn => hn
  | fuel + 1, i, anchor, misses, last, c, ha, hn => by
    rw [fastLoop]
    split
    · exact hn
    · next he =>
      dsimp only
      split
      · next hhit =>
        rw [Bool.and_eq_true] at hhit
        obtain ⟨hstart, hend⟩ := probeMatch_span ha (Input.le_of_eligible he)
        exact ⟨hstart, hend, Input.accept_of_accepts hhit.2,
          acceptedParse_fastLoop fuel _ _ _ _ _ (Nat.le_refl _) hend⟩
      · exact acceptedParse_fastLoop fuel _ _ _ _ _ (ha.trans (Nat.le_add_right _ _)) hn

/-! ## `price_fast` and `lowest_price` (R302 to R304) -/

theorem bestAcc_length {x : Input} {i anchor last : Nat} {m : Match} {c' : Cctx}
    (h : bestAcc cfg x i anchor last c = (some m, c')) : m.length.toNat ≤ x.n - i := by
  have hm : (bestAcc cfg x i anchor last c).1 = some m := by rw [h]
  obtain ⟨hfound, -⟩ := Option.filter_eq_some_iff.mp hm
  exact (mfFindBest_noLonger m (Option.mem_toList.mpr hfound)).trans (x.high_sub_le i)

/-- The lookahead moves forward and keeps to matches that end inside the input. -/
theorem lookahead_span {x : Input} {anchor last : Nat} :
    ∀ k j m (c : Cctx), j + m.length.toNat ≤ x.n →
      j ≤ (lookahead cfg x anchor last k j m c).1 ∧
      (lookahead cfg x anchor last k j m c).1
        + (lookahead cfg x anchor last k j m c).2.1.length.toNat ≤ x.n
  | 0, j, _, _, h => ⟨Nat.le_refl j, h⟩
  | k + 1, j, m, c, h => by
    rw [lookahead]
    split
    · exact ⟨Nat.le_refl j, h⟩
    · next he =>
      have hj := Input.le_of_eligible he
      split
      · next m2 c1 heq =>
        have hlen := bestAcc_length heq
        split
        · obtain ⟨hle, hend⟩ := lookahead_span (x := x) (last := last) (anchor := anchor) k (j + 1)
            m2 c1 (by omega)
          exact ⟨Nat.le_of_succ_le hle, hend⟩
        · exact ⟨Nat.le_refl j, h⟩
      · exact ⟨Nat.le_refl j, h⟩

theorem acceptedParse_lookaheadLoop {x : Input} {depth : Nat} :
    ∀ fuel i anchor last (c : Cctx), anchor ≤ i → anchor ≤ x.n →
      acceptedParse x.n anchor last (lookaheadLoop cfg x depth fuel i anchor last c).triples
  | 0, _, _, _, _, _, hn => hn
  | fuel + 1, i, anchor, last, c, ha, hn => by
    rw [lookaheadLoop]
    split
    · exact hn
    · next he =>
      have hi := Input.le_of_eligible he
      split
      · exact acceptedParse_lookaheadLoop fuel _ _ _ _ (ha.trans (Nat.le_succ i)) hn
      · next m0 c1 heq =>
        have hlen := bestAcc_length heq
        obtain ⟨hj, hend⟩ := lookahead_span (cfg := cfg) (x := x) (anchor := anchor) (last := last)
          depth i m0 c1 (by omega)
        dsimp only
        generalize lookahead cfg x anchor last depth i m0 c1 = r at hj hend
        have hback := backAdjust_le r.2.2 x.src (x.p0 + r.1) r.2.1.offset.toNat (x.p0 + anchor)
        obtain ⟨hstart, hspan⟩ := Match.triple_commit_span r.2.1 (hback.trans (by omega))
          (ha.trans hj)
        split
        · next hacc =>
          exact ⟨hstart, hspan ▸ hend, Input.accept_of_accepts hacc,
            acceptedParse_lookaheadLoop fuel _ _ _ _ (Nat.le_refl _) (hspan ▸ hend)⟩
        · exact acceptedParse_lookaheadLoop fuel _ _ _ _ (by omega) hn

/-! ## `optimal_price` and `optimal_price_bt` (R305 to R309) -/

/-- `v` at index `t` of the window at `i` is one step from `u` at index `v.prev`: a literal, or a
match accepted after `u`'s literal run that ends inside the input (R306). -/
def nodeStep (n i t : Nat) (u v : Node) : Prop :=
  (v.off = 0 ∧ t = v.prev + 1 ∧ v.litlen = u.litlen + 1 ∧ v.rep = u.rep) ∨
  (v.off ≠ 0 ∧ t = v.prev + v.ml ∧ i + t ≤ n ∧ accept u.litlen v.off v.ml u.rep = true ∧
    v.litlen = 0 ∧ v.rep = v.off)

/-- The nodes of a window at `i` whose node 0 is `start`, when those up to `k` may have been relaxed
from: every other node is one step from an earlier node, which later relaxations leave alone. -/
structure Linked (n i : Nat) (start : Node) (k : Nat) (w : Nodes) : Prop where
  root : sparseGet 0 w.opt = some start
  link : ∀ t v, sparseGet t w.opt = some v → t ≠ 0 →
    v.prev < t ∧ v.prev ≤ k ∧ ∃ u, sparseGet v.prev w.opt = some u ∧ nodeStep n i t u v

section Window
variable {n i k : Nat} {start : Node} {w : Nodes}

theorem linked_window_start (start : Node) : Linked n i start 0 ⟨[(0, start)], 0⟩ where
  root := by simp [sparseGet]
  link t v ht h0 := by simp [sparseGet, h0] at ht

theorem Linked.mono {k' : Nat} (h : Linked n i start k w) (hk : k ≤ k') :
    Linked n i start k' w where
  root := h.root
  link t v ht h0 := by
    obtain ⟨hlt, hle, hu⟩ := h.link t v ht h0
    exact ⟨hlt, hle.trans hk, hu⟩

theorem relax_opt (t : Nat) (v : Node) (w : Nodes) :
    (relax t v w).opt = sparseSet t v w.opt ∨ (relax t v w).opt = w.opt := ite_eq_or_eq _ _ _

/-- A relaxation leaves the nodes before its target as they are. -/
theorem sparseGet_relax_lt {t j : Nat} (v : Node) (h : j < t) :
    sparseGet j (relax t v w).opt = sparseGet j w.opt := by
  rcases relax_opt t v w with ho | ho
  · rw [ho, sparseGet_set_ne (Nat.ne_of_lt h)]
  · rw [ho]

/-- After a relaxation a node is the relaxed one or an old one. -/
theorem sparseGet_relax {t j : Nat} {v v' : Node} (h : sparseGet j (relax t v w).opt = some v') :
    (j = t ∧ v' = v) ∨ sparseGet j w.opt = some v' := by
  rcases relax_opt t v w with ho | ho
  · rw [ho] at h
    by_cases hj : j = t
    · rw [hj, sparseGet_set_same] at h
      exact .inl ⟨hj, (Option.some.inj h).symm⟩
    · rw [sparseGet_set_ne hj] at h
      exact .inr h
  · rw [ho] at h
    exact .inr h

theorem linked_relax {t : Nat} {u v : Node} (h : Linked n i start k w)
    (hu : sparseGet k w.opt = some u) (hprev : v.prev = k) (hkt : k < t)
    (hstep : nodeStep n i t u v) : Linked n i start k (relax t v w) where
  root := by rw [sparseGet_relax_lt v (by omega), h.root]
  link t' v' ht' h0 := by
    rcases sparseGet_relax ht' with ⟨rfl, rfl⟩ | hold
    · exact ⟨by omega, by omega, u, by rw [sparseGet_relax_lt v' (by omega), hprev, hu], hstep⟩
    · obtain ⟨hlt, hle, u', hu', hs⟩ := h.link t' v' hold h0
      exact ⟨hlt, hle, u', by rw [sparseGet_relax_lt v (by omega), hu'], hs⟩

/-- The nodes while node `k`, which is `node`, is processed. -/
def LinkedAt (n i : Nat) (start : Node) (k : Nat) (node : Node) (w : Nodes) : Prop :=
  Linked n i start k w ∧ sparseGet k w.opt = some node

theorem linkedAt_relax {t : Nat} {node v : Node} (h : LinkedAt n i start k node w)
    (hprev : v.prev = k) (hkt : k < t) (hstep : nodeStep n i t node v) :
    LinkedAt n i start k node (relax t v w) :=
  ⟨linked_relax h.1 h.2 hprev hkt hstep, by rw [sparseGet_relax_lt v hkt, h.2]⟩

theorem linkedAt_literal {node : Node} (h : LinkedAt n i start k node w) (price ml : Nat) :
    LinkedAt n i start k node
      (relax (k + 1) ⟨price, node.litlen + 1, k, 0, ml, node.rep⟩ w) :=
  linkedAt_relax h rfl (Nat.lt_succ_self k) (.inl ⟨rfl, rfl, rfl, rfl⟩)

/-- Every length of a candidate that ends inside the input (R306). -/
theorem linkedAt_relaxLengths {node : Node} {d : Nat} :
    ∀ cnt ml (w : Nodes), (∀ j < cnt, ml + j ≤ n - (i + k)) → LinkedAt n i start k node w →
      LinkedAt n i start k node (relaxLengths k node d cnt ml w)
  | 0, _, _, _, h => h
  | cnt + 1, ml, w, hlen, h => by
    have hml : ml ≤ n - (i + k) := hlen 0 (Nat.succ_pos cnt)
    rw [relaxLengths]
    refine linkedAt_relaxLengths cnt (ml + 1) _ (fun j hj => ?_) ?_
    · have := hlen (j + 1) (by omega)
      omega
    · split
      · next hacc =>
        have hbounds : 3 ≤ ml ∧ 1 ≤ d ∧ d ≤ maxOffset := by
          simp only [accept, Bool.and_eq_true, decide_eq_true_eq] at hacc
          exact hacc.1
        refine linkedAt_relax h rfl (by omega) (.inr ⟨?_, rfl, ?_, hacc, rfl, rfl⟩)
        · dsimp only
          omega
        · omega
      · exact h

theorem linkedAt_relaxCands {node : Node} :
    ∀ cands (w : Nodes), (∀ cd ∈ cands, cd.len ≤ n - (i + k)) → LinkedAt n i start k node w →
      LinkedAt n i start k node (relaxCands k node cands w)
  | [], _, _, h => h
  | cd :: t, w, hlen, h => by
    rw [List.forall_mem_cons] at hlen
    rw [relaxCands]
    refine linkedAt_relaxCands t _ hlen.2 (linkedAt_relaxLengths _ _ _ (fun j hj => ?_) h)
    omega

end Window

/-! ### The candidates -/

theorem candsOf_len {k : Nat} :
    ∀ prevLen (ms : List Match), NoLongerThan k ms → ∀ cd ∈ candsOf prevLen ms, cd.len ≤ k
  | _, [], _ => nofun
  | _, m :: t, h => by
    obtain ⟨hm, ht⟩ := List.forall_mem_cons.mp h
    exact List.forall_mem_cons.mpr ⟨hm, candsOf_len _ t ht⟩

theorem repCand_len {x : Input} {p rep : Nat} : ∀ cd ∈ repCand x c p rep, cd.len ≤ x.high - p := by
  simp only [repCand]
  split
  · split
    · exact List.forall_mem_singleton.mpr (count_le ..)
    · exact nofun
  · exact nofun

theorem linked_windowLoop {x : Input} {bt : Bool} {i : Nat} {start : Node} :
    ∀ cnt k w (c : Cctx), Linked x.n i start k w →
      ∃ k', Linked x.n i start k' (windowLoop cfg x bt i cnt k w c).1
  | 0, k, _, _, h => ⟨k, h⟩
  | cnt + 1, k, w, c, h => by
    rw [windowLoop]
    split
    · exact ⟨k, h⟩
    · next node hnode =>
      have hhigh : x.high - (x.p0 + i + k) ≤ x.n - (i + k) := by
        rw [Nat.add_assoc]
        exact x.high_sub_le (i + k)
      have hcands : ∀ cd ∈ (if x.small cfg then [] else
          repCand x c (x.p0 + i + k) node.rep
            ++ candsOf (minMatch - 1) (findAll cfg x bt (x.p0 + i + k) c).1),
          cd.len ≤ x.n - (i + k) := by
        split
        · exact nofun
        · exact List.forall_mem_append.mpr ⟨fun cd hcd => (repCand_len cd hcd).trans hhigh,
            fun cd hcd => (candsOf_len _ _ findAll_noLonger cd hcd).trans hhigh⟩
      have hliteral := linkedAt_literal ⟨h, hnode⟩ (node.price + 1) 1
      have hnext := (linkedAt_relaxCands _ _ hcands hliteral).1
      dsimp only
      generalize (if x.small cfg = true then [] else _ : List Cand) = cands at hnext ⊢
      split
      · exact ⟨k, hnext⟩
      · exact linked_windowLoop cnt (k + 1) _ _ (hnext.mono (Nat.le_succ k))

/-! ### The path through a window -/

theorem afterTriples_append_singleton (t : Triple) :
    ∀ ts a, afterTriples (ts ++ [t]) a = (t.start + t.ml, t.d)
  | [], _ => rfl
  | _ :: ts, _ => afterTriples_append_singleton t ts _

/-- The triples `ts` lead from `anchor` and `last` to the index `e` in the input, with `litlen`
literals pending there and `rep` in force, and a parse that goes on from there is accepted as a
whole. -/
structure LeadsTo (n anchor last e litlen rep : Nat) (ts : List Triple) : Prop where
  before : (afterTriples ts (anchor, last)).1 ≤ e
  inside : (afterTriples ts (anchor, last)).1 ≤ n
  pending : litlen = e - (afterTriples ts (anchor, last)).1
  inForce : rep = (afterTriples ts (anchor, last)).2
  accepted : ∀ rest,
    acceptedParse n (afterTriples ts (anchor, last)).1 (afterTriples ts (anchor, last)).2 rest →
    acceptedParse n anchor last (ts ++ rest)

section Path
variable {n anchor last e litlen rep : Nat} {ts : List Triple}

theorem leadsTo_nil (ha : anchor ≤ e) (hn : anchor ≤ n) :
    LeadsTo n anchor last e (e - anchor) last [] :=
  ⟨ha, hn, rfl, rfl, fun _ h => h⟩

theorem LeadsTo.literal (h : LeadsTo n anchor last e litlen rep ts) :
    LeadsTo n anchor last (e + 1) (litlen + 1) rep ts := by
  obtain ⟨hbefore, hinside, hpending, hrep, hacc⟩ := h
  exact ⟨by omega, hinside, by omega, hrep, hacc⟩

theorem LeadsTo.matched {d ml : Nat} (h : LeadsTo n anchor last e litlen rep ts) (hend : e + ml ≤ n)
    (hacc : accept litlen d ml rep = true) :
    LeadsTo n anchor last (e + ml) 0 d (ts ++ [⟨e, d, ml⟩]) := by
  obtain ⟨hbefore, -, rfl, rfl, hgo⟩ := h
  have hafter : afterTriples (ts ++ [⟨e, d, ml⟩]) (anchor, last) = (e + ml, d) :=
    afterTriples_append_singleton _ _ _
  refine ⟨by rw [hafter], by rwa [hafter], by rw [hafter, Nat.sub_self], by rw [hafter],
    fun rest hrest => ?_⟩
  rw [hafter] at hrest
  rw [List.append_assoc]
  exact hgo _ ⟨hbefore, hend, hacc, hrest⟩

end Path

theorem backtrace_leadsTo {n i anchor last k : Nat} {w : Nodes} (ha : anchor ≤ i) (hn : anchor ≤ n)
    {start : Node} (hlit : start.litlen = i - anchor) (hrep : start.rep = last)
    (h : Linked n i start k w) :
    ∀ fuel e v, e ≤ fuel → sparseGet e w.opt = some v →
      LeadsTo n anchor last (i + e) v.litlen v.rep (backtrace i w fuel e).reverse := by
  have hroot : ∀ v, sparseGet 0 w.opt = some v → LeadsTo n anchor last i v.litlen v.rep [] := by
    intro v hv
    obtain rfl : start = v := Option.some.inj (h.root.symm.trans hv)
    rw [hlit, hrep]
    exact leadsTo_nil ha hn
  intro fuel
  induction fuel with
  | zero =>
    intro e v he hv
    obtain rfl : e = 0 := Nat.le_zero.mp he
    exact hroot v hv
  | succ fuel ih =>
    intro e v he hv
    by_cases h0 : e = 0
    · subst h0
      simpa [backtrace] using hroot v hv
    · obtain ⟨hlt, -, u, hu, hstep⟩ := h.link e v hv h0
      have hpath := ih v.prev u (by omega) hu
      rw [backtrace, if_neg h0]
      simp only [hv]
      rcases hstep with ⟨hoff, rfl, hl, hr⟩ | ⟨hoff, rfl, hend, hacc, hl, hr⟩
      · rw [if_pos hoff, hl, hr, ← Nat.add_assoc]
        exact hpath.literal
      · rw [if_neg hoff, hl, hr, List.reverse_cons, ← Nat.add_assoc]
        exact hpath.matched (by omega) hacc

theorem backtrace_of_unlisted {i e : Nat} {w : Nodes} (h : sparseGet e w.opt = none) :
    ∀ fuel, backtrace i w fuel e = []
  | 0 => rfl
  | fuel + 1 => by simp [backtrace, h]

theorem acceptedParse_optimalLoop {x : Input} {bt : Bool} :
    ∀ fuel i anchor last (c : Cctx), anchor ≤ i → anchor ≤ x.n →
      acceptedParse x.n anchor last (optimalLoop cfg x bt fuel i anchor last c).triples
  | 0, _, _, _, _, _, hn => hn
  | fuel + 1, i, anchor, last, c, ha, hn => by
    rw [optimalLoop]
    split
    · exact hn
    · dsimp only
      set r := windowLoop cfg x bt i _ 0 _ c
      obtain ⟨k, hlinked⟩ : ∃ k, Linked x.n i ⟨0, i - anchor, 0, 0, 0, last⟩ k r.1 :=
        linked_windowLoop _ _ _ _ (linked_window_start _)
      have hpath : ∃ litlen rep, LeadsTo x.n anchor last (i + r.1.emax) litlen rep
          (backtrace i r.1 r.1.emax r.1.emax).reverse := by
        cases hv : sparseGet r.1.emax r.1.opt with
        | some v => exact ⟨_, _, backtrace_leadsTo ha hn rfl rfl hlinked _ _ v (Nat.le_refl _) hv⟩
        | none =>
          rw [backtrace_of_unlisted hv]
          exact ⟨_, _, leadsTo_nil (by omega) hn⟩
      obtain ⟨litlen, rep, hpath⟩ := hpath
      exact hpath.accepted _ (acceptedParse_optimalLoop fuel _ _ _ _ hpath.before hpath.inside)

/-! ## `ENCODE` (R290, R292) -/

/-- Every strategy's parse is in order, inside the input and accepted (R294, R295). -/
theorem acceptedParse_parseWith (strategy : Strategy) (x : Input) :
    acceptedParse x.n 0 0 (parseWith cfg strategy x c).triples := by
  have h0 : 0 ≤ x.n := Nat.zero_le _
  cases strategy with
  | fast => exact acceptedParse_fastLoop _ _ _ _ _ c (Nat.le_refl 0) h0
  | priceFast | lowestPrice => exact acceptedParse_lookaheadLoop _ _ _ _ c (Nat.le_refl 0) h0
  | optimalPrice | optimalPriceBt => exact acceptedParse_optimalLoop _ _ _ _ c (Nat.le_refl 0) h0

/-- A block is never longer than `compressBound` of its input (R292), whatever the context. -/
theorem length_encodeBlock_le (cfg : Config) (src : List Byte) (c : Cctx) :
    (encodeBlock cfg src c).bytes.length ≤ compressBound src.length :=
  length_pack_le (acceptedParse_parseWith _ ⟨_, src⟩)

end Sys2Proof.Machine
end

section
/-! A frame-decoder call never produces more than its output has room for
(spec/46_frame_decoder.md R504, R514, R516, R517). -/

namespace Sys2Proof.Machine

variable {cap : Nat} {f : Fd} {io : FdIo}

/-- `room` is what `cap` leaves after the bytes produced (R504). -/
def FdIo.Sized (cap : Nat) (io : FdIo) : Prop := io.room + io.out.length = cap

theorem FdIo.Sized.consume (h : io.Sized cap) (t : Nat) : (io.consume t).Sized cap := h

theorem FdIo.Sized.produce (h : io.Sized cap) {bs : List Byte} (hb : bs.length ≤ io.room) :
    (io.produce bs).Sized cap := by
  simp only [FdIo.Sized, FdIo.produce, List.length_append] at h ⊢
  omega

/-- A block that goes straight to the output fits its room (R516). -/
def DirectFits (f : Fd) (io : FdIo) : Prop :=
  f.dStage = .decodeCBlockIntoDst → f.tmpOut.length ≤ io.room

/-- A stage's rule has kept within `cap` bytes of output. -/
def StageEnd.Sized (cap : Nat) : StageEnd → Prop
  | .go f io => io.Sized cap ∧ DirectFits f io
  | .hint _ _ io => io.Sized cap
  | .fail _ _ io => io.Sized cap
  | .stuck => True

/-- Every stage but the one that writes a decoded block straight out may follow. -/
theorem sized_go (hio : io.Sized cap) (hd : f.dStage ≠ .decodeCBlockIntoDst) :
    (StageEnd.go f io).Sized cap :=
  ⟨hio, fun h => absurd h hd⟩

theorem sized_storeField {target extra : Nat} {k : Fd → FdIo → StageEnd} (hio : io.Sized cap)
    (hk : ∀ f1 io1, io1.Sized cap → (k f1 io1).Sized cap) :
    (storeField f io target extra k).Sized cap := by
  simp only [storeField]
  split
  · exact hio
  · exact hk _ _ (hio.consume _)

theorem sized_fdGetHeader (hio : io.Sized cap) : (fdGetHeader f io).Sized cap := by
  rw [fdGetHeader]
  split
  · exact hio
  · exact sized_go hio nofun

theorem sized_validateHeader {cfg : Config} (hio : io.Sized cap) :
    (validateHeader cfg f io).Sized cap := by
  rw [validateHeader]
  split
  · exact hio
  · exact sized_go hio nofun

theorem sized_fdStoreHeader {cfg : Config} (hstage : f.dStage = .storeHeader) (hio : io.Sized cap) :
    (fdStoreHeader cfg f io).Sized cap := by
  rw [fdStoreHeader]
  extract_lets long f2
  have hio1 : (io.consume (f.takes io f.tmpInTarget)).Sized cap := hio.consume _
  split
  · exact sized_go hio1 nofun
  · split
    · exact hio1
    · split
      · exact sized_validateHeader hio1
      · split
        · exact hio1
        · exact sized_go hio1 (hstage.trans_ne (by decide))

theorem sized_fdBlockWord {w : U32} (hio : io.Sized cap) : (fdBlockWord w f io).Sized cap := by
  simp only [fdBlockWord, fdEndMark]
  split
  · split
    · exact hio
    · split
      · exact sized_go hio nofun
      · exact hio
  · split
    · exact hio
    · split <;> exact sized_go hio nofun

/-- A stored block is copied no further than the room (R514). -/
theorem sized_fdCopyDirect (hio : io.Sized cap) : (fdCopyDirect f io).Sized cap := by
  simp only [fdCopyDirect]
  have hchunk : (io.src.take (min (min io.avail io.room) f.remaining)).length ≤ io.room :=
    (List.length_take_le _ _).trans (by omega)
  have hout := (hio.consume (min (min io.avail io.room) f.remaining)).produce hchunk
  split
  · exact hio
  · split
    · exact hout
    · exact sized_go hout nofun

/-- A decoded block goes straight to the output only where its greatest size fits (R516). -/
theorem sized_fdDecodeCBlock (hio : io.Sized cap) : (fdDecodeCBlock f io).Sized cap := by
  simp only [fdDecodeCBlock]
  split
  · exact hio
  · trivial
  · refine ⟨hio, fun h => (length_decodeBlock_le _ _ _ _ _ _).trans ?_⟩
    by_contra hroom
    rw [if_neg hroom] at h
    cases h

theorem sized_fdIntoDst (hio : io.Sized cap) (hfits : f.tmpOut.length ≤ io.room) :
    (fdIntoDst f io).Sized cap := by
  simp only [fdIntoDst]
  split
  · exact hio
  · exact sized_go (hio.produce hfits) nofun

theorem sized_fdIntoTmp (hio : io.Sized cap) : (fdIntoTmp f io).Sized cap := by
  simp only [fdIntoTmp]
  split
  · exact hio
  · exact sized_go hio nofun

theorem sized_fdFlushOut (hio : io.Sized cap) : (fdFlushOut f io).Sized cap := by
  simp only [fdFlushOut]
  have hout := hio.produce (bs := f.tmpOut.take (min io.room f.tmpOut.length))
    ((List.length_take_le _ _).trans (Nat.min_le_left _ _))
  split
  · exact sized_go hout nofun
  · exact hout

theorem sized_fdSkip (hio : io.Sized cap) : (fdSkip f io).Sized cap := by
  simp only [fdSkip]
  split <;> exact hio

theorem sized_fdStoreSuffix {cfg : Config} (hio : io.Sized cap) :
    (fdStoreSuffix cfg f io).Sized cap :=
  sized_storeField hio fun _ _ h => by split <;> exact h

/-- Every stage's rule keeps within the output (R505 to R518). -/
theorem sized_fdStage {cfg : Config} (hio : io.Sized cap) (hfits : DirectFits f io) :
    (fdStage cfg f io).Sized cap := by
  rw [fdStage]
  cases hd : f.dStage with
  | getHeader => exact sized_fdGetHeader hio
  | storeHeader => exact sized_fdStoreHeader hd hio
  | getCBlockSize | getCBlock | getSuffix | getSFrameSize => exact sized_go hio nofun
  | storeCBlockSize => exact sized_storeField hio fun _ _ h => sized_fdBlockWord h
  | copyDirect => exact sized_fdCopyDirect hio
  | storeCBlock | storeSFrameSize =>
    exact sized_storeField hio fun _ _ h => sized_go h nofun
  | decodeCBlock => exact sized_fdDecodeCBlock hio
  | decodeCBlockIntoDst => exact sized_fdIntoDst hio (hfits hd)
  | decodeCBlockIntoTmp => exact sized_fdIntoTmp hio
  | flushOut => exact sized_fdFlushOut hio
  | storeSuffix => exact sized_fdStoreSuffix hio
  | skipSkippable => exact sized_fdSkip hio
  | error => trivial

theorem sized_fdLoop {cfg : Config} :
    ∀ k (f : Fd) (io : FdIo), io.Sized cap → DirectFits f io → (fdLoop cfg k f io).Sized cap
  | 0, _, _, _, _ => trivial
  | k + 1, f, io, hio, hfits => by
    have hstage := sized_fdStage (cfg := cfg) hio hfits
    rw [fdLoop]
    split
    · next heq =>
      rw [heq] at hstage
      exact sized_fdLoop k _ _ hstage.1 hstage.2
    · exact hstage

theorem FdIo.Sized.length_le (h : io.Sized cap) : io.out.length ≤ cap := by
  rw [FdIo.Sized] at h
  omega

/-- A call that starts in a stage a decoder can wait in (R70) produces at most `cap` bytes. -/
theorem length_fdRun_le {cfg : Config} {at0 : Cursor} {src : List Byte} {r : FdResult}
    (hwait : f.dStage.transient = false) (h : fdRun cfg f at0 src cap = some r) :
    r.out.length ≤ cap := by
  have hfits : DirectFits f ⟨src, 0, cap, []⟩ := by
    intro hd
    rw [hd] at hwait
    cases hwait
  have hsized := sized_fdLoop (cfg := cfg) (fdBound src.length) f ⟨src, 0, cap, []⟩
    (Nat.add_zero cap) hfits
  rw [fdRun] at h
  split at h
  · next heq =>
    cases h
    rw [heq] at hsized
    exact FdIo.Sized.length_le hsized
  · next heq =>
    cases h
    rw [heq] at hsized
    exact FdIo.Sized.length_le hsized
  · cases h
  · cases h

end Sys2Proof.Machine
end

section
/-! What a command does to host memory, said once (spec/20_memory.md R103, R113, R114,
spec/46_frame_decoder.md R528): it writes bytes from the start of its output buffer on and leaves
bytes after them holding any value, never past the buffer. That memory keeps its canonical form at
every step, and that the bytes outside the output buffer stay, follow from this. -/

namespace Sys2Proof.Machine
open Sys2Proof.Claims

variable {i : Instr} {s t u : State}

/-! ## The one write of a command -/

/-- Memory with `bs` written at `a` and the `free` bytes after them left holding any value, under
draw `k`. -/
def Memory.put (m : Memory) (a : Nat) (bs : List Byte) (free k : Nat) : Memory :=
  (m.writeBytes a bs).writeAny (a + bs.length) free k

theorem Memory.wf_put {m : Memory} (h : m.wf = true) (a : Nat) (bs : List Byte) (free k : Nat) :
    (m.put a bs free k).wf = true :=
  Memory.wf_writeAny (Memory.wf_writeBytes h a bs) _ _ _

theorem Memory.read_put_outside {m : Memory} (h : m.wf = true) {a j : Nat} {bs : List Byte}
    {free : Nat} (k : Nat) (hj : outside j a (bs.length + free)) :
    (m.put a bs free k).read j = m.read j := by
  unfold outside at hj
  rw [Memory.put, Memory.read_writeAny_outside (Memory.wf_writeBytes h a bs) _ _ _ (by omega),
    Memory.read_writeBytes_outside h a bs (by omega)]

/-- All that `i` does to host memory between `s` and `t`: one write at its output buffer, inside the
buffer where `s` meets its invariants. -/
def CommandWrites (i : Instr) (s t : State) : Prop :=
  ∃ bs free k, t.mem = s.mem.put (outputOf i).addr bs free k ∧
    (s.Inv → bs.length + free ≤ (outputOf i).len)

theorem CommandWrites.mem_wf (h : CommandWrites i s t) (hs : s.mem.wf = true) :
    t.mem.wf = true := by
  obtain ⟨bs, free, k, hmem, -⟩ := h
  rw [hmem]
  exact Memory.wf_put hs _ _ _ _

theorem CommandWrites.read_outside (h : CommandWrites i s t) (hinv : s.Inv) {a : Nat}
    (ha : outside a (outputOf i).addr (outputOf i).len) : t.mem.read a = s.mem.read a := by
  obtain ⟨bs, free, k, hmem, hfit⟩ := h
  have hlen := hfit hinv
  obtain ⟨-, hwf, -⟩ := hinv
  unfold outside at ha
  rw [hmem, Memory.read_put_outside hwf k]
  unfold outside
  omega

/-! ## Ways a command ends -/

theorem CommandWrites.of_unchanged (h : t.mem = s.mem) : CommandWrites i s t :=
  ⟨[], 0, 0, h, fun _ => Nat.zero_le _⟩

theorem CommandWrites.of_report {st : Byte} {r0 r1 r2 : U64} (h : t = u.report st r0 r1 r2)
    (hu : u.mem = s.mem := by rfl) : CommandWrites i s t :=
  .of_unchanged (by rw [h, State.report_mem, hu])

theorem CommandWrites.of_done {r0 : U64} (h : done r0 u = .next t) (hu : u.mem = s.mem := by rfl) :
    CommandWrites i s t :=
  .of_report (done_next.mp h) hu

theorem CommandWrites.of_done_write {dst : Buffer} (hi : outputOf i = dst) {bs : List Byte}
    {r0 : U64} (h : done r0 (u.memWrite dst.addr bs) = .next t) (hfit : bs.length ≤ dst.len)
    (hu : u.mem = s.mem := by rfl) : CommandWrites i s t := by
  subst hi
  refine ⟨bs, 0, 0, ?_, fun _ => hfit⟩
  rw [done_next.mp h, State.report_mem, State.memWrite_mem, hu]
  rfl

/-- A failure that leaves the whole output buffer holding any value (R114). -/
theorem CommandWrites.of_failure {dst : Buffer} (hi : outputOf i = dst) {st : Byte}
    {r0 r1 r2 : U64} (h : t = (u.anyValue dst.addr dst.len).report st r0 r1 r2)
    (hu : u.mem = s.mem := by rfl) : CommandWrites i s t := by
  subst hi
  refine ⟨[], (outputOf i).len, u.draws, ?_, fun _ => by rw [List.length_nil, Nat.zero_add]⟩
  rw [h, State.report_mem, State.anyValue_mem, hu]
  rfl

/-- Both ends of a block decode: the output and its overshoot (R113), or a failure (R114). -/
theorem CommandWrites.of_finishDecode {dst : Buffer} (hi : outputOf i = dst) {b : Bd}
    {r0 : U64} (h : finishDecode b dst s (done r0 (u.writeDecoded dst b.out)) = .next t)
    (hfit : b.out.length ≤ dst.len) (hu : u.mem = s.mem := by rfl) : CommandWrites i s t := by
  rcases finishDecode_next h with ⟨-, h⟩ | ⟨c, -, h⟩
  · subst hi
    refine ⟨b.out, overshoot (outputOf i).len b.out.length, u.draws, ?_, fun _ => ?_⟩
    · rw [done_next.mp h, State.report_mem, State.writeDecoded, State.anyValue_mem,
        State.memWrite_mem, hu]
      rfl
    · rw [overshoot]
      omega
  · exact .of_failure hi h

/-! ## Checks before the work -/

theorem CommandWrites.of_check {p : Prop} [Decidable p] {e : Err} {k : Answer}
    (hn : (if p then raise e u else k) = .next t) (hk : ¬ p → k = .next t → CommandWrites i s t)
    (hu : u.mem = s.mem := by rfl) : CommandWrites i s t := by
  split at hn
  · exact .of_report (raise_next.mp hn) hu
  · exact hk ‹_› hn

section Prologues
variable {h : BitVec 16} {fl mask : Byte}

theorem CommandWrites.of_withCctx {k : Cctx → Answer} (hn : withCctx h fl mask s k = .next t)
    (hk : ∀ c, k c = .next t → CommandWrites i s t) : CommandWrites i s t := by
  rcases withCctx_next hn with hn | hn | ⟨c, -, -, -, hn⟩
  · exact .of_report hn
  · exact .of_report hn
  · exact hk c hn

theorem CommandWrites.of_withSd {k : Sd → Answer} (hn : withSd h fl s k = .next t)
    (hk : ∀ d, k d = .next t → CommandWrites i s t) : CommandWrites i s t := by
  rcases withSd_next hn with hn | hn | ⟨d, -, -, hn⟩
  · exact .of_report hn
  · exact .of_report hn
  · exact hk d hn

theorem CommandWrites.of_withFe {k : Fe → Answer} (hn : withFe h fl s k = .next t)
    (hk : ∀ f, k f = .next t → CommandWrites i s t) : CommandWrites i s t := by
  rcases withFe_next hn with hn | hn | ⟨f, -, -, hn⟩
  · exact .of_report hn
  · exact .of_report hn
  · exact hk f hn

theorem CommandWrites.of_withActiveFe {k : Fe → Answer} (hn : withActiveFe h fl s k = .next t)
    (hk : ∀ f, k f = .next t → CommandWrites i s t) : CommandWrites i s t := by
  rcases withActiveFe_next hn with hn | hn | ⟨f, -, -, hn⟩ | ⟨f, -, -, -, hn⟩
  · exact .of_report hn
  · exact .of_report hn
  · exact .of_report hn
  · exact hk f hn

theorem CommandWrites.of_withFd {k : Fd → Answer} (hn : withFd h fl s k = .next t)
    (hk : ∀ f, s.fd[h.toNat]? = some f → k f = .next t → CommandWrites i s t) :
    CommandWrites i s t := by
  rcases withFd_next hn with hn | hn | ⟨f, hf, -, hn⟩
  · exact .of_report hn
  · exact .of_report hn
  · exact hk f hf hn

end Prologues

/-! ## Lengths of what the frame encoder writes (R463 to R469) -/

theorem length_blkCBytes (payload : List Byte) :
    (blkCBytes payload).length = 4 + payload.length := by
  rw [blkCBytes, List.length_append, length_leBytes]

theorem length_blkSBytes (payload : List Byte) :
    (blkSBytes payload).length = 4 + payload.length := by
  rw [blkSBytes, List.length_append, length_leBytes]

/-- A block is stored where it would not shrink (R466). -/
theorem length_emitBlock_le (cfg : Config) (blk : List Byte) (f : Fe) :
    (emitBlock cfg blk f).bytes.length ≤ 4 + blk.length := by
  simp only [emitBlock]
  generalize encodeBlock cfg blk _ = r
  split
  · rw [length_blkCBytes]
    omega
  · rw [length_blkSBytes]

theorem length_emitBlocks_le (cfg : Config) (B : Nat) :
    ∀ k (data : List Byte) (f : Fe), (emitBlocks cfg B k data f).bytes.length ≤ k * (4 + B)
  | 0, _, _ => Nat.zero_le _
  | k + 1, data, f => by
    have hone := length_emitBlock_le cfg (data.take B) f
    have htake := List.length_take_le B data
    have hrest := length_emitBlocks_le cfg B k (data.drop B) (emitBlock cfg (data.take B) f).fe
    rw [emitBlocks, List.length_append, Nat.succ_mul]
    omega

theorem length_flushBlock_le (cfg : Config) (f : Fe) :
    (flushBlock cfg f).bytes.length ≤ flushRoom f := by
  simp only [flushBlock, flushRoom]
  split
  · exact Nat.le_refl 0
  · exact length_emitBlock_le cfg f.buf f

theorem length_endBytes_le (cfg : Config) (f : Fe) :
    ((flushBlock cfg f).bytes ++ endMarkBytes ++ trailer cfg f).length ≤ endRoom f := by
  have htrailer : (trailer cfg f).length = if f.prefs.contentChecksum then 4 else 0 := by
    rw [trailer]
    split
    · exact length_leBytes 4 _
    · rfl
  rw [List.length_append, List.length_append, htrailer, endRoom, endMarkBytes, length_leBytes]
  exact Nat.add_le_add_right (Nat.add_le_add_right (length_flushBlock_le cfg f) 4) _

theorem length_frameHeader (cfg : Config) (p : Prefs) :
    (frameHeader cfg p).length = headerSize p.contentSize := by
  by_cases hsize : p.contentSize = 0#64 <;>
    simp [frameHeader, hdrBytes, headerSize, Prefs.sizeField, hsize]

/-! ## Commands on a compression context -/

theorem execCtxInit_writes {h : BitVec 16} {fl : Byte} {level : U64}
    (hn : execCtxInit h fl level s = .next t) : CommandWrites i s t := by
  have hn := (command_next hn).2
  split at hn
  · exact .of_report (raise_next.mp hn)
  · exact .of_check hn fun _ hn => .of_check hn fun _ hn => .of_done hn

theorem execCtxReset_writes {h : BitVec 16} {fl : Byte} {level : U64}
    (hn : execCtxReset h fl level s = .next t) : CommandWrites i s t :=
  .of_withCctx hn fun _ hn => .of_check hn fun _ hn => .of_done hn

theorem execCtxFree_writes {h : BitVec 16} {fl : Byte} (hn : execCtxFree h fl s = .next t) :
    CommandWrites i s t :=
  .of_withCctx hn fun _ hn => .of_done hn

theorem State.length_readBuffer (s : State) (b : Buffer) : (s.readBuffer b).length = b.len :=
  length_readBytes _ _ _

/-- What either form of a compress command checks makes its block fit: a limited one compares the
block, the other the bound (R312). -/
theorem le_of_limited_checks {limited : Bool} {room bound len : Nat}
    (hbound : ¬ (!limited && decide (room < bound)) = true)
    (hlimit : ¬ (limited && decide (room < len)) = true) (hlen : len ≤ bound) : len ≤ room := by
  cases limited with
  | true => simpa using hlimit
  | false =>
    have : bound ≤ room := by simpa using hbound
    omega

theorem compressCommand_writes {prep : Cctx → Cctx} {h : BitVec 16} {fl : Byte} {a n d cap : U64}
    (hi : outputOf i = buffer d cap) (hn : compressCommand prep h fl a n d cap s = .next t) :
    CommandWrites i s t := by
  refine .of_withCctx hn fun c hn => .of_check hn fun _ hn => .of_check hn fun hbound hn => ?_
  have hn := (withBuffers_next hn).2.2
  dsimp only at hn
  split at hn
  · exact .of_failure hi (raise_next.mp hn)
  · next hlimit =>
    have hlen := length_encodeBlock_le s.cfg (s.readBuffer (buffer a n)) (prep c)
    rw [State.length_readBuffer] at hlen
    exact .of_done_write hi hn (le_of_limited_checks hbound hlimit hlen)

theorem execLoadDict_writes {h : BitVec 16} {fl : Byte} {a n : U64}
    (hn : execLoadDict h fl a n s = .next t) : CommandWrites i s t :=
  .of_withCctx hn fun _ hn => .of_done (withBuffers_next hn).2.2

theorem execSaveDict_writes {h : BitVec 16} {fl : Byte} {d n : U64}
    (hn : execSaveDict h fl d n s = .next t) : CommandWrites (.saveDict h fl d n) s t :=
  .of_withCctx hn fun c hn => by
    refine .of_done_write rfl (withBuffers_next hn).2.2 ?_
    rw [length_lastBytes]
    exact (Nat.min_le_left _ _).trans (Nat.min_le_left _ _)

/-! ## Commands without a compression context, and on a stream decoder -/

theorem execBlkDecompress_writes {h : BitVec 16} {fl : Byte} {a n d cap x y target : U64}
    (hn : execBlkDecompress h fl a n d cap x y target s = .next t) :
    CommandWrites (.blkDecompress h fl a n d cap x y target) s t := by
  refine .of_check (command_next hn).2 fun _ hn => .of_check hn fun _ hn => ?_
  split at hn
  · cases hn
  · exact .of_finishDecode rfl (withBuffers_next hn).2.2 (length_decodeBlock_le _ _ _ _ _ _)

theorem execCompressBound_writes {h : BitVec 16} {fl : Byte} {n : U64}
    (hn : execCompressBound h fl n s = .next t) : CommandWrites (.compressBound h fl n) s t :=
  .of_check (command_next hn).2 fun _ hn => .of_check hn fun _ hn => .of_done hn

theorem execBlkDecompressContinue_writes {h : BitVec 16} {fl : Byte} {a n d cap : U64}
    (hn : execBlkDecompressContinue h fl a n d cap s = .next t) :
    CommandWrites (.blkDecompressContinue h fl a n d cap) s t :=
  .of_withSd hn fun _ hn =>
    .of_finishDecode rfl (withBuffers_next hn).2.2 (length_decodeBlock_le _ _ _ _ _ _)

theorem execSdReset_writes {h : BitVec 16} {fl : Byte} {a n : U64}
    (hn : execSdReset h fl a n s = .next t) : CommandWrites i s t :=
  .of_withSd hn fun _ hn => .of_done (withBuffers_next hn).2.2

/-! ## Commands on a frame encoder -/

theorem execFeBegin_writes {h : BitVec 16} {fl : Byte} {w size level d cap : U64}
    (hn : execFeBegin h fl w size level d cap s = .next t) :
    CommandWrites (.feBegin h fl w size level d cap) s t :=
  .of_withFe hn fun _ hn => .of_check hn fun _ hn => .of_check hn fun _ hn =>
    .of_check hn fun _ hn => .of_check hn fun hroom hn => .of_check hn fun _ hn => by
      refine .of_done_write rfl (withBuffers_next hn).2.2 ?_
      rw [length_frameHeader]
      exact Nat.not_lt.mp hroom

theorem execFeUpdate_writes {h : BitVec 16} {fl : Byte} {a n d cap : U64}
    (hn : execFeUpdate h fl a n d cap s = .next t) :
    CommandWrites (.feUpdate h fl a n d cap) s t :=
  .of_withActiveFe hn fun _ hn => .of_check hn fun hroom hn =>
    .of_done_write rfl (withBuffers_next hn).2.2
      ((length_emitBlocks_le _ _ _ _ _).trans (Nat.not_lt.mp hroom))

theorem execFeFlush_writes {h : BitVec 16} {fl : Byte} {d cap : U64}
    (hn : execFeFlush h fl d cap s = .next t) : CommandWrites (.feFlush h fl d cap) s t :=
  .of_withActiveFe hn fun f hn => .of_check hn fun hroom hn =>
    .of_done_write rfl (withBuffers_next hn).2.2
      ((length_flushBlock_le _ f).trans (Nat.not_lt.mp hroom))

theorem execFeEnd_writes {h : BitVec 16} {fl : Byte} {d cap : U64}
    (hn : execFeEnd h fl d cap s = .next t) : CommandWrites (.feEnd h fl d cap) s t :=
  .of_withActiveFe hn fun f hn => .of_check hn fun _ hn => .of_check hn fun hroom hn =>
    .of_done_write rfl (withBuffers_next hn).2.2
      ((length_endBytes_le _ f).trans (Nat.not_lt.mp hroom))

/-! ## Commands on a frame decoder -/

theorem execFdReset_writes {h : BitVec 16} {fl : Byte} (hn : execFdReset h fl s = .next t) :
    CommandWrites i s t :=
  .of_withFd hn fun _ _ hn => .of_done hn

/-- Between commands a decoder waits in a stage it may be left in (R70). -/
theorem State.Inv.fd_waits (hinv : s.Inv) {h : Nat} {f : Fd} (hf : s.fd[h]? = some f) :
    f.dStage.transient = false := by
  obtain ⟨-, -, -, -, -, hfd⟩ := hinv
  obtain ⟨-, -, -, hwait, -⟩ := hfd f (List.mem_of_getElem? hf)
  exact hwait

theorem execFdDecode_writes {h : BitVec 16} {fl : Byte} {pos a n d cap : U64}
    (hn : execFdDecode h fl pos a n d cap s = .next t) :
    CommandWrites (.fdDecode h fl pos a n d cap) s t := by
  refine .of_withFd hn fun f hf hn => ?_
  dsimp only at hn
  split at hn
  · exact .of_report (raiseLatched_next.mp hn)
  · split at hn
    · cases hn
      exact .of_unchanged rfl
    · have hn := (withBuffers_next hn).2.2
      split at hn
      · cases hn
      · next r hrun =>
        cases hn
        refine ⟨r.out, (buffer d cap).len - r.out.length, s.draws, rfl, fun hinv => ?_⟩
        have hlen := length_fdRun_le (hinv.fd_waits hf) hrun
        exact Nat.le_of_eq (Nat.add_sub_cancel' hlen)

/-! ## Every command and every step -/

theorem exec_writes (hi : isCommand i = true) (hn : exec i s = .next t) : CommandWrites i s t := by
  cases i with
  | ctxInit => exact execCtxInit_writes hn
  | ctxReset => exact execCtxReset_writes hn
  | ctxFree => exact execCtxFree_writes hn
  | blkCompress | blkCompressContinue => exact compressCommand_writes rfl hn
  | blkDecompress => exact execBlkDecompress_writes hn
  | blkDecompressContinue => exact execBlkDecompressContinue_writes hn
  | loadDict => exact execLoadDict_writes hn
  | saveDict => exact execSaveDict_writes hn
  | compressBound => exact execCompressBound_writes hn
  | sdReset => exact execSdReset_writes hn
  | feBegin => exact execFeBegin_writes hn
  | feUpdate => exact execFeUpdate_writes hn
  | feFlush => exact execFeFlush_writes hn
  | feEnd => exact execFeEnd_writes hn
  | fdReset => exact execFdReset_writes hn
  | fdDecode => exact execFdDecode_writes hn
  | mfInsert | mfFindBest | mfFindAll | btInsert | btFindAll | renorm | emitSeq | emitLast
  | seqShort | seqRepeat | seqLong | seqMid | seqLast | hdr | skip | endMark | blkC | blkS
  | cksum => cases hi

theorem keepsHostParts.mem (h : keepsHostParts s t) : t.mem = s.mem := by
  obtain ⟨-, hmem, -⟩ := h
  exact hmem

theorem exec_mem_wf (hn : exec i s = .next t) (hs : s.mem.wf = true) : t.mem.wf = true := by
  cases hi : isCommand i with
  | true => exact (exec_writes hi hn).mem_wf hs
  | false => rwa [(exec_internal_frame hi hn).mem]

theorem step_mem_wf (h : step s = .next t) (hs : s.mem.wf = true) : t.mem.wf = true := by
  rcases step_next h with ⟨i, q, v, hn⟩ | ⟨bs, hn⟩ | ⟨q, v, b, st, r0, r1, r2, rfl⟩
  · exact exec_mem_wf hn hs
  · rwa [(feedBytes_frame hn).1.mem]
  · exact hs

end Sys2Proof.Machine

namespace Sys2Proof.Proofs
open Sys2Proof.Machine Sys2Proof.Claims

/-- Settles O16: a command makes one write at its output buffer, and the bounds of the two encoders
and the two decoders keep it inside. -/
theorem onlyOutputWritten : Obligations.OnlyOutputWritten :=
  fun _ _ _ hinv hi hn _ => (exec_writes hi hn).read_outside hinv

/-- Settles O20: a command's write keeps the canonical form, and nothing else writes memory. -/
theorem stepKeepsMemoryForm : Obligations.StepKeepsMemoryForm :=
  fun _ _ hs h => step_mem_wf h hs

end Sys2Proof.Proofs
end

section
/-! Decoding undoes encoding for Sequences (spec/30_encoding.md R140 to R149, R173, R175): the token,
the two length fields with their extensions and the offset operand each read back, then a terminal and
a non-terminal Sequence from them. -/

namespace Sys2Proof
open Sys2Proof.Machine

variable {cls : OffClass} {hi : BitVec 2} {mf : BitVec 3} {lits rest : List Byte} {lim : SeqLimits}

/-! ## The token (R141, R142, R175) -/

theorem encodeToken_decodeToken : ∀ t : Byte, encodeToken (decodeToken t) = t := by decide

/-- The field values a token of their class can hold: two literal bits but for mid, offset bits for
short only (R141). -/
def TokenFields.Fits (f : TokenFields) : Prop :=
  (f.cls ≠ .mid → f.lit.toNat ≤ 3) ∧ (f.cls ≠ .short → f.hi = 0#2)

theorem decodeToken_encodeToken {f : TokenFields} (h : f.Fits) :
    decodeToken (encodeToken f) = f := by
  obtain ⟨lit, cls, mf, hi⟩ := f
  obtain ⟨hlit, hhi⟩ := h
  cases cls with
  | short =>
    replace hlit : lit.toNat ≤ 3 := hlit nofun
    clear hhi
    decide +revert
  | rep | long =>
    replace hlit : lit.toNat ≤ 3 := hlit nofun
    obtain rfl : hi = 0#2 := hhi nofun
    clear hhi
    decide +revert
  | mid =>
    obtain rfl : hi = 0#2 := hhi nofun
    clear hlit hhi
    decide +revert

theorem classOf_encodeToken {f : TokenFields} (h : f.Fits) : classOf (encodeToken f) = f.cls :=
  congrArg TokenFields.cls (decodeToken_encodeToken h)

/-! ## Length fields (R143 to R145) -/

/-- The field and the extension a length is written with read back as the length. -/
theorem readLen_lenExt (n mask : Nat) (rest : List Byte) :
    readLen (min n mask) mask (lenExt n mask ++ rest) = some (n, rest) := by
  by_cases h : mask ≤ n
  · simp [readLen, lenExt, h, readExt_extBytes]
  · have hlt : n < mask := Nat.not_le.mp h
    simp [readLen, lenExt, h, Nat.min_eq_left hlt.le, hlt.ne]

/-! ## The head of a Sequence (R140) -/

/-- The token of a Sequence with the literal run `lits`. -/
def headFields (cls : OffClass) (hi : BitVec 2) (mf : BitVec 3) (lits : List Byte) : TokenFields :=
  ⟨BitVec.ofNat 3 (min lits.length (litMask cls)), cls, mf, hi⟩

@[simp] theorem headFields_cls : (headFields cls hi mf lits).cls = cls := rfl
@[simp] theorem headFields_hi : (headFields cls hi mf lits).hi = hi := rfl
@[simp] theorem headFields_mf : (headFields cls hi mf lits).mf = mf := rfl

theorem toNat_headFields_lit :
    (headFields cls hi mf lits).lit.toNat = min lits.length (litMask cls) := by
  have hmask : litMask cls < 8 := by cases cls <;> decide
  exact (BitVec.toNat_ofNat _ _).trans (Nat.mod_eq_of_lt (by omega))

theorem headFields_fits (hhi : cls ≠ .short → hi = 0#2) : (headFields cls hi mf lits).Fits := by
  refine ⟨fun hcls => ?_, hhi⟩
  rw [toNat_headFields_lit]
  refine (Nat.min_le_right _ _).trans ?_
  cases cls with
  | short | rep | long => exact Nat.le_refl 3
  | mid => exact absurd rfl hcls

theorem seqHead_append : seqHead cls hi mf lits ++ rest =
    encodeToken (headFields cls hi mf lits) ::
      (lenExt lits.length (litMask cls) ++ (lits ++ rest)) := by
  rw [seqHead, headFields, List.cons_append, List.append_assoc]

theorem readLen_head :
    readLen (headFields cls hi mf lits).lit.toNat (litMask cls)
      (lenExt lits.length (litMask cls) ++ rest) = some (lits.length, rest) := by
  rw [toNat_headFields_lit, readLen_lenExt]

theorem length_seqHead_lenExt : (seqHead cls hi mf lits).length =
    1 + (lenExt lits.length (litMask cls)).length + lits.length := by
  rw [seqHead, List.length_cons, List.length_append]
  omega

theorem decodeSeq_terminal (hhi : cls ≠ .short → hi = 0#2) (hroom : lits.length ≤ lim.room)
    (hend : endsAfterLits lim lits.length rest = true) :
    decodeSeq lim (seqHead cls hi mf lits ++ rest) =
      .seq (.last cls hi mf lits) (seqHead cls hi mf lits).length := by
  rw [seqHead_append, decodeSeq]
  simp [decodeToken_encodeToken (headFields_fits hhi), readLen_head, hroom.not_gt, hend,
    length_seqHead_lenExt]

/-! ## Sequences with a match (R144, R146) -/

/-- The offset bits the token of a Sequence with offset `off` holds (R146). -/
def offHi (cls : OffClass) (off : Nat) : BitVec 2 :=
  match cls with
  | .short => BitVec.ofNat 2 (off / 256)
  | _ => 0#2

theorem offHi_of_ne_short (off : Nat) (h : cls ≠ .short) : offHi cls off = 0#2 := by
  cases cls with
  | short => exact absurd rfl h
  | rep | long | mid => rfl

/-- The match field of a match length (R144). -/
def matchField (ml : Nat) : BitVec 3 := BitVec.ofNat 3 (min (ml - minMatch) 7)

theorem readLen_matchField (ml : Nat) (rest : List Byte) :
    readLen (matchField ml).toNat 7 (lenExt (ml - minMatch) 7 ++ rest) =
      some (ml - minMatch, rest) := by
  have hfield : (matchField ml).toNat = min (ml - minMatch) 7 :=
    (BitVec.toNat_ofNat _ _).trans (Nat.mod_eq_of_lt (by omega))
  rw [hfield, readLen_lenExt]

theorem seqBytes_append (cls : OffClass) (off : Nat) (lits : List Byte) (ml : Nat)
    (rest : List Byte) :
    seqBytes cls off lits ml ++ rest = seqHead cls (offHi cls off) (matchField ml) lits ++
      (leBytes (offBytes cls) off ++ (lenExt (ml - minMatch) 7 ++ rest)) := by
  cases cls <;> simp only [seqBytes, offHi, matchField, List.append_assoc]

theorem drop_seqHead : (seqHead cls hi mf lits ++ rest).drop (lastLen lits.length cls) = rest := by
  rw [← length_seqHead cls hi mf lits, List.drop_left]

theorem decodeSeq_seqBytes {off ml : Nat} (hml : minMatch ≤ ml) (hroom : lits.length ≤ lim.room)
    (hgo : endsAfterLits lim lits.length
      ((seqBytes cls off lits ml ++ rest).drop (lastLen lits.length cls)) = false) :
    decodeSeq lim (seqBytes cls off lits ml ++ rest) =
      .seq (mkSequence cls (offHi cls off) (leBytes (offBytes cls) off) lits ml)
        (seqBytes cls off lits ml).length := by
  rw [seqBytes_append, drop_seqHead] at hgo
  rw [seqBytes_append, seqHead_append, decodeSeq]
  simp [decodeToken_encodeToken (headFields_fits (offHi_of_ne_short off)), readLen_head,
    hroom.not_gt, hgo, readLen_matchField,
    Nat.sub_add_cancel hml, seqBytes, length_seqHead_lenExt]
  omega

theorem classOf_headD_seqBytes (cls : OffClass) (off : Nat) (lits : List Byte) (ml : Nat) :
    classOf ((seqBytes cls off lits ml).headD 0#8) = cls := by
  rw [← List.append_nil (seqBytes cls off lits ml), seqBytes_append, seqHead_append]
  exact classOf_encodeToken (headFields_fits (offHi_of_ne_short off))

/-! ## The offset operand (R146) -/

theorem mkSequence_short (off : BitVec 10) (lits : List Byte) (ml : Nat) :
    mkSequence .short (offHi .short off.toNat) (leBytes 1 off.toNat) lits ml =
      .short off lits ml := by
  have hoff : off.toNat < 1024 := off.isLt
  have hnum : off.toNat / 256 % 4 * 256 + off.toNat % 256 = off.toNat := by omega
  simp [mkSequence, offHi, leBytes, leNat, hnum]

theorem mkSequence_long (off : BitVec 24) (lits : List Byte) (ml : Nat) :
    mkSequence .long (offHi .long off.toNat) (leBytes 3 off.toNat) lits ml = .long off lits ml := by
  rw [mkSequence, leNat_leBytes 3 off.toNat off.isLt, BitVec.ofNat_toNat, BitVec.setWidth_eq]

theorem mkSequence_mid (off : BitVec 16) (lits : List Byte) (ml : Nat) :
    mkSequence .mid (offHi .mid off.toNat) (leBytes 2 off.toNat) lits ml = .mid off lits ml := by
  rw [mkSequence, leNat_leBytes 2 off.toNat off.isLt, BitVec.ofNat_toNat, BitVec.setWidth_eq]

/-- A Sequence that its class, offset and lengths make reads back where the decode goes on after its
literals. -/
theorem decodeSeq_nonTerminal {q : Sequence} {off ml : Nat}
    (henc : q.encode = seqBytes cls off q.lits ml)
    (hq : mkSequence cls (offHi cls off) (leBytes (offBytes cls) off) q.lits ml = q)
    (hml : minMatch ≤ ml) (hroom : q.lits.length ≤ lim.room)
    (hgo : endsAfterLits lim q.lits.length
      ((q.encode ++ rest).drop (lastLen q.lits.length (classOf (q.encode.headD 0#8)))) = false) :
    decodeSeq lim (q.encode ++ rest) = .seq q q.encode.length := by
  rw [henc, classOf_headD_seqBytes] at hgo
  rw [henc, decodeSeq_seqBytes hml hroom hgo, hq]

end Sys2Proof

namespace Sys2Proof.Proofs
open Sys2Proof.Machine

/-- Settles O4: the head reads back, and after it either the decode ends or the offset and the match
length read back too. -/
theorem sequenceRoundTrip : Obligations.SequenceRoundTrip := by
  intro q lim rest hwf hroom hend hgo
  cases q with
  | last cls hi mf lits =>
    have hhi : cls ≠ .short → hi = 0#2 := by
      simpa [Sequence.toInstr, Instr.wf, or_iff_not_imp_left] using hwf
    exact decodeSeq_terminal hhi hroom (hend cls hi mf lits rfl)
  | short off lits ml =>
    exact decodeSeq_nonTerminal rfl (mkSequence_short off lits ml) (of_decide_eq_true hwf) hroom
      (hgo nofun)
  | rep lits ml =>
    exact decodeSeq_nonTerminal (off := 0) rfl rfl (of_decide_eq_true hwf) hroom (hgo nofun)
  | long off lits ml =>
    exact decodeSeq_nonTerminal rfl (mkSequence_long off lits ml) (of_decide_eq_true hwf) hroom
      (hgo nofun)
  | mid off lits ml =>
    exact decodeSeq_nonTerminal rfl (mkSequence_mid off lits ml) (of_decide_eq_true hwf) hroom
      (hgo nofun)

/-- Settles O5: R153's length of the head, the offset and the match extension. -/
theorem sequenceLength : Obligations.SequenceLength := by
  refine ⟨fun off lits ml => ?short, fun off lits ml => ?mid, fun off lits ml => ?long,
    fun lits ml => ?rep, fun hi mf lits => ?last⟩
  case short => exact length_seqBytes .short off.toNat lits ml
  case mid => exact length_seqBytes .mid off.toNat lits ml
  case long => exact length_seqBytes .long off.toNat lits ml
  case rep => exact length_seqBytes .rep 0 lits ml
  case last => exact length_seqHead .mid hi mf lits

/-- Settles O2: over every token, and over every field value by class. -/
theorem tokenRoundTrip : Obligations.TokenRoundTrip :=
  ⟨encodeToken_decodeToken, fun _ hlit hhi => decodeToken_encodeToken ⟨hlit, hhi⟩⟩

end Sys2Proof.Proofs
end

section
/-! Decoding undoes encoding for frame records (spec/30_encoding.md R155 to R164): a 4-byte word reads
back whatever follows it, then each record from its words, its fixed fields and its payload. -/

namespace Sys2Proof
open Sys2Proof.Machine

variable {cfg : Config} {payload rest : List Byte}

/-! ## 4-byte words (R108) -/

theorem le32At_leBytes {v : Nat} (hv : v < 2 ^ 32) (rest : List Byte) :
    le32At (leBytes 4 v ++ rest) 0 = u32 v := by
  rw [le32At, List.drop_zero, List.take_left' (length_leBytes 4 v), leNat_leBytes 4 v hv]

theorem le32At_leBytes_word (w : U32) (rest : List Byte) :
    le32At (leBytes 4 w.toNat ++ rest) 0 = w := by
  rw [le32At_leBytes w.isLt, u32, BitVec.ofNat_toNat, BitVec.setWidth_eq]

/-- The second word of a record. -/
theorem le32At_four (v : Nat) (bs : List Byte) :
    le32At (leBytes 4 v ++ bs) 4 = le32At bs 0 := by
  rw [le32At, le32At, List.drop_left' (length_leBytes 4 v), List.drop_zero]

theorem drop_eight (v w : Nat) (bs : List Byte) :
    (leBytes 4 v ++ (leBytes 4 w ++ bs)).drop 8 = bs := by
  rw [← List.append_assoc, List.drop_left' (by simp)]

/-! ## Skippable frames (R164, R507) -/

theorem isSkippable_or_low (hbase : cfg.skippableBase &&& 0xF#32 = 0#32) (low : BitVec 4) :
    isSkippable cfg (cfg.skippableBase ||| low.setWidth 32) = true := by
  have hhigh : cfg.skippableBase &&& 0xFFFFFFF0#32 = cfg.skippableBase := calc
    cfg.skippableBase &&& 0xFFFFFFF0#32
      = cfg.skippableBase &&& 0xF#32 ||| cfg.skippableBase &&& 0xFFFFFFF0#32 := by
        rw [hbase, BitVec.zero_or]
    _ = cfg.skippableBase &&& (0xF#32 ||| 0xFFFFFFF0#32) := BitVec.and_or_distrib_left.symm
    _ = cfg.skippableBase := BitVec.and_allOnes
  have hlow : low.setWidth 32 &&& 0xFFFFFFF0#32 = 0#32 := by decide +revert
  rw [isSkippable, beq_iff_eq, BitVec.and_or_distrib_right, hhigh, hlow, BitVec.or_zero]

theorem extractLow_or_low {base : U32} (hbase : base &&& 0xF#32 = 0#32) (low : BitVec 4) :
    (base ||| low.setWidth 32).extractLsb' 0 4 = low := by
  have hzero : base.extractLsb' 0 4 = 0#4 := calc
    base.extractLsb' 0 4 = (base &&& 0xF#32).extractLsb' 0 4 :=
      (BitVec.extractLsb'_and.trans BitVec.and_allOnes).symm
    _ = 0#4 := by rw [hbase]; rfl
  have hlow : (low.setWidth 32).extractLsb' 0 4 = low := by decide +revert
  rw [BitVec.extractLsb'_or, hzero, hlow, BitVec.zero_or]

theorem length_skipBytes (cfg : Config) (low : BitVec 4) (payload : List Byte) :
    (skipBytes cfg low payload).length = 8 + payload.length := by
  simp only [skipBytes, List.length_append, length_leBytes]

theorem decodeHeaderRecord_skip (hbase : cfg.skippableBase &&& 0xF#32 = 0#32) (low : BitVec 4)
    (hlen : payload.length < 2 ^ 32) (rest : List Byte) :
    decodeHeaderRecord cfg (skipBytes cfg low payload ++ rest) =
      .record (.skip low payload) (skipBytes cfg low payload).length := by
  have htotal : ¬ 4 + (4 + (payload.length + rest.length)) < 8 := by omega
  have hroom : ¬ 4 + (4 + (payload.length + rest.length)) < 8 + payload.length := by omega
  rw [length_skipBytes, skipBytes, List.append_assoc, List.append_assoc]
  simp [decodeHeaderRecord, le32At_leBytes_word, le32At_four, le32At_leBytes hlen, toNat_u32 hlen,
    isSkippable_or_low hbase, extractLow_or_low hbase, drop_eight, htotal, hroom,
    -BitVec.toNat_or, -BitVec.toNat_ofNat]

/-! ## Frame headers (R155) -/

theorem decodeHeaderRecord_hdr (hmagic : isSkippable cfg cfg.magic = false) {flg bd hc : Byte}
    {csize : Option U64} (hsize : csize.isSome = flg.getLsbD 3) (rest : List Byte) :
    decodeHeaderRecord cfg (hdrBytes cfg flg bd csize hc ++ rest) =
      .record (.hdr flg bd csize hc) (hdrBytes cfg flg bd csize hc).length := by
  cases csize with
  | none =>
    have hflag : flg.getLsbD 3 = false := hsize.symm
    simp [hdrBytes, decodeHeaderRecord, le32At_leBytes_word, hmagic, hflag,
      -BitVec.getLsbD_eq_getElem]
  | some n =>
    have hflag : flg.getLsbD 3 = true := hsize.symm
    have hroom : ¬ 8 + (rest.length + 1) < 9 := by omega
    simp [hdrBytes, decodeHeaderRecord, le32At_leBytes_word, hmagic, hflag, hroom,
      leNat_leBytes 8 n.toNat n.isLt, -BitVec.getLsbD_eq_getElem]

/-! ## Block records, the end mark and the content checksum (R161 to R163) -/

/-- A block word other than the end mark: bit 31 is the stored flag, the bits below it the size. -/
theorem decodeBlockRecord_block {v : Nat} (hv : v < 2 ^ 32) (hne : v ≠ 0)
    (hsize : v % 2 ^ 31 = payload.length) (rest : List Byte) :
    decodeBlockRecord (leBytes 4 v ++ (payload ++ rest)) =
      .record (if 2 ^ 31 ≤ v then .blkS payload else .blkC payload) (4 + payload.length) := by
  have hword : u32 v ≠ 0#32 := by bv_omega
  have hlow : ((u32 v).extractLsb' 0 31).toNat = payload.length := by
    rw [BitVec.extractLsb'_toNat, toNat_u32 hv]; exact hsize
  have hflag : (u32 v).getLsbD 31 = decide (2 ^ 31 ≤ v) := by
    rw [← BitVec.msb_eq_getLsbD_last (u32 v), BitVec.msb_eq_decide, toNat_u32 hv]
  simp [decodeBlockRecord, le32At_leBytes hv, hword, hlow, hflag, -BitVec.getLsbD_eq_getElem]
  split <;> rfl

theorem decodeBlockRecord_blkC (hpos : 1 ≤ payload.length) (hlen : payload.length < 2 ^ 31)
    (rest : List Byte) :
    decodeBlockRecord (blkCBytes payload ++ rest) =
      .record (.blkC payload) (blkCBytes payload).length := by
  rw [length_blkCBytes, blkCBytes, List.append_assoc,
    decodeBlockRecord_block (by omega) (by omega) (Nat.mod_eq_of_lt hlen), if_neg (by omega)]

theorem decodeBlockRecord_blkS (hlen : payload.length < 2 ^ 31) (rest : List Byte) :
    decodeBlockRecord (blkSBytes payload ++ rest) =
      .record (.blkS payload) (blkSBytes payload).length := by
  rw [length_blkSBytes, blkSBytes, List.append_assoc,
    decodeBlockRecord_block (by omega) (by omega) (by omega), if_pos (by omega)]

theorem decodeBlockRecord_endMark (rest : List Byte) :
    decodeBlockRecord (endMarkBytes ++ rest) = .record .endMark endMarkBytes.length := rfl

theorem decodeSuffixRecord_cksum (w : U32) (rest : List Byte) :
    decodeSuffixRecord (cksumBytes w ++ rest) = .record (.cksum w) (cksumBytes w).length := by
  simp [decodeSuffixRecord, cksumBytes, le32At_leBytes_word]

end Sys2Proof

namespace Sys2Proof.Proofs
open Sys2Proof.Machine

/-- Settles O6: each kind of record reads back at the place it stands in (R79). -/
theorem recordRoundTrip : Obligations.RecordRoundTrip := by
  intro cfg i bs rest hbase hmagic hwf henc
  cases i with
  | hdr flg bd csize hc =>
    cases henc
    have hsize : csize.isSome = flg.getLsbD 3 := by
      simp only [Instr.wf, headerLegal, Bool.and_eq_true, beq_iff_eq] at hwf
      exact hwf.2
    exact decodeHeaderRecord_hdr hmagic hsize rest
  | skip low payload =>
    cases henc
    exact decodeHeaderRecord_skip hbase low (of_decide_eq_true hwf) rest
  | endMark =>
    cases henc
    exact decodeBlockRecord_endMark rest
  | blkC payload =>
    cases henc
    obtain ⟨hpos, hlen⟩ := of_decide_eq_true hwf
    exact decodeBlockRecord_blkC hpos hlen rest
  | blkS payload =>
    cases henc
    obtain ⟨-, hlen⟩ := of_decide_eq_true hwf
    exact decodeBlockRecord_blkS hlen rest
  | cksum v =>
    cases henc
    exact decodeSuffixRecord_cksum v rest
  | _ => cases henc

end Sys2Proof.Proofs
end

section
/-! Command and micro-operation words (spec/30_encoding.md R167 to R169, R174): a descriptor's fields
read back, only the opcodes of R168 decode to a command, and a flag bit that is not defined is
rejected before the command does any work. -/

namespace Sys2Proof

variable {op fl : Byte} {h : BitVec 16} {w1 w2 w3 w4 w5 w6 w7 : U64} {cfg : Config} {i : Instr}
  {d : Descriptor}

/-! ## The fields of `W0` (R167) -/

@[simp] theorem mkDescriptor_opcode :
    (mkDescriptor op h fl w1 w2 w3 w4 w5 w6 w7).opcode = op := by
  simp only [Descriptor.opcode, mkDescriptor, BitVec.extractLsb'_append_eq_right]

@[simp] theorem mkDescriptor_flags :
    (mkDescriptor op h fl w1 w2 w3 w4 w5 w6 w7).flags = fl := by
  rw [Descriptor.flags, mkDescriptor, BitVec.extractLsb'_append_eq_of_le (Nat.le_refl 8)]
  exact BitVec.extractLsb'_append_eq_right

@[simp] theorem mkDescriptor_handle :
    (mkDescriptor op h fl w1 w2 w3 w4 w5 w6 w7).handle = h := by
  rw [Descriptor.handle, mkDescriptor, BitVec.extractLsb'_append_eq_of_le (by decide : 8 ≤ 16)]
  exact BitVec.extractLsb'_append_eq_left

@[simp] theorem mkDescriptor_w1 : (mkDescriptor op h fl w1 w2 w3 w4 w5 w6 w7).w1 = w1 := rfl
@[simp] theorem mkDescriptor_w2 : (mkDescriptor op h fl w1 w2 w3 w4 w5 w6 w7).w2 = w2 := rfl
@[simp] theorem mkDescriptor_w3 : (mkDescriptor op h fl w1 w2 w3 w4 w5 w6 w7).w3 = w3 := rfl
@[simp] theorem mkDescriptor_w4 : (mkDescriptor op h fl w1 w2 w3 w4 w5 w6 w7).w4 = w4 := rfl

/-! ## Decoding undoes encoding (R168, R174) -/

theorem decodeCommand_of_encode (henc : encode cfg i = .command d) : decodeCommand d = .ok i := by
  cases i with
  | ctxInit | ctxReset | ctxFree | blkCompress | blkCompressContinue | blkDecompress
  | blkDecompressContinue | loadDict | saveDict | compressBound | sdReset | feBegin | feUpdate
  | feFlush | feEnd | fdReset | fdDecode =>
    cases henc
    simp only [decodeCommand, mkDescriptor_opcode, mkDescriptor_flags, mkDescriptor_handle]
    rfl
  | _ => cases henc

theorem decodeUop_of_encode (henc : encode cfg i = .uop d) : decodeUop d = some i := by
  cases i with
  | mfInsert | mfFindBest | mfFindAll | btInsert | btFindAll | renorm | emitSeq | emitLast =>
    cases henc
    simp [decodeUop, mkUop]
  | _ => cases henc

/-- Only an opcode of R168 decodes to a command. -/
theorem isCommandOpcode_of_decodeCommand (hd : decodeCommand d = .ok i) :
    isCommandOpcode d.opcode.toNat = true := by
  simp only [decodeCommand] at hd
  split at hd
  case h_18 => split at hd <;> cases hd
  all_goals
    next hop =>
      rw [hop]
      rfl

end Sys2Proof

namespace Sys2Proof.Machine
open Sys2Proof.Claims

variable {i : Instr} {s : State} {h : BitVec 16} {fl : Byte}

/-! ## Host words that are no command (R169) -/

theorem fetchHost_error {d : Descriptor} {rest : List Descriptor} {e : CommandError}
    (hq : s.queue = d :: rest) (hd : decodeCommand d = .error e) :
    fetchHost s = .answer (command { s with queue := rest }
      (raise .protocolViolation { s with queue := rest })) := by
  simp only [fetchHost, hq, hd]

theorem step_of_fetch_answer {a : Answer} (hf : fetch s = .answer a) : step s = a := by
  simp only [step, hf]

theorem step_host_error {d : Descriptor} {rest : List Descriptor} {e : CommandError}
    (hlegal : s.cfg.legal = true) (hs : s.stream = .host) (hq : s.queue = d :: rest)
    (hd : decodeCommand d = .error e) :
    step s = raise .protocolViolation { s with queue := rest } :=
  (step_of_fetch_answer ((fetch_host hs).trans (fetchHost_error hq hd))).trans
    (command_legal hlegal)

/-! ## Flag bits that are not defined (R167, R360) -/

theorem flagsWithin_zero_eq_false (hfl : fl ≠ 0#8) : flagsWithin fl 0#8 = false := by
  have hall : fl &&& ~~~0#8 = fl := BitVec.and_allOnes
  rw [flagsWithin, hall]
  exact beq_false_of_ne hfl

/-- The reserved bits of BLK_DECOMPRESS's flag byte are the upper four. -/
theorem flagsWithin_lowHalf_eq_false (hfl : fl.extractLsb' 4 4 ≠ 0#4) :
    flagsWithin fl 0x0F#8 = false := by
  decide +revert

section Flags
variable (hlegal : s.cfg.legal = true) (hfl : fl ≠ 0#8)
include hlegal hfl

theorem withSd_undefinedFlag {k : Sd → Answer} (hh : h.toNat < s.sd.length) :
    withSd h fl s k = raise .reservedFlagSet s := by
  simp [withSd, command_legal hlegal, hh, flagsWithin_zero_eq_false hfl]

theorem withFe_undefinedFlag {k : Fe → Answer} (hh : h.toNat < s.fe.length) :
    withFe h fl s k = raise .reservedFlagSet s := by
  simp [withFe, command_legal hlegal, hh, flagsWithin_zero_eq_false hfl]

theorem withFd_undefinedFlag {k : Fd → Answer} (hh : h.toNat < s.fd.length) :
    withFd h fl s k = raise .reservedFlagSet s := by
  simp [withFd, command_legal hlegal, hh, flagsWithin_zero_eq_false hfl]

theorem exec_sd_undefinedFlag (hi : sdCommand i = some (h, fl)) (hh : h.toNat < s.sd.length) :
    exec i s = raise .reservedFlagSet s := by
  cases i with
  | blkDecompressContinue | sdReset =>
    cases hi
    exact withSd_undefinedFlag hlegal hfl hh
  | _ => cases hi

theorem exec_fe_undefinedFlag (hi : feCommand i = some (h, fl)) (hh : h.toNat < s.fe.length) :
    exec i s = raise .reservedFlagSet s := by
  cases i with
  | feBegin | feUpdate | feFlush | feEnd =>
    cases hi
    exact withFe_undefinedFlag hlegal hfl hh
  | _ => cases hi

theorem exec_fd_undefinedFlag (hi : fdCommand i = some (h, fl)) (hh : h.toNat < s.fd.length) :
    exec i s = raise .reservedFlagSet s := by
  cases i with
  | fdReset | fdDecode =>
    cases hi
    exact withFd_undefinedFlag hlegal hfl hh
  | _ => cases hi

theorem exec_compressBound_undefinedFlag (n : U64) :
    exec (.compressBound h fl n) s = raise .reservedFlagSet s := by
  simp [exec, execCompressBound, command_legal hlegal, flagsWithin_zero_eq_false hfl]

end Flags

theorem exec_blkDecompress_undefinedFlag (hlegal : s.cfg.legal = true)
    (hfl : fl.extractLsb' 4 4 ≠ 0#4 ∨ fl.extractLsb' 2 2 = 3#2) (a b c d e f g : U64) :
    exec (.blkDecompress h fl a b c d e f g) s = raise .reservedFlagSet s := by
  have hcheck : (!flagsWithin fl 0x0F#8 || dictMode fl == 3#2) = true := by
    rcases hfl with hbits | hmode
    · rw [flagsWithin_lowHalf_eq_false hbits]
      rfl
    · rw [dictMode, hmode]
      exact Bool.or_true _
  simp only [exec, execBlkDecompress, command_legal hlegal, if_pos hcheck]

end Sys2Proof.Machine

namespace Sys2Proof.Proofs
open Sys2Proof.Machine

/-- Settles O3: commands and micro-operations, each by its own decoder. -/
theorem descriptorRoundTrip : Obligations.DescriptorRoundTrip :=
  fun _ _ _ => ⟨decodeCommand_of_encode, decodeUop_of_encode⟩

/-- Settles O13: each kind of command checks its flags before its own work. -/
theorem undefinedFlagRejected : Obligations.UndefinedFlagRejected := by
  rintro i s hlegal (⟨h, fl, hi, hh, hfl⟩ | ⟨h, fl, hi, hh, hfl⟩ | ⟨h, fl, hi, hh, hfl⟩ |
    ⟨h, fl, n, rfl, hfl⟩ | ⟨h, fl, a, b, c, d, e, f, g, rfl, hfl⟩)
  · exact exec_sd_undefinedFlag hlegal hfl hi hh
  · exact exec_fe_undefinedFlag hlegal hfl hi hh
  · exact exec_fd_undefinedFlag hlegal hfl hi hh
  · exact exec_compressBound_undefinedFlag hlegal hfl n
  · exact exec_blkDecompress_undefinedFlag hlegal hfl a b c d e f g

/-- Settles O8: the opcodes R169 lists are none of R168's, so the word decodes to no command. -/
theorem reservedOpcodeRejected : Obligations.ReservedOpcodeRejected := by
  intro s d rest hlegal hs hq hop
  cases hd : decodeCommand d with
  | error e => exact step_host_error hlegal hs hq hd
  | ok i =>
    have hcommand := isCommandOpcode_of_decodeCommand hd
    simp only [isCommandOpcode, Bool.or_eq_true, Bool.and_eq_true, decide_eq_true_eq,
      beq_iff_eq] at hcommand
    omega

/-- Settles O1: the decoders run on the words. -/
theorem specWordsDecode : Obligations.SpecWordsDecode :=
  ⟨rfl, rfl, rfl, rfl, rfl, rfl⟩

end Sys2Proof.Proofs
end

section
/-! What the match finders read and return (spec/40_match_finder.md R205 to R219; `count` of
spec/00_scope.md R16). A finder compares bytes of the position space, which its insertions do not
change, so each fact is stated of the context `c` the query starts from, while the walk runs on a
context `t` that differs from it in tables and `nextInsert` only. -/

namespace Sys2Proof.Machine
open Sys2Proof.Claims

variable {cfg : Config} {src : List Byte} {c t : Cctx} {p q high minLen k : Nat}

/-! ## A position as a word -/

theorem u32_toNat (v : U32) : u32 v.toNat = v := by
  rw [u32, BitVec.ofNat_toNat, BitVec.setWidth_eq]

theorem u32_toNat_succ (v : U32) : u32 (v.toNat + 1) = v + 1#32 := by
  rw [u32, BitVec.ofNat_add, BitVec.ofNat_toNat, BitVec.setWidth_eq]

/-! ## The tables do not decide what stands at a position -/

section Same
variable (hs : sameButTables c t)
include hs

theorem ref_same (src : List Byte) (p : Nat) : ref t src p = ref c src p := by rw [hs]; rfl

theorem countFrom_same (src : List Byte) :
    ∀ k p q, countFrom t src p q k = countFrom c src p q k
  | 0, _, _ => rfl
  | k + 1, p, q => by
    rw [countFrom, countFrom, ref_same hs, ref_same hs, countFrom_same src k]

theorem count_same (src : List Byte) (p q high : Nat) :
    count t src p q high = count c src p q high := countFrom_same hs src _ p q

theorem usable_iff_candidate : usable t p q = true ↔ candidate c p q := by
  rw [hs]; exact decide_eq_true_iff

theorem lowEff_same (p : Nat) : lowEff t p = lowEff c p := by rw [hs]; rfl

theorem contentSlots_same : contentSlots t = 2 ^ c.row.contentLog := by rw [hs]; rfl

theorem row_same : t.row = c.row := by rw [hs]

theorem hash4_same (cfg : Config) (src : List Byte) (p : Nat) :
    hash4 cfg t src p = hash4 cfg c src p := by rw [hs]; rfl

theorem hash3_same (cfg : Config) (src : List Byte) (p : Nat) :
    hash3 cfg t src p = hash3 cfg c src p := by rw [hs]; rfl

end Same

/-! ## Counting agreeing bytes -/

theorem le_countFrom_iff {n : Nat} : ∀ {k p q : Nat}, n ≤ countFrom c src p q k ↔
    n ≤ k ∧ ∀ j, j < n → ref c src (q + j) = ref c src (p + j) := by
  induction n with
  | zero => simp
  | succ n ih =>
    intro k p q
    cases k with
    | zero => simp [countFrom]
    | succ k =>
      rw [countFrom, Nat.forall_lt_succ_left]
      by_cases heq : ref c src q = ref c src p
      · simp [heq, Nat.add_comm 1, ih, Nat.add_right_comm _ 1, ← Nat.add_assoc]
      · simp [heq]

theorem le_count_iff {n : Nat} (hn : 1 ≤ n) :
    n ≤ count c src p q high ↔ agrees c src p q high n := by
  rw [count, le_countFrom_iff, agrees]
  have hbound : n ≤ high - p ↔ p + n ≤ high := by omega
  rw [hbound]

theorem agrees_count {n : Nat} (hn : 1 ≤ n) (h : n ≤ count c src p q high) :
    agrees c src p q high (count c src p q high) :=
  (le_count_iff (Nat.le_trans hn h)).mp (Nat.le_refl _)

/-- Bytes the tree's walk skips, compared after all, and those counted behind them (R214, R201). -/
theorem agrees_of_skipped {n : Nat} (hn : n ≤ high - p) (hskip : skippedAgree c src p q n = true)
    (hpos : 1 ≤ n + count c src (p + n) (q + n) high) :
    agrees c src p q high (n + count c src (p + n) (q + n) high) := by
  have hcount := count_le c src (p + n) (q + n) high
  have hskipped := (le_countFrom_iff.mp (Nat.le_of_eq (beq_iff_eq.mp hskip).symm)).2
  have hcounted := (le_countFrom_iff.mp (Nat.le_refl (count c src (p + n) (q + n) high))).2
  refine ⟨by omega, fun j hj => ?_⟩
  rcases Nat.lt_or_ge j n with hlt | hge
  · exact hskipped j hlt
  · have := hcounted (j - n) (by omega)
    simpa [Nat.add_assoc, Nat.add_sub_cancel' hge] using this

/-! ## A match at a candidate -/

/-- A match that may be returned, and whose bytes agree (R201, R205, R219). -/
def Returnable (c : Cctx) (src : List Byte) (p high : Nat) (m : Match) : Prop :=
  goodMatch c p m ∧ verified c src p high m

/-- Positions are words (R12). -/
structure PositionsFit (p high : Nat) : Prop where
  position : p < 2 ^ 32
  bound : high < 2 ^ 32

theorem positionsFit_toNat (p high : U32) : PositionsFit p.toNat high.toNat := ⟨p.isLt, high.isLt⟩

theorem PositionsFit.toNat_length_of {l : Nat} (hfit : PositionsFit p high) (hl : l ≤ high - p)
    (d : Nat) : (Match.of d l).length.toNat = l :=
  toNat_u32 (Nat.lt_of_le_of_lt (Nat.le_trans hl (Nat.sub_le high p)) hfit.bound)

theorem PositionsFit.toNat_length_count (hfit : PositionsFit p high) (d : Nat) :
    (Match.of d (count c src p q high)).length.toNat = count c src p q high :=
  hfit.toNat_length_of (count_le c src p q high) d

theorem returnable_of (hfit : PositionsFit p high) {l : Nat} (hq : candidate c p q)
    (hl : agrees c src p q high l) (hmin : minMatch ≤ l)
    (htrust : l < mainHashMinLen → p - q < hash3TrustLimit) :
    Returnable c src p high (Match.of (p - q) l) := by
  have hp := hfit.position
  have hlen := hfit.toNat_length_of (Nat.le_sub_of_add_le' hl.1) (p - q)
  have hoff : (Match.of (p - q) l).offset.toNat = p - q := toNat_u32 (by omega)
  obtain ⟨-, hlt, hlow⟩ := hq
  simp only [Returnable, goodMatch, verified, hlen, hoff]
  refine ⟨⟨by omega, ?_, by omega, hmin, htrust, rfl⟩, hl.1, fun j hj => ?_⟩
  · simp only [lowEff] at hlow
    omega
  · rw [show p + j - (p - q) = q + j by omega, hl.2 j hj]

/-- A candidate of the main table agreeing in 4 bytes or more may be returned at any distance. -/
theorem returnable_of_long (hfit : PositionsFit p high) {l : Nat} (hq : candidate c p q)
    (hl : agrees c src p q high l) (hlong : mainHashMinLen ≤ l) :
    Returnable c src p high (Match.of (p - q) l) :=
  returnable_of hfit hq hl (Nat.le_trans (by decide) hlong)
    fun hlt => absurd hlong (Nat.not_le_of_lt hlt)

/-! ## Lists of matches -/

theorem findsAtLeast_mono {ms : List Match} {k' : Nat} (h : findsAtLeast ms k) (hk : k' ≤ k) :
    findsAtLeast ms k' := by
  obtain ⟨m, hm, hlen⟩ := h
  exact ⟨m, hm, Nat.le_trans hk hlen⟩

theorem findsAtLeast_append_left {ms : List Match} (h : findsAtLeast ms k) (ms' : List Match) :
    findsAtLeast (ms ++ ms') k := by
  obtain ⟨m, hm, hlen⟩ := h
  exact ⟨m, List.mem_append_left _ hm, hlen⟩

theorem findsAtLeast_append_right {ms : List Match} (h : findsAtLeast ms k) (ms' : List Match) :
    findsAtLeast (ms' ++ ms) k := by
  obtain ⟨m, hm, hlen⟩ := h
  exact ⟨m, List.mem_append_right _ hm, hlen⟩

theorem findsAtLeast_cons {m : Match} (h : k ≤ m.length.toNat) (ms : List Match) :
    findsAtLeast (m :: ms) k := ⟨m, List.mem_cons_self, h⟩

theorem findsAtLeast_some {m : Match} (h : k ≤ m.length.toNat) :
    findsAtLeast (some m).toList k := findsAtLeast_cons h []

theorem ascending_cons {m : Match} {ms : List Match}
    (h : ∀ m' ∈ ms, m.length.toNat < m'.length.toNat) (hms : ascending ms) :
    ascending (m :: ms) := by
  cases ms with
  | nil => trivial
  | cons m' ms => exact ⟨h m' List.mem_cons_self, hms⟩

/-- What a finder adds to its list when the greatest length so far is `best` and `room` entries are
left (R212, R214). -/
structure FoundFrom (c : Cctx) (src : List Byte) (p high best room : Nat) (ms : List Match) :
    Prop where
  returnable : ∀ m ∈ ms, Returnable c src p high m
  longer : ∀ m ∈ ms, best < m.length.toNat
  ascending : ascending ms
  within : ms.length ≤ room

theorem FoundFrom.nil {best room : Nat} : FoundFrom c src p high best room [] :=
  ⟨nofun, nofun, trivial, Nat.zero_le _⟩

theorem FoundFrom.cons {best room : Nat} {m : Match} {ms : List Match}
    (hm : Returnable c src p high m) (hlen : best < m.length.toNat) (hroom : 0 < room)
    (h : FoundFrom c src p high m.length.toNat (room - 1) ms) :
    FoundFrom c src p high best room (m :: ms) where
  returnable := List.forall_mem_cons.mpr ⟨hm, h.returnable⟩
  longer := List.forall_mem_cons.mpr ⟨hlen, fun m' hm' => Nat.lt_trans hlen (h.longer m' hm')⟩
  ascending := ascending_cons h.longer h.ascending
  within := by
    have hrest := h.within
    simp only [List.length_cons]
    omega

/-! ## The 3-byte candidate (R209) -/

section ThreeByte
variable (hs : sameButTables c t)
include hs

theorem h3Cand_of_candidate3 (hq : candidate3 cfg c t src p q)
    (hl : minMatch ≤ count c src p q high) :
    h3Cand cfg t src p high = some (Match.of (p - q) (count c src p q high)) := by
  obtain ⟨hlog, hread, ⟨hne, hlt, hlow⟩, htrust⟩ := hq
  have husable : ¬ (q = 0 ∨ p ≤ q ∨ hash3TrustLimit ≤ p - q ∨ q < lowEff c p) := by omega
  simp only [h3Cand, row_same hs, if_neg hlog, hash3_same hs, ← hread, lowEff_same hs,
    if_neg husable, count_same hs, if_pos hl]

theorem h3Cand_some {m : Match} (h : h3Cand cfg t src p high = some m) :
    ∃ q, candidate3 cfg c t src p q ∧ minMatch ≤ count c src p q high ∧
      m = Match.of (p - q) (count c src p q high) := by
  simp only [h3Cand, row_same hs, hash3_same hs, lowEff_same hs, count_same hs] at h
  split at h
  · cases h
  next hlog =>
  split at h
  · cases h
  next husable =>
  split at h
  next hl =>
    refine ⟨_, ⟨hlog, rfl, ⟨?_, ?_, ?_⟩, ?_⟩, hl, (Option.some.inj h).symm⟩ <;> omega
  · cases h

theorem h3Cand_returnable (hfit : PositionsFit p high) {m : Match}
    (h : h3Cand cfg t src p high = some m) : Returnable c src p high m := by
  obtain ⟨q, ⟨-, -, hq, htrust⟩, hl, rfl⟩ := h3Cand_some hs h
  exact returnable_of hfit hq (agrees_count (by decide) hl) hl fun _ => htrust

/-- Where the 3-byte candidate agrees in `k` bytes, it is found with at least that length. -/
theorem h3Cand_finds (hfit : PositionsFit p high) (hq : candidate3 cfg c t src p q) (hk : 3 ≤ k)
    (h : agrees c src p q high k) :
    ∃ m, h3Cand cfg t src p high = some m ∧ k ≤ m.length.toNat := by
  have hl := (le_count_iff (Nat.le_trans (by decide) hk)).mpr h
  refine ⟨_, h3Cand_of_candidate3 hs hq (Nat.le_trans hk hl), ?_⟩
  rwa [hfit.toNat_length_count]

theorem firstOf_finds (hfit : PositionsFit p high) (hq : candidate3 cfg c t src p q) (hk : 3 ≤ k)
    (hmin : minLen ≤ k) (h : agrees c src p q high k) :
    findsAtLeast (firstOf (h3Cand cfg t src p high) minLen) k := by
  obtain ⟨m, hm, hlen⟩ := h3Cand_finds hs hfit hq hk h
  rw [hm, firstOf, if_pos (Nat.le_trans hmin hlen)]
  exact findsAtLeast_cons hlen []

/-- A list that begins with the 3-byte candidate, where that is long enough, and goes on with what a
walk adds (R212, R214). -/
theorem foundFrom_firstOf_append (hfit : PositionsFit p high) {cap : Nat} (hcap : 1 ≤ cap)
    {ms : List Match}
    (hms : FoundFrom c src p high (bestLenOf (firstOf (h3Cand cfg t src p high) minLen) minLen)
      (cap - (firstOf (h3Cand cfg t src p high) minLen).length) ms) :
    FoundFrom c src p high (minLen - 1) cap (firstOf (h3Cand cfg t src p high) minLen ++ ms) := by
  cases hm3 : h3Cand cfg t src p high with
  | none =>
    rw [hm3] at hms
    exact hms
  | some m =>
    rw [hm3, firstOf] at hms
    rw [firstOf]
    split at hms
    next hmin =>
      have hm := h3Cand_returnable hs hfit hm3
      obtain ⟨-, -, -, hlong : 3 ≤ m.length.toNat, -⟩ := hm.1
      rw [if_pos hmin]
      exact .cons hm (by omega) hcap hms
    next hmin => rwa [if_neg hmin]

end ThreeByte

theorem length_firstOf_le (m3 : Option Match) (minLen : Nat) : (firstOf m3 minLen).length ≤ 1 := by
  cases m3 with
  | none => exact Nat.zero_le 1
  | some m =>
    rw [firstOf]
    split
    · exact Nat.le_refl 1
    · exact Nat.zero_le 1

theorem findsAtLeast_of_le_bestLenOf {ms : List Match} (hk : 1 ≤ k) (hmin : minLen ≤ k)
    (h : k ≤ bestLenOf ms minLen) : findsAtLeast ms k := by
  rw [bestLenOf] at h
  split at h
  next m hm => exact ⟨m, List.mem_of_getLast? hm, h⟩
  · omega

/-- A candidate of length at least `k` is found where the walk adds whatever beats the list before
it. -/
theorem findsAtLeast_append {ms ms' : List Match} {l : Nat} (hk : 1 ≤ k) (hmin : minLen ≤ k)
    (hkl : k ≤ l) (h : bestLenOf ms minLen < l → findsAtLeast ms' l) :
    findsAtLeast (ms ++ ms') k := by
  rcases Nat.lt_or_ge (bestLenOf ms minLen) l with hlt | hge
  · exact findsAtLeast_append_right (findsAtLeast_mono (h hlt) hkl) ms
  · exact findsAtLeast_append_left (findsAtLeast_of_le_bestLenOf hk hmin (Nat.le_trans hkl hge)) ms'

end Sys2Proof.Machine
end

section
/-! The hash chain: MF_INSERT, MF_FIND_BEST and MF_FIND_ALL (spec/40_match_finder.md R202 to R212). -/

namespace Sys2Proof.Machine
open Sys2Proof.Claims

variable {cfg : Config} {src : List Byte} {c t : Cctx} {p q high minLen k : Nat} {s : State}

/-! ## Insertion -/

theorem hashBucket_default (prime log word : Nat) :
    hashBucket ⟨prime, []⟩ log word = word * prime % 2 ^ 32 / 2 ^ (32 - log) := by
  rw [hashBucket, List.find?_nil, Nat.shiftRight_eq_div_pow]

theorem insertHash3_eq (cfg : Config) (src : List Byte) (p : Nat) (c : Cctx) :
    insertHash3 cfg src p c = { c with
      hashTable3 := if c.row.hash3Log = 0 then c.hashTable3
        else c.hashTable3.write (hash3 cfg c src p) (u32 p) } := by
  rw [insertHash3]
  split <;> rfl

/-- `MF_INSERT(p)` as one new context: the chain entry is the distance to the bucket's position, 0
where there is none or it is past `MAX_OFFSET` (R206). -/
theorem mfInsert_eq (cfg : Config) (src : List Byte) (p : Nat) (c : Cctx) :
    mfInsert cfg src p c = { c with
      hashTable := c.hashTable.write (hash4 cfg c src p) (u32 p)
      chainTable := c.chainTable.write (p % 2 ^ c.row.contentLog)
        (let prev := (c.hashTable.read (hash4 cfg c src p)).toNat
         u32 (if prev = 0 ∨ maxOffset < p - prev then 0 else p - prev))
      hashTable3 := if c.row.hash3Log = 0 then c.hashTable3
        else c.hashTable3.write (hash3 cfg c src p) (u32 p) } := by
  rw [mfInsert, insertHash3_eq]
  generalize (c.hashTable.read (hash4 cfg c src p)).toNat = prev
  have hdelta : (if maxOffset < (if prev ≠ 0 then p - prev else 0) then 0
      else if prev ≠ 0 then p - prev else 0)
      = if prev = 0 ∨ maxOffset < p - prev then 0 else p - prev := by
    by_cases hprev : prev = 0 <;> simp [hprev]
  dsimp only
  rw [hdelta]
  rfl

theorem toNat_nextInsert_insertRun {ins : Nat → Cctx → Cctx} :
    ∀ k c, c.nextInsert.toNat + k < 2 ^ 32 →
      (insertRun ins k c).nextInsert.toNat = c.nextInsert.toNat + k
  | 0, _, _ => rfl
  | k + 1, c, hk => by
    have hnext : (u32 (c.nextInsert.toNat + 1)).toNat = c.nextInsert.toNat + 1 :=
      toNat_u32 (by omega)
    rw [insertRun, toNat_nextInsert_insertRun k _ (by dsimp only; omega)]
    dsimp only
    omega

/-- `insertUpTo(p)` leaves `nextInsert` at `p`, and where it was if that is beyond (R207). -/
theorem toNat_nextInsert_insertUpTo {ins : Nat → Cctx → Cctx} (hp : p < 2 ^ 32) :
    (insertUpTo ins p c).nextInsert.toNat = max c.nextInsert.toNat p := by
  have hword := c.nextInsert.isLt
  rw [insertUpTo, toNat_nextInsert_insertRun _ _ (by omega)]
  omega

theorem sameButTables_insertUpTo_mfInsert (cfg : Config) (src : List Byte) (p : Nat) (c : Cctx) :
    sameButTables c (insertUpTo (mfInsert cfg src) p c) :=
  (searched_insertUpTo (fun _ hq _ => searched_mfInsert hq) (Nat.le_refl p)).same

/-! ## The chain walks -/

section Walks
variable (hs : sameButTables c t) (hfit : PositionsFit p high)
include hs hfit

theorem walk_returnable (husable : ¬ (!usable t p q) = true)
    (hlen : mainHashMinLen ≤ count t src p q high) :
    Returnable c src p high (Match.of (p - q) (count t src p q high)) := by
  have hq : candidate c p q := (usable_iff_candidate hs).mp (by simpa using husable)
  rw [count_same hs] at hlen ⊢
  exact returnable_of_long hfit hq (agrees_count (by decide) hlen) hlen

theorem walkBest_returnable :
    ∀ attempts q best bestLen, (∀ m ∈ best, Returnable c src p high m) →
      ∀ m ∈ walkBest t src p high attempts q best bestLen, Returnable c src p high m
  | 0, _, _, _, hbest => hbest
  | attempts + 1, q, best, bestLen, hbest => by
    rw [walkBest]
    split
    · exact hbest
    next husable =>
    dsimp only
    split
    next hlonger =>
      refine walkBest_returnable attempts _ _ _ fun m hm => ?_
      rw [← Option.some.inj hm]
      exact walk_returnable hs hfit husable hlonger.1
    · exact walkBest_returnable attempts _ _ _ hbest

omit hs in
/-- The best match is only ever replaced by a longer one. -/
theorem walkBest_keeps :
    ∀ attempts q best bestLen, findsAtLeast best.toList bestLen →
      findsAtLeast (walkBest t src p high attempts q best bestLen).toList bestLen
  | 0, _, _, _, h => h
  | attempts + 1, q, best, bestLen, h => by
    rw [walkBest]
    split
    · exact h
    dsimp only
    split
    next hlonger =>
      refine findsAtLeast_mono (walkBest_keeps attempts _ (some _) _ (findsAtLeast_some ?_))
        (Nat.le_of_lt hlonger.2)
      rw [hfit.toNat_length_count]
    · exact walkBest_keeps attempts _ _ _ h

/-- The first candidate is returned unless what is there is as long. -/
theorem walkBest_head {attempts bestLen : Nat} {best : Option Match} (hattempts : 1 ≤ attempts)
    (hq : candidate c p q) (hlen : mainHashMinLen ≤ count c src p q high)
    (hbest : bestLen < mainHashMinLen ∨ findsAtLeast best.toList bestLen) :
    findsAtLeast (walkBest t src p high attempts q best bestLen).toList (count c src p q high) := by
  obtain ⟨attempts, rfl⟩ := Nat.exists_eq_add_of_le' hattempts
  simp only [walkBest, (usable_iff_candidate hs).mpr hq, Bool.not_true, Bool.false_eq_true, if_false,
    count_same hs]
  split
  · refine walkBest_keeps hfit _ _ (some _) _ (findsAtLeast_some ?_)
    rw [hfit.toNat_length_count]
  next hnot =>
    have hge : count c src p q high ≤ bestLen := by omega
    rcases hbest with hlt | hbest
    · omega
    · exact findsAtLeast_mono (walkBest_keeps hfit _ _ _ _ hbest) hge

theorem walkAll_foundFrom :
    ∀ attempts q bestLen room,
      FoundFrom c src p high bestLen room (walkAll t src p high attempts q bestLen room)
  | 0, _, _, _ => .nil
  | attempts + 1, q, bestLen, room => by
    rw [walkAll]
    split
    · exact .nil
    next hgo =>
    simp only [Bool.or_eq_true, beq_iff_eq, not_or] at hgo
    obtain ⟨husable, hroom⟩ := hgo
    dsimp only
    split
    next hlonger =>
      refine .cons (walk_returnable hs hfit husable hlonger.1) ?_ (Nat.pos_of_ne_zero hroom) ?_
      · rw [hfit.toNat_length_count]
        exact hlonger.2
      · rw [hfit.toNat_length_count]
        exact walkAll_foundFrom attempts _ _ _
    · exact walkAll_foundFrom attempts _ _ _

theorem walkAll_head {attempts bestLen room : Nat} (hattempts : 1 ≤ attempts)
    (hq : candidate c p q) (hlen : mainHashMinLen ≤ count c src p q high)
    (hlonger : bestLen < count c src p q high) (hroom : 0 < room) :
    findsAtLeast (walkAll t src p high attempts q bestLen room) (count c src p q high) := by
  obtain ⟨attempts, rfl⟩ := Nat.exists_eq_add_of_le' hattempts
  have hgo : ¬ (!usable t p q || room == 0) = true := by
    simp [(usable_iff_candidate hs).mpr hq, Nat.ne_of_gt hroom]
  rw [walkAll, if_neg hgo, count_same hs, if_pos ⟨hlen, hlonger⟩]
  refine findsAtLeast_cons ?_ _
  rw [hfit.toNat_length_count]

end Walks

/-! ## The finders -/

section Finders
variable (hfit : PositionsFit p high)
include hfit

theorem mfFindBest_returnable :
    ∀ m ∈ (mfFindBest cfg src p high c).1, Returnable c src p high m :=
  have hs := sameButTables_insertUpTo_mfInsert cfg src p c
  walkBest_returnable hs hfit _ _ _ _ fun _ hm => h3Cand_returnable hs hfit hm

theorem mfFindBest_head (hsearch : 1 ≤ c.row.searchNum)
    (hq : candidate c p ((mfFindBest cfg src p high c).2.hashTable.read (hash4 cfg c src p)).toNat)
    (hk : 4 ≤ k)
    (h : agrees c src p
      ((mfFindBest cfg src p high c).2.hashTable.read (hash4 cfg c src p)).toNat high k) :
    findsAtLeast (mfFindBest cfg src p high c).1.toList k := by
  have hs := sameButTables_insertUpTo_mfInsert cfg src p c
  have hl := (le_count_iff (Nat.le_trans (by decide) hk)).mpr h
  refine findsAtLeast_mono ?_ hl
  simp only [mfFindBest, hash4_same hs, row_same hs] at hq hl ⊢
  refine walkBest_head hs hfit hsearch hq (Nat.le_trans hk hl) ?_
  cases h3Cand cfg (insertUpTo (mfInsert cfg src) p c) src p high with
  | none => exact .inl (by decide)
  | some m => exact .inr (findsAtLeast_some (Nat.le_refl _))

theorem mfFindBest_candidate3 (hq : candidate3 cfg c (mfFindBest cfg src p high c).2 src p q)
    (hk : 3 ≤ k) (h : agrees c src p q high k) :
    findsAtLeast (mfFindBest cfg src p high c).1.toList k := by
  have hs := sameButTables_insertUpTo_mfInsert cfg src p c
  obtain ⟨m, hm, hlen⟩ := h3Cand_finds hs hfit hq hk h
  simp only [mfFindBest, hm]
  have hm3 := findsAtLeast_some (Nat.le_refl m.length.toNat)
  exact findsAtLeast_mono (walkBest_keeps hfit _ _ _ _ hm3) hlen

theorem mfFindAll_foundFrom (hcap : 1 ≤ cfg.findAllCap) :
    FoundFrom c src p high (minLen - 1) cfg.findAllCap (mfFindAll cfg src p high minLen c).1 :=
  have hs := sameButTables_insertUpTo_mfInsert cfg src p c
  foundFrom_firstOf_append hs hfit hcap (walkAll_foundFrom hs hfit _ _ _ _)

theorem mfFindAll_head (hsearch : 1 ≤ c.row.searchNum) (hcap : 2 ≤ cfg.findAllCap)
    (hq : candidate c p
      ((mfFindAll cfg src p high minLen c).2.hashTable.read (hash4 cfg c src p)).toNat)
    (hk : 4 ≤ k) (hmin : minLen ≤ k)
    (h : agrees c src p
      ((mfFindAll cfg src p high minLen c).2.hashTable.read (hash4 cfg c src p)).toNat high k) :
    findsAtLeast (mfFindAll cfg src p high minLen c).1 k := by
  have hs := sameButTables_insertUpTo_mfInsert cfg src p c
  have hk1 : 1 ≤ k := Nat.le_trans (by decide) hk
  have hl := (le_count_iff hk1).mpr h
  refine findsAtLeast_append hk1 hmin hl fun hlonger => ?_
  have hfirst := length_firstOf_le (h3Cand cfg (insertUpTo (mfInsert cfg src) p c) src p high) minLen
  rw [hash4_same hs, row_same hs]
  exact walkAll_head hs hfit hsearch hq (Nat.le_trans hk hl) hlonger (by omega)

theorem mfFindAll_candidate3
    (hq : candidate3 cfg c (mfFindAll cfg src p high minLen c).2 src p q) (hk : 3 ≤ k)
    (hmin : minLen ≤ k) (h : agrees c src p q high k) :
    findsAtLeast (mfFindAll cfg src p high minLen c).1 k :=
  findsAtLeast_append_left
    (firstOf_finds (sameButTables_insertUpTo_mfInsert cfg src p c) hfit hq hk hmin h) _

end Finders

/-! ## The micro-operations where their checks pass (R106, R208) -/

theorem positionsHold_of (hlow : c.lowLimit.toNat ≤ p)
    (hend : p + 4 ≤ c.dictLimit.toNat + src.length) : positionsHold c src p (p + 4) = true :=
  decide_eq_true ⟨hlow, hend⟩

theorem searchHolds_of (hlow : c.lowLimit.toNat ≤ p)
    (hend : p + 4 ≤ c.dictLimit.toNat + src.length)
    (hhigh : high ≤ c.dictLimit.toNat + src.length) : searchHolds c src p high = true := by
  rw [searchHolds, positionsHold_of hlow hend, decide_eq_true hhigh, Bool.and_self]

theorem queryHolds_of (hlow : c.lowLimit.toNat ≤ p)
    (hend : p + 4 ≤ c.dictLimit.toNat + src.length)
    (hhigh : high ≤ c.dictLimit.toNat + src.length)
    (hnext : c.lowLimit.toNat ≤ c.nextInsert.toNat) : queryHolds c src p high = true := by
  rw [queryHolds, searchHolds_of hlow hend hhigh, decide_eq_true (.inl hnext), Bool.and_self]

section Checks
variable (hc : s.selected s.enc.sel = some c)
include hc

theorem withSelected_some (f : Cctx → Answer) : withSelected s f = f c := by
  rw [withSelected, hc]

variable {p high : U32} (hlow : c.lowLimit.toNat ≤ p.toNat)
  (hend : p.toNat + 4 ≤ c.dictLimit.toNat + s.enc.src.length)
include hlow hend

theorem exec_mfInsert (hnext : c.nextInsert.toNat ≤ p.toNat) :
    exec (.mfInsert p) s = .next (s.setSelected s.enc.sel
      (insertAt (mfInsert s.cfg s.enc.src) p.toNat c)) := by
  simp only [exec, execMfInsert, withSelected_some hc, positionsHold_of hlow hend,
    Nat.not_lt.mpr hnext, Bool.not_true, Bool.false_eq_true, if_false]

theorem exec_mfFindBest (hnext : c.lowLimit.toNat ≤ c.nextInsert.toNat)
    (hhigh : high.toNat ≤ c.dictLimit.toNat + s.enc.src.length) :
    exec (.mfFindBest p high) s =
      .next ((s.setSelected s.enc.sel (mfFindBest s.cfg s.enc.src p.toNat high.toNat c).2).setEnc
        { s.enc with found := (mfFindBest s.cfg s.enc.src p.toNat high.toNat c).1.toList }) := by
  simp only [exec, execMfFindBest, withSelected_some hc, queryHolds_of hlow hend hhigh hnext,
    Bool.not_true, Bool.false_eq_true, if_false]

theorem exec_mfFindAll {minLen : U32} (hnext : c.lowLimit.toNat ≤ c.nextInsert.toNat)
    (hhigh : high.toNat ≤ c.dictLimit.toNat + s.enc.src.length) :
    exec (.mfFindAll p high minLen) s =
      .next ((s.setSelected s.enc.sel
          (mfFindAll s.cfg s.enc.src p.toNat high.toNat minLen.toNat c).2).setEnc
        { s.enc with found := (mfFindAll s.cfg s.enc.src p.toNat high.toNat minLen.toNat c).1 }) := by
  simp only [exec, execMfFindAll, withSelected_some hc, queryHolds_of hlow hend hhigh hnext,
    Bool.not_true, Bool.false_eq_true, if_false]

end Checks

end Sys2Proof.Machine

namespace Sys2Proof.Proofs
open Sys2Proof.Machine Sys2Proof.Claims

/-- Settles O39: the insertions of R207 leave the bytes compared alone, and the walks return what they
compared. -/
theorem chainFindersVerified : Obligations.ChainFindersVerified := by
  intro s p high minLen c hc hlow hnext hend hhigh hcap head
  have hfit := positionsFit_toNat p high
  have hsame := sameButTables_insertUpTo_mfInsert s.cfg s.enc.src p.toNat c
  have hinserted := toNat_nextInsert_insertUpTo (c := c) (ins := mfInsert s.cfg s.enc.src) p.isLt
  constructor
  case left =>
    refine ⟨_, _, exec_mfFindBest hc hlow hend hnext hhigh, hsame, hinserted,
      Option.length_toList_le, ?_, ?_, ?_⟩
    · exact fun m hm => mfFindBest_returnable hfit m (Option.mem_toList.mp hm)
    · exact fun _ => mfFindBest_head hfit
    · exact fun _ _ => mfFindBest_candidate3 hfit
  case right =>
    have hfound := mfFindAll_foundFrom (c := c) (src := s.enc.src) (minLen := minLen.toNat) hfit hcap
    refine ⟨_, _, exec_mfFindAll hc hlow hend hnext hhigh, hsame, hinserted, hfound.ascending,
      hfound.within, fun m hm => ⟨?_, hfound.returnable m hm⟩, ?_, ?_⟩
    · have hlonger := hfound.longer m hm
      omega
    · exact fun _ => mfFindAll_head hfit
    · exact fun _ _ => mfFindAll_candidate3 hfit

/-- Settles O38: the insertion as one new context, and the default hashes as products modulo
`2^32`. -/
theorem mfInsertMeaning : Obligations.MfInsertMeaning := by
  refine ⟨fun s p c hc hnext hlow hend => ?_, fun c src p => ⟨?_, ?_⟩⟩
  · rw [exec_mfInsert hc hlow hend hnext, insertAt, mfInsert_eq, u32_toNat, u32_toNat_succ]
  · simp only [hash4, Config.default, hashBucket_default, leNat, Nat.add_zero]
    congr 3
    omega
  · simp only [hash3, Config.default, hashBucket_default, leNat, BitVec.toNat_zero, Nat.add_zero]
    congr 3
    omega

end Sys2Proof.Proofs
end

section
/-! The binary tree: BT_INSERT and BT_FIND_ALL (spec/40_match_finder.md R213 to R215). -/

namespace Sys2Proof.Machine
open Sys2Proof.Claims

variable {cfg : Config} {src : List Byte} {c t : Cctx} {p q high minLen k : Nat} {s : State}

/-! ## The main table -/

theorem btLoop_hashTable {collect : Bool} :
    ∀ attempts q w (c : Cctx),
      (btLoop src p high collect attempts q w c).2.hashTable = c.hashTable
  | 0, _, _, _ => rfl
  | attempts + 1, q, w, c => by
    rw [btLoop]
    split
    · rfl
    dsimp only
    split
    · rfl
    · split <;> exact btLoop_hashTable attempts _ _ _

/-- A search puts its own position into the bucket and nothing else into the main table (R214). -/
theorem btSearch_hashTable {collect : Bool} :
    (btSearch cfg src p collect high minLen c).2.hashTable
      = c.hashTable.write (hash4 cfg c src p) (u32 p) := by
  rw [btSearch, btLoop_hashTable, insertHash3_eq]

theorem sameButTables_insertUpTo_btInsert (cfg : Config) (src : List Byte) (opHigh p : Nat)
    (c : Cctx) : sameButTables c (insertUpTo (btInsert cfg src opHigh) p c) :=
  (searched_insertUpTo (fun _ hq _ => searched_btInsert hq) (Nat.le_refl p)).same

/-! ## The walk down the tree -/

theorem sameButTables_trans {c1 c2 c3 : Cctx} (h : sameButTables c1 c2) (h' : sameButTables c2 c3) :
    sameButTables c1 c3 := by
  unfold sameButTables at h h' ⊢
  rw [h] at h'
  exact h'

theorem sameButTables_btWrite (hs : sameButTables c t) (w : Slot) (v : Nat) :
    sameButTables c (btWrite w v t) :=
  sameButTables_trans hs rfl

/-- One candidate of the walk: it is taken or not, and the walk goes on with the registers that
leaves. -/
theorem FoundFrom.round {take : Bool} {w w1 : BtWalk} {l : Nat} {m : Match} {ms : List Match}
    (hw1 : (if take then { w with bestLen := l, room := w.room - 1 } else w) = w1)
    (hlen : m.length.toNat = l)
    (htake : take = true → w.bestLen < l ∧ 0 < w.room ∧ Returnable c src p high m)
    (h : FoundFrom c src p high w1.bestLen w1.room ms) :
    FoundFrom c src p high w.bestLen w.room ((if take then [m] else []) ++ ms) := by
  subst hw1 hlen
  cases take with
  | false => exact h
  | true =>
    obtain ⟨hlonger, hroom, hm⟩ := htake rfl
    exact .cons hm hlonger hroom h

section Walk
variable (hfit : PositionsFit p high)
include hfit

/-- What the walk takes is a match as long as it says, which beats what is there (R201, R214). -/
theorem returnable_of_taken (hs : sameButTables c t) (hq : candidate c p q) {collect : Bool}
    {n l best room : Nat} (hn : n ≤ high - p) (hl : n + count t src (p + n) (q + n) high = l)
    (htake : (collect && decide (mainHashMinLen ≤ l ∧ best < l ∧ 0 < room) &&
      skippedAgree t src p q n) = true) :
    best < l ∧ 0 < room ∧ Returnable c src p high (Match.of (p - q) l) := by
  simp only [Bool.and_eq_true, decide_eq_true_eq] at htake
  obtain ⟨⟨-, hlong, hlonger, hroom⟩, hskip⟩ := htake
  rw [skippedAgree, countFrom_same hs] at hskip
  subst hl
  rw [count_same hs] at hlong hlonger ⊢
  exact ⟨hlonger, hroom, returnable_of_long hfit hq
    (agrees_of_skipped hn hskip (Nat.le_trans (by decide) hlong)) hlong⟩

/-- The walk returns compared bytes only; what it skips is at most `high - p` bytes. -/
theorem btLoop_foundFrom {collect : Bool} :
    ∀ attempts q (w : BtWalk) (t : Cctx), sameButTables c t → w.cs ≤ high - p →
      w.cl ≤ high - p →
      FoundFrom c src p high w.bestLen w.room (btLoop src p high collect attempts q w t).1
  | 0, _, _, _, _, _, _ => .nil
  | attempts + 1, q, w, t, hs, hcs, hcl => by
    rw [btLoop]
    split
    · exact .nil
    next hgo =>
    simp only [Bool.or_eq_true, Bool.not_eq_true', not_or, Bool.not_eq_false] at hgo
    have hq : candidate c p q := (usable_iff_candidate hs).mp hgo.1
    have hl0 : min w.cs w.cl ≤ high - p := by omega
    have hcount := count_le t src (p + min w.cs w.cl) (q + min w.cs w.cl) high
    dsimp only
    generalize hl : min w.cs w.cl + count t src (p + min w.cs w.cl) (q + min w.cs w.cl) high = l
    have hle : l ≤ high - p := by omega
    have hlen := hfit.toNat_length_of hle (p - q)
    have htake := returnable_of_taken hfit hs hq (collect := collect) (best := w.bestLen)
      (room := w.room) hl0 hl
    generalize (collect && _ && _ : Bool) = take at htake ⊢
    generalize hw1 : (if take then { w with bestLen := l, room := w.room - 1 } else w) = w1
    have hcs1 : w1.cs ≤ high - p := by cases take <;> exact hw1 ▸ hcs
    have hcl1 : w1.cl ≤ high - p := by cases take <;> exact hw1 ▸ hcl
    split
    · rw [← List.append_nil (if take then _ else _)]
      exact .round hw1 hlen htake .nil
    · split
      · exact .round hw1 hlen htake (btLoop_foundFrom attempts _
          { w1 with cs := l, smaller := ⟨q, 1⟩ } _ (sameButTables_btWrite hs _ _) hle hcl1)
      · exact .round hw1 hlen htake (btLoop_foundFrom attempts _
          { w1 with cl := l, larger := ⟨q, 0⟩ } _ (sameButTables_btWrite hs _ _) hcs1 hle)

/-- The root of the tree is compared from its first byte on, so it is returned where it is longer
than what is there. -/
theorem btLoop_root (hs : sameButTables c t) {attempts : Nat} {w : BtWalk} (hw : w.cs = 0)
    (hattempts : 1 ≤ attempts) (hq : candidate c p q) (hreach : p - q ≤ 2 ^ c.row.contentLog - 1)
    (hlen : mainHashMinLen ≤ count c src p q high) (hlonger : w.bestLen < count c src p q high)
    (hroom : 0 < w.room) :
    findsAtLeast (btLoop src p high true attempts q w t).1 (count c src p q high) := by
  obtain ⟨attempts, rfl⟩ := Nat.exists_eq_add_of_le' hattempts
  have hgo : ¬ (!usable t p q || decide (contentSlots t - 1 < p - q)) = true := by
    simp [(usable_iff_candidate hs).mpr hq, contentSlots_same hs, hreach]
  have htake : (true && decide (mainHashMinLen ≤ count c src p q high ∧
      w.bestLen < count c src p q high ∧ 0 < w.room) && skippedAgree t src p q 0) = true := by
    simp [hlen, hlonger, hroom, skippedAgree, countFrom]
  have hfound : findsAtLeast [Match.of (p - q) (count c src p q high)] (count c src p q high) :=
    findsAtLeast_cons (Nat.le_of_eq (hfit.toNat_length_count _).symm) []
  simp only [btLoop, if_neg hgo, hw, Nat.zero_min, Nat.add_zero, Nat.zero_add, count_same hs, htake,
    if_true]
  split
  · exact hfound
  · split <;> exact findsAtLeast_append_left hfound _

end Walk

/-! ## The search: `t` is the context after the insertions below `p` -/

/-- The context a search at `p` reads the 3-byte candidate from: `p` heads its bucket (R214). -/
def btBucketed (cfg : Config) (src : List Byte) (p : Nat) (t : Cctx) : Cctx :=
  { t with hashTable := t.hashTable.write (hash4 cfg t src p) (u32 p) }

/-- The context a search at `p` walks from: `p` heads its 3-byte bucket too (R214). -/
def btRooted (cfg : Config) (src : List Byte) (p : Nat) (t : Cctx) : Cctx :=
  insertHash3 cfg src p (btBucketed cfg src p t)

/-- What a query returns: the 3-byte candidate, then what the walk finds beyond it (R214). -/
theorem btSearch_query : (btSearch cfg src p true high minLen t).1 =
    let r3 := firstOf (h3Cand cfg (btBucketed cfg src p t) src p high) minLen
    r3 ++ (btLoop src p high true (btRooted cfg src p t).row.searchNum
      (t.hashTable.read (hash4 cfg t src p)).toNat
      ⟨⟨p, 0⟩, ⟨p, 1⟩, 0, 0, bestLenOf r3 minLen, cfg.findAllCap - r3.length⟩
      (btRooted cfg src p t)).1 := rfl

section Search
variable (hs : sameButTables c t)
include hs

theorem sameButTables_btBucketed : sameButTables c (btBucketed cfg src p t) :=
  sameButTables_trans hs rfl

theorem sameButTables_btRooted : sameButTables c (btRooted cfg src p t) :=
  sameButTables_trans (sameButTables_btBucketed hs) (searched_insertHash3 (Nat.lt_succ_self p)).same

variable (hfit : PositionsFit p high)
include hfit

theorem btSearch_foundFrom (hcap : 1 ≤ cfg.findAllCap) :
    FoundFrom c src p high (minLen - 1) cfg.findAllCap
      (btSearch cfg src p true high minLen t).1 := by
  rw [btSearch_query]
  exact foundFrom_firstOf_append (sameButTables_btBucketed hs) hfit hcap
    (btLoop_foundFrom hfit _ _ ⟨⟨p, 0⟩, ⟨p, 1⟩, 0, 0, _, _⟩ _ (sameButTables_btRooted hs)
      (Nat.zero_le _) (Nat.zero_le _))

theorem btSearch_root (hsearch : 1 ≤ c.row.searchNum) (hcap : 2 ≤ cfg.findAllCap)
    (hq : candidate c p (t.hashTable.read (hash4 cfg c src p)).toNat)
    (hreach : p - (t.hashTable.read (hash4 cfg c src p)).toNat ≤ 2 ^ c.row.contentLog - 1)
    (hk : 4 ≤ k) (hmin : minLen ≤ k)
    (h : agrees c src p (t.hashTable.read (hash4 cfg c src p)).toNat high k) :
    findsAtLeast (btSearch cfg src p true high minLen t).1 k := by
  have hk1 : 1 ≤ k := Nat.le_trans (by decide) hk
  have hl := (le_count_iff hk1).mpr h
  have hrooted : sameButTables c (btRooted cfg src p t) := sameButTables_btRooted hs
  rw [btSearch_query, hash4_same hs, row_same hrooted]
  refine findsAtLeast_append hk1 hmin hl fun hlonger => ?_
  exact btLoop_root hfit hrooted rfl hsearch hq hreach (Nat.le_trans hk hl) hlonger
    (Nat.sub_pos_of_lt (Nat.lt_of_le_of_lt (length_firstOf_le _ _) hcap))

theorem btSearch_candidate3 (hq : candidate3 cfg c t src p q) (hk : 3 ≤ k) (hmin : minLen ≤ k)
    (h : agrees c src p q high k) : findsAtLeast (btSearch cfg src p true high minLen t).1 k := by
  rw [btSearch_query]
  exact findsAtLeast_append_left (firstOf_finds (sameButTables_btBucketed hs) hfit hq hk hmin h) _

end Search

/-! ## The micro-operations where their checks pass (R106, R208) -/

theorem sameButTables_insertAt_btInsert (cfg : Config) (src : List Byte) (opHigh p : Nat) (c : Cctx) :
    sameButTables c (insertAt (btInsert cfg src opHigh) p c) :=
  sameButTables_trans (searched_btInsert (Nat.lt_succ_self p)).same rfl

section Checks
variable (hc : s.selected s.enc.sel = some c) {p high : U32} (hlow : c.lowLimit.toNat ≤ p.toNat)
  (hnext : c.nextInsert.toNat ≤ p.toNat)
  (hend : p.toNat + 4 ≤ c.dictLimit.toNat + s.enc.src.length)
  (hop : s.enc.opHigh.toNat ≤ c.dictLimit.toNat + s.enc.src.length)
include hc hlow hnext hend hop

theorem exec_btInsert :
    exec (.btInsert p) s = .next (s.setSelected s.enc.sel
      (insertAt (btInsert s.cfg s.enc.src s.enc.opHigh.toNat) p.toNat c)) := by
  simp only [exec, execBtInsert, withSelected_some hc, searchHolds_of hlow hend hop,
    Nat.not_lt.mpr hnext, Bool.not_true, Bool.false_eq_true, if_false]

theorem exec_btFindAll {minLen : U32} (hinside : c.lowLimit.toNat ≤ c.nextInsert.toNat)
    (hhigh : high.toNat ≤ c.dictLimit.toNat + s.enc.src.length) :
    exec (.btFindAll p high minLen) s =
      .next ((s.setSelected s.enc.sel (btFindAll s.cfg s.enc.src s.enc.opHigh.toNat p.toNat
          high.toNat minLen.toNat c).2).setEnc
        { s.enc with found := (btFindAll s.cfg s.enc.src s.enc.opHigh.toNat p.toNat
          high.toNat minLen.toNat c).1 }) := by
  simp only [exec, execBtFindAll, withSelected_some hc, queryHolds_of hlow hend hhigh hinside,
    decide_eq_true hop, Nat.not_lt.mpr hnext, Bool.and_self, Bool.not_true, Bool.false_eq_true,
    if_false]

end Checks

end Sys2Proof.Machine

namespace Sys2Proof.Proofs
open Sys2Proof.Machine Sys2Proof.Claims

/-- Settles O40: the walk changes links only, and returns what it compared or compares after all. -/
theorem treeFinders : Obligations.TreeFinders := by
  intro s p high minLen c hc hlow hnext hend hhigh hop hcap before root
  have hfit := positionsFit_toNat p high
  have hbefore : sameButTables c before := sameButTables_insertUpTo_btInsert ..
  constructor
  case left =>
    refine ⟨_, exec_btInsert hc hlow hnext hend hop, sameButTables_insertAt_btInsert ..,
      u32_toNat_succ p, ?_⟩
    rw [insertAt, btInsert, btSearch_hashTable, u32_toNat]
  case right =>
    intro hinside
    have hfound := btSearch_foundFrom (src := s.enc.src) (minLen := minLen.toNat) hbefore hfit hcap
    have hsame := searched_btFindAll (cfg := s.cfg) (src := s.enc.src) (c := c) (high := high.toNat)
      (opHigh := s.enc.opHigh.toNat) (minLen := minLen.toNat) (Nat.lt_succ_self p.toNat)
    refine ⟨_, _, exec_btFindAll hc hlow hnext hend hop hinside hhigh, hsame.same, u32_toNat_succ p,
      hfound.ascending, hfound.within, fun m hm => ⟨?_, hfound.returnable m hm⟩, ?_, ?_⟩
    · have hlonger := hfound.longer m hm
      omega
    · exact fun _ => btSearch_root hbefore hfit
    · exact fun _ _ => btSearch_candidate3 hbefore hfit

end Sys2Proof.Proofs
end

section
/-! The block decoder on a Sequence that passes its checks (spec/43_block_decoder.md R363, R366 to
R370, R373 to R376): the copy reads the dictionary followed by the output, and the registers a
terminal Sequence and a match leave. -/

namespace Sys2Proof.Machine
open Sys2Proof.Claims

variable {D src lits out : List Byte} {token : Byte} {cls : OffClass} {off ml : Nat} {b : Bd}

/-! ## Copying (R107, R375) -/

/-- `DRef` inside the reference space is a byte of the dictionary followed by the output. -/
theorem getElem?_dref (hpos : 1 ≤ off) (hle : off ≤ out.length + D.length) :
    (D ++ out)[D.length + out.length - off]? = some (dref D out off) := by
  rw [dref]
  split
  next hout =>
    have hidx : out.length - off < out.length := by omega
    rw [Nat.add_sub_assoc hout, List.getElem?_append_right (Nat.le_add_right _ _),
      Nat.add_sub_cancel_left, List.getD_eq_getElem _ _ hidx, List.getElem?_eq_getElem hidx]
  next hout =>
    have hidx : D.length + out.length - off < D.length := by omega
    rw [List.getElem?_append_left hidx, List.getD_eq_getElem _ _ hidx,
      List.getElem?_eq_getElem hidx]

/-- Where the next byte of `src` equals the one `off` places before it, the copy appends it. -/
theorem take_append_dref {a : Nat} (hpos : 1 ≤ off) (hle : off ≤ a + D.length)
    (ha : a ≤ src.length)
    (hsame : (D ++ src)[D.length + a]? = (D ++ src)[D.length + a - off]?) :
    src.take a ++ [dref D (src.take a) off] = src.take (a + 1) := by
  have hlen : (src.take a).length = a := List.length_take_of_le ha
  have hdref : src[a]? = some (dref D (src.take a) off) := calc
    src[a]? = (D ++ src)[D.length + a]? := by
      rw [List.getElem?_append_right (Nat.le_add_right _ _), Nat.add_sub_cancel_left]
    _ = (D ++ src)[D.length + a - off]? := hsame
    _ = (D ++ src.take a)[D.length + a - off]? := by
      rw [← List.take_length_add_append, List.getElem?_take_of_lt (by omega)]
    _ = some (dref D (src.take a) off) := by
      rw [← getElem?_dref hpos (hlen.symm ▸ hle), hlen]
  rw [List.take_add_one, hdref, Option.toList_some]

/-- `MATCHCOPY` of a match of `src` goes on with `src`. -/
theorem matchCopy_take (hpos : 1 ≤ off) : ∀ {ml a : Nat}, off ≤ a + D.length →
    a + ml ≤ src.length →
    (∀ j, j < ml → (D ++ src)[D.length + a + j]? = (D ++ src)[D.length + a + j - off]?) →
    matchCopy D off ml (src.take a) = src.take (a + ml)
  | 0, _, _, _, _ => rfl
  | ml + 1, a, hle, hend, hsame => by
    have hfirst := take_append_dref hpos hle (by omega) (hsame 0 (Nat.succ_pos ml))
    have hrest : ∀ j, j < ml →
        (D ++ src)[D.length + (a + 1) + j]? = (D ++ src)[D.length + (a + 1) + j - off]? := by
      intro j hj
      have hnext := hsame (j + 1) (Nat.succ_lt_succ hj)
      rwa [show D.length + (a + 1) + j = D.length + a + (j + 1) by omega]
    rw [matchCopy, hfirst, matchCopy_take hpos (by omega) (by omega) hrest, Nat.add_right_comm a 1]
    rfl

/-! ## The literal run and the terminal Sequence (R366, R374, R376) -/

/-- The registers a literal run inside the capacity leaves. -/
def litsDone (b : Bd) (token : Byte) (cls : OffClass) (lits : List Byte) : Bd :=
  { b with
    ip := b.ip + lastLen lits.length cls
    out := b.out ++ lits
    token := token
    litLen := lits.length
    phase := .running }

theorem bdLiterals_of_fits (hfits : b.out.length + lits.length ≤ b.cap) :
    bdLiterals token cls lits b = (true, litsDone b token cls lits) := by
  simp only [bdLiterals, if_neg (Nat.not_lt.mpr hfits), litsDone, lastLen, Nat.add_assoc]

theorem bdLast_of_fits (hfits : b.out.length + lits.length ≤ b.cap) :
    bdLast token cls lits b = (litsDone b token cls lits).finish := by
  rw [bdLast, bdLiterals_of_fits hfits]
  rfl

/-! ## A Sequence with a match (R367 to R370, R373, R374) -/

theorem litsDone_goesOn (h : litsGoOn b lits.length) :
    (litsDone b token cls lits).stopsAfterLits = false := by
  obtain ⟨-, hpartial, heoo⟩ := h
  simpa [Bd.stopsAfterLits, litsDone] using And.intro hpartial heoo

theorem bdMatch_of_fits {bytes : Nat} (hpos : 1 ≤ off) (hle : off ≤ b.out.length + b.dict.length)
    (hcap : b.out.length + ml ≤ b.cap) :
    bdMatch ⟨bytes, off, ml⟩ b = { b with
      ip := b.ip + bytes + mlExt ml
      out := matchCopy b.dict off ml b.out
      lastOff := u32 off
      matchLen := ml
      off := u32 off
      phase := if b.partialMode = true ∧ b.target ≤ (matchCopy b.dict off ml b.out).length then .ended
        else b.phase } := by
  have hoff : ¬ (off = 0 ∨ b.out.length + b.dict.length < off) := by omega
  simp only [bdMatch, if_neg hoff, if_neg (Nat.not_lt.mpr hcap), Bool.and_eq_true,
    decide_eq_true_eq]
  split <;> rfl

theorem bdSequence_of_fits (hlits : litsGoOn b lits.length) (hpos : 1 ≤ off)
    (hle : off ≤ b.out.length + lits.length + b.dict.length)
    (hcap : b.out.length + lits.length + ml ≤ b.cap) :
    bdSequence token cls lits off ml b =
      matchDone b token cls lits off ml (matchCopy b.dict off ml (b.out ++ lits)) := by
  rw [← List.length_append] at hle hcap
  have hmatch := bdMatch_of_fits (b := litsDone b token cls lits) (bytes := offBytes cls) hpos hle
    hcap
  simp only [bdSequence, bdLiterals_of_fits hlits.1, litsDone_goesOn hlits, Bool.not_true,
    Bool.false_eq_true, if_false, hmatch]
  simp only [litsDone, matchDone, seqLen, lastLen, Nat.add_assoc]

end Sys2Proof.Machine
end

section
/-! The round trip of the packer (spec/41_sequence_packer.md R265): every triple's Sequence reads back
as the match it was packed from, the decoder's `last_off` follows the packer's, and the terminal
Sequence's literals end the input (spec/43_block_decoder.md R366). -/

namespace Sys2Proof.Machine
open Sys2Proof.Claims

variable {src lits rest : List Byte} {cls : OffClass} {d ml last anchor : Nat} {b : Bd}

/-! ## A packed Sequence as the decoder executes it (R148, R367 to R370) -/

/-- The Sequence that packs a match at distance `d` executes with offset `d`; the repeat class does so
because `d` is the decoder's `last_off`. -/
theorem bdExec_mkSequence (hd : d ≤ maxOffset) (hcls : encodeClass d b.lastOff.toNat = cls) :
    ∃ token, bdExec (mkSequence cls (offHi cls d) (leBytes (offBytes cls) d) lits ml) b =
      bdSequence token cls lits d ml b := by
  subst hcls
  rw [encodeClass]
  split
  next hrep =>
    subst hrep
    exact ⟨_, rfl⟩
  split
  next hshort =>
    obtain ⟨off, rfl⟩ : ∃ off : BitVec 10, off.toNat = d := ⟨_, BitVec.toNat_ofNatLT d hshort⟩
    exact ⟨_, congrArg (bdExec · b) (mkSequence_short off lits ml)⟩
  split
  next hmid =>
    obtain ⟨off, rfl⟩ : ∃ off : BitVec 16, off.toNat = d := ⟨_, BitVec.toNat_ofNatLT d hmid⟩
    exact ⟨_, congrArg (bdExec · b) (mkSequence_mid off lits ml)⟩
  next =>
    have hlong : d < 2 ^ 24 := Nat.lt_of_le_of_lt hd (by decide)
    obtain ⟨off, rfl⟩ : ∃ off : BitVec 24, off.toNat = d := ⟨_, BitVec.toNat_ofNatLT d hlong⟩
    exact ⟨_, congrArg (bdExec · b) (mkSequence_long off lits ml)⟩

/-! ## The packed bytes -/

/-- Every triple packs into at least one byte, and so does the terminal Sequence. -/
theorem length_lt_length_packFrom (src : List Byte) :
    ∀ ts anchor last, ts.length < (packFrom src ts anchor last).1.length
  | [], _, _ => Nat.succ_pos _
  | t :: ts, anchor, last => by
    have htail := length_lt_length_packFrom src ts (t.start + t.ml) t.d
    rw [packFrom, List.length_append, emitSeqBytes, length_seqBytes, seqLen, List.length_cons]
    omega

theorem packFrom_ne_nil (src : List Byte) (ts : List Triple) (anchor last : Nat) :
    (packFrom src ts anchor last).1 ≠ [] :=
  List.ne_nil_of_length_pos (Nat.zero_lt_of_lt (length_lt_length_packFrom src ts anchor last))

/-! ## A round of a whole-block decode -/

/-- A decode of a whole block (neither END_ON_OUTPUT nor partial) between two Sequences of a packed
parse of `src`: it has put out the first `anchor` bytes, has room for the others, and the triples `ts`
are left to read, packed with the decoder's own `last_off`. -/
structure Bd.Unpacks (src : List Byte) (anchor : Nat) (ts : List Triple) (b : Bd) : Prop where
  running : b.phase = .running
  eoo : b.eoo = false
  whole : b.partialMode = false
  room : src.length ≤ b.cap
  out : b.out = src.take anchor
  unread : b.src.drop b.ip = (packFrom src ts anchor b.lastOff.toNat).1
  parse : parseOk b.dict src anchor ts

namespace Bd.Unpacks

variable {t : Triple} {ts : List Triple}

theorem length_out (h : b.Unpacks src anchor ts) (ha : anchor ≤ src.length) :
    b.out.length = anchor := by
  rw [h.out, List.length_take_of_le ha]

/-- Only the end of the input ends the decode (R366). -/
theorem endsAfterLits_eq (h : b.Unpacks src anchor ts) (n : Nat) (bs : List Byte) :
    endsAfterLits b.limits n bs = bs.isEmpty := by
  simp [endsAfterLits, Bd.limits, h.eoo, h.whole]

theorem litsGoOn (h : b.Unpacks src anchor ts) {n : Nat} (hn : b.out.length + n ≤ b.cap) :
    litsGoOn b n := by
  simp [Claims.litsGoOn, hn, h.eoo, h.whole]

theorem round {q : Sequence} {n : Nat} (h : b.Unpacks src anchor ts)
    (hq : decodeSeq b.limits (packFrom src ts anchor b.lastOff.toNat).1 = .seq q n) :
    bdRound b = bdExec q b := by
  simp only [bdRound, bdFetch, h.running, h.eoo, Bool.false_and, Bool.false_eq_true, if_false,
    h.unread, hq]

/-- What `EMIT_SEQ` packed reads back where more bytes follow (R173). -/
theorem decodeSeq_emitSeqBytes (h : b.Unpacks src anchor ts)
    (hfits : b.out.length + lits.length ≤ b.cap) (hml : minMatch ≤ ml) (hrest : rest ≠ []) :
    decodeSeq b.limits (emitSeqBytes lits d ml last ++ rest) =
      .seq (mkSequence (encodeClass d last) (offHi (encodeClass d last) d)
        (leBytes (offBytes (encodeClass d last)) d) lits ml)
        (emitSeqBytes lits d ml last).length := by
  refine decodeSeq_seqBytes hml (Nat.le_sub_of_add_le' hfits) ?_
  rw [h.endsAfterLits_eq, seqBytes_append, drop_seqHead]
  simp [hrest]

/-- A triple's round adds its literals and its match, which stand in `src` as they are. -/
theorem round_triple (h : b.Unpacks src anchor (t :: ts)) :
    (bdRound b).Unpacks src (t.start + t.ml) ts := by
  obtain ⟨hstart, hend, hml, hpos, hmax, hdict, hsame, hparse⟩ := h.parse
  have hroom := h.room
  have hlits : b.out.length + (slice src anchor t.start).length = t.start := by
    rw [h.length_out (by omega), length_slice (by omega), Nat.add_sub_cancel' hstart]
  have hout : b.out ++ slice src anchor t.start = src.take t.start := by
    rw [h.out, slice, ← List.take_add, Nat.add_sub_cancel' hstart]
  have hread := h.round (h.decodeSeq_emitSeqBytes (by omega) hml (packFrom_ne_nil _ _ _ _))
  obtain ⟨token, hexec⟩ := bdExec_mkSequence hmax rfl
  rw [hexec, bdSequence_of_fits (h.litsGoOn (by omega)) hpos (by omega) (by omega), hout,
    matchCopy_take hpos hdict hend hsame] at hread
  have hlast : (u32 t.d).toNat = t.d := toNat_u32 (Nat.lt_of_le_of_lt hmax (by decide))
  rw [hread]
  refine ⟨?running, h.eoo, h.whole, h.room, rfl, ?unread, hparse⟩
  case running => simp [matchDone, h.whole]
  case unread =>
    rw [matchDone, hlast, ← List.drop_drop, h.unread, packFrom, emitSeqBytes, ← length_seqBytes,
      List.drop_left]

/-- The terminal round adds what is left of `src` and ends the decode. -/
theorem round_terminal (h : b.Unpacks src anchor []) :
    (bdRound b).phase = .ended ∧ (bdRound b).out = src := by
  have hanchor : anchor ≤ src.length := h.parse
  have hfits : b.out.length + (src.drop anchor).length ≤ b.cap := by
    rw [h.length_out hanchor, List.length_drop, Nat.add_sub_cancel' hanchor]
    exact h.room
  have hread := decodeSeq_terminal (cls := .mid) (hi := 0#2) (mf := 0#3) (fun _ => rfl)
    (Nat.le_sub_of_add_le' hfits) (h.endsAfterLits_eq _ [])
  rw [List.append_nil] at hread
  rw [h.round hread, bdExec, bdTerminal, bdLast_of_fits hfits]
  refine ⟨rfl, ?_⟩
  rw [Bd.finish, litsDone, h.out, List.take_append_drop]

end Bd.Unpacks

/-! ## The whole parse (R262, R265) -/

theorem bdLoop_of_unpacks : ∀ (ts : List Triple) (k anchor : Nat) (b : Bd),
    b.Unpacks src anchor ts → ts.length < k →
    (bdLoop k b).phase = .ended ∧ (bdLoop k b).out = src
  | _, 0, _, _, _, hk => absurd hk (Nat.not_lt_zero _)
  | [], k + 1, _, b, h, _ => by
    have hover : (bdRound b).phase ≠ .running := by
      rw [h.round_terminal.1]
      nofun
    rw [bdLoop, bdLoop_idle k _ hover]
    exact h.round_terminal
  | _ :: ts, k + 1, _, b, h, hk =>
    bdLoop_of_unpacks ts k _ (bdRound b) h.round_triple (Nat.lt_of_succ_lt_succ hk)

end Sys2Proof.Machine

namespace Sys2Proof.Proofs
open Sys2Proof.Machine

/-- Settles O35: a decode begins with nothing put out and the whole parse to read, and has more rounds
than the block has bytes (R385), so more than the parse has triples. -/
theorem packThenDecode : Obligations.PackThenDecode := by
  intro D src parse cap hparse hcap
  have hrounds := length_lt_length_packFrom src parse 0 0
  exact bdLoop_of_unpacks parse _ 0 (Bd.start _ cap D false false 0)
    ⟨rfl, rfl, rfl, hcap, rfl, rfl, hparse⟩ (Nat.lt_succ_of_lt hrounds)

end Sys2Proof.Proofs
end

section
/-! The packer's micro-operations (spec/41_sequence_packer.md R260, R261): the token as a number, the
offset bytes of each class, then the bytes the model packs are those of R260's pseudocode. -/

namespace Sys2Proof
open Sys2Proof.Machine Sys2Proof.Claims

variable {cls : OffClass} {hi : BitVec 2} {mf : BitVec 3} {lits : List Byte} {d ml last : Nat}

/-! ## The token as a number (R141) -/

/-- The bits of a token above its literal field, as a number. -/
def tokenHigh (cls : OffClass) (hi : Nat) : Nat :=
  match cls with
  | .short => 128 + 32 * hi
  | .mid => 0
  | .long => 64
  | .rep => 96

theorem encodeToken_eq_ofNat {f : TokenFields} (h : f.Fits) :
    encodeToken f =
      BitVec.ofNat 8 (tokenHigh f.cls f.hi.toNat + 8 * f.lit.toNat + f.mf.toNat) := by
  obtain ⟨lit, cls, mf, hi⟩ := f
  obtain ⟨hlit, -⟩ := h
  cases cls with
  | short | rep | long =>
    replace hlit : lit.toNat ≤ 3 := hlit nofun
    decide +revert
  | mid =>
    clear hlit
    decide +revert

theorem seqHead_eq_ofNat (hhi : cls ≠ .short → hi = 0#2) :
    seqHead cls hi mf lits =
      BitVec.ofNat 8 (tokenHigh cls hi.toNat + 8 * min lits.length (litMask cls) + mf.toNat) ::
        (lenExt lits.length (litMask cls) ++ lits) := by
  rw [seqHead, ← headFields, encodeToken_eq_ofNat (headFields_fits hhi), toNat_headFields_lit,
    headFields_cls, headFields_hi, headFields_mf]

theorem toNat_matchField (ml : Nat) : (matchField ml).toNat = min (ml - 3) 7 :=
  (BitVec.toNat_ofNat _ _).trans (Nat.mod_eq_of_lt (by omega))

/-! ## The bytes of EMIT_SEQ and EMIT_LAST -/

/-- The offset bits of a class that `encode_class` chooses are not cut (R148). -/
theorem tokenHigh_offHi (h : encodeClass d last = cls) :
    tokenHigh cls (offHi cls d).toNat = tokenHigh cls (d / 256) := by
  cases cls with
  | rep | long | mid => rfl
  | short =>
    have hd : d < 1024 := by
      simp only [encodeClass] at h
      split at h
      · cases h
      · split at h
        · assumption
        · split at h <;> cases h
    exact congrArg (128 + 32 * ·) ((BitVec.toNat_ofNat _ _).trans (Nat.mod_eq_of_lt (by omega)))

/-- R260's pseudocode packs what the model packs. -/
theorem emitSeqR260_eq_emitSeqBytes (lits : List Byte) (d ml last : Nat) :
    emitSeqR260 lits d ml last = emitSeqBytes lits d ml last := by
  rw [emitSeqBytes, ← List.append_nil (seqBytes _ _ _ _), seqBytes_append,
    seqHead_eq_ofNat (offHi_of_ne_short d), tokenHigh_offHi rfl, toNat_matchField]
  generalize hcls : encodeClass d last = cls
  change (if d = last then .rep else if d < 1024 then .short else if d < 65536 then .mid else .long)
    = cls at hcls
  have hthird : d / 65536 = d / 256 / 256 := (Nat.div_div_eq_div_mul d 256 256).symm
  simp only [emitSeqR260, hcls, hthird, List.append_assoc, List.append_nil, List.cons_append,
    List.nil_append]
  cases cls with
  | short | rep | long | mid => rfl

theorem emitLastBytes_eq (lits : List Byte) :
    emitLastBytes lits = [BitVec.ofNat 8 (8 * min lits.length 7)] ++
      (if 7 ≤ lits.length then
        List.replicate ((lits.length - 7) / 255) 255#8 ++ [BitVec.ofNat 8 ((lits.length - 7) % 255)]
       else []) ++ lits := by
  rw [emitLastBytes, seqHead_eq_ofNat fun _ => rfl, lenExt, extBytes]
  simp only [tokenHigh, BitVec.toNat_zero, Nat.zero_add, Nat.add_zero, List.cons_append,
    List.nil_append]
  rfl

end Sys2Proof

namespace Sys2Proof.Machine

variable {s : State} {st len d ml : U32} {c : Cctx}

/-! ## The micro-operations where their checks pass (R106, R264) -/

theorem slice_add (src : List Byte) (a n : Nat) : slice src a (a + n) = (src.drop a).take n := by
  rw [slice, Nat.add_sub_cancel_left]

theorem exec_emitSeq (hc : s.selected s.enc.sel = some c)
    (hlits : st.toNat + len.toNat ≤ s.enc.src.length) (hpos : 1 ≤ d.toNat)
    (hmax : d.toNat ≤ maxOffset) (hml : minMatch ≤ ml.toNat) :
    exec (.emitSeq st len d ml) s =
      .next ((s.setSelected s.enc.sel { c with lastOff := d }).setEnc { s.enc with
        out := s.enc.out ++ emitSeqBytes ((s.enc.src.drop st.toNat).take len.toNat) d.toNat ml.toNat
          c.lastOff.toNat }) := by
  simp only [exec, execEmitSeq, withSelected_some hc, litsHold, hlits, hpos, hmax, hml, slice_add,
    decide_true, and_self, Bool.not_true, Bool.false_eq_true, if_false]

theorem exec_emitLast (hlits : st.toNat + len.toNat ≤ s.enc.src.length) :
    exec (.emitLast st len) s = .next { s with enc := { s.enc with
      out := s.enc.out ++ emitLastBytes ((s.enc.src.drop st.toNat).take len.toNat) } } := by
  simp only [exec, execEmitLast, litsHold, hlits, slice_add, decide_true, Bool.not_true,
    Bool.false_eq_true, if_false, State.setEnc]

end Sys2Proof.Machine

namespace Sys2Proof.Proofs
open Sys2Proof.Machine Sys2Proof.Claims

/-- Settles O41: the checks pass, and the packed bytes are R260's and R261's. -/
theorem packerMeaning : Obligations.PackerMeaning := by
  constructor
  case left =>
    intro s st len d ml c hc hlits hpos hmax hml
    rw [emitSeqR260_eq_emitSeqBytes]
    exact exec_emitSeq hc hlits hpos hmax hml
  case right =>
    intro s st len hlits lits
    rw [exec_emitLast hlits, emitLastBytes_eq, ← List.append_assoc, ← List.append_assoc]

end Sys2Proof.Proofs
end

section
/-! What the parsers commit (spec/42_block_encoder.md R294, R296, R301 to R308): every triple of a parse
copies bytes that stand at its distance in the history or the earlier input (R201), and a small input
has no triple. A parse changes no byte of the position space, so the context it starts from and the one
it leaves say the same of a triple. -/

namespace Sys2Proof.Machine
open Sys2Proof.Claims

variable {cfg : Config} {x : Input} {src : List Byte} {c t : Cctx} {p high d n k i : Nat}

/-! ## Bytes that stand twice in the position space -/

/-- The `n` bytes from position `p` on equal those `d` positions before them, which begin inside the
position space (R106, R294). -/
def Copies (c : Cctx) (src : List Byte) (p d n : Nat) : Prop :=
  c.lowLimit.toNat + d ≤ p ∧ ∀ j, j < n → ref c src (p + j) = ref c src (p + j - d)

theorem copies_same (hs : sameButTables c t) : Copies t src p d n ↔ Copies c src p d n := by
  have hlow : t.lowLimit = c.lowLimit := by rw [hs]
  simp only [Copies, hlow, ref_same hs]

theorem Copies.shorter (h : Copies c src p d n) (hk : k ≤ n) : Copies c src p d k :=
  ⟨h.1, fun j hj => h.2 j (Nat.lt_of_lt_of_le hj hk)⟩

theorem Returnable.copies {m : Match} (h : Returnable c src p high m) :
    Copies c src p m.offset.toNat m.length.toNat := by
  obtain ⟨⟨-, -, hlow, -⟩, -, hbytes⟩ := h
  exact ⟨Nat.le_trans (Nat.add_le_add_right (Nat.le_max_left _ _) _) hlow, hbytes⟩

theorem copies_count (hlow : lowEff c p + d ≤ p) :
    Copies c src p d (count c src p (p - d) high) := by
  have hcounted := (le_countFrom_iff.mp (Nat.le_refl (count c src p (p - d) high))).2
  have hmin : c.lowLimit.toNat ≤ lowEff c p := Nat.le_max_left _ _
  refine ⟨by omega, fun j hj => ?_⟩
  rw [← hcounted j hj, Nat.sub_add_comm (Nat.le_of_add_left_le hlow)]

/-! ## Extending backward (R211) -/

theorem Copies.prepend (h : Copies c src p d n) (hlow : c.lowLimit.toNat < p - d)
    (hsame : ref c src (p - d - 1) = ref c src (p - 1)) : Copies c src (p - 1) d (n + 1) := by
  refine ⟨by omega, fun j hj => ?_⟩
  cases j with
  | zero => rw [Nat.add_zero, ← hsame, Nat.sub_right_comm]
  | succ j =>
    rw [show p - 1 + (j + 1) = p + j by omega]
    exact h.2 j (Nat.lt_of_succ_lt_succ hj)

theorem Copies.extendBack {low lowBound : Nat} (hlow : c.lowLimit.toNat ≤ low) :
    ∀ k {p n}, Copies c src p d n →
      Copies c src (p - backFrom c src low lowBound p (p - d) k) d
        (n + backFrom c src low lowBound p (p - d) k)
  | 0, _, _, h => h
  | k + 1, p, n, h => by
    rw [backFrom]
    split
    next hstep =>
      obtain ⟨-, hinside, hsame⟩ := hstep
      have hrest := Copies.extendBack (lowBound := lowBound) hlow k
        (h.prepend (Nat.lt_of_le_of_lt hlow hinside) hsame)
      rwa [Nat.sub_right_comm p d 1, ← Nat.sub_sub, ← Nat.add_assoc]
    · exact h

/-! ## The triples of a parse -/

/-- A triple that a parse of `x` may hold: the input is not small (R296), and where positions are words
(R12) the triple's bytes stand at its distance. -/
def Committed (cfg : Config) (x : Input) (c : Cctx) (tr : Triple) : Prop :=
  x.small cfg = false ∧ (x.p0 + x.n < 2 ^ 32 → Copies c x.src (x.p0 + tr.start) tr.d tr.ml)

/-- The triple of a match found at index `i` and not pulled backward. -/
def Match.foundAt (m : Match) (i : Nat) : Triple := ⟨i, m.offset.toNat, m.length.toNat⟩

theorem committed_same (hs : sameButTables c t) {tr : Triple} :
    Committed cfg x t tr ↔ Committed cfg x c tr := by
  simp only [Committed, copies_same hs]

theorem Committed.shorter (h : Committed cfg x c ⟨i, d, n⟩) (hk : k ≤ n) :
    Committed cfg x c ⟨i, d, k⟩ :=
  ⟨h.1, fun hfit => (h.2 hfit).shorter hk⟩

theorem Input.positionsFit (hfit : x.p0 + x.n < 2 ^ 32) (hi : i ≤ x.n) :
    PositionsFit (x.p0 + i) x.high :=
  ⟨by omega, Nat.lt_of_le_of_lt (Nat.sub_le _ _) hfit⟩

theorem Input.not_small_of_accepts {litLen ml last : Nat}
    (h : x.accepts cfg litLen d ml last = true) : x.small cfg = false := by
  rw [Input.accepts, Bool.and_eq_true, Bool.not_eq_true'] at h
  exact h.1

/-- Pulling a match backward adds bytes that stand at its distance too (R211). -/
theorem Committed.commit {m : Match} {anchor : Nat} (h : Committed cfg x c (m.foundAt i))
    (hi : i ≤ x.n) : Committed cfg x c
      ((m.commit (backAdjust c x.src (x.p0 + i) m.offset.toNat (x.p0 + anchor))).triple i) := by
  refine ⟨h.1, fun hfit => ?_⟩
  have hback := backAdjust_le c x.src (x.p0 + i) m.offset.toNat (x.p0 + anchor)
  obtain ⟨-, htriple⟩ := Match.triple_commit m i (Nat.lt_of_le_of_lt hback (by omega))
  rw [htriple]
  dsimp only
  rw [← Nat.add_sub_assoc (by omega)]
  exact Copies.extendBack (Nat.le_max_left _ _) _ (h.2 hfit)

/-! ## `fast` (R301) -/

theorem probe_committed {anchor q : Nat} (hprobe : probeHit x c (x.p0 + i) q = true)
    (hsmall : x.small cfg = false) (hi : i ≤ x.n) :
    Committed cfg x c ((probeMatch x c i anchor q).triple i) := by
  rw [probeHit, Bool.and_eq_true, usable, decide_eq_true_eq] at hprobe
  obtain ⟨⟨-, hlt, hlow⟩, -⟩ := hprobe
  refine ⟨hsmall, fun hfit => ?_⟩
  have hfits := Input.positionsFit hfit hi
  have hoff : (Match.of (x.p0 + i - q) (count c x.src (x.p0 + i) q x.high)).offset.toNat
      = x.p0 + i - q := toNat_u32 (Nat.lt_of_le_of_lt (Nat.sub_le _ _) hfits.position)
  have hfound : Committed cfg x c
      ((Match.of (x.p0 + i - q) (count c x.src (x.p0 + i) q x.high)).foundAt i) := by
    have hcopies := copies_count (c := c) (src := x.src) (high := x.high)
      (show lowEff c (x.p0 + i) + (x.p0 + i - q) ≤ x.p0 + i by omega)
    rw [Nat.sub_sub_self (Nat.le_of_lt hlt)] at hcopies
    rw [Match.foundAt, hoff, hfits.toNat_length_count]
    exact ⟨hsmall, fun _ => hcopies⟩
  have hcopied := (hfound.commit (anchor := anchor) hi).2 hfit
  rwa [hoff] at hcopied

theorem committed_fastLoop :
    ∀ fuel i anchor misses last (c : Cctx),
      ∀ tr ∈ (fastLoop cfg x fuel i anchor misses last c).triples, Committed cfg x c tr
  | 0, _, _, _, _, _ => nofun
  | fuel + 1, i, anchor, misses, last, c => by
    rw [fastLoop]
    split
    · exact nofun
    next he =>
    dsimp only
    generalize hc1 : { c with hashTable := c.hashTable.write _ _ } = c1
    have hs : sameButTables c c1 := hc1 ▸ rfl
    have hrest := committed_fastLoop fuel (c := c1)
    simp only [committed_same hs] at hrest
    split
    next hhit =>
      rw [Bool.and_eq_true] at hhit
      obtain ⟨hprobe, haccepts⟩ := hhit
      exact List.forall_mem_cons.mpr ⟨(committed_same hs).mp (probe_committed hprobe
        (Input.not_small_of_accepts haccepts) (Input.le_of_eligible he)), hrest _ _ _ _⟩
    · exact hrest _ _ _ _

/-! ## `price_fast` and `lowest_price` (R302 to R304) -/

theorem sameButTables_of_bestAcc {anchor last : Nat} {r : Option Match}
    (h : bestAcc cfg x i anchor last c = (r, t)) : sameButTables c t := by
  rw [show t = (bestAcc cfg x i anchor last c).2 by rw [h]]
  exact sameButTables_insertUpTo_mfInsert ..

theorem bestAcc_committed {anchor last : Nat} {m : Match} (hi : i ≤ x.n)
    (h : bestAcc cfg x i anchor last c = (some m, t)) :
    sameButTables c t ∧ Committed cfg x t (m.foundAt i) := by
  have hs := sameButTables_of_bestAcc h
  have hm : (bestAcc cfg x i anchor last c).1 = some m := by rw [h]
  obtain ⟨hfound, haccepts⟩ := Option.filter_eq_some_iff.mp hm
  exact ⟨hs, (committed_same hs).mpr ⟨Input.not_small_of_accepts haccepts, fun hfit =>
    (mfFindBest_returnable (Input.positionsFit hfit hi) m hfound).copies⟩⟩

/-- The lookahead ends with the match it started from or a later one. -/
theorem lookahead_committed {anchor last : Nat} :
    ∀ k j m (c : Cctx), Committed cfg x c (m.foundAt j) →
      sameButTables c (lookahead cfg x anchor last k j m c).2.2 ∧
      Committed cfg x (lookahead cfg x anchor last k j m c).2.2
        ((lookahead cfg x anchor last k j m c).2.1.foundAt (lookahead cfg x anchor last k j m c).1)
  | 0, _, _, _, h => ⟨rfl, h⟩
  | k + 1, j, m, c, h => by
    rw [lookahead]
    split
    · exact ⟨rfl, h⟩
    next he =>
    split
    next m2 c1 heq =>
      obtain ⟨hs, hm2⟩ := bestAcc_committed (Input.le_of_eligible he) heq
      split
      · obtain ⟨hs', hr⟩ := lookahead_committed (anchor := anchor) (last := last) k (j + 1) m2 c1 hm2
        exact ⟨sameButTables_trans hs hs', hr⟩
      · exact ⟨hs, (committed_same hs).mpr h⟩
    next c1 heq =>
      have hs := sameButTables_of_bestAcc heq
      exact ⟨hs, (committed_same hs).mpr h⟩

theorem committed_lookaheadLoop {depth : Nat} :
    ∀ fuel i anchor last (c : Cctx),
      ∀ tr ∈ (lookaheadLoop cfg x depth fuel i anchor last c).triples, Committed cfg x c tr
  | 0, _, _, _, _ => nofun
  | fuel + 1, i, anchor, last, c => by
    rw [lookaheadLoop]
    split
    · exact nofun
    next he =>
    split
    next c1 heq =>
      have hrest := committed_lookaheadLoop (depth := depth) fuel (i + 1) anchor last c1
      simpa only [committed_same (sameButTables_of_bestAcc heq)] using hrest
    next m0 c1 heq =>
      have hi := Input.le_of_eligible he
      obtain ⟨hs, hm0⟩ := bestAcc_committed hi heq
      have hlen := bestAcc_length heq
      obtain ⟨hs', hr⟩ := lookahead_committed (anchor := anchor) (last := last) depth i m0 c1 hm0
      obtain ⟨-, hend⟩ := lookahead_span (cfg := cfg) (x := x) (anchor := anchor) (last := last)
        depth i m0 c1 (by omega)
      replace hs := sameButTables_trans hs hs'
      dsimp only
      generalize lookahead cfg x anchor last depth i m0 c1 = r at hs hr hend
      have hrest := committed_lookaheadLoop (depth := depth) fuel (c := r.2.2)
      simp only [committed_same hs] at hrest
      split
      · exact List.forall_mem_cons.mpr
          ⟨(committed_same hs).mp (hr.commit (by omega)), hrest _ _ _⟩
      · exact hrest _ _ _

/-! ## `optimal_price` and `optimal_price_bt` (R305 to R308) -/

/-! ### The candidates -/

theorem firstOf_returnable (hs : sameButTables c t) (hfit : PositionsFit p high) {minLen : Nat} :
    ∀ m ∈ firstOf (h3Cand cfg t src p high) minLen, Returnable c src p high m := by
  intro m hm
  cases hm3 : h3Cand cfg t src p high with
  | none =>
    rw [hm3] at hm
    cases hm
  | some m3 =>
    rw [hm3, firstOf] at hm
    split at hm
    · rw [List.mem_singleton.mp hm]
      exact h3Cand_returnable hs hfit hm3
    · cases hm

theorem findAll_returnable {bt : Bool} (hfit : PositionsFit p x.high) :
    ∀ m ∈ (findAll cfg x bt p c).1, Returnable c x.src p x.high m := by
  cases bt with
  | false =>
    have hs := sameButTables_insertUpTo_mfInsert cfg x.src p c
    exact List.forall_mem_append.mpr
      ⟨firstOf_returnable hs hfit, (walkAll_foundFrom hs hfit _ _ _ _).returnable⟩
  | true =>
    have hs := sameButTables_insertUpTo_btInsert cfg x.src x.high p c
    exact List.forall_mem_append.mpr
      ⟨firstOf_returnable (sameButTables_btBucketed hs) hfit,
        (btLoop_foundFrom hfit _ _ ⟨⟨p, 0⟩, ⟨p, 1⟩, 0, 0, _, _⟩ _ (sameButTables_btRooted hs)
          (Nat.zero_le _) (Nat.zero_le _)).returnable⟩

theorem sameButTables_findAll {bt : Bool} : sameButTables c (findAll cfg x bt p c).2 := by
  cases bt with
  | false => exact sameButTables_insertUpTo_mfInsert ..
  | true => exact (searched_btFindAll (Nat.lt_succ_self p)).same

theorem candsOf_copies : ∀ prevLen (ms : List Match), (∀ m ∈ ms, Returnable c src p high m) →
    ∀ cd ∈ candsOf prevLen ms, Copies c src p cd.d cd.len
  | _, [], _ => nofun
  | _, m :: ms, h => by
    obtain ⟨hm, hms⟩ := List.forall_mem_cons.mp h
    exact List.forall_mem_cons.mpr ⟨hm.copies, candsOf_copies _ ms hms⟩

theorem repCand_copies {rep : Nat} : ∀ cd ∈ repCand x c p rep, Copies c x.src p cd.d cd.len := by
  rw [repCand]
  split
  next hrep =>
    dsimp only
    split
    · exact List.forall_mem_singleton.mpr (copies_count hrep.2)
    · exact nofun
  · exact nofun

/-- The candidates a node is relaxed along (R306); a small input has none (R296). -/
theorem cands_committed {bt : Bool} {rep : Nat} (hi : i ≤ x.n) :
    ∀ cd ∈ (if x.small cfg then [] else
        repCand x c (x.p0 + i) rep ++ candsOf (minMatch - 1) (findAll cfg x bt (x.p0 + i) c).1),
      Committed cfg x c ⟨i, cd.d, cd.len⟩ := by
  split
  · exact nofun
  next hsmall =>
    refine fun cd hcd => ⟨Bool.not_eq_true _ ▸ hsmall, fun hfit => ?_⟩
    rcases List.mem_append.mp hcd with hcd | hcd
    · exact repCand_copies cd hcd
    · exact candsOf_copies _ _ (findAll_returnable (Input.positionsFit hfit hi)) cd hcd

/-! ### The nodes of a window -/

/-- Every match step that a node of the window at `i` records may be committed. -/
def NodesCommitted (cfg : Config) (x : Input) (c : Cctx) (i : Nat) (w : Nodes) : Prop :=
  ∀ e v, sparseGet e w.opt = some v → v.off ≠ 0 → Committed cfg x c ⟨i + v.prev, v.off, v.ml⟩

section Window
variable {node : Node} {w : Nodes}

theorem nodesCommitted_same (hs : sameButTables c t) :
    NodesCommitted cfg x t i w ↔ NodesCommitted cfg x c i w := by
  simp only [NodesCommitted, committed_same hs]

theorem nodesCommitted_start (hoff : node.off = 0) (emax : Nat) :
    NodesCommitted cfg x c i ⟨[(0, node)], emax⟩ := by
  intro e v hv hne
  rw [sparseGet] at hv
  split at hv
  · exact absurd (Option.some.inj hv ▸ hoff) hne
  · split at hv <;> cases hv

theorem NodesCommitted.relax {v : Node} {e : Nat} (h : NodesCommitted cfg x c i w)
    (hv : v.off ≠ 0 → Committed cfg x c ⟨i + v.prev, v.off, v.ml⟩) :
    NodesCommitted cfg x c i (relax e v w) := by
  intro e' v' hget
  rcases sparseGet_relax hget with ⟨-, rfl⟩ | hold
  · exact hv
  · exact h e' v' hold

theorem NodesCommitted.relaxLengths :
    ∀ cnt ml {w : Nodes}, (∀ j, j < cnt → Committed cfg x c ⟨i + k, d, ml + j⟩) →
      NodesCommitted cfg x c i w → NodesCommitted cfg x c i (relaxLengths k node d cnt ml w)
  | 0, _, _, _, h => h
  | cnt + 1, ml, w, hlen, h => by
    rw [Machine.relaxLengths]
    refine NodesCommitted.relaxLengths cnt (ml + 1) (fun j hj => ?_) ?_
    · rw [Nat.add_right_comm]
      exact hlen (j + 1) (Nat.succ_lt_succ hj)
    · split
      · exact h.relax fun _ => hlen 0 (Nat.succ_pos cnt)
      · exact h

theorem NodesCommitted.relaxCands :
    ∀ cands {w : Nodes}, (∀ cd ∈ cands, Committed cfg x c ⟨i + k, cd.d, cd.len⟩) →
      NodesCommitted cfg x c i w → NodesCommitted cfg x c i (relaxCands k node cands w)
  | [], _, _, h => h
  | cd :: cands, w, hcands, h => by
    obtain ⟨hcd, hrest⟩ := List.forall_mem_cons.mp hcands
    rw [Machine.relaxCands]
    exact .relaxCands cands hrest (h.relaxLengths _ _ fun j hj => hcd.shorter (by omega))

theorem nodesCommitted_windowLoop {bt : Bool} :
    ∀ cnt k w (c : Cctx), i + k + cnt ≤ x.n + 1 → NodesCommitted cfg x c i w →
      sameButTables c (windowLoop cfg x bt i cnt k w c).2 ∧
      NodesCommitted cfg x c i (windowLoop cfg x bt i cnt k w c).1
  | 0, _, _, _, _, h => ⟨rfl, h⟩
  | cnt + 1, k, w, c, hk, h => by
    rw [windowLoop]
    split
    · exact ⟨rfl, h⟩
    next node hnode =>
    have hs : sameButTables c (findAll cfg x bt (x.p0 + i + k) c).2 := sameButTables_findAll
    have hcands := cands_committed (cfg := cfg) (c := c) (bt := bt) (rep := node.rep)
      (show i + k ≤ x.n by omega)
    rw [← Nat.add_assoc] at hcands
    have hnext := (h.relax (v := ⟨node.price + 1, node.litlen + 1, k, 0, 1, node.rep⟩)
      (e := k + 1) (absurd rfl)).relaxCands (node := node) _ hcands
    dsimp only
    generalize (if x.small cfg = true then [] else _ : List Cand) = cands at hnext ⊢
    split
    · exact ⟨hs, hnext⟩
    · rw [← nodesCommitted_same hs] at hnext
      obtain ⟨hs', hrest⟩ := nodesCommitted_windowLoop (bt := bt) cnt (k + 1) _ _ (by omega) hnext
      exact ⟨sameButTables_trans hs hs', (nodesCommitted_same hs).mp hrest⟩

theorem NodesCommitted.backtrace (h : NodesCommitted cfg x c i w) :
    ∀ fuel e, ∀ tr ∈ backtrace i w fuel e, Committed cfg x c tr
  | 0, _ => nofun
  | fuel + 1, e => by
    rw [Machine.backtrace]
    split
    · exact nofun
    split
    · exact nofun
    next v hv =>
    split
    · exact h.backtrace fuel v.prev
    next hoff => exact List.forall_mem_cons.mpr ⟨h e v hv hoff, h.backtrace fuel v.prev⟩

end Window

theorem committed_optimalLoop {bt : Bool} :
    ∀ fuel i anchor last (c : Cctx),
      ∀ tr ∈ (optimalLoop cfg x bt fuel i anchor last c).triples, Committed cfg x c tr
  | 0, _, _, _, _ => nofun
  | fuel + 1, i, anchor, last, c => by
    rw [optimalLoop]
    split
    · exact nofun
    next he =>
    simp only [Input.eligible, Bool.not_eq_true', decide_eq_false_iff_not, not_not] at he
    obtain ⟨hs, hnodes⟩ := nodesCommitted_windowLoop (cfg := cfg) (x := x) (i := i) (bt := bt)
      (min optNum (x.n - cfg.mfLimit - i + 1)) 0 _ c (by omega)
      (nodesCommitted_start (node := ⟨0, i - anchor, 0, 0, 0, last⟩) rfl 0)
    refine List.forall_mem_append.mpr ⟨fun tr htr => ?_, fun tr htr => ?_⟩
    · exact hnodes.backtrace _ _ tr (List.mem_reverse.mp htr)
    · exact (committed_same hs).mp (committed_optimalLoop fuel _ _ _ _ tr htr)

/-! ## Every strategy -/

theorem committed_parseWith (strategy : Strategy) :
    ∀ tr ∈ (parseWith cfg strategy x c).triples, Committed cfg x c tr := by
  cases strategy with
  | fast => exact committed_fastLoop _ _ _ _ _ c
  | priceFast | lowestPrice => exact committed_lookaheadLoop _ _ _ _ c
  | optimalPrice | optimalPriceBt => exact committed_optimalLoop _ _ _ _ c

/-- A small input is not parsed into any match (R296). -/
theorem parseWith_triples_of_small (strategy : Strategy) (hsmall : x.small cfg = true) :
    (parseWith cfg strategy x c).triples = [] := by
  refine List.eq_nil_iff_forall_not_mem.mpr fun tr htr => ?_
  rw [(committed_parseWith strategy tr htr).1] at hsmall
  cases hsmall

/-! ## `ENCODE` (R290) -/

/-- The parse `ENCODE` packs. -/
def encodeParse (cfg : Config) (src : List Byte) (c : Cctx) : List Triple :=
  (parseWith cfg (encodeStart cfg src.length c).row.strategy
    ⟨(encodeStart cfg src.length c).currentOffset.toNat, src⟩ (encodeStart cfg src.length c)).triples

theorem encodeBlock_bytes (cfg : Config) (src : List Byte) (c : Cctx) :
    (encodeBlock cfg src c).bytes = (pack src (encodeParse cfg src c)).1 := rfl

theorem encodeParse_of_small (hsmall : src.length < cfg.mfLimit + 1) (c : Cctx) :
    encodeParse cfg src c = [] :=
  parseWith_triples_of_small _ (decide_eq_true hsmall)

end Sys2Proof.Machine

namespace Sys2Proof.Proofs
open Sys2Proof.Machine

/-- Settles O33: an accepted parse pays for its overhead, and a small input has the empty parse. -/
theorem encodeWithinBound : Obligations.EncodeWithinBound := by
  intro cfg src c
  refine ⟨length_encodeBlock_le cfg src c, fun hsmall => ?_⟩
  rw [encodeBlock_bytes, encodeParse_of_small hsmall]
  exact emitLastBytes_eq src

end Sys2Proof.Proofs
end

section
/-! The round trip of `ENCODE` (spec/42_block_encoder.md R293): where R49 holds, the position space is the
history followed by the input (spec/20_memory.md R106), so a parse whose matches copy bytes of the
position space is one the packer's round trip takes. -/

namespace Sys2Proof.Machine
open Sys2Proof.Claims

variable {cfg : Config} {src : List Byte} {c : Cctx}

/-! ## The position space as a list (R106) -/

/-- The history fills the position space below the input (R48, R49). -/
theorem Cctx.Inv.dictLimit_eq (hc : c.Inv cfg) :
    c.dictLimit.toNat = c.lowLimit.toNat + c.hist.length := by
  obtain ⟨-, -, hlow, hdict, -, hhist, -⟩ := Cctx.inv_iff.mp hc
  rw [hdict]
  omega

/-- `Ref` reads the history followed by the input, `lowLimit` being the first position. -/
theorem getElem?_ref (hdict : c.dictLimit.toNat = c.lowLimit.toNat + c.hist.length) {k : Nat}
    (hk : k < c.hist.length + src.length) :
    (c.hist ++ src)[k]? = some (ref c src (c.lowLimit.toNat + k)) := by
  rw [ref]
  by_cases hhist : k < c.hist.length
  · rw [if_pos (by omega), Nat.add_sub_cancel_left, List.getElem?_append_left hhist,
      List.getD_eq_getElem _ _ hhist, List.getElem?_eq_getElem hhist]
  · rw [if_neg (by omega), if_pos (by omega), List.getElem?_append_right (by omega),
      List.getD_eq_getElem _ _ (by omega), List.getElem?_eq_getElem (by omega)]
    simp only [hdict, Nat.add_sub_add_left]

/-- An accepted parse whose matches copy bytes of the position space is one of the input against the
history. -/
theorem parseOk_of_copies (hdict : c.dictLimit.toNat = c.lowLimit.toNat + c.hist.length) :
    ∀ ts anchor last, acceptedParse src.length anchor last ts →
      (∀ t ∈ ts, Copies c src (c.dictLimit.toNat + t.start) t.d t.ml) → parseOk c.hist src anchor ts
  | [], _, _, h, _ => h
  | t :: ts, _, _, ⟨hstart, hend, hacc, hrest⟩, hcopies => by
    obtain ⟨⟨hinside, hbytes⟩, htail⟩ := List.forall_mem_cons.mp hcopies
    simp only [accept, Bool.and_eq_true, decide_eq_true_eq] at hacc
    obtain ⟨⟨hml, hpos, hmax⟩, -⟩ := hacc
    refine ⟨hstart, hend, hml, hpos, hmax, by omega, fun j hj => ?_,
      parseOk_of_copies hdict ts _ _ hrest htail⟩
    rw [getElem?_ref hdict (by omega), getElem?_ref hdict (by omega)]
    have hsame := hbytes j hj
    rw [hdict] at hsame
    rw [← Nat.add_sub_assoc (by omega), ← Nat.add_assoc, ← Nat.add_assoc, hsame]

/-! ## `ENCODE` (R290) -/

/-- Renormalization moves positions and keeps the history (R424). -/
theorem encodeStart_hist (n : Nat) : (encodeStart cfg n c).hist = c.hist := by
  simp only [encodeStart]
  split <;> rfl

theorem parseOk_encodeParse (hp : paramsFit cfg) (hc : c.Inv cfg)
    (hn : src.length ≤ cfg.maxInputSize) : parseOk c.hist src 0 (encodeParse cfg src c) := by
  obtain ⟨hstart, hroom⟩ := encodeStart_inv hp hn hc
  obtain ⟨-, -, -, hdict, -⟩ := Cctx.inv_iff.mp hstart
  obtain ⟨-, -, hword, -⟩ := hp
  rw [← encodeStart_hist (cfg := cfg) src.length]
  refine parseOk_of_copies hstart.dictLimit_eq _ 0 0 (acceptedParse_parseWith _ ⟨_, src⟩)
    fun t ht => ?_
  rw [hdict]
  exact (committed_parseWith _ t ht).2 (Nat.lt_of_le_of_lt hroom hword)

end Sys2Proof.Machine

namespace Sys2Proof.Proofs
open Sys2Proof.Machine

/-- Settles O34: what `ENCODE` packs is a parse of the input against the history, and the packer's
round trip does the rest. -/
theorem encodeThenDecode : Obligations.EncodeThenDecode := by
  intro cfg src c cap hp hc hn hcap
  rw [encodeBlock_bytes]
  exact packThenDecode c.hist src _ cap (parseOk_encodeParse hp hc hn) hcap

end Sys2Proof.Proofs
end

section
/-! The commands of the block encoder, end by end (spec/42_block_encoder.md R312, R313,
spec/44_streaming_dict.md R425). -/

namespace Sys2Proof.Machine
open Sys2Proof.Claims

variable {s : State} {c : Cctx} {h : BitVec 16} {fl mask : Byte} {a n d cap : U64}
  {prep : Cctx → Cctx} {m : Memory}

/-! ## Checks that pass -/

theorem withCctx_ready (hlegal : s.cfg.legal = true) (hc : s.cctx[h.toNat]? = some c)
    (halloc : c.alloc = true) (hfl : flagsWithin fl mask = true) (k : Cctx → Answer) :
    withCctx h fl mask s k = k c := by
  simp [withCctx, command_legal hlegal, hc, halloc, hfl]

theorem withBuffers_ok {cfg : Config} {ins : List Buffer} {out : Buffer}
    (hok : buffersOk cfg ins out) (k : Answer) : withBuffers cfg ins out k = k := by
  obtain ⟨hvalid, hapart⟩ := hok
  have hall : (out :: ins).all (fun b => b.valid cfg) = true := List.all_eq_true.mpr hvalid
  have hany : ¬ ins.any (fun b => b.overlaps out) = true := by simpa using hapart
  simp only [withBuffers, hall, Bool.not_true, Bool.false_eq_true, if_false, if_neg hany]

/-- `CLEAR()` leaves nothing of an allocated context but its level and row (R422). -/
theorem clear_eq_cleared (halloc : c.alloc = true) : c.clear = cleared true c.level c.row := by
  rw [Cctx.clear, halloc]
  rfl

/-! ## What a command leaves of memory (R103, R114) -/

theorem wrote_writeBytes (hm : m.wf = true) (lo : Nat) (bs : List Byte) :
    wrote m (m.writeBytes lo bs) lo bs bs.length := by
  refine ⟨Memory.readBytes_writeBytes hm lo bs, fun j hj => ?_⟩
  rw [Nat.max_self] at hj
  exact Memory.read_writeBytes_outside hm lo bs hj

theorem wrote_writeAny (hm : m.wf = true) (lo len k : Nat) :
    wrote m (m.writeAny lo len k) lo [] len := by
  refine ⟨rfl, fun j hj => ?_⟩
  rw [List.length_nil, Nat.zero_max] at hj
  exact Memory.read_writeAny_outside hm lo len k hj

/-! ## BLK_COMPRESS and BLK_COMPRESS_CONTINUE (R312, R425) -/

section Compress
variable (hlegal : s.cfg.legal = true) (hc : s.cctx[h.toNat]? = some c) (halloc : c.alloc = true)
  (hfl : flagsWithin fl 1#8 = true)
include hlegal hc halloc hfl

theorem compressCommand_tooLarge (hn : s.cfg.maxInputSize < n.toNat) :
    compressCommand prep h fl a n d cap s = raise .inputTooLarge s := by
  rw [compressCommand, withCctx_ready hlegal hc halloc hfl]
  exact if_pos hn

variable (hn : n.toNat ≤ s.cfg.maxInputSize)
include hn

theorem compressCommand_noRoom (hlimited : limitedFlag fl = false)
    (hcap : cap.toNat < compressBound n.toNat) :
    compressCommand prep h fl a n d cap s = raise .outputTooSmall s := by
  have hbound : (!limitedFlag fl && decide (cap.toNat < compressBound n.toNat)) = true := by
    rw [hlimited, decide_eq_true hcap]
    rfl
  rw [compressCommand, withCctx_ready hlegal hc halloc hfl]
  exact (if_neg (Nat.not_lt.mpr hn)).trans (if_pos hbound)

variable (hbuf : buffersOk s.cfg [buffer a n] (buffer d cap)) {e : Encoded}
  (he : encodeBlock s.cfg (s.mem.readBytes a.toNat n.toNat) (prep c) = e)
include hbuf he

theorem compressCommand_fits (hroom : limitedFlag fl = true ∨ compressBound n.toNat ≤ cap.toNat)
    (hfits : limitedFlag fl = false ∨ e.bytes.length ≤ cap.toNat) :
    compressCommand prep h fl a n d cap s = done (BitVec.ofNat 64 e.bytes.length)
      ((s.setCctx h.toNat e.cctx).memWrite d.toNat e.bytes) := by
  subst he
  have hbound : ¬ (!limitedFlag fl && decide (cap.toNat < compressBound n.toNat)) = true := by
    simpa [or_iff_not_imp_left] using hroom
  have hlimit : ¬ (limitedFlag fl && decide (cap.toNat <
      (encodeBlock s.cfg (s.mem.readBytes a.toNat n.toNat) (prep c)).bytes.length)) = true := by
    simpa [or_iff_not_imp_left] using hfits
  rw [compressCommand, withCctx_ready hlegal hc halloc hfl]
  exact (if_neg (Nat.not_lt.mpr hn)).trans
    ((if_neg hbound).trans ((withBuffers_ok hbuf _).trans (if_neg hlimit)))

theorem compressCommand_overflows (hlimited : limitedFlag fl = true)
    (hcap : cap.toNat < e.bytes.length) :
    compressCommand prep h fl a n d cap s = raise .outputTooSmall
      ((s.setCctx h.toNat e.cctx).anyValue d.toNat cap.toNat) := by
  subst he
  have hbound : ¬ (!limitedFlag fl && decide (cap.toNat < compressBound n.toNat)) = true := by
    rw [hlimited]
    nofun
  have hlimit : (limitedFlag fl && decide (cap.toNat <
      (encodeBlock s.cfg (s.mem.readBytes a.toNat n.toNat) (prep c)).bytes.length)) = true := by
    rw [hlimited, decide_eq_true hcap]
    rfl
  rw [compressCommand, withCctx_ready hlegal hc halloc hfl]
  exact (if_neg (Nat.not_lt.mpr hn)).trans
    ((if_neg hbound).trans ((withBuffers_ok hbuf _).trans (if_pos hlimit)))

end Compress

/-- Both commands are `compressCommand`, and what they do first to the context is CLEAR or nothing. -/
theorem exec_compress {i : Instr} {c0 : Cctx} (halloc : c.alloc = true)
    (hi : (i = .blkCompress h fl a n d cap ∧ c0 = cleared true c.level c.row) ∨
      (i = .blkCompressContinue h fl a n d cap ∧ c0 = c)) :
    ∃ prep : Cctx → Cctx, prep c = c0 ∧ exec i s = compressCommand prep h fl a n d cap s := by
  rcases hi with ⟨rfl, rfl⟩ | ⟨rfl, rfl⟩
  · exact ⟨Cctx.clear, clear_eq_cleared halloc, rfl⟩
  · exact ⟨fun c => c, rfl, rfl⟩

end Sys2Proof.Machine

namespace Sys2Proof.Proofs
open Sys2Proof.Machine Sys2Proof.Claims

/-- Settles O32: the checks in their order, then `ENCODE` and its write or its overflow. -/
theorem compressMeaning : Obligations.CompressMeaning := by
  intro s h fl a n d cap c hlegal hwf hc halloc hflag i c0 hi e
  obtain ⟨prep, rfl, hexec⟩ := exec_compress (s := s) halloc hi
  have hfl : flagsWithin fl 1#8 = true := by rcases hflag with rfl | rfl <;> rfl
  simp only [hexec]
  refine ⟨?tooLarge, ?noRoom, ?fits, ?overflows⟩
  case tooLarge => exact compressCommand_tooLarge hlegal hc halloc hfl
  case noRoom =>
    rintro hn rfl hcap
    exact compressCommand_noRoom hlegal hc halloc hfl hn rfl hcap
  case fits =>
    intro hn hbuf hfits
    refine ⟨_, ?_, wrote_writeBytes hwf d.toNat e.bytes⟩
    rcases hfits with ⟨rfl, hroom⟩ | ⟨rfl, hlen⟩
    · exact compressCommand_fits hlegal hc halloc hfl hn hbuf rfl (.inr hroom) (.inl rfl)
    · exact compressCommand_fits hlegal hc halloc hfl hn hbuf rfl (.inl rfl) (.inr hlen)
  case overflows =>
    rintro hn hbuf rfl hlen
    exact ⟨_, compressCommand_overflows hlegal hc halloc hfl hn hbuf rfl rfl hlen,
      wrote_writeAny hwf d.toNat cap.toNat s.draws⟩

/-- Settles O31: no flag is set, so only the size decides. -/
theorem compressBoundMeaning : Obligations.CompressBoundMeaning := by
  intro s h n hlegal
  have hexec : exec (.compressBound h 0#8 n) s =
      if s.cfg.maxInputSize < n.toNat then raise .inputTooLarge s
      else done (BitVec.ofNat 64 (compressBound n.toNat)) s := command_legal hlegal
  rw [hexec]
  exact ⟨fun hn => if_neg (Nat.not_lt.mpr hn), fun hn => if_pos hn⟩

end Sys2Proof.Proofs
end

section
/-! What the Sequence decoder finds in the input (spec/43_block_decoder.md R363 to R366, R371, R372,
R376 to R379): a length that reads back stands there as it would be written, so a Sequence that is
found is no longer than the input left, and each way a Sequence does not read has its count. -/

namespace Sys2Proof
open Sys2Proof.Machine

variable {bs rest r0 r1 : List Byte} {tok : Byte} {f mask n m : Nat} {lim : SeqLimits}

/-! ## Length fields (R143 to R145, R365) -/

theorem extBytes_add (e : Nat) : extBytes (255 + e) = 0xFF#8 :: extBytes e := by
  rw [extBytes, Nat.add_div_left e (by decide), Nat.add_mod_left, List.replicate_succ]
  rfl

theorem extBytes_toNat {b : Byte} (hb : b ≠ 0xFF#8) : extBytes b.toNat = [b] := by
  have hlt : b.toNat < 255 := by bv_omega
  rw [extBytes, Nat.div_eq_of_lt hlt, Nat.mod_eq_of_lt hlt, BitVec.ofNat_toNat, BitVec.setWidth_eq]
  rfl

/-- What `READEXT` reads is the extension its sum is written with. -/
theorem eq_extBytes_of_readExt :
    ∀ {bs : List Byte} {e : Nat}, readExt bs = some (e, rest) → bs = extBytes e ++ rest
  | [], _, h => nomatch h
  | b :: t, e, h => by
    rw [readExt] at h
    split at h
    next hb =>
      split at h
      · cases h
      next s rest' ht =>
        cases h
        rw [hb, extBytes_add, List.cons_append, ← eq_extBytes_of_readExt ht]
    next hb =>
      cases h
      rw [extBytes_toNat hb, List.singleton_append]

/-- An extension that the input ends inside does not read. -/
theorem readExt_eq_none : ∀ {bs : List Byte}, (∀ b ∈ bs, b = 0xFF#8) → readExt bs = none
  | [], _ => rfl
  | b :: t, h => by
    have hb : b = 0xFF#8 := h b List.mem_cons_self
    have ht : readExt t = none := readExt_eq_none fun c hc => h c (List.mem_cons_of_mem b hc)
    rw [readExt, if_pos hb, ht]

theorem readLen_eq_none (hf : f = mask) (h : ∀ b ∈ bs, b = 0xFF#8) : readLen f mask bs = none := by
  rw [readLen, if_pos hf, readExt_eq_none h]

/-- A length that reads back from a field of its width is written with the bytes read. -/
theorem eq_lenExt_of_readLen (hf : f ≤ mask) (h : readLen f mask bs = some (n, rest)) :
    bs = lenExt n mask ++ rest := by
  rw [readLen] at h
  split at h
  next =>
    split at h
    · cases h
    next e rest' he =>
      cases h
      rw [lenExt, if_pos (Nat.le_add_right _ _), Nat.add_sub_cancel_left,
        ← eq_extBytes_of_readExt he]
  next hne =>
    cases h
    rw [lenExt, if_neg (by omega), List.nil_append]

theorem lit_decodeToken_le : ∀ t : Byte, (decodeToken t).lit.toNat ≤ litMask (decodeToken t).cls := by
  decide

theorem length_lenExt_lit (n : Nat) (cls : OffClass) :
    (lenExt n (litMask cls)).length = litExt n (litBits cls) :=
  length_lenExt n (litBits cls)

theorem length_of_readLen_lit
    (h : readLen (decodeToken tok).lit.toNat (litMask (decodeToken tok).cls) r0 = some (n, r1)) :
    r0.length = litExt n (litBits (decodeToken tok).cls) + r1.length := by
  rw [eq_lenExt_of_readLen (lit_decodeToken_le tok) h, List.length_append, length_lenExt_lit]

theorem length_of_readLen_match {mf : BitVec 3} (h : readLen mf.toNat 7 bs = some (m, rest)) :
    bs.length = mlExt (m + minMatch) + rest.length := by
  rw [eq_lenExt_of_readLen (Nat.le_of_lt_succ mf.isLt) h, List.length_append, ← length_lenExt_match,
    Nat.add_sub_cancel]

/-! ## What a fetch finds (R363, R366, R377, R378) -/

/-- A fetch from `bs` is a rejection after at most the bytes of `bs`, or a Sequence of at most the
bytes of `bs` whose literals fit, terminal only where the decode ends after them. -/
inductive Found (lim : SeqLimits) (bs : List Byte) : SeqFetch → Prop
  | malformed {k : Nat} (hread : k ≤ bs.length) : Found lim bs (.malformed k)
  | terminal {cls : OffClass} {hi : BitVec 2} {mf : BitVec 3} {lits rest : List Byte} {k : Nat}
      (hroom : lits.length ≤ lim.room) (hend : endsAfterLits lim lits.length rest = true)
      (hread : lastLen lits.length cls ≤ bs.length) : Found lim bs (.seq (.last cls hi mf lits) k)
  | matched {cls : OffClass} {hi : BitVec 2} {ob lits : List Byte} {ml k : Nat}
      (hroom : lits.length ≤ lim.room) (hread : seqLen lits.length cls ml ≤ bs.length) :
      Found lim bs (.seq (mkSequence cls hi ob lits ml) k)

theorem found_decodeSeq (lim : SeqLimits) : ∀ bs : List Byte, Found lim bs (decodeSeq lim bs)
  | [] => .malformed (Nat.zero_le _)
  | tok :: r0 => by
    have htok : (tok :: r0).length = 1 + r0.length := Nat.add_comm _ _
    dsimp only [decodeSeq]
    split
    next => exact .malformed htok.ge
    next n r1 hlit =>
      have hlen := length_of_readLen_lit hlit
      split
      next => exact .malformed (by omega)
      split
      next => exact .malformed (by omega)
      next hin hroom =>
      have hlits : (r1.take n).length = n := List.length_take_of_le (Nat.not_lt.mp hin)
      have hdrop : (r1.drop n).length = r1.length - n := List.length_drop
      split
      next hend =>
        refine .terminal (rest := r1.drop n) (by omega) (by rwa [hlits]) ?_
        rw [hlits, lastLen]
        omega
      split
      next => exact .malformed (by omega)
      next hoff =>
      split
      next => exact .malformed htok.ge
      next m r2 hmatch =>
        have hext := length_of_readLen_match hmatch
        rw [List.length_drop] at hext
        refine .matched (by omega) ?_
        rw [hlits, seqLen]
        omega

/-- In endOnOutput without a target only a full output ends the decode (R378). -/
theorem room_eq_of_endsAfterLits (heoo : lim.eoo = true) (hwhole : lim.partialTo = none)
    (h : endsAfterLits lim n rest = true) : n = lim.room := by
  simpa [endsAfterLits, heoo, hwhole] using h

/-! ## Sequences that do not read (R364, R365, R371, R379) -/

theorem decodeSeq_openRun (hmask : (decodeToken tok).lit.toNat = litMask (decodeToken tok).cls)
    (h : ∀ b ∈ r0, b = 0xFF#8) : decodeSeq lim (tok :: r0) = .malformed (1 + r0.length) := by
  simp only [decodeSeq, readLen_eq_none hmask h]

section Run
variable
  (hlit : readLen (decodeToken tok).lit.toNat (litMask (decodeToken tok).cls) r0 = some (n, r1))
include hlit

theorem decodeSeq_shortRun (h : r1.length < n) :
    decodeSeq lim (tok :: r0) = .malformed (1 + (r0.length - r1.length)) := by
  simp only [decodeSeq, hlit, if_pos h]

variable (hin : n ≤ r1.length) (hroom : n ≤ lim.room)
  (hgo : endsAfterLits lim n (r1.drop n) = false)
include hin hroom hgo

theorem decodeSeq_shortOffset (h : r1.length < n + offBytes (decodeToken tok).cls) :
    decodeSeq lim (tok :: r0) = .malformed (1 + (r0.length - r1.length) + n) := by
  have hoff : (r1.drop n).length < offBytes (decodeToken tok).cls := by
    rw [List.length_drop]
    omega
  simp only [decodeSeq, hlit, if_neg (Nat.not_lt.mpr hin), if_neg (Nat.not_lt.mpr hroom), hgo,
    Bool.false_eq_true, if_false, if_pos hoff]

theorem decodeSeq_openMatch (hoff : n + offBytes (decodeToken tok).cls ≤ r1.length)
    (hmf : (decodeToken tok).mf = 7#3)
    (h : ∀ b ∈ r1.drop (n + offBytes (decodeToken tok).cls), b = 0xFF#8) :
    decodeSeq lim (tok :: r0) = .malformed (1 + r0.length) := by
  have hoff' : ¬ (r1.drop n).length < offBytes (decodeToken tok).cls := by
    rw [List.length_drop]
    omega
  have hmatch : readLen (decodeToken tok).mf.toNat 7
      ((r1.drop n).drop (offBytes (decodeToken tok).cls)) = none := by
    rw [List.drop_drop]
    exact readLen_eq_none (congrArg BitVec.toNat hmf) h
  simp only [decodeSeq, hlit, if_neg (Nat.not_lt.mpr hin), if_neg (Nat.not_lt.mpr hroom), hgo,
    Bool.false_eq_true, if_false, if_neg hoff', hmatch]

end Run

end Sys2Proof
end

section
/-! Safety of the block decoder (spec/43_block_decoder.md R371, R374, R378, R379, R384, R385): a round
over a Sequence that was found ends in one of four ways, each of them inside the input and the capacity
and, where the decode goes on, at least one byte further. -/

namespace Sys2Proof.Machine
open Sys2Proof.Claims

variable {lits : List Byte} {token : Byte} {cls : OffClass} {off ml n : Nat} {b : Bd}

/-! ## A Sequence that ends the decode (R373, R374, R377, R378) -/

/-- The registers a literal run past the capacity leaves: its token and extension are read (R374). -/
def litsRefused (b : Bd) (token : Byte) (cls : OffClass) (lits : List Byte) : Bd :=
  { b with
    ip := b.ip + 1 + litExt lits.length (litBits cls)
    token := token
    litLen := lits.length
    phase := .failed (b.ip + 1 + litExt lits.length (litBits cls)) }

/-- The registers a match with a bad offset or past the capacity leaves: the whole Sequence is read and
its literals are out (R373, R374). -/
def matchRefused (b : Bd) (token : Byte) (cls : OffClass) (lits : List Byte) (off ml : Nat) : Bd :=
  { b with
    ip := b.ip + seqLen lits.length cls ml
    out := b.out ++ lits
    token := token
    litLen := lits.length
    matchLen := ml
    off := u32 off
    phase := .failed (b.ip + seqLen lits.length cls ml) }

theorem bdSequence_of_overflow (h : b.cap < b.out.length + lits.length) :
    bdSequence token cls lits off ml b = litsRefused b token cls lits := by
  simp only [bdSequence, bdLiterals, if_pos h]
  rfl

theorem bdLast_of_overflow (h : b.cap < b.out.length + lits.length) :
    bdLast token cls lits b = litsRefused b token cls lits := by
  simp only [bdLast, bdLiterals, if_pos h]
  rfl

/-- A literal run that fits and is not gone on after meets the target or fills the output. -/
theorem stopsAfterLits_litsDone (hfits : b.out.length + lits.length ≤ b.cap)
    (hstop : ¬ litsGoOn b lits.length) :
    (litsDone b token cls lits).stopsAfterLits = true := by
  simp only [litsGoOn, hfits, true_and, not_and_or, Classical.not_imp, not_not, not_lt] at hstop
  simpa [Bd.stopsAfterLits, litsDone] using hstop

theorem bdSequence_of_stop (hfits : b.out.length + lits.length ≤ b.cap)
    (hstop : ¬ litsGoOn b lits.length) :
    bdSequence token cls lits off ml b = (litsDone b token cls lits).finish := by
  simp only [bdSequence, bdLiterals_of_fits hfits, stopsAfterLits_litsDone hfits hstop, Bool.not_true,
    Bool.false_eq_true, if_false, if_true]

theorem bdSequence_of_badMatch (hlits : litsGoOn b lits.length)
    (hbad : off = 0 ∨ b.out.length + lits.length + b.dict.length < off ∨
      b.cap < b.out.length + lits.length + ml) :
    bdSequence token cls lits off ml b = matchRefused b token cls lits off ml := by
  have hfits : b.out.length + lits.length ≤ b.cap := hlits.1
  have hmatch : bdMatch ⟨offBytes cls, off, ml⟩ (litsDone b token cls lits) =
      matchRefused b token cls lits off ml := by
    rw [← List.length_append, ← or_assoc] at hbad
    simp only [bdMatch, litsDone, Bd.fail, matchRefused, seqLen, lastLen, Nat.add_assoc]
    rcases hbad with hoff | hcap
    · rw [if_pos hoff]
    · rw [if_pos hcap, ite_self]
  simp only [bdSequence, bdLiterals_of_fits hfits, litsDone_goesOn hlits, Bool.not_true,
    Bool.false_eq_true, if_false, hmatch]

/-! ## One round (R363) -/

theorem bdFetch_malformed {k : Nat} (hp : b.phase = .running)
    (hopen : ¬ (b.eoo = true ∧ b.out.length = b.cap))
    (hd : decodeSeq b.limits (b.src.drop b.ip) = .malformed k) :
    bdFetch b = .malformed (b.ip + k) := by
  have hfull : ¬ (b.eoo && b.out.length == b.cap) = true := by simpa using hopen
  simp only [bdFetch, hp, if_neg hfull, hd]

theorem bdFetch_full (hp : b.phase = .running) (hfull : b.eoo = true ∧ b.out.length = b.cap) :
    bdFetch b = .full := by
  have hfull : (b.eoo && b.out.length == b.cap) = true := by simpa using hfull
  simp only [bdFetch, hp, if_pos hfull]

theorem bdExec_matched (cls : OffClass) (hi : BitVec 2) (ob lits : List Byte) (ml : Nat) (b : Bd) :
    ∃ token off, bdExec (mkSequence cls hi ob lits ml) b = bdSequence token cls lits off ml b := by
  cases cls <;> exact ⟨_, _, rfl⟩

/-! ## What every round keeps (R371, R374, R378, R379, R384, R385) -/

/-- A decode of `src` into `cap` bytes after `n` rounds: it is inside both, and it has read at least a
byte a round, or failed with `c = ip`, or ended, in endOnOutput without a target with the output
full. -/
structure Bd.Sound (src : List Byte) (cap : Nat) (eoo part : Bool) (n : Nat) (b : Bd) : Prop where
  src_eq : b.src = src
  eoo_eq : b.eoo = eoo
  part_eq : b.partialMode = part
  within : b.Within cap
  ip_le : b.ip ≤ src.length
  phase : (b.phase = .running ∧ n ≤ b.ip) ∨ b.phase = .failed b.ip ∨
    (b.phase = .ended ∧ (eoo = true → part = false → b.out.length = cap))

namespace Bd.Sound

variable {src : List Byte} {cap : Nat} {eoo part : Bool} {q : Sequence}

theorem of_idle (h : b.Sound src cap eoo part n) (hidle : b.phase ≠ .running) :
    b.Sound src cap eoo part (n + 1) :=
  ⟨h.src_eq, h.eoo_eq, h.part_eq, h.within, h.ip_le,
    .inr (h.phase.resolve_left fun hrun => hidle hrun.1)⟩

theorem finish_of_full (h : b.Sound src cap eoo part n) (hfull : b.out.length = b.cap) :
    b.finish.Sound src cap eoo part (n + 1) :=
  ⟨h.src_eq, h.eoo_eq, h.part_eq, h.within, h.ip_le,
    .inr (.inr ⟨rfl, fun _ _ => hfull.trans h.within.1⟩)⟩

theorem failAt (h : b.Sound src cap eoo part n) {c : Nat} (hc : c ≤ src.length) :
    (b.failAt c).Sound src cap eoo part (n + 1) :=
  ⟨h.src_eq, h.eoo_eq, h.part_eq, h.within, hc, .inr (.inl rfl)⟩

/-- A literal run of a Sequence that was found fits (R374). -/
theorem fits_of_room (h : b.Sound src cap eoo part n) {m : Nat} (hroom : m ≤ b.limits.room) :
    b.out.length + m ≤ b.cap := by
  obtain ⟨rfl, hout⟩ := h.within
  exact Nat.add_le_of_le_sub' hout hroom

/-- A literal run the decode ends with. -/
theorem finish_litsDone (h : b.Sound src cap eoo part n)
    (hfits : b.out.length + lits.length ≤ b.cap)
    (hread : b.ip + lastLen lits.length cls ≤ src.length)
    (hfull : eoo = true → part = false → b.out.length + lits.length = b.cap) :
    (litsDone b token cls lits).finish.Sound src cap eoo part (n + 1) := by
  obtain ⟨hcap, -⟩ := h.within
  have hlen : (b.out ++ lits).length = b.out.length + lits.length := List.length_append
  refine ⟨h.src_eq, h.eoo_eq, h.part_eq, ⟨hcap, ?_⟩, hread, .inr (.inr ⟨rfl, fun heoo hpart => ?_⟩)⟩
  · exact (hlen.trans_le hfits).trans_eq hcap
  · exact (hlen.trans (hfull heoo hpart)).trans hcap

theorem sequence (h : b.Sound src cap eoo part n) (hp : b.phase = .running)
    (hfits : b.out.length + lits.length ≤ b.cap)
    (hread : b.ip + seqLen lits.length cls ml ≤ src.length) :
    (bdSequence token cls lits off ml b).Sound src cap eoo part (n + 1) := by
  have hwithin := within_bdSequence (token := token) (cls := cls) (lits := lits) (off := off)
    (ml := ml) h.within
  have hip : n ≤ b.ip := by simpa [hp] using h.phase
  by_cases hgo : litsGoOn b lits.length
  case neg =>
    rw [bdSequence_of_stop hfits hgo]
    refine h.finish_litsDone hfits ?_ fun heoo hpart => ?_
    · rw [lastLen]
      rw [seqLen] at hread
      omega
    · by_contra hopen
      exact hgo ⟨hfits, by simp [h.part_eq, hpart], fun _ => hopen⟩
  by_cases hgood : 1 ≤ off ∧ off ≤ b.out.length + lits.length + b.dict.length ∧
    b.out.length + lits.length + ml ≤ b.cap
  case neg =>
    rw [bdSequence_of_badMatch hgo (by omega)] at hwithin ⊢
    exact ⟨h.src_eq, h.eoo_eq, h.part_eq, hwithin, hread, .inr (.inl rfl)⟩
  obtain ⟨hpos, hle, hcap⟩ := hgood
  rw [bdSequence_of_fits hgo hpos hle hcap] at hwithin ⊢
  refine ⟨h.src_eq, h.eoo_eq, h.part_eq, hwithin, hread, ?_⟩
  dsimp only [matchDone]
  split
  next htarget =>
    refine .inr (.inr ⟨rfl, fun _ hpart => ?_⟩)
    rw [h.part_eq, hpart] at htarget
    exact absurd htarget.1 nofun
  next =>
    refine .inl ⟨rfl, ?_⟩
    rw [seqLen]
    omega

theorem round (h : b.Sound src cap eoo part n) : (bdRound b).Sound src cap eoo part (n + 1) := by
  by_cases hp : b.phase = .running
  case neg =>
    rw [bdRound, bdFetch_idle hp]
    exact h.of_idle hp
  by_cases hfull : b.eoo = true ∧ b.out.length = b.cap
  case pos =>
    rw [bdRound, bdFetch_full hp hfull]
    exact h.finish_of_full hfull.2
  have hleft : (b.src.drop b.ip).length = src.length - b.ip := by rw [h.src_eq, List.length_drop]
  have hip := h.ip_le
  have hfound := found_decodeSeq b.limits (b.src.drop b.ip)
  generalize hd : decodeSeq b.limits (b.src.drop b.ip) = r at hfound
  cases hfound with
  | malformed hread =>
    rw [bdRound, bdFetch_malformed hp hfull hd]
    exact h.failAt (by omega)
  | @terminal cls hi mf lits rest k hroom hend hread =>
    have hfits := h.fits_of_room hroom
    rw [bdRound, bdFetch_sequence hp hfull hd]
    dsimp only [bdExec, bdTerminal]
    rw [bdLast_of_fits hfits]
    refine h.finish_litsDone hfits (by omega) fun heoo hpart => ?_
    have hlits : lits.length = b.cap - b.out.length :=
      room_eq_of_endsAfterLits (h.eoo_eq.trans heoo) (by simp [Bd.limits, h.part_eq, hpart]) hend
    omega
  | @matched cls hi ob lits ml k hroom hread =>
    have hfits := h.fits_of_room hroom
    obtain ⟨token, off, hexec⟩ := bdExec_matched cls hi ob lits ml b
    rw [bdRound, bdFetch_sequence hp hfull hd]
    dsimp only
    rw [hexec]
    exact h.sequence hp hfits (by omega)

theorem loop : ∀ (k n : Nat) (b : Bd), b.Sound src cap eoo part n →
    (bdLoop k b).Sound src cap eoo part (n + k)
  | 0, _, _, h => h
  | k + 1, n, b, h => by
    rw [bdLoop, ← Nat.succ_add_eq_add_succ]
    exact loop k (n + 1) (bdRound b) h.round

theorem start (src : List Byte) (cap : Nat) (D : List Byte) (eoo part : Bool) (target : Nat) :
    (Bd.start src cap D eoo part target).Sound src cap eoo part 0 :=
  ⟨rfl, rfl, rfl, ⟨rfl, Nat.zero_le cap⟩, Nat.zero_le _, .inl ⟨rfl, Nat.le_refl 0⟩⟩

/-- More rounds than the input has bytes end the decode (R385). -/
theorem not_running (h : b.Sound src cap eoo part n) (hn : src.length < n) :
    b.phase ≠ .running := by
  intro hp
  have hip : n ≤ b.ip := by simpa [hp] using h.phase
  have := h.ip_le
  omega

theorem count_le (h : b.Sound src cap eoo part n) {c : Nat} (hc : b.phase = .failed c) :
    c ≤ src.length := by
  have hcount : c = b.ip := by simpa [hc] using h.phase
  exact hcount.trans_le h.ip_le

theorem full (h : b.Sound src cap eoo part n) (hend : b.phase = .ended) (heoo : eoo = true)
    (hpart : part = false) : b.out.length = cap := by
  simpa [hend, heoo, hpart] using h.phase

end Bd.Sound

theorem sound_decodeBlock (src : List Byte) (cap : Nat) (D : List Byte) (eoo part : Bool)
    (target : Nat) :
    (decodeBlock src cap D eoo part target).Sound src cap eoo part (src.length + 1) := by
  have h := (Bd.Sound.start src cap D eoo part target).loop (src.length + 1) 0
  rwa [Nat.zero_add] at h

end Sys2Proof.Machine

namespace Sys2Proof.Proofs
open Sys2Proof.Machine

/-- Settles O46: every round keeps a decode inside its input and its capacity and reads a byte or ends
it, and there are more rounds than bytes. -/
theorem decodeSafety : Obligations.DecodeSafety := by
  intro src cap D eoo part target b
  have h : b.Sound src cap eoo part (src.length + 1) :=
    sound_decodeBlock src cap D eoo part target
  refine ⟨h.not_running (Nat.lt_succ_self _), h.within.2, h.ip_le, fun c => h.count_le, h.full, ?_⟩
  rintro rfl rfl
  rfl

end Sys2Proof.Proofs
end

section
/-! The Sequences as instructions (spec/43_block_decoder.md R364 to R379, R381): the registers each
leaves where nothing fails, and the count each failing check reports. -/

namespace Sys2Proof.Machine
open Sys2Proof.Claims

variable {s : State} {i : Instr} {b : Bd} {D lits r ext r2 : List Byte} {token tok : Byte}
  {cls : OffClass} {off ml n k : Nat}

/-! ## Copying (R375) -/

/-- `MATCHCOPY` puts out what R107 and R111 say: each byte equals the one `off` places before it. -/
theorem matchRun_matchCopy (hpos : 1 ≤ off) : ∀ {ml : Nat} {out : List Byte},
    off ≤ out.length + D.length → matchRun D out off ml (matchCopy D off ml out)
  | 0, out, _ => ⟨rfl, List.take_length, nofun⟩
  | ml + 1, out, hle => by
    have hnext : (out ++ [dref D out off]).length = out.length + 1 := List.length_append
    obtain ⟨hlen, htake, hrun⟩ := matchRun_matchCopy hpos (ml := ml)
      (out := out ++ [dref D out off]) (by omega)
    rw [hnext] at hlen htake hrun
    rw [matchCopy]
    generalize matchCopy D off ml (out ++ [dref D out off]) = out' at hlen htake hrun
    have hout : out'.take out.length = out := by
      rw [← Nat.min_eq_left (Nat.le_succ out.length), ← List.take_take, htake, List.take_left]
    have hprefix : D ++ out = (D ++ out').take (D.length + out.length) := by
      rw [List.take_length_add_append, hout]
    refine ⟨by omega, hout, fun j hj => ?_⟩
    cases j with
    | zero =>
      calc out'[out.length]?
        _ = (out'.take (out.length + 1))[out.length]? :=
          (List.getElem?_take_of_lt (Nat.lt_succ_self _)).symm
        _ = some (dref D out off) := by rw [htake, List.getElem?_concat_length]
        _ = (D ++ out)[D.length + out.length - off]? := (getElem?_dref hpos hle).symm
        _ = (D ++ out')[D.length + out.length - off]? := by
          rw [hprefix, List.getElem?_take_of_lt (by omega)]
    | succ j =>
      have hbyte := hrun j (Nat.lt_of_succ_lt_succ hj)
      rwa [Nat.add_right_comm, Nat.add_assoc out.length,
        show D.length + (out.length + 1) + j = D.length + out.length + (j + 1) by omega] at hbyte

/-! ## What a Sequence answers (R34, R381) -/

theorem bdAnswer_failed {c : Nat} (h : b.phase = .failed c) :
    bdAnswer b s = .next ((s.setBd b).report 4#8 (sentinel c) 0#64 0#64) := by
  simp only [bdAnswer, h]
  rfl

theorem bdAnswer_of_not_failed (h : ∀ c, b.phase ≠ .failed c) : bdAnswer b s = .next (s.setBd b) := by
  unfold bdAnswer
  split
  next c hc => exact absurd hc (h c)
  next => rfl

/-- The four Sequences with a match execute alike (R367 to R370). -/
theorem exec_of_matchForm
    (hi : matchForm s.bd.lastOff.toNat i = some (token, cls, off, lits, ml)) :
    exec i s = bdAnswer (bdSequence token cls lits off ml s.bd) s := by
  cases i with
  | seqShort | seqRepeat | seqLong | seqMid =>
    cases hi
    rfl
  | _ => cases hi

theorem exec_seqLast (cls : OffClass) (hi : BitVec 2) (mf : BitVec 3) (lits : List Byte) (s : State) :
    exec (.seqLast cls hi mf lits) s =
      bdAnswer (bdLast (Sequence.token (.last cls hi mf lits)) cls lits s.bd) s := rfl

/-! ## Failing where the step reads the Sequence (R364, R365, R371, R379) -/

theorem fetchSequence_malformed {c : Nat} (h : bdFetch s.bd = .malformed c) :
    fetchSequence s = .answer (raiseMalformed c (s.setBd (s.bd.failAt c))) := by
  simp only [fetchSequence, h]

/-- The field `lit` and the extension of a run of `n` bytes are those `n` is written with. -/
theorem litRun_iff {mask lit : Nat} :
    litRun mask lit n ext ↔ lit = min n mask ∧ ext = lenExt n mask := by
  unfold litRun lenExt
  split
  next h => simp [h, extBytes]
  next h =>
    have hlt := Nat.not_le.mp h
    simp [h, hlt, Nat.min_eq_left hlt.le]

theorem readLen_of_litRun {mask lit : Nat} (h : litRun mask lit n ext) :
    readLen lit mask (ext ++ r2) = some (n, r2) := by
  obtain ⟨rfl, rfl⟩ := litRun_iff.mp h
  exact readLen_lenExt n mask r2

theorem room_of_litsGoOn (h : litsGoOn b n) : n ≤ b.limits.room :=
  Nat.le_sub_of_add_le' h.1

/-- The decode goes on after a literal run that meets none of R366, R377 and R378. -/
theorem endsAfterLits_of_litsGoOn (h : litsGoOn b n) (hmore : b.eoo = true ∨ r ≠ []) :
    endsAfterLits b.limits n r = false := by
  obtain ⟨hfits, hpartial, heoo⟩ := h
  have hempty : (!b.limits.eoo && r.isEmpty) = false := by
    simpa [Bd.limits, or_iff_not_imp_left] using hmore
  have hfull : (b.limits.eoo && n == b.limits.room) = false := by
    have hroom : b.eoo = true → n ≠ b.cap - b.out.length := fun h => by
      have := heoo h
      omega
    simpa [Bd.limits] using hroom
  rw [endsAfterLits, hempty, hfull, Bool.false_or, Bool.or_false]
  cases hp : b.partialMode with
  | false => simp [Bd.limits, hp]
  | true =>
    have hbefore := hpartial hp
    have htarget : ¬ b.target - b.out.length ≤ n := by omega
    simp [Bd.limits, hp, htarget]

section Read
variable (hs : s.stream = .sequence) (hp : s.bd.phase = .running)
  (hopen : ¬ (s.bd.eoo = true ∧ s.bd.out.length = s.bd.cap))
include hs hp hopen

theorem seqFailsAt_of_malformed
    (hd : decodeSeq s.bd.limits (s.bd.src.drop s.bd.ip) = .malformed k) : seqFailsAt s k :=
  step_of_fetch_answer ((fetch_sequence hs).trans
    (fetchSequence_malformed (bdFetch_malformed hp hopen hd)))

variable (hsrc : s.bd.src.drop s.bd.ip = tok :: r)
include hsrc

theorem seqFailsAt_openRun (hmask : (decodeToken tok).lit.toNat = litMask (decodeToken tok).cls)
    (hr : r = List.replicate r.length 255#8) : seqFailsAt s (1 + r.length) := by
  refine seqFailsAt_of_malformed hs hp hopen ?_
  rw [hsrc]
  exact decodeSeq_openRun hmask (List.eq_replicate_iff.mp hr).2

variable (hrun : litRun (litMask (decodeToken tok).cls) (decodeToken tok).lit.toNat n ext)
  (hr : r = ext ++ r2)
include hrun hr

theorem seqFailsAt_shortRun (h : r2.length < n) : seqFailsAt s (1 + ext.length) := by
  subst hr
  refine seqFailsAt_of_malformed hs hp hopen ?_
  rw [hsrc, decodeSeq_shortRun (readLen_of_litRun hrun) h, List.length_append, Nat.add_sub_cancel]

variable (hin : n ≤ r2.length) (hgo : litsGoOn s.bd n) (hmore : s.bd.eoo = true ∨ n < r2.length)
include hin hgo hmore

theorem seqFailsAt_shortOffset (h : r2.length < n + offBytes (decodeToken tok).cls) :
    seqFailsAt s (1 + ext.length + n) := by
  subst hr
  refine seqFailsAt_of_malformed hs hp hopen ?_
  rw [hsrc, decodeSeq_shortOffset (readLen_of_litRun hrun) hin (room_of_litsGoOn hgo)
    (endsAfterLits_of_litsGoOn hgo (by simpa using hmore)) h, List.length_append, Nat.add_sub_cancel]

theorem seqFailsAt_openMatch (hoff : n + offBytes (decodeToken tok).cls ≤ r2.length)
    (hmf : (decodeToken tok).mf = 7#3)
    (h : ∀ b ∈ r2.drop (n + offBytes (decodeToken tok).cls), b = 255#8) :
    seqFailsAt s (1 + ext.length + r2.length) := by
  subst hr
  refine seqFailsAt_of_malformed hs hp hopen ?_
  rw [hsrc, decodeSeq_openMatch (readLen_of_litRun hrun) hin (room_of_litsGoOn hgo)
    (endsAfterLits_of_litsGoOn hgo (by simpa using hmore)) hoff hmf h, List.length_append,
    Nat.add_assoc]

end Read

end Sys2Proof.Machine

namespace Sys2Proof.Proofs
open Sys2Proof.Machine Sys2Proof.Claims

/-- Settles O42: the checks pass, so a Sequence with a match leaves `matchDone` with `MATCHCOPY`'s
output, and a terminal one ends with its literals out. -/
theorem sequenceMeaning : Obligations.SequenceMeaning := by
  refine ⟨fun s i token cls off lits ml hi _ hlits hpos hle hcap => ?matched,
    fun s cls hi mf lits hfits => ?terminal⟩
  case matched =>
    refine ⟨matchCopy s.bd.dict off ml (s.bd.out ++ lits), ?_, matchRun_matchCopy hpos ?_⟩
    · rw [exec_of_matchForm hi, bdSequence_of_fits hlits hpos hle hcap]
      refine bdAnswer_of_not_failed fun c => ?_
      dsimp only [matchDone]
      split <;> nofun
    · rwa [List.length_append]
  case terminal =>
    rw [exec_seqLast, bdLast_of_fits hfits]
    exact bdAnswer_of_not_failed nofun

/-- Settles O43: past the capacity, at a bad offset and at each way a Sequence does not read, the
decode fails with `c = ip` at the check. -/
theorem sequenceFailures : Obligations.SequenceFailures := by
  refine ⟨fun s i token cls off lits ml hi => ⟨fun hover => ?run, fun hlits hbad => ?copy⟩,
    fun s cls hi mf lits hover => ?terminal, fun s hs hp hopen => ⟨fun hsrc => ?token, ?read⟩⟩
  case run =>
    refine ⟨litsRefused s.bd token cls lits, ?_, rfl⟩
    rw [exec_of_matchForm hi, bdSequence_of_overflow hover]
    exact bdAnswer_failed rfl
  case copy =>
    refine ⟨matchRefused s.bd token cls lits off ml, ?_, rfl, rfl⟩
    rw [exec_of_matchForm hi, bdSequence_of_badMatch hlits hbad]
    exact bdAnswer_failed rfl
  case terminal =>
    refine ⟨litsRefused s.bd (Sequence.token (.last cls hi mf lits)) cls lits, ?_, rfl⟩
    rw [exec_seqLast, bdLast_of_overflow hover]
    exact bdAnswer_failed rfl
  case token =>
    refine seqFailsAt_of_malformed hs hp hopen ?_
    rw [hsrc]
    rfl
  case read =>
    intro tok r hsrc f
    refine ⟨seqFailsAt_openRun hs hp hopen hsrc, fun n ext r2 hrun hr => ⟨?_, ?_⟩⟩
    · exact seqFailsAt_shortRun hs hp hopen hsrc hrun hr
    · intro hin hgo hmore
      exact ⟨seqFailsAt_shortOffset hs hp hopen hsrc hrun hr hin hgo hmore,
        seqFailsAt_openMatch hs hp hopen hsrc hrun hr hin hgo hmore⟩

end Sys2Proof.Proofs
end

section
/-! BLK_DECOMPRESS end by end (spec/43_block_decoder.md R360, R361, R380 to R382). -/

namespace Sys2Proof.Machine
open Sys2Proof.Claims

variable {s : State} {h : BitVec 16} {fl : Byte} {a n d cap x y target : U64} {b : Bd} {m m' : Memory}

/-! ## What a block decode leaves of memory (R113, R382) -/

theorem Memory.readBytes_congr : ∀ {len lo : Nat},
    (∀ j, lo ≤ j → j < lo + len → m'.read j = m.read j) → m'.readBytes lo len = m.readBytes lo len
  | 0, _, _ => rfl
  | len + 1, lo, hsame => by
    have hrest : m'.readBytes (lo + 1) len = m.readBytes (lo + 1) len :=
      Memory.readBytes_congr fun j hlo hhi => hsame j (by omega) (by omega)
    rw [Memory.readBytes, Memory.readBytes, hsame lo (Nat.le_refl lo) (by omega), hrest]

/-- Bytes and a free range after them are all that `put` writes. -/
theorem wrote_put (hm : m.wf = true) (lo : Nat) (bs : List Byte) {free len : Nat} (k : Nat)
    (hlen : bs.length + free = max bs.length len) : wrote m (m.put lo bs free k) lo bs len := by
  constructor
  · have hbytes := Memory.wf_writeBytes hm lo bs
    calc (m.put lo bs free k).readBytes lo bs.length
      _ = (m.writeBytes lo bs).readBytes lo bs.length :=
        Memory.readBytes_congr fun _ _ hj => Memory.read_writeAny_outside hbytes _ free k (.inl hj)
      _ = bs := Memory.readBytes_writeBytes hm lo bs
  · intro j hj
    exact Memory.read_put_outside hm k (by rwa [hlen])

theorem length_add_overshoot (cap : Nat) (bs : List Byte) :
    bs.length + overshoot cap bs.length = max bs.length (min cap (bs.length + 7)) := by
  have hdef : overshoot cap bs.length = min cap (bs.length + 7) - bs.length := rfl
  omega

/-! ## The two ends of a decode (R380 to R382) -/

theorem finishDecode_ended {dst : Buffer} {ok : Answer} (hend : b.phase = .ended) :
    finishDecode b dst s ok = ok := by
  simp only [finishDecode, hend]

theorem finishDecode_failed {dst : Buffer} {ok : Answer} {c : Nat} (hfail : b.phase = .failed c) :
    finishDecode b dst s ok = raiseMalformed c (s.anyValue dst.addr dst.len) := by
  simp only [finishDecode, hfail]

/-! ## The dictionary (R361) -/

theorem readBuffer_dictRegion {mode : BitVec 2} {dst r : Buffer}
    (hr : dictRegion mode dst x y = some r) : s.readBuffer r = dictBytes s mode dst x y := by
  unfold dictRegion at hr
  unfold dictBytes
  split at hr
  next hnone =>
    cases hr
    rw [if_pos hnone]
    rfl
  next hsome =>
    rw [if_neg hsome]
    split at hr
    next hprefix =>
      rw [if_pos hprefix]
      split at hr
      · cases hr
      · cases hr
        rfl
    next hext =>
      cases hr
      rw [if_neg hext]
      rfl

/-! ## The checks and the decode (R360) -/

theorem flagsWithin_lowHalf (hbits : fl.extractLsb' 4 4 = 0#4) : flagsWithin fl 0x0F#8 = true := by
  decide +revert

/-- The flag check of BLK_DECOMPRESS passes. -/
theorem flags_defined (hbits : fl.extractLsb' 4 4 = 0#4) (hmode : fl.extractLsb' 2 2 ≠ 3#2) :
    ¬ (!flagsWithin fl 0x0F#8 || dictMode fl == 3#2) = true := by
  simpa [flagsWithin_lowHalf hbits, dictMode] using hmode

section Flags
variable (hlegal : s.cfg.legal = true) (hbits : fl.extractLsb' 4 4 = 0#4)
  (hmode : fl.extractLsb' 2 2 ≠ 3#2)
include hlegal hbits hmode

theorem exec_blkDecompress_invalid
    (hbad : (fl.getLsbD 0 = true ∧ fl.getLsbD 1 = true) ∨
      (fl.extractLsb' 2 2 = 1#2 ∧ prefixSize < y.toNat)) :
    exec (.blkDecompress h fl a n d cap x y target) s = raise .protocolViolation s := by
  have hcheck : ((partialFlag fl && endOnOutput fl) ||
      (dictMode fl == 1#2 && decide (prefixSize < y.toNat))) = true := by
    simpa [partialFlag, endOnOutput, dictMode, and_comm] using hbad
  exact (command_legal hlegal).trans
    ((if_neg (flags_defined hbits hmode)).trans (if_pos hcheck))

theorem exec_blkDecompress_decode {ins : List Buffer}
    (hmodes : ¬ (fl.getLsbD 0 = true ∧ fl.getLsbD 1 = true))
    (hprefix : ¬ (fl.extractLsb' 2 2 = 1#2 ∧ prefixSize < y.toNat))
    (hins : inputsOf (.blkDecompress h fl a n d cap x y target) = some ins)
    (hbuf : buffersOk s.cfg ins (buffer d cap))
    (hb : decodeBlock (s.mem.readBytes a.toNat n.toNat) cap.toNat
      (dictBytes s (fl.extractLsb' 2 2) (buffer d cap) x y) (fl.getLsbD 0) (fl.getLsbD 1)
      target.toNat = b) :
    exec (.blkDecompress h fl a n d cap x y target) s =
      finishDecode b (buffer d cap) s
        (done (BitVec.ofNat 64 (if fl.getLsbD 0 then b.ip else b.out.length))
          (s.writeDecoded (buffer d cap) b.out)) := by
  obtain ⟨dict, hdict, rfl⟩ := Option.map_eq_some_iff.mp hins
  have hcheck : ¬ ((partialFlag fl && endOnOutput fl) ||
      (dictMode fl == 1#2 && decide (prefixSize < y.toNat))) = true := by
    simp only [Bool.or_eq_true, Bool.and_eq_true, beq_iff_eq, decide_eq_true_eq]
    exact not_or.mpr ⟨fun hboth => hmodes hboth.symm, hprefix⟩
  subst hb
  refine (command_legal hlegal).trans
    ((if_neg (flags_defined hbits hmode)).trans ((if_neg hcheck).trans ?_))
  rw [hdict]
  refine (withBuffers_ok hbuf _).trans ?_
  rw [readBuffer_dictRegion hdict]
  rfl

end Flags

end Sys2Proof.Machine

namespace Sys2Proof.Proofs
open Sys2Proof.Machine Sys2Proof.Claims

/-- Settles O44: the combinations are checked, then the decode ends with its write or fails with the
output buffer free. -/
theorem blkDecompressMeaning : Obligations.BlkDecompressMeaning := by
  intro s h fl a n d cap x y target hlegal hwf hbits hmode i b
  refine ⟨exec_blkDecompress_invalid hlegal hbits hmode, fun hmodes hprefix ins hins hbuf => ?_⟩
  have hexec := exec_blkDecompress_decode (b := b) hlegal hbits hmode hmodes hprefix hins hbuf rfl
  refine ⟨fun hend => ⟨s.mem.put d.toNat b.out (overshoot cap.toNat b.out.length) s.draws, ?_, ?_⟩,
    fun c hfail => ⟨s.mem.writeAny d.toNat cap.toNat s.draws, ?_, ?_⟩⟩
  · rw [hexec, finishDecode_ended hend]
    rfl
  · exact wrote_put hwf d.toNat b.out s.draws (length_add_overshoot cap.toNat b.out)
  · rw [hexec, finishDecode_failed hfail]
    rfl
  · exact wrote_writeAny hwf d.toNat cap.toNat s.draws

end Sys2Proof.Proofs
end

section
/-! The position space of a compression context after `ENCODE` and RENORM
(spec/44_streaming_dict.md R424, R430, R431; spec/10_state.md R46). -/

namespace Sys2Proof.Machine
open Sys2Proof.Claims

variable {cfg : Config} {src : List Byte} {c t : Cctx}

/-! ## Byte sequences -/

/-- Asking for more bytes than there are gives them all. -/
theorem lastBytes_min_length (k : Nat) (bs : List Byte) :
    lastBytes (min k bs.length) bs = lastBytes k bs := by
  rw [lastBytes, lastBytes]
  congr 1
  omega

/-! ## `ENCODE` (R290) -/

/-- Renormalization moves positions only: what CTX_INIT sets stays. -/
theorem encodeStart_setup (cfg : Config) (n : Nat) (c : Cctx) :
    (encodeStart cfg n c).alloc = c.alloc ∧ (encodeStart cfg n c).level = c.level ∧
      (encodeStart cfg n c).row = c.row := by
  simp only [encodeStart]
  split <;> exact ⟨rfl, rfl, rfl⟩

/-- The input begins at `WINDOW_SIZE` where the positions were renormalized (R290). -/
theorem toNat_currentOffset_encodeStart (cfg : Config) (n : Nat) (c : Cctx) :
    (encodeStart cfg n c).currentOffset.toNat =
      if cfg.renormLimit < c.currentOffset.toNat + n then windowSize
      else c.currentOffset.toNat := by
  simp only [encodeStart]
  split <;> rfl

/-- The context after `ENCODE` is the history update of one that the search left as it started, but
for its tables and `last_off` (R290, R220). -/
theorem encodeBlock_cctx (hm : 4 ≤ cfg.mfLimit) (src : List Byte) (c : Cctx) :
    ∃ (t : Cctx) (o : U32), sameButTables (encodeStart cfg src.length c) t ∧
      (encodeBlock cfg src c).cctx = historyUpdate src { t with lastOff := o } :=
  ⟨_, _, (searched_parseWith (x := ⟨_, src⟩) hm _).same, rfl⟩

/-- The kept bytes are bounded by the window alone, since the history reaches down to `lowLimit`
(R430). -/
theorem hist_historyUpdate {o : U32} (hc : c.Inv cfg) (hs : sameButTables c t) :
    (historyUpdate src { t with lastOff := o }).hist = lastBytes windowSize (c.hist ++ src) := by
  obtain ⟨-, -, hlow, hdict, -, hhist, -⟩ := Cctx.inv_iff.mp hc
  have hkept : c.dictLimit.toNat + src.length -
      max c.lowLimit.toNat (c.dictLimit.toNat + src.length - windowSize) =
      min windowSize (c.hist ++ src).length := by
    rw [List.length_append, hdict]
    omega
  rw [hs, ← lastBytes_min_length, ← hkept]
  rfl

theorem encodeBlock_setup (hm : 4 ≤ cfg.mfLimit) :
    (encodeBlock cfg src c).cctx.alloc = c.alloc ∧ (encodeBlock cfg src c).cctx.level = c.level ∧
      (encodeBlock cfg src c).cctx.row = c.row := by
  obtain ⟨t, o, hs, hafter⟩ := encodeBlock_cctx hm src c
  rw [hafter, hs]
  exact encodeStart_setup cfg src.length c

section Fits
variable (hp : paramsFit cfg) (hc : c.Inv cfg) (hn : src.length ≤ cfg.maxInputSize)
include hp hc hn

theorem encodeBlock_hist :
    (encodeBlock cfg src c).cctx.hist = lastBytes windowSize (c.hist ++ src) := by
  obtain ⟨hstart, -⟩ := encodeStart_inv hp hn hc
  obtain ⟨-, -, -, -, hm⟩ := hp
  obtain ⟨t, o, hs, hafter⟩ := encodeBlock_cctx hm src c
  rw [hafter, hist_historyUpdate hstart hs, encodeStart_hist]

theorem toNat_currentOffset_encodeBlock :
    (encodeBlock cfg src c).cctx.currentOffset.toNat =
      (encodeStart cfg src.length c).currentOffset.toNat + src.length := by
  obtain ⟨hstart, hroom⟩ := encodeStart_inv hp hn hc
  obtain ⟨-, -, -, hdict, -⟩ := Cctx.inv_iff.mp hstart
  obtain ⟨-, -, hword, -, hm⟩ := hp
  obtain ⟨t, o, hs, hafter⟩ := encodeBlock_cctx hm src c
  rw [hafter, hs, ← hdict]
  exact toNat_u32 (Nat.lt_of_le_of_lt (hdict ▸ hroom) hword)

end Fits

/-! ## RENORM (R424) -/

theorem toNat_u32_sub (v : U32) (k : Nat) : (u32 (v.toNat - k)).toNat = v.toNat - k :=
  toNat_u32 (Nat.lt_of_le_of_lt (Nat.sub_le _ _) v.isLt)

theorem toNat_renormEntry (delta : Nat) (v : U32) :
    (renormEntry delta v).toNat = if delta < v.toNat then v.toNat - delta else 0 := by
  rw [renormEntry]
  split
  · exact toNat_u32_sub v delta
  · rfl

@[simp] theorem renormEntry_zero (delta : Nat) : renormEntry delta 0#32 = 0#32 :=
  if_neg (Nat.not_lt_zero delta)

theorem renormTable_cons (delta k : Nat) (v : U32) (t : Table) :
    renormTable delta ((k, v) :: t) = if renormEntry delta v = 0#32 then renormTable delta t
      else (k, renormEntry delta v) :: renormTable delta t := by
  simp only [renormTable, List.map_cons, List.filter_cons, bne_iff_ne, ne_eq, ite_not]

theorem sparseSorted_renormTable (delta : Nat) : ∀ {t : Table} {lo : Nat},
    sparseSorted lo t = true → sparseSorted lo (renormTable delta t) = true
  | [], _, _ => rfl
  | (k, v) :: t, lo, hsorted => by
    simp only [sparseSorted, Bool.and_eq_true, decide_eq_true_eq] at hsorted
    obtain ⟨hlo, htail⟩ := hsorted
    have hrest := sparseSorted_renormTable delta htail
    rw [renormTable_cons]
    split
    · exact sparseSorted_mono (by omega) hrest
    · simp only [sparseSorted, decide_eq_true hlo, hrest, Bool.and_self]

/-- Unlisting the entries that become 0 changes nothing that is read. -/
theorem sparseGet_renormTable (delta j : Nat) : ∀ {t : Table} {lo : Nat}, sparseSorted lo t = true →
    (sparseGet j (renormTable delta t)).getD 0#32 = renormEntry delta ((sparseGet j t).getD 0#32)
  | [], _, _ => (renormEntry_zero delta).symm
  | (k, v) :: t, lo, hsorted => by
    simp only [sparseSorted, Bool.and_eq_true] at hsorted
    obtain ⟨-, htail⟩ := hsorted
    rcases Nat.lt_trichotomy j k with hlt | rfl | hgt
    · have hfrom : sparseSorted k ((k, v) :: t) = true := by
        simp only [sparseSorted, htail, Nat.le_refl, decide_true, Bool.and_self]
      rw [sparseGet_below hlt hfrom, sparseGet_below hlt (sparseSorted_renormTable delta hfrom)]
      exact (renormEntry_zero delta).symm
    · rw [renormTable_cons, sparseGet, if_pos rfl, Option.getD_some]
      split
      next hzero =>
        rw [hzero, sparseGet_below (Nat.lt_succ_self j) (sparseSorted_renormTable delta htail)]
        rfl
      next => rw [sparseGet, if_pos rfl, Option.getD_some]
    · have hskip : ∀ (w : U32) (u : Table), sparseGet j ((k, w) :: u) = sparseGet j u := by
        intro w u
        rw [sparseGet, if_neg (Nat.ne_of_gt hgt), if_neg (Nat.lt_asymm hgt)]
      rw [hskip, ← sparseGet_renormTable delta j htail, renormTable_cons]
      split
      · rfl
      · rw [hskip]

theorem Table.read_renormTable {t : Table} (ht : t.wf = true) (delta j : Nat) :
    (renormTable delta t).read j = renormEntry delta (t.read j) := by
  rw [Table.wf, Bool.and_eq_true] at ht
  exact sparseGet_renormTable delta j ht.1

end Sys2Proof.Machine

namespace Sys2Proof.Proofs
open Sys2Proof.Machine Sys2Proof.Claims

/-- Settles O36: R49 after `ENCODE` ties the position registers to the kept history, and the history
update says which bytes that is. -/
theorem encodeUpdatesHistory : Obligations.EncodeUpdatesHistory := by
  intro cfg src c hp hc hn c'
  obtain ⟨-, -, -, hdict, -, hlen, -⟩ := Cctx.inv_iff.mp (encodeBlock_inv hp hn hc)
  have ⟨_, _, _, _, hm⟩ := hp
  refine ⟨encodeBlock_hist hp hc hn, hdict, ?_, ?_, encodeBlock_setup hm⟩
  · rw [toNat_currentOffset_encodeBlock hp hc hn, toNat_currentOffset_encodeStart]
    split <;> rfl
  · rw [← hlen, encodeBlock_hist hp hc hn, length_lastBytes, List.length_append]

/-- Settles O37: the selected context is renormalized, and a lowered table reads as the lowered
entry. -/
theorem renormMeaning : Obligations.RenormMeaning := by
  intro s c hc delta lowered
  have htable : ∀ {t : Table}, t.wf = true → ∀ k,
      lowered (t.read k) ((renormTable delta t).read k) := by
    intro t ht k
    rw [Table.read_renormTable ht]
    exact toNat_renormEntry delta _
  exact ⟨renormalize c, withSelected_some hc _, fun k ht => htable ht k, fun k ht => htable ht k,
    rfl, rfl, rfl, toNat_u32_sub _ delta, toNat_u32_sub _ delta, toNat_renormEntry delta _,
    rfl, rfl, rfl, rfl⟩

end Sys2Proof.Proofs
end

section
/-! The commands over compression contexts that neither encode nor decode: R420's checks, CTX_INIT,
CTX_RESET, CTX_FREE, LOAD_DICT and SAVE_DICT (spec/44_streaming_dict.md R420 to R427). -/

namespace Sys2Proof.Machine
open Sys2Proof.Claims

variable {cfg : Config} {c t : Cctx} {s : State} {i : Instr} {h : BitVec 16} {fl mask : Byte}

/-! ## The checks (R420) -/

section Checks
variable (hlegal : s.cfg.legal = true) (hc : s.cctx[h.toNat]? = some c)
include hlegal hc

theorem withCctx_unallocated (halloc : c.alloc = false) (k : Cctx → Answer) :
    withCctx h fl mask s k = raise .protocolViolation s := by
  simp only [withCctx, command_legal hlegal, hc, halloc, Bool.not_false, if_true]

theorem withCctx_undefinedFlag (halloc : c.alloc = true) (hfl : flagsWithin fl mask = false)
    (k : Cctx → Answer) : withCctx h fl mask s k = raise .reservedFlagSet s := by
  simp only [withCctx, command_legal hlegal, hc, halloc, hfl, Bool.not_true, Bool.not_false,
    Bool.false_eq_true, if_false, if_true]

theorem exec_cctx_unallocated (hi : cctxCommand i = some (h, fl, mask))
    (hinit : ∀ level, i ≠ .ctxInit h fl level) (halloc : c.alloc = false) :
    exec i s = raise .protocolViolation s := by
  cases i with
  | ctxInit =>
    cases hi
    exact absurd rfl (hinit _)
  | ctxReset | ctxFree | blkCompress | blkCompressContinue | loadDict | saveDict =>
    cases hi
    exact withCctx_unallocated hlegal hc halloc _
  | _ => cases hi

theorem exec_ctxInit (level : U64) : exec (.ctxInit h fl level) s =
    if !flagsWithin fl 0#8 then raise .reservedFlagSet s
    else if !tablesFit s.cfg (clampLevel level.toNat) then
      raise .allocationFailed (s.setCctx h.toNat c.discard)
    else done 0#64 (s.setCctx h.toNat (c.configure s.cfg (clampLevel level.toNat))) := by
  simp only [exec, execCtxInit, command_legal hlegal, hc]

theorem exec_cctx_undefinedFlag (hi : cctxCommand i = some (h, fl, mask))
    (halloc : (∃ level, i = .ctxInit h fl level) ∨ c.alloc = true)
    (hfl : flagsWithin fl mask = false) : exec i s = raise .reservedFlagSet s := by
  cases i with
  | ctxInit h' fl' level =>
    cases hi
    rw [exec_ctxInit hlegal hc, hfl]
    rfl
  | ctxReset | ctxFree | blkCompress | blkCompressContinue | loadDict | saveDict =>
    cases hi
    have halloc : c.alloc = true := halloc.resolve_left nofun
    exact withCctx_undefinedFlag hlegal hc halloc hfl _
  | _ => cases hi

/-! ## CTX_RESET (R422) -/

theorem exec_ctxReset (halloc : c.alloc = true) (level : U64) : exec (.ctxReset h 0#8 level) s =
    if !tablesFit s.cfg (clampLevel level.toNat) then raise .allocationFailed s
    else done 0#64 (s.setCctx h.toNat (c.configure s.cfg (clampLevel level.toNat))) :=
  withCctx_ready hlegal hc halloc rfl _

end Checks

/-! ## LOAD_DICT (R426) -/

/-- A command with one input and no output has buffers that do not overlap. -/
theorem buffersOk_input {b : Buffer} (hvalid : b.valid cfg = true) :
    buffersOk cfg [b] noBuffer := by
  refine ⟨List.forall_mem_cons.mpr ⟨rfl, List.forall_mem_singleton.mpr hvalid⟩,
    List.forall_mem_singleton.mpr ?_⟩
  exact decide_eq_false fun hboth => hboth.2.1 rfl

/-- What LOAD_DICT and SD_RESET keep of the dictionary they read (R426, R428). -/
theorem lastBytes_readBuffer (k : Nat) (s : State) (b : Buffer) :
    lastBytes k (s.readBuffer b) = lastBytes (min b.len k) (s.readBuffer b) := by
  rw [← lastBytes_min_length, State.length_readBuffer, Nat.min_comm]

/-- Whatever else a strategy inserts, it puts the position into the main table's bucket. -/
theorem insertOne_hashTable (strategy : Strategy) (opHigh q : Nat) (c : Cctx) :
    (insertOne cfg strategy opHigh q c).hashTable =
      c.hashTable.write (hash4 cfg c [] q) (u32 q) := by
  cases strategy with
  | fast => rfl
  | priceFast | lowestPrice | optimalPrice => exact congrArg Cctx.hashTable (mfInsert_eq cfg [] q c)
  | optimalPriceBt => exact btSearch_hashTable

/-- The bucket of every position from `lo` up to `nextInsert` names it or a later one; the buckets
are those of the context `c`, whose history and row `t` shares. -/
structure Inserted (cfg : Config) (c : Cctx) (lo : Nat) (t : Cctx) : Prop where
  same : sameButTables c t
  wf : t.hashTable.wf = true
  named : ∀ q, lo ≤ q → q < t.nextInsert.toNat → q ≤ (t.hashTable.read (hash4 cfg c [] q)).toNat

theorem Inserted.insert {lo opHigh : Nat} {strategy : Strategy} (h : Inserted cfg c lo t)
    (hnext : t.nextInsert.toNat + 1 < 2 ^ 32) :
    Inserted cfg c lo { insertOne cfg strategy opHigh t.nextInsert.toNat t with
      nextInsert := u32 (t.nextInsert.toNat + 1) } := by
  obtain ⟨hsame, hwf, hnamed⟩ := h
  have hone : Searched (t.nextInsert.toNat + 1) t
      (insertOne cfg strategy opHigh t.nextInsert.toNat t) :=
    searched_insertOne (Nat.lt_succ_self _)
  have htable := insertOne_hashTable (cfg := cfg) strategy opHigh t.nextInsert.toNat t
  rw [hash4_same hsame, u32_toNat] at htable
  refine ⟨sameButTables_trans hsame (sameButTables_trans hone.same rfl), ?_, ?_⟩
  · dsimp only
    rw [htable]
    exact Table.wf_write hwf _ _
  · intro q hlo hq
    dsimp only at hq ⊢
    rw [toNat_u32 hnext] at hq
    rw [htable]
    by_cases hbucket : hash4 cfg c [] q = hash4 cfg c [] t.nextInsert.toNat
    · rw [hbucket, Table.read_write_same hwf]
      exact Nat.le_of_lt_succ hq
    · rw [Table.read_write_ne hwf hbucket]
      have hne : q ≠ t.nextInsert.toNat := fun heq => hbucket (heq ▸ rfl)
      exact hnamed q hlo (by omega)

theorem Inserted.insertRun {lo opHigh : Nat} {strategy : Strategy} :
    ∀ k (t : Cctx), Inserted cfg c lo t → t.nextInsert.toNat + k < 2 ^ 32 →
      Inserted cfg c lo (insertRun (insertOne cfg strategy opHigh) k t)
  | 0, _, h, _ => h
  | k + 1, t, h, hk => by
    have hnext : (u32 (t.nextInsert.toNat + 1)).toNat = t.nextInsert.toNat + 1 :=
      toNat_u32 (by omega)
    exact Inserted.insertRun k _ (h.insert (by omega)) (by dsimp only; omega)

section LoadDict
variable {d : List Byte} (hd : d.length ≤ windowSize)
include hd

theorem windowSize_add_length_lt : windowSize + d.length < 2 ^ 32 :=
  Nat.lt_of_le_of_lt (Nat.add_le_add_left hd _) (by decide)

theorem toNat_nextInsert_loadDict :
    (loadDict cfg d c).nextInsert.toNat = windowSize + (d.length - 3) := by
  have hword := windowSize_add_length_lt hd
  have hnext : (c.withHistory d).nextInsert.toNat = windowSize := rfl
  rw [loadDict, toNat_nextInsert_insertUpTo (by omega), hnext]
  omega

theorem inserted_loadDict : Inserted cfg (c.withHistory d) windowSize (loadDict cfg d c) := by
  have hword := windowSize_add_length_lt hd
  have hnext : (c.withHistory d).nextInsert.toNat = windowSize := rfl
  refine Inserted.insertRun _ _ ⟨rfl, Table.wf_nil, fun q hlo hq => ?_⟩ (by omega)
  rw [hnext] at hq
  exact absurd hlo (Nat.not_le.mpr hq)

/-- The insertions leave the registers as `withHistory` sets them. -/
theorem loadDict_registers :
    (loadDict cfg d c).hist = d ∧ (loadDict cfg d c).lowLimit.toNat = windowSize ∧
      (loadDict cfg d c).currentOffset.toNat = windowSize + d.length ∧
      (loadDict cfg d c).dictLimit.toNat = windowSize + d.length ∧
      (loadDict cfg d c).lastOff = 0#32 ∧ (loadDict cfg d c).alloc = c.alloc ∧
      (loadDict cfg d c).level = c.level ∧ (loadDict cfg d c).row = c.row := by
  have hoff := toNat_u32 (windowSize_add_length_lt hd)
  rw [(inserted_loadDict (cfg := cfg) (c := c) hd).same]
  exact ⟨rfl, rfl, hoff, hoff, rfl, rfl, rfl, rfl⟩

/-- Every position with 4 bytes to hash is inserted. -/
theorem loadDict_named {q : Nat} (hlo : windowSize ≤ q) (hq : q + 4 ≤ windowSize + d.length) :
    q ≤ ((loadDict cfg d c).hashTable.read (hash4 cfg (loadDict cfg d c) [] q)).toNat := by
  obtain ⟨hsame, -, hnamed⟩ := inserted_loadDict (cfg := cfg) (c := c) hd
  rw [hash4_same hsame]
  refine hnamed q hlo ?_
  rw [toNat_nextInsert_loadDict hd]
  omega

end LoadDict

end Sys2Proof.Machine

namespace Sys2Proof.Proofs
open Sys2Proof.Machine Sys2Proof.Claims

/-- Settles O12: each command's prologue checks the handle, the allocation and the flags in this
order, CTX_INIT without the allocation. -/
theorem compressionContextChecks : Obligations.CompressionContextChecks := by
  intro i s h fl mask hlegal hi
  refine ⟨fun hnone => ?_, fun c hc hinit halloc => ?_, fun c hc halloc hfl => ?_⟩
  · exact exec_cctx_absent hlegal hi (List.getElem?_eq_none_iff.mp hnone)
  · exact exec_cctx_unallocated hlegal hc hi hinit halloc
  · exact exec_cctx_undefinedFlag hlegal hc hi halloc (beq_false_of_ne hfl)

/-- Settles O28: the insertions of the kept bytes move the tables and `nextInsert` only, and each
bucket they write is overwritten by later positions alone. -/
theorem loadDictMeaning : Obligations.LoadDictMeaning := by
  intro s h a n c hlegal hc halloc hvalid d
  have hkept : lastBytes windowSize (s.readBuffer (buffer a n)) = d := lastBytes_readBuffer _ s _
  have hlen : d.length = min n.toNat windowSize := by
    rw [← hkept, length_lastBytes, State.length_readBuffer, Nat.min_comm]
    rfl
  have hd : d.length ≤ windowSize := hlen ▸ Nat.min_le_right _ _
  obtain ⟨hhist, hlow, hcur, hdict, hlast, halloc', hlevel, hrow⟩ :=
    loadDict_registers (cfg := s.cfg) (c := c) hd
  refine ⟨loadDict s.cfg d c, ?_, hhist, hlow, hcur, hdict, ?_, hlast, halloc'.trans halloc, hlevel,
    hrow, fun q => loadDict_named hd⟩
  · rw [← hlen, ← hkept]
    exact (withCctx_ready hlegal hc halloc rfl _).trans (withBuffers_ok (buffersOk_input hvalid) _)
  · rw [toNat_nextInsert_loadDict hd]
    omega

/-- Settles O29: the command is one write of the history's last bytes. -/
theorem saveDictMeaning : Obligations.SaveDictMeaning := by
  intro s h a n c hlegal hwf hc halloc hvalid k
  have hlen : (lastBytes k c.hist).length = k := by
    rw [length_lastBytes]
    exact Nat.min_eq_left (Nat.min_le_right _ _)
  have hexec : exec (.saveDict h 0#8 a n) s = done (BitVec.ofNat 64 (lastBytes k c.hist).length)
      (s.memWrite a.toNat (lastBytes k c.hist)) :=
    (withCctx_ready hlegal hc halloc rfl _).trans
      (withBuffers_ok ⟨List.forall_mem_singleton.mpr hvalid, nofun⟩ _)
  have hwrote := wrote_writeBytes hwf a.toNat (lastBytes k c.hist)
  rw [hlen] at hexec hwrote
  exact ⟨_, hexec, hwrote⟩

/-- Settles O26: whether the tables fit decides, and CLEAR leaves nothing of the old context. -/
theorem ctxInitResetMeaning : Obligations.CtxInitResetMeaning := by
  intro s h level c hlegal hc row fresh
  refine ⟨fun hfits => ?_, fun hlarge => ?_⟩
  · have hfit : tablesFit s.cfg (clampLevel level.toNat) = true := decide_eq_true hfits
    refine ⟨?_, fun halloc => ?_⟩
    · rw [exec_ctxInit hlegal hc, hfit]
      rfl
    · rw [exec_ctxReset hlegal hc halloc, hfit]
      rfl
  · have hfit : tablesFit s.cfg (clampLevel level.toNat) = false :=
      decide_eq_false (Nat.not_le.mpr hlarge)
    refine ⟨⟨c.discard, ?_, rfl, rfl, rfl, rfl⟩, fun halloc => ?_⟩
    · rw [exec_ctxInit hlegal hc, hfit]
      rfl
    · rw [exec_ctxReset hlegal hc halloc, hfit]
      rfl

/-- Settles O27: an allocated context is discarded, a free one fails the allocation check. -/
theorem ctxFreeMeaning : Obligations.CtxFreeMeaning := by
  intro s h c hlegal hc
  exact ⟨fun halloc => ⟨c.discard, withCctx_ready hlegal hc halloc rfl _,
      rfl, rfl, rfl, rfl, rfl, rfl⟩,
    fun halloc => withCctx_unallocated hlegal hc halloc _⟩

end Sys2Proof.Proofs
end

section
/-! The commands on a stream decoder: SD_RESET and BLK_DECOMPRESS_CONTINUE
(spec/44_streaming_dict.md R428, R429). -/

namespace Sys2Proof.Machine
open Sys2Proof.Claims

variable {s : State} {e : Sd} {h : BitVec 16}

theorem withSd_ready (hlegal : s.cfg.legal = true) (he : s.sd[h.toNat]? = some e)
    (k : Sd → Answer) : withSd h 0#8 s k = k e := by
  simp only [withSd, command_legal hlegal, he]
  rfl

theorem exec_blkDecompressContinue {a n d cap : U64} (hlegal : s.cfg.legal = true)
    (he : s.sd[h.toNat]? = some e) (hbuf : buffersOk s.cfg [buffer a n] (buffer d cap)) {b : Bd}
    (hb : decodeBlock (s.mem.readBytes a.toNat n.toNat) cap.toNat e.hist false false 0 = b) :
    exec (.blkDecompressContinue h 0#8 a n d cap) s =
      finishDecode b (buffer d cap) s (done (BitVec.ofNat 64 b.out.length)
        ((s.setSd h.toNat ⟨lastBytes windowSize (e.hist ++ b.out)⟩).writeDecoded
          (buffer d cap) b.out)) := by
  subst hb
  exact (withSd_ready hlegal he _).trans (withBuffers_ok hbuf _)

end Sys2Proof.Machine

namespace Sys2Proof.Proofs
open Sys2Proof.Machine Sys2Proof.Claims

/-- Settles O30: the command keeps the last bytes of what it reads, all of them where the dictionary
is no longer than the window. -/
theorem sdResetMeaning : Obligations.SdResetMeaning := by
  intro s h a n hlegal hh hvalid
  have hkept : (s.mem.readBytes a.toNat n.toNat).drop (n.toNat - min n.toNat windowSize) =
      lastBytes windowSize (s.readBuffer (buffer a n)) := by
    rw [lastBytes_readBuffer, lastBytes, State.length_readBuffer]
    rfl
  rw [hkept]
  exact (withSd_ready hlegal (List.getElem?_eq_getElem hh) _).trans
    (withBuffers_ok (buffersOk_input hvalid) _)

/-- Settles O45: the decode ends with its write and the stream's new history, or fails with the
output buffer free and the history as it was. -/
theorem blkDecompressContinueMeaning : Obligations.BlkDecompressContinueMeaning := by
  intro s h a n d cap e hlegal hwf he hbuf b
  have hexec := exec_blkDecompressContinue (b := b) hlegal he hbuf rfl
  constructor
  · intro hend
    exact ⟨_, hexec.trans (finishDecode_ended hend),
      wrote_put hwf d.toNat b.out s.draws (length_add_overshoot cap.toNat b.out)⟩
  · intro c hfail
    exact ⟨_, hexec.trans (finishDecode_failed hfail),
      wrote_writeAny hwf d.toNat cap.toNat s.draws⟩

end Sys2Proof.Proofs
end

section
/-! Block records (spec/45_frame_encoder.md R464, R466, R471): what emitting blocks leaves of the frame
encoder, and that neither the content taken nor the bytes buffered before play a part in it. -/

namespace Sys2Proof.Machine

/-! ## One block (R466) -/

/-- A block reads the encoder's context and block mode, and writes the context only. -/
theorem emitBlock_fe (cfg : Config) (blk : List Byte) (f : Fe) :
    (emitBlock cfg blk f).fe = { f with cctx := (emitBlock cfg blk f).fe.cctx } := rfl

theorem emitBlock_accept (cfg : Config) (blk : List Byte) (f : Fe) (bytes : List Byte) :
    emitBlock cfg blk (f.accept bytes) =
      ⟨(emitBlock cfg blk f).bytes, (emitBlock cfg blk f).fe.accept bytes⟩ := rfl

theorem emitBlock_withBuf (cfg : Config) (blk : List Byte) (f : Fe) (buf : List Byte) :
    emitBlock cfg blk { f with buf := buf } =
      ⟨(emitBlock cfg blk f).bytes, { (emitBlock cfg blk f).fe with buf := buf }⟩ := rfl

/-! ## A run of blocks (R464) -/

theorem emitBlocks_succ (cfg : Config) (B k : Nat) (data : List Byte) (f : Fe) :
    emitBlocks cfg B (k + 1) data f =
      ⟨(emitBlock cfg (data.take B) f).bytes ++
          (emitBlocks cfg B k (data.drop B) (emitBlock cfg (data.take B) f).fe).bytes,
        (emitBlocks cfg B k (data.drop B) (emitBlock cfg (data.take B) f).fe).fe⟩ := rfl

theorem emitBlocks_fe (cfg : Config) (B : Nat) : ∀ k (data : List Byte) (f : Fe),
    (emitBlocks cfg B k data f).fe =
      { f with buf := data.drop (k * B), cctx := (emitBlocks cfg B k data f).fe.cctx }
  | 0, data, f => by simp only [emitBlocks, Nat.zero_mul, List.drop_zero]
  | k + 1, data, f => by
    rw [emitBlocks_succ, emitBlocks_fe cfg B k, emitBlock_fe, List.drop_drop, Nat.succ_mul,
      Nat.add_comm B]

theorem emitBlocks_accept (cfg : Config) (B : Nat) (bytes : List Byte) :
    ∀ k (data : List Byte) (f : Fe), emitBlocks cfg B k data (f.accept bytes) =
      ⟨(emitBlocks cfg B k data f).bytes, (emitBlocks cfg B k data f).fe.accept bytes⟩
  | 0, _, _ => rfl
  | k + 1, data, f => by
    rw [emitBlocks_succ, emitBlock_accept, emitBlocks_accept cfg B bytes k, emitBlocks_succ]

theorem emitBlocks_withBuf (cfg : Config) (B : Nat) (buf : List Byte) :
    ∀ k (data : List Byte) (f : Fe),
      emitBlocks cfg B k data { f with buf := buf } = emitBlocks cfg B k data f
  | 0, _, _ => rfl
  | k + 1, data, f => by
    rw [emitBlocks_succ, emitBlock_withBuf, emitBlocks_withBuf cfg B buf k, emitBlocks_succ]

/-- A run of blocks goes on from the bytes an earlier run left in `buf`. -/
theorem emitBlocks_add (cfg : Config) (B k : Nat) (more : List Byte) :
    ∀ j (data : List Byte) (f : Fe), j * B ≤ data.length →
      emitBlocks cfg B (j + k) (data ++ more) f =
        let r := emitBlocks cfg B j data f
        let r' := emitBlocks cfg B k (r.fe.buf ++ more) r.fe
        ⟨r.bytes ++ r'.bytes, r'.fe⟩
  | 0, data, f, _ => by
    simp only [emitBlocks, emitBlocks_withBuf, List.nil_append, Nat.zero_add]
  | j + 1, data, f, hj => by
    rw [Nat.succ_mul] at hj
    have hB : B ≤ data.length := by omega
    have hrest : j * B ≤ (data.drop B).length := by
      rw [List.length_drop]
      omega
    rw [Nat.succ_add, emitBlocks_succ, emitBlocks_succ, List.take_append_of_le_length hB,
      List.drop_append_of_le_length hB, emitBlocks_add cfg B k more j _ _ hrest]
    simp only [List.append_assoc]

/-! ## Content taken in parts (R464, R465) -/

theorem Fe.accept_append (f : Fe) (x y : List Byte) : f.accept (x ++ y) = (f.accept x).accept y := by
  simp only [Fe.accept, List.append_assoc, List.length_append, BitVec.ofNat_add, BitVec.add_assoc]

/-- The blocks that `n` bytes fill, and then the rest of them with `m` more. -/
theorem fullBlocks_add {B : Nat} (hB : 0 < B) (n m : Nat) :
    (n + m) / B = n / B + (n - n / B * B + m) / B := by
  have hn : n = n - n / B * B + B * (n / B) := by
    have hle := Nat.div_mul_le_self n B
    rw [Nat.mul_comm B]
    omega
  calc (n + m) / B = (n - n / B * B + m + B * (n / B)) / B := by
        congr 1
        omega
    _ = n / B + (n - n / B * B + m) / B := by
        rw [Nat.add_mul_div_left _ _ hB, Nat.add_comm]

/-- What FE_UPDATE makes of the input `bytes` (R464). -/
def Fe.update (cfg : Config) (f : Fe) (bytes : List Byte) : Emitted :=
  emitBlocks cfg f.blockSize ((f.buf.length + bytes.length) / f.blockSize) (f.buf ++ bytes)
    (f.accept bytes)

theorem Fe.update_fe (cfg : Config) (f : Fe) (bytes : List Byte) :
    (f.update cfg bytes).fe = { f.accept bytes with
      buf := (f.buf ++ bytes).drop ((f.buf.length + bytes.length) / f.blockSize * f.blockSize)
      cctx := (f.update cfg bytes).fe.cctx } := emitBlocks_fe ..

theorem Fe.blockSize_update (cfg : Config) (f : Fe) (bytes : List Byte) :
    (f.update cfg bytes).fe.blockSize = f.blockSize := by
  rw [f.update_fe]
  rfl

theorem Fe.length_buf_update (cfg : Config) (f : Fe) (bytes : List Byte) :
    (f.update cfg bytes).fe.buf.length = f.buf.length + bytes.length -
      (f.buf.length + bytes.length) / f.blockSize * f.blockSize := by
  rw [f.update_fe, List.length_drop, List.length_append]

/-- The second call goes on from what the first left in `buf`, and the content it takes does not
change the blocks of the first. -/
theorem Fe.update_append (cfg : Config) (f : Fe) (x y : List Byte) :
    f.update cfg (x ++ y) =
      ⟨(f.update cfg x).bytes ++ ((f.update cfg x).fe.update cfg y).bytes,
        ((f.update cfg x).fe.update cfg y).fe⟩ := by
  have hfill : (f.buf.length + x.length) / f.blockSize * f.blockSize ≤ (f.buf ++ x).length := by
    rw [List.length_append]
    exact Nat.div_mul_le_self _ _
  have hcount : (f.buf.length + (x ++ y).length) / f.blockSize =
      (f.buf.length + x.length) / f.blockSize +
        ((f.update cfg x).fe.buf.length + y.length) / f.blockSize := by
    rw [f.length_buf_update, List.length_append, ← Nat.add_assoc, fullBlocks_add f.blockSize_pos]
  calc f.update cfg (x ++ y)
      = emitBlocks cfg f.blockSize ((f.buf.length + x.length) / f.blockSize +
          ((f.update cfg x).fe.buf.length + y.length) / f.blockSize) (f.buf ++ x ++ y)
          ((f.accept x).accept y) := by
        rw [Fe.update, hcount, f.accept_append, List.append_assoc]
    _ = _ := by
        rw [emitBlocks_add cfg _ _ y _ _ _ hfill, emitBlocks_accept,
          Fe.update.eq_def cfg (f.update cfg x).fe, f.blockSize_update]
        rfl

end Sys2Proof.Machine

namespace Sys2Proof.Proofs
open Sys2Proof.Machine Sys2Proof.Claims

/-- Settles O51: one FE_UPDATE of `x ++ y` is two, of `x` and then of `y`. -/
theorem splitInvariance : Obligations.SplitInvariance := by
  intro cfg f x y _ upd
  have hupd : upd = Fe.update cfg := rfl
  rw [hupd, f.update_append]
  exact ⟨rfl, rfl⟩

end Sys2Proof.Proofs
end

section
/-! The commands of the frame encoder, end by end (spec/45_frame_encoder.md R460 to R469): the checks
in their order, then the new encoder, the bytes in memory and their number. -/

namespace Sys2Proof.Machine
open Sys2Proof.Claims

variable {s : State} {f g : Fe} {i : Instr} {h : BitVec 16} {a n d cap : U64}

/-! ## Block records (R466) -/

theorem emitBlock_compressed {cfg : Config} {blk : List Byte} {r : Encoded}
    (hr : encodeBlock cfg blk (if f.prefs.blockMode then f.cctx.clear else f.cctx) = r)
    (hsmall : r.bytes.length < blk.length) : (emitBlock cfg blk f).bytes = blkCBytes r.bytes := by
  subst hr
  exact if_pos hsmall

theorem emitBlock_stored {cfg : Config} {blk : List Byte} {r : Encoded}
    (hr : encodeBlock cfg blk (if f.prefs.blockMode then f.cctx.clear else f.cctx) = r)
    (hlarge : blk.length ≤ r.bytes.length) : (emitBlock cfg blk f).bytes = blkSBytes blk := by
  subst hr
  exact if_neg (Nat.not_lt.mpr hlarge)

/-! ## The flush of `buf` (R468, R469) -/

theorem flushBlock_of_empty (cfg : Config) (hbuf : f.buf = []) : flushBlock cfg f = ⟨[], f⟩ := by
  rw [flushBlock, hbuf]
  rfl

theorem flushBlock_of_nonempty (cfg : Config) (hbuf : f.buf ≠ []) : flushBlock cfg f =
    ⟨(emitBlock cfg f.buf f).bytes, { (emitBlock cfg f.buf f).fe with buf := [] }⟩ :=
  if_neg fun hempty => hbuf (List.isEmpty_iff.mp hempty)

theorem flushBlock_fe (cfg : Config) (f : Fe) :
    (flushBlock cfg f).fe = { f with buf := [], cctx := (flushBlock cfg f).fe.cctx } := by
  by_cases hbuf : f.buf = []
  · rw [flushBlock_of_empty cfg hbuf, ← hbuf]
  · rw [flushBlock_of_nonempty cfg hbuf]
    rfl

theorem flushRoom_eq (f : Fe) : flushRoom f = if f.buf = [] then 0 else 4 + f.buf.length := by
  simp only [flushRoom, List.isEmpty_iff]

theorem endRoom_eq (f : Fe) : endRoom f = (if f.buf = [] then 0 else 4 + f.buf.length) + 4 +
    (if f.prefs.contentChecksum then 4 else 0) := by
  rw [endRoom, flushRoom_eq]

/-- What FE_END writes (R469). -/
def endBytes (cfg : Config) (f : Fe) : List Byte :=
  (flushBlock cfg f).bytes ++ endMarkBytes ++ trailer cfg f

theorem length_trailer (cfg : Config) (f : Fe) :
    (trailer cfg f).length = if f.prefs.contentChecksum then 4 else 0 := by
  rw [trailer]
  split
  · exact length_leBytes 4 _
  · rfl

theorem length_endBytes (cfg : Config) (f : Fe) : (endBytes cfg f).length =
    (flushBlock cfg f).bytes.length + 4 + (if f.prefs.contentChecksum then 4 else 0) := by
  rw [endBytes, List.length_append, List.length_append, length_trailer, endMarkBytes, length_leBytes]

theorem sizeMismatch_eq_false (hsize : f.prefs.contentSize = 0#64 ∨ f.total = f.prefs.contentSize) :
    sizeMismatch f = false := by
  rcases hsize with hzero | htotal
  · rw [sizeMismatch, hzero]
    rfl
  · rw [sizeMismatch, htotal, bne_self_eq_false, Bool.and_false]

theorem sizeMismatch_eq_true (hdeclared : f.prefs.contentSize ≠ 0#64)
    (htotal : f.total ≠ f.prefs.contentSize) : sizeMismatch f = true := by
  rw [sizeMismatch, bne_iff_ne.mpr hdeclared, bne_iff_ne.mpr htotal]
  rfl

/-! ## What a command leaves -/

theorem wrote_writeBytes_of_le {m : Memory} (hm : m.wf = true) (lo : Nat) {bs : List Byte} {len : Nat}
    (hlen : len ≤ bs.length) : wrote m (m.writeBytes lo bs) lo bs len := by
  refine ⟨Memory.readBytes_writeBytes hm lo bs, fun j hj => ?_⟩
  rw [Nat.max_eq_left hlen] at hj
  exact Memory.read_writeBytes_outside hm lo bs hj

/-- A command that completes with a new frame encoder and bytes written. -/
theorem completes_of_done (hm : s.mem.wf = true) {k lo len : Nat} {bs : List Byte} {r0 : U64}
    (hexec : exec i s = done r0 ((s.setFe k g).memWrite lo bs)) (hlen : len ≤ bs.length) :
    ∃ m', exec i s = .next { s with
        fe := s.fe.set k g
        mem := m'
        status := 0#8, res0 := r0, res1 := 0#64, res2 := 0#64 } ∧
      wrote s.mem m' lo bs len :=
  ⟨_, hexec, wrote_writeBytes_of_le hm lo hlen⟩

/-! ## The checks (R460, R462) -/

section Checks
variable (hlegal : s.cfg.legal = true) (hf : s.fe[h.toNat]? = some f)
include hlegal hf

theorem withFe_ready (k : Fe → Answer) : withFe h 0#8 s k = k f := by
  simp only [withFe, command_legal hlegal, hf]
  rfl

theorem withActiveFe_idle (hstage : f.stage = .idle) (k : Fe → Answer) :
    withActiveFe h 0#8 s k = raise .protocolViolation s := by
  rw [withActiveFe, withFe_ready hlegal hf, hstage]

theorem withActiveFe_error (hstage : f.stage = .error) (k : Fe → Answer) :
    withActiveFe h 0#8 s k = raiseLatched f.err s := by
  rw [withActiveFe, withFe_ready hlegal hf, hstage]

theorem withActiveFe_active (hstage : f.stage = .active) (k : Fe → Answer) :
    withActiveFe h 0#8 s k = k f := by
  rw [withActiveFe, withFe_ready hlegal hf, hstage]

/-- FE_BEGIN once its handle and flags pass. -/
theorem exec_feBegin (w size level : U64) : exec (.feBegin h 0#8 w size level d cap) s =
    if f.stage = .active then raise .protocolViolation s
    else if prefsReserved w ≠ 0#58 then raise .reservedFlagSet s
    else if prefsBlockChecksum w then raise .protocolViolation s
    else if cap.toNat < headerSize size then raise .outputTooSmall s
    else if !tablesFit s.cfg (clampLevel level.toNat) then raise .allocationFailed s
    else withBuffers s.cfg [] (buffer d cap)
      (done (BitVec.ofNat 64 (headerSize size))
        ((s.setFe h.toNat (f.opened s.cfg (latchPrefs w size level))).memWrite d.toNat
          (frameHeader s.cfg (latchPrefs w size level)))) :=
  withFe_ready hlegal hf _

end Checks

/-- The three commands that need an open frame share their checks of handle, flags and stage. -/
theorem exec_eq_withActiveFe (hi : i = .feUpdate h 0#8 a n d cap ∨ i = .feFlush h 0#8 d cap ∨
    i = .feEnd h 0#8 d cap) : ∃ k, exec i s = withActiveFe h 0#8 s k := by
  rcases hi with rfl | rfl | rfl
  · exact ⟨_, rfl⟩
  · exact ⟨_, rfl⟩
  · exact ⟨_, rfl⟩

/-! ## The commands on an open frame (R464, R468, R469) -/

/-- The content FE_UPDATE takes is as long as its second operand says. -/
theorem Fe.total_accept_readBytes (f : Fe) (m : Memory) (lo : Nat) (n : U64) :
    (f.accept (m.readBytes lo n.toNat)).total = f.total + n := by
  rw [Fe.accept, length_readBytes, BitVec.ofNat_toNat, BitVec.setWidth_eq]

theorem Fe.update_readBytes (cfg : Config) (f : Fe) (m : Memory) (lo n : Nat) :
    f.update cfg (m.readBytes lo n) = emitBlocks cfg f.blockSize ((f.buf.length + n) / f.blockSize)
      (f.buf ++ m.readBytes lo n) (f.accept (m.readBytes lo n)) := by
  rw [Fe.update, length_readBytes]

section Active
variable (hlegal : s.cfg.legal = true) (hf : s.fe[h.toNat]? = some f) (hstage : f.stage = .active)
include hlegal hf hstage

theorem exec_feUpdate : exec (.feUpdate h 0#8 a n d cap) s =
    if cap.toNat < (f.buf.length + n.toNat) / f.blockSize * (4 + f.blockSize) then
      raise .outputTooSmall s
    else withBuffers s.cfg [buffer a n] (buffer d cap) <|
      let e := f.update s.cfg (s.mem.readBytes a.toNat n.toNat)
      done (BitVec.ofNat 64 e.bytes.length) ((s.setFe h.toNat e.fe).memWrite d.toNat e.bytes) := by
  rw [Fe.update_readBytes]
  exact withActiveFe_active hlegal hf hstage _

theorem exec_feFlush : exec (.feFlush h 0#8 d cap) s =
    if cap.toNat < flushRoom f then raise .outputTooSmall s
    else withBuffers s.cfg [] (buffer d cap) <|
      let e := flushBlock s.cfg f
      done (BitVec.ofNat 64 e.bytes.length) ((s.setFe h.toNat e.fe).memWrite d.toNat e.bytes) :=
  withActiveFe_active hlegal hf hstage _

theorem exec_feEnd : exec (.feEnd h 0#8 d cap) s =
    if sizeMismatch f then
      raise .frameSizeMismatch
        (s.setFe h.toNat { f with stage := .error, err := Err.frameSizeMismatch.code })
    else if cap.toNat < endRoom f then raise .outputTooSmall s
    else withBuffers s.cfg [] (buffer d cap) <|
      done (BitVec.ofNat 64 (endBytes s.cfg f).length)
        ((s.setFe h.toNat { (flushBlock s.cfg f).fe with stage := .idle }).memWrite d.toNat
          (endBytes s.cfg f)) :=
  withActiveFe_active hlegal hf hstage _

end Active

end Sys2Proof.Machine

namespace Sys2Proof.Proofs
open Sys2Proof.Machine Sys2Proof.Claims

/-- Settles O50: the strict comparison of the two lengths chooses the record. -/
theorem blockRecordForm : Obligations.BlockRecordForm := by
  intro cfg blk f c e
  exact ⟨rfl, emitBlock_compressed rfl, emitBlock_stored rfl, length_emitBlock_le cfg blk f⟩

/-- Settles O49: the stage decides first, then the room for the worst case. -/
theorem frameEncoderRejections : Obligations.FrameEncoderRejections := by
  intro s h a n d cap f hlegal hf B flush turnedAway
  refine ⟨fun i hi => ?stage, fun hstage => ⟨fun hroom => ?update, fun hroom => ?flush,
    fun hsize hroom => ?finish⟩⟩
  case stage =>
    obtain ⟨k, hexec⟩ := exec_eq_withActiveFe (s := s) hi
    exact ⟨fun hstage => hexec.trans (withActiveFe_idle hlegal hf hstage k),
      fun hstage => hexec.trans (withActiveFe_error hlegal hf hstage k)⟩
  case update => exact (exec_feUpdate hlegal hf hstage).trans (if_pos hroom)
  case flush =>
    have hflush : flushRoom f = flush := flushRoom_eq f
    exact (exec_feFlush hlegal hf hstage).trans (if_pos (hflush ▸ hroom))
  case finish =>
    rw [← endRoom_eq] at hroom
    have hmet := ne_true_of_eq_false (sizeMismatch_eq_false hsize)
    exact (exec_feEnd hlegal hf hstage).trans ((if_neg hmet).trans (if_pos hroom))

/-- Settles O47: each check ends the command where the ones before it pass; what is opened keeps
nothing of the encoder before. -/
theorem feBeginMeaning : Obligations.FeBeginMeaning := by
  intro s h w size level d cap f hlegal hwf hf i hsz lv fails p
  have hexec := exec_feBegin (d := d) (cap := cap) hlegal hf w size level
  refine ⟨fun hstage => hexec.trans (if_pos hstage), fun hstage hres => ?_,
    fun hstage hres => ?_⟩
  · exact hexec.trans ((if_neg hstage).trans (if_pos hres))
  have hprefs := hexec.trans ((if_neg hstage).trans (if_neg (not_not.mpr hres)))
  have hplain := fun hsum : w.getLsbD 5 = false =>
    hprefs.trans (if_neg (ne_true_of_eq_false hsum))
  have hroom := fun hsum (hcap : hsz ≤ cap.toNat) =>
    (hplain hsum).trans (if_neg (Nat.not_lt.mpr hcap))
  refine ⟨fun hsum => hprefs.trans (if_pos hsum),
    fun hsum hcap => (hplain hsum).trans (if_pos hcap),
    fun hsum hcap hlarge => ?large, fun hsum hcap hfits hbuf => ?opens⟩
  case large =>
    have hfit : tablesFit s.cfg lv = false := decide_eq_false (Nat.not_le.mpr hlarge)
    exact (hroom hsum hcap).trans (if_pos (Bool.not_eq_true' _ ▸ hfit))
  case opens =>
    have hfit : tablesFit s.cfg lv = true := decide_eq_true hfits
    have hlen : (frameHeader s.cfg p).length = hsz := length_frameHeader s.cfg p
    have hdone := (hroom hsum hcap).trans
      ((if_neg (by simpa using hfit)).trans (withBuffers_ok hbuf _))
    obtain ⟨m', hm', hwrote⟩ := completes_of_done hwf hdone (Nat.le_of_eq hlen.symm)
    exact ⟨m', hm', hlen, hwrote⟩

/-- Settles O48: each command completes with one write of what its run of blocks or its flush
gives; the frames of the encoder are those of `emitBlocks` and `flushBlock`. -/
theorem frameEncoderMeaning : Obligations.FrameEncoderMeaning := by
  intro s h a n d cap f hlegal hwf hf hstage B src k up fl flush trailer
  have hflush : flushRoom f = flush := flushRoom_eq f
  have hupdate : f.update s.cfg src = up := f.update_readBytes s.cfg s.mem a.toNat n.toNat
  have hend : endBytes s.cfg f = fl.bytes ++ trailer := List.append_assoc ..
  refine ⟨fun _ _ => rfl, fun _ _ _ => rfl, ⟨?_, length_emitBlocks_le _ _ _ _ _, fun hk => ?_⟩,
    ⟨flushBlock_fe s.cfg f, hflush ▸ length_flushBlock_le s.cfg f, fun hbuf => ?_, fun hbuf => ?_⟩,
    fun hroom hbuf => ?update, fun hroom hbuf => ?flush, fun hsize hroom hbuf => ?finish,
    fun hdeclared htotal => ?mismatch⟩
  · have hfe := emitBlocks_fe s.cfg B k (f.buf ++ src) (f.accept src)
    rw [f.total_accept_readBytes] at hfe
    exact hfe
  · simp only [up, hk]
    exact ⟨rfl, rfl⟩
  · have hfl : fl = _ := flushBlock_of_empty s.cfg hbuf
    rw [hfl]
    exact ⟨rfl, rfl⟩
  · have hfl : fl = _ := flushBlock_of_nonempty s.cfg hbuf
    rw [hfl]
    exact ⟨rfl, rfl⟩
  case update =>
    have hexec := (exec_feUpdate hlegal hf hstage).trans
      ((if_neg (Nat.not_lt.mpr hroom)).trans (withBuffers_ok hbuf _))
    rw [hupdate] at hexec
    exact completes_of_done hwf hexec (Nat.le_refl _)
  case flush =>
    have hexec := (exec_feFlush hlegal hf hstage).trans
      ((if_neg (Nat.not_lt.mpr (hflush ▸ hroom))).trans (withBuffers_ok hbuf _))
    exact completes_of_done hwf hexec (Nat.le_refl _)
  case finish =>
    rw [← endRoom_eq] at hroom
    have hmet := ne_true_of_eq_false (sizeMismatch_eq_false hsize)
    have hexec := (exec_feEnd hlegal hf hstage).trans ((if_neg hmet).trans
      ((if_neg (Nat.not_lt.mpr hroom)).trans (withBuffers_ok hbuf _)))
    rw [length_endBytes, hend] at hexec
    exact completes_of_done hwf hexec (Nat.zero_le _)
  case mismatch =>
    exact (exec_feEnd hlegal hf hstage).trans (if_pos (sizeMismatch_eq_true hdeclared htotal))

end Sys2Proof.Proofs
end

section
/-! The header as the frame decoder reads it (spec/30_encoding.md R155 to R160, spec/45_frame_encoder.md
R463, spec/46_frame_decoder.md R508): the fields of a header record, then those the encoder puts there. -/

namespace Sys2Proof.Machine
open Sys2Proof.Claims

variable {cfg : Config} {flg bd hc : Byte} {csize : Option U64}

/-! ## The bytes of a header record (R155) -/

theorem flg_hdrBytes : (hdrBytes cfg flg bd csize hc).getD 4 0#8 = flg := rfl

theorem bd_hdrBytes : (hdrBytes cfg flg bd csize hc).getD 5 0#8 = bd := rfl

/-- The index of the header checksum (R508). -/
abbrev checksumIndex (flg : Byte) : Nat := if flgContentSize flg then 14 else 6

section Size
variable (hsize : csize.isSome = flgContentSize flg)
include hsize

theorem checksum_hdrBytes :
    (hdrBytes cfg flg bd csize hc).getD (checksumIndex flg) 0#8 = hc := by
  rw [checksumIndex, ← hsize]
  cases csize with
  | none => rfl
  | some n => rfl

theorem desc_hdrBytes :
    ((hdrBytes cfg flg bd csize hc).drop 4).take (checksumIndex flg - 4) =
      descBytes flg bd csize := by
  rw [checksumIndex, ← hsize]
  cases csize with
  | none => rfl
  | some n => rfl

theorem contentSize_hdrBytes :
    (if flgContentSize flg then
      BitVec.ofNat 64 (leNat (((hdrBytes cfg flg bd csize hc).drop 6).take 8)) else 0#64) =
      csize.getD 0#64 := by
  rw [← hsize]
  cases csize with
  | none => rfl
  | some n =>
    have hn : leNat (leBytes 8 n.toNat) = n.toNat := leNat_leBytes 8 n.toNat n.isLt
    have hfield : ((hdrBytes cfg flg bd (some n) hc).drop 6).take 8 = leBytes 8 n.toNat := rfl
    rw [hfield, hn, BitVec.ofNat_toNat, BitVec.setWidth_eq]
    rfl

/-- The decoder latches what the fields of the record say (R508). -/
theorem headerInfo_hdrBytes : headerInfo (hdrBytes cfg flg bd csize hc) = infoOf flg bd csize := by
  rw [headerInfo, flg_hdrBytes, bd_hdrBytes, contentSize_hdrBytes hsize]
  rfl

/-- A header whose fields are legal and whose checksum covers its descriptor passes every check of
R508. -/
theorem headerError_hdrBytes (hversion : flgVersion flg = 1#2)
    (hblock : flgBlockChecksum flg = false) (hflg : flgReserved flg = 0#2)
    (hbd : bdReservedZero bd = true) (hid : bdBlockSizeId bd ≠ 0#3)
    (hhc : hc = headerChecksum cfg (descBytes flg bd csize)) :
    headerError cfg (hdrBytes cfg flg bd csize hc) = none := by
  have hreserved : ¬ (flgReserved flg ≠ 0#2 ∨ bdReservedZero bd = false) := by simp [hflg, hbd]
  have hchecksum : (hdrBytes cfg flg bd csize hc).getD (checksumIndex flg) 0#8 = headerChecksum cfg
      (((hdrBytes cfg flg bd csize hc).drop 4).take (checksumIndex flg - 4)) := by
    rw [checksum_hdrBytes hsize, desc_hdrBytes hsize, hhc]
  exact (if_neg (not_not.mpr hversion)).trans ((if_neg (ne_true_of_eq_false hblock)).trans
    ((if_neg hreserved).trans ((if_neg hid).trans (if_neg (not_not.mpr hchecksum)))))

end Size

/-! ## The fields the encoder writes (R463) -/

/-- The fields of `FLG` as R157 places them. -/
theorem Prefs.flg_fields (p : Prefs) :
    flgVersion p.flg = 1#2 ∧ flgBlockMode p.flg = p.blockMode ∧ flgBlockChecksum p.flg = false ∧
      flgContentSize p.flg = (p.contentSize != 0#64) ∧
      flgContentChecksum p.flg = p.contentChecksum ∧ flgReserved p.flg = 0#2 := by
  rw [Prefs.flg]
  generalize p.blockMode = mode, (p.contentSize != 0#64) = sized, p.contentChecksum = summed
  decide +revert

/-- The fields of `BD` as R158 places them. -/
theorem Prefs.bd_fields (p : Prefs) :
    bdBlockSizeId p.bd = p.blockSizeId ∧ bdReservedZero p.bd = true := by
  rw [Prefs.bd]
  generalize p.blockSizeId = id
  decide +revert

theorem Prefs.isSome_sizeField (p : Prefs) : p.sizeField.isSome = (p.contentSize != 0#64) := by
  by_cases hzero : p.contentSize = 0#64 <;> simp [Prefs.sizeField, hzero]

theorem Prefs.getD_sizeField (p : Prefs) : p.sizeField.getD 0#64 = p.contentSize := by
  by_cases hzero : p.contentSize = 0#64 <;> simp [Prefs.sizeField, hzero]

end Sys2Proof.Machine

namespace Sys2Proof.Proofs
open Sys2Proof.Machine Sys2Proof.Claims

/-- Settles O52: the fields the encoder writes read back, so every check passes. -/
theorem encoderHeaderAccepted : Obligations.EncoderHeaderAccepted := by
  intro cfg p hid
  obtain ⟨hversion, hmode, hblock, hsized, hsummed, hflg⟩ := p.flg_fields
  obtain ⟨hbdId, hbd⟩ := p.bd_fields
  have hsize : p.sizeField.isSome = flgContentSize p.flg := p.isSome_sizeField.trans hsized.symm
  refine ⟨headerError_hdrBytes hsize hversion hblock hflg hbd (hbdId ▸ hid) rfl, ?_⟩
  calc headerInfo (frameHeader cfg p)
      = ⟨flgBlockMode p.flg, bdBlockSizeId p.bd, blockSize (bdBlockSizeId p.bd),
          flgContentChecksum p.flg, flgContentSize p.flg, p.sizeField.getD 0#64⟩ :=
        headerInfo_hdrBytes hsize
    _ = _ := by
        rw [hmode, hbdId, hsummed, hsized, p.getD_sizeField]
        rfl

end Sys2Proof.Proofs
end

section
/-! The rules of the frame decoder's stages, branch by branch (spec/46_frame_decoder.md R514 to R517,
R519, R520): what a call consumes and produces, `ACCOUNT`, and the stages a block passes. -/

namespace Sys2Proof.Machine
open Sys2Proof.Claims

variable {f : Fd} {io : FdIo}

/-! ## Consuming and producing -/

/-- The offset of the end of a call's input, from the call's start. -/
def FdIo.inputEnd (io : FdIo) : Nat := io.ip + io.avail

@[simp] theorem FdIo.avail_consume (io : FdIo) (t : Nat) : (io.consume t).avail = io.avail - t :=
  List.length_drop

@[simp] theorem FdIo.avail_produce (io : FdIo) (bs : List Byte) : (io.produce bs).avail = io.avail :=
  rfl

theorem FdIo.inputEnd_consume {t : Nat} (h : t ≤ io.avail) :
    (io.consume t).inputEnd = io.inputEnd := by
  have hip : (io.consume t).ip = io.ip + t := rfl
  rw [inputEnd, avail_consume, inputEnd, hip]
  omega

theorem Fd.takes_le_avail (f : Fd) (io : FdIo) (target : Nat) : f.takes io target ≤ io.avail :=
  Nat.min_le_left _ _

theorem Fd.length_taken (f : Fd) (io : FdIo) (target : Nat) :
    (f.taken io target).tmpIn.length = f.tmpIn.length + f.takes io target := by
  rw [taken, List.length_append, List.length_take_of_le (f.takes_le_avail io target)]

/-! ## ACCOUNT (R519, R520) -/

theorem account_of_ok {blk : List Byte} (h : accountOk f blk) :
    f.account blk = (true, accounted f blk) := by
  refine if_neg fun hover => ?_
  simp only [Fd.sizeDeclared, Bool.and_eq_true, bne_iff_ne, decide_eq_true_eq] at hover
  obtain ⟨⟨hflag, hsize⟩, hlt⟩ := hover
  exact absurd (h hflag hsize) (Nat.not_le.mpr hlt)

theorem account_of_not_ok {blk : List Byte} (h : ¬ accountOk f blk) :
    f.account blk = (false, { f with total := f.total + BitVec.ofNat 64 blk.length }) := by
  refine if_pos ?_
  simp only [accountOk, Classical.not_imp, Nat.not_le] at h
  obtain ⟨hflag, hsize, hlt⟩ := h
  simp only [Fd.sizeDeclared, hflag, bne_iff_ne.mpr hsize, hlt, decide_true, Bool.and_self]

/-! ## Stored blocks (R514) -/

section CopyDirect
variable {chunk : List Byte}
  (hchunk : io.src.take (min (min io.avail io.room) f.remaining) = chunk)
include hchunk

theorem length_chunk : min (min io.avail io.room) f.remaining = chunk.length := by
  rw [← hchunk, List.length_take, ← FdIo.avail]
  omega

theorem take_chunk : io.src.take chunk.length = chunk :=
  (congrArg (io.src.take ·) (length_chunk hchunk)).symm.trans hchunk

/-- `copyDirect` where what it copies passes the declared size (R514). -/
theorem fdCopyDirect_over (hover : ¬ accountOk f chunk) :
    fdCopyDirect f io = .fail .frameSizeMismatch
      { f with total := f.total + BitVec.ofNat 64 chunk.length } (io.consume chunk.length) := by
  simp only [fdCopyDirect, length_chunk hchunk, take_chunk hchunk, account_of_not_ok hover]
  rfl

/-- `copyDirect` that waits for the rest of the block (R514). -/
theorem fdCopyDirect_part (hok : accountOk f chunk) (hpart : chunk.length < f.remaining) :
    fdCopyDirect f io = .hint (f.remaining - chunk.length + 4)
      { accounted f chunk with remaining := f.remaining - chunk.length }
      ((io.consume chunk.length).produce chunk) := by
  simp only [fdCopyDirect, length_chunk hchunk, take_chunk hchunk, account_of_ok hok]
  exact if_pos (Nat.sub_pos_of_lt hpart)

/-- `copyDirect` that ends the block (R514). -/
theorem fdCopyDirect_whole (hok : accountOk f chunk) (hwhole : chunk.length = f.remaining) :
    fdCopyDirect f io = .go
      { accounted f chunk with dStage := .getCBlockSize, remaining := 0 }
      ((io.consume chunk.length).produce chunk) := by
  have hrest : f.remaining - chunk.length = 0 := by omega
  simp only [fdCopyDirect, length_chunk hchunk, take_chunk hchunk, account_of_ok hok, hrest]
  rfl

end CopyDirect

/-! ## Compressed blocks (R515 to R517) -/

theorem fdDecodeCBlock_failed {c : Nat} (hfail : (decodeBlock f.tmpIn f.frameInfo.maxBlockSize
      (if f.frameInfo.blockMode then [] else f.hist) false false 0).phase = .failed c) :
    fdDecodeCBlock f io = .fail .malformedStream f io := by
  simp only [fdDecodeCBlock, hfail]

theorem fdDecodeCBlock_ended (hend : (decodeBlock f.tmpIn f.frameInfo.maxBlockSize
      (if f.frameInfo.blockMode then [] else f.hist) false false 0).phase = .ended) :
    fdDecodeCBlock f io = .go { f with
      tmpOut := (decodeBlock f.tmpIn f.frameInfo.maxBlockSize
        (if f.frameInfo.blockMode then [] else f.hist) false false 0).out
      dStage := if f.frameInfo.maxBlockSize ≤ io.room then .decodeCBlockIntoDst
        else .decodeCBlockIntoTmp } io := by
  simp only [fdDecodeCBlock, hend]

theorem fdIntoDst_ok (hok : accountOk f f.tmpOut) :
    fdIntoDst f io = .go { accounted f f.tmpOut with dStage := .getCBlockSize, tmpOut := [] }
      (io.produce f.tmpOut) := by
  simp only [fdIntoDst, account_of_ok hok]
  rfl

theorem fdIntoDst_over (hover : ¬ accountOk f f.tmpOut) :
    fdIntoDst f io = .fail .frameSizeMismatch { f with
      total := f.total + BitVec.ofNat 64 f.tmpOut.length, tmpOut := [] } io := by
  simp only [fdIntoDst, account_of_not_ok hover]
  rfl

theorem fdIntoTmp_ok (hok : accountOk f f.tmpOut) :
    fdIntoTmp f io = .go { accounted f f.tmpOut with dStage := .flushOut } io := by
  simp only [fdIntoTmp, account_of_ok hok]
  rfl

theorem fdIntoTmp_over (hover : ¬ accountOk f f.tmpOut) :
    fdIntoTmp f io = .fail .frameSizeMismatch { f with
      total := f.total + BitVec.ofNat 64 f.tmpOut.length, tmpOut := [] } io := by
  simp only [fdIntoTmp, account_of_not_ok hover]
  rfl

theorem fdFlushOut_whole (hfit : f.tmpOut.length ≤ io.room) :
    fdFlushOut f io = .go { f with dStage := .getCBlockSize, tmpOut := [] }
      (io.produce f.tmpOut) := by
  simp only [fdFlushOut, Nat.min_eq_right hfit, List.drop_length, List.take_length]
  rfl

theorem fdFlushOut_part (hwaits : io.room < f.tmpOut.length) :
    fdFlushOut f io = .hint 4 { f with tmpOut := f.tmpOut.drop io.room }
      (io.produce (f.tmpOut.take io.room)) := by
  have hmore : ¬ (f.tmpOut.drop io.room).isEmpty = true := by
    rw [List.isEmpty_iff, List.drop_eq_nil_iff]
    omega
  simp only [fdFlushOut, Nat.min_eq_left hwaits.le, if_neg hmore]

end Sys2Proof.Machine
end

section
/-! The stage machine of a frame-decoder call (spec/46_frame_decoder.md R504, R731): every stage's rule
answers, keeps the end of the input where it is and, where the call goes on, leaves less work; so every
call runs to a stage that returns or fails, within its bound. -/

namespace Sys2Proof.Machine
open Sys2Proof.Claims

variable {cfg : Config} {f : Fd} {io : FdIo} {last w : Nat}

/-! ## The work left -/

/-- More than the stages that can follow before a byte is consumed. -/
def Fd.rank (f : Fd) : Nat :=
  match f.dStage with
  | .getHeader => 15
  | .storeHeader => if f.tmpInTarget = 7 then 14 else 13
  | .getSFrameSize => 13
  | .storeSFrameSize => 12
  | .storeCBlockSize => if f.tmpIn.length < 4 then 6 else 13
  | .getCBlock => 12
  | .storeCBlock => 11
  | .decodeCBlock => 10
  | .decodeCBlockIntoDst => 9
  | .decodeCBlockIntoTmp => 9
  | .copyDirect => 8
  | .flushOut => 8
  | .getCBlockSize => 7
  | .getSuffix => 5
  | .storeSuffix => 4
  | .skipSkippable => 4
  | .error => 0

theorem Fd.rank_lt (f : Fd) : f.rank < 16 := by
  rw [rank]
  split
  case h_2 => split <;> decide
  case h_5 => split <;> decide
  all_goals decide

/-- A bound of the stages a call still runs (R731). -/
def Fd.work (f : Fd) (io : FdIo) : Nat := 16 * io.avail + f.rank

/-- A stage's rule has answered: the input still ends at `last`, the decoder is not in ERROR and,
where the call goes on, less than `w` work is left. -/
def StageEnd.Moves (last w : Nat) : StageEnd → Prop
  | .go f io => io.inputEnd = last ∧ f.dStage ≠ .error ∧ f.work io < w
  | .hint _ f io => io.inputEnd = last ∧ f.dStage ≠ .error
  | .fail _ _ io => io.inputEnd = last
  | .stuck => False

/-- On to a stage of less rank, with no byte consumed. -/
theorem moves_go {f1 : Fd} {io1 : FdIo} (hend : io1.inputEnd = io.inputEnd)
    (havail : io1.avail = io.avail) (hstage : f1.dStage ≠ .error) (hrank : f1.rank < f.rank) :
    (StageEnd.go f1 io1).Moves io.inputEnd (f.work io) := by
  refine ⟨hend, hstage, ?_⟩
  rw [Fd.work, Fd.work, havail]
  exact Nat.add_lt_add_left hrank _

theorem moves_storeField {target extra : Nat} {k : Fd → FdIo → StageEnd}
    (hstage : f.dStage ≠ .error)
    (hk : target ≤ f.tmpIn.length + f.takes io target →
      (k (f.taken io target) (io.consume (f.takes io target))).Moves io.inputEnd w) :
    (storeField f io target extra k).Moves io.inputEnd w := by
  simp only [storeField]
  split
  · exact ⟨FdIo.inputEnd_consume (f.takes_le_avail io target), hstage⟩
  · next hfull => exact hk (by rw [← f.length_taken]; exact Nat.not_lt.mp hfull)

/-! ## The stages -/

theorem moves_fdGetHeader (hstage : f.dStage = .getHeader) :
    (fdGetHeader f io).Moves io.inputEnd (f.work io) := by
  rw [fdGetHeader]
  split
  · exact ⟨rfl, hstage.trans_ne nofun⟩
  · exact moves_go rfl rfl nofun (by simp [Fd.rank, Fd.collect, hstage])

theorem moves_validateHeader (hend : io.inputEnd = last) (hw : 16 * io.avail + 7 < w) :
    (validateHeader cfg f io).Moves last w := by
  rw [validateHeader]
  split
  · exact hend
  · exact ⟨hend, nofun, hw⟩

theorem rank_storeHeader (hstage : f.dStage = .storeHeader) :
    f.rank = if f.tmpInTarget = 7 then 14 else 13 := by
  simp only [Fd.rank, hstage]

/-- A header that is still collected has grown to its long form, or has taken a byte (R506). -/
theorem work_storeHeader {f2 : Fd} {long : Bool} (hstage : f.dStage = .storeHeader)
    (hstage2 : f2.dStage = .storeHeader)
    (htarget : f2.tmpInTarget = if long then 15 else f.tmpInTarget)
    (hlong : long = true → f.tmpInTarget = 7)
    (hshort : f.tmpIn.length + f.takes io f.tmpInTarget < f2.tmpInTarget)
    (hmore : (io.consume (f.takes io f.tmpInTarget)).avail ≠ 0) :
    f2.work (io.consume (f.takes io f.tmpInTarget)) < f.work io := by
  have htakes : f.takes io f.tmpInTarget = min io.avail (f.tmpInTarget - f.tmpIn.length) := rfl
  rw [FdIo.avail_consume] at hmore
  rw [Fd.work, Fd.work, FdIo.avail_consume, rank_storeHeader hstage, rank_storeHeader hstage2]
  cases long with
  | false =>
    rw [if_neg Bool.false_ne_true] at htarget
    omega
  | true =>
    rw [if_pos rfl] at htarget
    rw [if_pos (hlong rfl), if_neg (by omega)]
    omega

theorem moves_fdStoreHeader (hstage : f.dStage = .storeHeader) :
    (fdStoreHeader cfg f io).Moves io.inputEnd (f.work io) := by
  rw [fdStoreHeader]
  extract_lets long f2
  have hend : (io.consume (f.takes io f.tmpInTarget)).inputEnd = io.inputEnd :=
    FdIo.inputEnd_consume (f.takes_le_avail io f.tmpInTarget)
  have havail := io.avail_consume (f.takes io f.tmpInTarget)
  have hwork : 16 * io.avail + 13 ≤ f.work io := by
    rw [Fd.work, rank_storeHeader hstage]
    split <;> omega
  split
  · refine ⟨hend, nofun, ?_⟩
    have hrank : ({ f.taken io f.tmpInTarget with
        dStage := .storeSFrameSize, tmpInTarget := 8 } : Fd).rank = 12 := rfl
    rw [Fd.work, hrank]
    omega
  · split
    · exact hend
    · split
      · exact moves_validateHeader hend (by omega)
      · next hshort =>
        have hstage2 : f2.dStage = .storeHeader := hstage
        split
        · exact ⟨hend, hstage2.trans_ne nofun⟩
        · next hmore =>
          refine ⟨hend, hstage2.trans_ne nofun, ?_⟩
          rw [f.length_taken, Nat.not_le] at hshort
          refine work_storeHeader (long := long) hstage hstage2 rfl (fun hlong => ?_) hshort hmore
          simp only [long, Bool.and_eq_true, beq_iff_eq] at hlong
          exact hlong.1.2

theorem moves_fdBlockWord {word : U32} (hend : io.inputEnd = last) (hw : 16 * io.avail + 12 < w) :
    (fdBlockWord word f io).Moves last w := by
  simp only [fdBlockWord, fdEndMark]
  split
  · split
    · exact hend
    · split
      · refine ⟨hend, nofun, ?_⟩
        simp only [Fd.work, Fd.rank, Fd.goto]
        omega
      · exact ⟨hend, nofun⟩
  · split
    · exact hend
    · split
      · refine ⟨hend, nofun, ?_⟩
        simp only [Fd.work, Fd.rank]
        omega
      · exact ⟨hend, nofun, hw⟩

/-- A block word that was not complete takes at least a byte (R511). -/
theorem moves_fdStoreCBlockSize (hstage : f.dStage = .storeCBlockSize) :
    (fdStoreCBlockSize f io).Moves io.inputEnd (f.work io) := by
  refine moves_storeField (hstage.trans_ne nofun) fun hfull => ?_
  refine moves_fdBlockWord (FdIo.inputEnd_consume (f.takes_le_avail io 4)) ?_
  have hle := f.takes_le_avail io 4
  rw [FdIo.avail_consume, Fd.work]
  simp only [Fd.rank, hstage]
  split <;> omega

theorem moves_fdCopyDirect (hstage : f.dStage = .copyDirect) :
    (fdCopyDirect f io).Moves io.inputEnd (f.work io) := by
  obtain ⟨chunk, hchunk⟩ : ∃ chunk, io.src.take (min (min io.avail io.room) f.remaining) = chunk :=
    ⟨_, rfl⟩
  have hlen := length_chunk hchunk
  have hend : (io.consume chunk.length).inputEnd = io.inputEnd := FdIo.inputEnd_consume (by omega)
  by_cases hok : accountOk f chunk
  · have hle : chunk.length ≤ f.remaining := by omega
    rcases Nat.lt_or_eq_of_le hle with hpart | hwhole
    · rw [fdCopyDirect_part hchunk hok hpart]
      exact ⟨hend, hstage.trans_ne nofun⟩
    · rw [fdCopyDirect_whole hchunk hok hwhole]
      refine ⟨hend, nofun, ?_⟩
      simp only [Fd.work, Fd.rank, hstage, FdIo.avail_produce, FdIo.avail_consume]
      omega
  · rw [fdCopyDirect_over hchunk hok]
    exact hend

theorem moves_fdStoreCBlock (hstage : f.dStage = .storeCBlock) :
    (fdStoreCBlock f io).Moves io.inputEnd (f.work io) := by
  refine moves_storeField (hstage.trans_ne nofun) fun _ => ?_
  refine ⟨FdIo.inputEnd_consume (f.takes_le_avail io _), nofun, ?_⟩
  simp only [Fd.work, Fd.rank, Fd.goto, hstage, FdIo.avail_consume]
  omega

/-- The block decoder ends (R385). -/
theorem moves_fdDecodeCBlock (hstage : f.dStage = .decodeCBlock) :
    (fdDecodeCBlock f io).Moves io.inputEnd (f.work io) := by
  simp only [fdDecodeCBlock]
  split
  · rfl
  · next hrun => exact (sound_decodeBlock ..).not_running (Nat.lt_succ_self _) hrun
  · by_cases hroom : f.frameInfo.maxBlockSize ≤ io.room
    · rw [if_pos hroom]
      exact moves_go rfl rfl nofun (by simp [Fd.rank, hstage])
    · rw [if_neg hroom]
      exact moves_go rfl rfl nofun (by simp [Fd.rank, hstage])

theorem moves_fdIntoDst (hstage : f.dStage = .decodeCBlockIntoDst) :
    (fdIntoDst f io).Moves io.inputEnd (f.work io) := by
  by_cases hok : accountOk f f.tmpOut
  · rw [fdIntoDst_ok hok]
    exact moves_go rfl rfl nofun (by simp [Fd.rank, hstage])
  · rw [fdIntoDst_over hok]
    rfl

theorem moves_fdIntoTmp (hstage : f.dStage = .decodeCBlockIntoTmp) :
    (fdIntoTmp f io).Moves io.inputEnd (f.work io) := by
  by_cases hok : accountOk f f.tmpOut
  · rw [fdIntoTmp_ok hok]
    exact moves_go rfl rfl nofun (by simp [Fd.rank, hstage])
  · rw [fdIntoTmp_over hok]
    rfl

theorem moves_fdFlushOut (hstage : f.dStage = .flushOut) :
    (fdFlushOut f io).Moves io.inputEnd (f.work io) := by
  rcases Nat.lt_or_ge io.room f.tmpOut.length with hwaits | hfit
  · rw [fdFlushOut_part hwaits]
    exact ⟨rfl, hstage.trans_ne nofun⟩
  · rw [fdFlushOut_whole hfit]
    exact moves_go rfl rfl nofun (by simp [Fd.rank, hstage])

theorem moves_fdStoreSuffix (hstage : f.dStage = .storeSuffix) :
    (fdStoreSuffix cfg f io).Moves io.inputEnd (f.work io) := by
  refine moves_storeField (hstage.trans_ne nofun) fun _ => ?_
  have hend := FdIo.inputEnd_consume (f.takes_le_avail io 4)
  split
  · exact hend
  · exact ⟨hend, nofun⟩

theorem moves_fdStoreSFrameSize (hstage : f.dStage = .storeSFrameSize) :
    (fdStoreSFrameSize f io).Moves io.inputEnd (f.work io) := by
  refine moves_storeField (hstage.trans_ne nofun) fun _ => ?_
  refine ⟨FdIo.inputEnd_consume (f.takes_le_avail io 8), nofun, ?_⟩
  simp only [Fd.work, Fd.rank, hstage, FdIo.avail_consume]
  omega

theorem moves_fdSkip (hstage : f.dStage = .skipSkippable) :
    (fdSkip f io).Moves io.inputEnd w := by
  simp only [fdSkip]
  have hend := FdIo.inputEnd_consume (Nat.min_le_left io.avail f.remaining)
  split
  · exact ⟨hend, hstage.trans_ne nofun⟩
  · exact ⟨hend, nofun⟩

/-- Every stage's rule but ERROR's answers, and a call that goes on has less work left. -/
theorem moves_fdStage (hstage : f.dStage ≠ .error) :
    (fdStage cfg f io).Moves io.inputEnd (f.work io) := by
  rw [fdStage]
  cases hd : f.dStage with
  | getHeader => exact moves_fdGetHeader hd
  | storeHeader => exact moves_fdStoreHeader hd
  | getCBlockSize | getCBlock | getSuffix | getSFrameSize =>
    exact moves_go rfl rfl nofun (by simp [Fd.rank, Fd.collect, Fd.goto, hd])
  | storeCBlockSize => exact moves_fdStoreCBlockSize hd
  | copyDirect => exact moves_fdCopyDirect hd
  | storeCBlock => exact moves_fdStoreCBlock hd
  | decodeCBlock => exact moves_fdDecodeCBlock hd
  | decodeCBlockIntoDst => exact moves_fdIntoDst hd
  | decodeCBlockIntoTmp => exact moves_fdIntoTmp hd
  | flushOut => exact moves_fdFlushOut hd
  | storeSuffix => exact moves_fdStoreSuffix hd
  | storeSFrameSize => exact moves_fdStoreSFrameSize hd
  | skipSkippable => exact moves_fdSkip hd
  | error => exact absurd hd hstage

/-! ## A call from stage to stage -/

/-- The stages that follow `x` end the call with `e`. -/
inductive Leads (cfg : Config) : StageEnd → StageEnd → Prop
  | hint {n : Nat} {f : Fd} {io : FdIo} : Leads cfg (.hint n f io) (.hint n f io)
  | fail {e : Err} {f : Fd} {io : FdIo} : Leads cfg (.fail e f io) (.fail e f io)
  | go {f : Fd} {io : FdIo} {e : StageEnd} (h : Leads cfg (fdStage cfg f io) e) :
      Leads cfg (.go f io) e

theorem Leads.of_eq_hint {x : StageEnd} {n : Nat} (h : x = .hint n f io) :
    Leads cfg x (.hint n f io) :=
  h.symm ▸ .hint

theorem Leads.of_eq_fail {x : StageEnd} {e : Err} (h : x = .fail e f io) :
    Leads cfg x (.fail e f io) :=
  h.symm ▸ .fail

theorem Leads.of_eq {x y e : StageEnd} (h : x = y) (hrest : Leads cfg y e) : Leads cfg x e :=
  h.symm ▸ hrest

theorem Leads.of_hint {n : Nat} {f1 : Fd} {io1 : FdIo} (h : fdStage cfg f io = .hint n f1 io1) :
    Leads cfg (.go f io) (.hint n f1 io1) :=
  .go (.of_eq_hint h)

theorem Leads.of_fail {e : Err} {f1 : Fd} {io1 : FdIo} (h : fdStage cfg f io = .fail e f1 io1) :
    Leads cfg (.go f io) (.fail e f1 io1) :=
  .go (.of_eq_fail h)

theorem Leads.of_go {e : StageEnd} {f1 : Fd} {io1 : FdIo} (h : fdStage cfg f io = .go f1 io1)
    (hrest : Leads cfg (.go f1 io1) e) : Leads cfg (.go f io) e :=
  .go (.of_eq h hrest)

/-- What every stage's rule keeps holds at the end of the call. -/
theorem Leads.preserves {P : StageEnd → Prop} {x e : StageEnd} (h : Leads cfg x e)
    (hstep : ∀ f io, P (.go f io) → P (fdStage cfg f io)) (hx : P x) : P e := by
  induction h with
  | hint | fail => exact hx
  | go _ ih => exact ih (hstep _ _ hx)

/-- A call ends by a return or a failure, its input's end and its stage as every rule leaves them. -/
theorem Leads.ends {e : StageEnd} (h : Leads cfg (.go f io) e) (hstage : f.dStage ≠ .error) :
    (∃ n f1 io1, e = .hint n f1 io1 ∧ io1.inputEnd = io.inputEnd ∧ f1.dStage ≠ .error) ∨
    ∃ err f1 io1, e = .fail err f1 io1 ∧ io1.inputEnd = io.inputEnd := by
  have hmoves : ∃ w, e.Moves io.inputEnd w := by
    refine h.preserves (P := fun x => ∃ w, x.Moves io.inputEnd w) ?_
      ⟨f.work io + 1, rfl, hstage, Nat.lt_succ_self _⟩
    rintro f1 io1 ⟨w, hend, hstage1, -⟩
    exact ⟨_, hend ▸ moves_fdStage hstage1⟩
  obtain ⟨w, hmoves⟩ := hmoves
  generalize StageEnd.go f io = x at h
  induction h with
  | hint => exact .inl ⟨_, _, _, rfl, hmoves⟩
  | fail => exact .inr ⟨_, _, _, rfl, hmoves⟩
  | go _ ih => exact ih hmoves

/-- Every call ends: each rule leaves less work (R731). -/
theorem exists_leads (cfg : Config) (f : Fd) (io : FdIo) (hstage : f.dStage ≠ .error) :
    ∃ e, Leads cfg (.go f io) e := by
  have hmoves := moves_fdStage (cfg := cfg) (io := io) hstage
  cases heq : fdStage cfg f io with
  | go f1 io1 =>
    rw [heq] at hmoves
    obtain ⟨-, hstage1, hwork⟩ := hmoves
    obtain ⟨e, he⟩ := exists_leads cfg f1 io1 hstage1
    exact ⟨e, .of_go heq he⟩
  | hint => exact ⟨_, .of_hint heq⟩
  | fail => exact ⟨_, .of_fail heq⟩
  | stuck => exact (heq ▸ hmoves).elim
termination_by f.work io

/-- The loop reaches that end in as many turns as there is work. -/
theorem fdLoop_of_leads {e : StageEnd} : ∀ (k : Nat) {f : Fd} {io : FdIo}, Leads cfg (.go f io) e →
    f.dStage ≠ .error → f.work io < k → fdLoop cfg k f io = e
  | 0, _, _, _, _, hk => absurd hk (Nat.not_lt_zero _)
  | k + 1, f, io, .go hrest, hstage, hk => by
    have hmoves := moves_fdStage (cfg := cfg) (io := io) hstage
    rw [fdLoop]
    cases heq : fdStage cfg f io with
    | go f1 io1 =>
      rw [heq] at hmoves hrest
      obtain ⟨-, hstage1, hwork⟩ := hmoves
      exact fdLoop_of_leads k hrest hstage1 (by omega)
    | hint | fail =>
      rw [heq] at hrest
      cases hrest
      rfl
    | stuck => exact (heq ▸ hmoves).elim

/-- What a call at the cursor `at0` answers when its stages end with `x`. -/
def StageEnd.result (at0 : Cursor) : StageEnd → Option FdResult
  | .hint n f io => some (fdReturn at0 n f io)
  | .fail e f io => some (fdLatch at0 e f io)
  | .go _ _ => none
  | .stuck => none

theorem fdRun_of_leads {e : StageEnd} {at0 : Cursor} {src : List Byte} {cap : Nat}
    (hstage : f.dStage ≠ .error) (h : Leads cfg (.go f ⟨src, 0, cap, []⟩) e) :
    fdRun cfg f at0 src cap = e.result at0 := by
  have hwork : f.work ⟨src, 0, cap, []⟩ < fdBound src.length := by
    have hrank := f.rank_lt
    have havail : f.work ⟨src, 0, cap, []⟩ = 16 * src.length + f.rank := rfl
    rw [havail, fdBound]
    omega
  rw [fdRun, fdLoop_of_leads _ h hstage hwork]
  rfl

end Sys2Proof.Machine
end

section
/-! What every stage of a frame-decoder call keeps (spec/46_frame_decoder.md R523, spec/10_state.md R70,
R75, R78), and that no other instruction changes a frame decoder. -/

namespace Sys2Proof.Machine
open Sys2Proof.Claims

variable {cfg : Config} {f : Fd} {io : FdIo}

/-! ## The invariant inside a call -/

/-- The bounds of R523. -/
structure Fd.Bounded (f : Fd) : Prop where
  tmpIn_le : f.tmpIn.length ≤ max maxHeader f.frameInfo.maxBlockSize
  tmpOut_le : f.tmpOut.length ≤ f.frameInfo.maxBlockSize
  hist_le : f.hist.length ≤ windowSize

/-- What each stage rests on; no stage of a call is ERROR. -/
def Fd.StageOk (f : Fd) : Prop :=
  match f.dStage with
  | .storeHeader => f.tmpOut = [] ∧ f.tmpIn.length ≤ maxHeader ∧ f.tmpInTarget ≤ maxHeader
  | .getCBlock => f.tmpOut = [] ∧ f.cBlockSize ≤ f.frameInfo.maxBlockSize
  | .storeCBlock => f.tmpOut = [] ∧ f.cBlockSize ≤ f.frameInfo.maxBlockSize
  | .decodeCBlockIntoDst => True
  | .decodeCBlockIntoTmp => True
  | .flushOut => True
  | .error => False
  | _ => f.tmpOut = []

/-- The stages in which a decoded block waits in `tmpOut` (R516, R517). -/
def DStage.holdsOutput : DStage → Bool
  | .decodeCBlockIntoDst => true
  | .decodeCBlockIntoTmp => true
  | .flushOut => true
  | _ => false

theorem Fd.StageOk.tmpOut_nil (h : f.StageOk) (hd : f.dStage.holdsOutput = false) :
    f.tmpOut = [] := by
  rw [StageOk] at h
  split at h
  case h_1 | h_2 | h_3 => exact h.1
  case h_4 hstage | h_5 hstage | h_6 hstage =>
    rw [hstage] at hd
    cases hd
  case h_7 => exact h.elim
  case h_8 => exact h

/-- A decoder inside a call, between two stages. -/
structure Fd.Running (f : Fd) : Prop extends f.Bounded where
  err_eq : f.err = 0#8
  total_eq : f.total = BitVec.ofNat 64 f.content.length
  stage : f.StageOk

theorem Fd.Running.tmpOut_nil (h : f.Running) (hd : f.dStage.holdsOutput = false) : f.tmpOut = [] :=
  h.stage.tmpOut_nil hd

/-- A stage's rule has kept the invariant; a failure, which latches its error later, the bounds. -/
def StageEnd.Keeps : StageEnd → Prop
  | .go f _ => f.Running
  | .hint _ f _ => f.Running ∧ f.dStage.transient = false
  | .fail _ f _ => f.Bounded
  | .stuck => True

theorem Fd.Inv.running (h : f.Inv) (hstage : f.dStage ≠ .error) : f.Running := by
  obtain ⟨htmpIn, htmpOut, hhist, hwait, herr, htotal, hout, hheader, hblock⟩ := h
  refine ⟨⟨htmpIn, htmpOut, hhist⟩, by_contra fun he => hstage (herr.mpr he), htotal hstage, ?_⟩
  cases hd : f.dStage with
  | storeHeader =>
    rw [hd] at hout hheader
    simpa only [Fd.StageOk, hd] using And.intro (hout nofun nofun) (hheader rfl)
  | getCBlock =>
    rw [hd] at hout hblock
    simpa only [Fd.StageOk, hd] using And.intro (hout nofun nofun) (hblock (.inl rfl))
  | storeCBlock =>
    rw [hd] at hout hblock
    simpa only [Fd.StageOk, hd] using And.intro (hout nofun nofun) (hblock (.inr rfl))
  | flushOut => simp only [Fd.StageOk, hd]
  | error => exact absurd hd hstage
  | decodeCBlock | decodeCBlockIntoDst | decodeCBlockIntoTmp =>
    rw [hd] at hwait
    cases hwait
  | getHeader | getCBlockSize | storeCBlockSize | copyDirect | getSuffix | storeSuffix | getSFrameSize
  | storeSFrameSize | skipSkippable =>
    rw [hd] at hout
    simpa only [Fd.StageOk, hd] using hout nofun nofun

/-- A call that returns leaves the invariant of R70 to R78. -/
theorem Fd.Running.inv (h : f.Running) (hwait : f.dStage.transient = false) (c : Cursor) :
    ({ f with srcExpect := c } : Fd).Inv := by
  obtain ⟨⟨htmpIn, htmpOut, hhist⟩, herr, htotal, hstage⟩ := h
  refine ⟨htmpIn, htmpOut, hhist, hwait, ?_, fun _ => htotal, ?_, ?_, ?_⟩
  · refine ⟨fun he => ?_, fun hne => absurd herr hne⟩
    have he' : f.dStage = .error := he
    rw [Fd.StageOk, he'] at hstage
    exact hstage.elim
  · intro hflush herror
    have hflush' : f.dStage ≠ .flushOut := hflush
    refine hstage.tmpOut_nil ?_
    cases hd : f.dStage with
    | flushOut => exact absurd hd hflush'
    | decodeCBlockIntoDst | decodeCBlockIntoTmp =>
      rw [hd] at hwait
      cases hwait
    | _ => rfl
  · intro hd
    have hd' : f.dStage = .storeHeader := hd
    rw [Fd.StageOk, hd'] at hstage
    exact hstage.2
  · rintro (hd | hd)
    · have hd' : f.dStage = .getCBlock := hd
      rw [Fd.StageOk, hd'] at hstage
      exact hstage.2
    · have hd' : f.dStage = .storeCBlock := hd
      rw [Fd.StageOk, hd'] at hstage
      exact hstage.2

theorem Err.code_ne_zero (e : Err) : e.code ≠ 0#8 := by
  cases e <;> decide

/-- A latched error leaves it too (R522). -/
theorem Fd.Bounded.latch_inv (h : f.Bounded) (e : Err) (c : Cursor) :
    ({ f with err := e.code, dStage := .error, srcExpect := c } : Fd).Inv :=
  ⟨h.tmpIn_le, h.tmpOut_le, h.hist_le, rfl, iff_of_true rfl e.code_ne_zero, fun hd => absurd rfl hd,
    fun _ hd => absurd rfl hd, nofun, nofun⟩

/-! ## Parts of the rules -/

theorem length_taken_le (f : Fd) (io : FdIo) (target : Nat) :
    (f.taken io target).tmpIn.length ≤ max f.tmpIn.length target := by
  have htakes : f.takes io target ≤ target - f.tmpIn.length := Nat.min_le_right _ _
  rw [f.length_taken]
  omega

theorem Fd.Running.taken (h : f.Running) {target : Nat}
    (htarget : target ≤ max maxHeader f.frameInfo.maxBlockSize)
    (hstage : (f.taken io target).StageOk) : (f.taken io target).Running :=
  ⟨⟨(length_taken_le f io target).trans (max_le h.tmpIn_le htarget), h.tmpOut_le, h.hist_le⟩,
    h.err_eq, h.total_eq, hstage⟩

theorem keeps_storeField {target extra : Nat} {k : Fd → FdIo → StageEnd} (h : f.Running)
    (hwait : f.dStage.transient = false)
    (htarget : target ≤ max maxHeader f.frameInfo.maxBlockSize)
    (hstage : (f.taken io target).StageOk)
    (hk : ∀ io1, (f.taken io target).Running → (k (f.taken io target) io1).Keeps) :
    (storeField f io target extra k).Keeps := by
  have h1 := h.taken htarget hstage
  simp only [storeField]
  split
  · exact ⟨h1, hwait⟩
  · exact hk _ h1

/-- `ACCOUNT` keeps `hist` within the window and `total` the length of the content (R520). -/
theorem Fd.Running.accounted (h : f.Running) (blk : List Byte) {d : DStage} {out : List Byte} {k : Nat}
    (hout : out.length ≤ f.frameInfo.maxBlockSize)
    (hstage : ({ accounted f blk with dStage := d, tmpOut := out, remaining := k } : Fd).StageOk) :
    ({ accounted f blk with dStage := d, tmpOut := out, remaining := k } : Fd).Running := by
  refine ⟨⟨h.tmpIn_le, hout, ?_⟩, h.err_eq, ?_, hstage⟩
  · rw [Claims.accounted]
    split
    · exact h.hist_le
    · rw [length_lastBytes]
      exact Nat.min_le_left _ _
  · simp only [Claims.accounted, h.total_eq, List.length_append, BitVec.ofNat_add]

/-! ## The stages -/

theorem keeps_fdGetHeader (h : f.Running) (hd : f.dStage = .getHeader) : (fdGetHeader f io).Keeps := by
  have hout := h.tmpOut_nil (congrArg DStage.holdsOutput hd)
  rw [fdGetHeader]
  split
  · exact ⟨h, by rw [hd]⟩
  · exact ⟨⟨Nat.zero_le _, h.tmpOut_le, h.hist_le⟩, h.err_eq, h.total_eq, hout,
      Nat.zero_le _, (by decide : 7 ≤ maxHeader)⟩

/-- A new frame starts with nothing accounted (R508). -/
theorem keeps_validateHeader (h : f.Bounded) (herr : f.err = 0#8) (hout : f.tmpOut = [])
    (hin : f.tmpIn.length ≤ maxHeader) : (validateHeader cfg f io).Keeps := by
  rw [validateHeader]
  split
  · exact h
  · exact ⟨⟨hin.trans (Nat.le_max_left _ _), by simp [hout], Nat.zero_le _⟩, herr, rfl, hout⟩

theorem keeps_fdStoreHeader (h : f.Running) (hd : f.dStage = .storeHeader) :
    (fdStoreHeader cfg f io).Keeps := by
  obtain ⟨hout, hin, htarget⟩ : f.tmpOut = [] ∧ f.tmpIn.length ≤ maxHeader ∧
      f.tmpInTarget ≤ maxHeader := by simpa only [Fd.StageOk, hd] using h.stage
  rw [fdStoreHeader]
  extract_lets long f2
  have hin1 : (f.taken io f.tmpInTarget).tmpIn.length ≤ maxHeader :=
    (length_taken_le f io _).trans (max_le hin htarget)
  have hbound : (f.taken io f.tmpInTarget).Bounded :=
    ⟨hin1.trans (Nat.le_max_left _ _), h.tmpOut_le, h.hist_le⟩
  have htarget2 : f2.tmpInTarget ≤ maxHeader := by
    simp only [f2]
    split
    · decide
    · exact htarget
  have hrun2 : f2.Running := by
    refine ⟨⟨hbound.tmpIn_le, hbound.tmpOut_le, hbound.hist_le⟩, h.err_eq, h.total_eq, ?_⟩
    have hd2 : f2.dStage = .storeHeader := hd
    rw [Fd.StageOk, hd2]
    exact ⟨hout, hin1, htarget2⟩
  split
  · exact ⟨⟨hbound.tmpIn_le, hbound.tmpOut_le, hbound.hist_le⟩, h.err_eq, h.total_eq, hout⟩
  · split
    · exact hbound
    · split
      · exact keeps_validateHeader hrun2.toBounded h.err_eq hout hin1
      · split
        · exact ⟨hrun2, (congrArg _ hd).trans rfl⟩
        · exact hrun2

theorem keeps_fdBlockWord {word : U32} (h : f.Running) (hout : f.tmpOut = []) :
    (fdBlockWord word f io).Keeps := by
  obtain ⟨hbound, herr, htotal, -⟩ := h
  simp only [fdBlockWord, fdEndMark]
  split
  · split
    · exact hbound
    · split
      · exact ⟨⟨hbound.tmpIn_le, hbound.tmpOut_le, hbound.hist_le⟩, herr, htotal, hout⟩
      · exact ⟨⟨⟨hbound.tmpIn_le, hbound.tmpOut_le, hbound.hist_le⟩, herr, htotal, hout⟩, rfl⟩
  · split
    · exact hbound
    · next hsize =>
      split
      · exact ⟨⟨hbound.tmpIn_le, hbound.tmpOut_le, hbound.hist_le⟩, herr, htotal, hout⟩
      · exact ⟨⟨Nat.zero_le _, hbound.tmpOut_le, hbound.hist_le⟩, herr, htotal, hout,
          Nat.not_lt.mp fun hlt => hsize (.inr hlt)⟩

theorem keeps_fdStoreCBlockSize (h : f.Running) (hd : f.dStage = .storeCBlockSize) :
    (fdStoreCBlockSize f io).Keeps := by
  have hout := h.tmpOut_nil (congrArg DStage.holdsOutput hd)
  refine keeps_storeField h (by rw [hd]) (Nat.le_trans (by decide) (Nat.le_max_left _ _)) ?_
    fun _ h1 => keeps_fdBlockWord h1 hout
  simpa only [Fd.StageOk, Fd.taken, hd] using hout

theorem keeps_fdCopyDirect (h : f.Running) (hd : f.dStage = .copyDirect) :
    (fdCopyDirect f io).Keeps := by
  have hout := h.tmpOut_nil (congrArg DStage.holdsOutput hd)
  obtain ⟨chunk, hchunk⟩ : ∃ chunk, io.src.take (min (min io.avail io.room) f.remaining) = chunk :=
    ⟨_, rfl⟩
  by_cases hok : accountOk f chunk
  · have hle : chunk.length ≤ f.remaining := length_chunk hchunk ▸ Nat.min_le_right _ _
    rcases Nat.lt_or_eq_of_le hle with hpart | hwhole
    · rw [fdCopyDirect_part hchunk hok hpart]
      refine ⟨?_, congrArg DStage.transient hd⟩
      refine h.accounted _ h.tmpOut_le ?_
      simpa only [Fd.StageOk, accounted, hd] using hout
    · rw [fdCopyDirect_whole hchunk hok hwhole]
      exact h.accounted _ h.tmpOut_le hout
  · rw [fdCopyDirect_over hchunk hok]
    exact ⟨h.tmpIn_le, h.tmpOut_le, h.hist_le⟩

theorem keeps_fdStoreCBlock (h : f.Running) (hd : f.dStage = .storeCBlock) :
    (fdStoreCBlock f io).Keeps := by
  obtain ⟨hout, hsize⟩ : f.tmpOut = [] ∧ f.cBlockSize ≤ f.frameInfo.maxBlockSize := by
    simpa only [Fd.StageOk, hd] using h.stage
  refine keeps_storeField h (by rw [hd]) (hsize.trans (Nat.le_max_right _ _)) ?_ fun _ h1 =>
    ⟨⟨h1.tmpIn_le, h1.tmpOut_le, h1.hist_le⟩, h1.err_eq, h1.total_eq, hout⟩
  simpa only [Fd.StageOk, Fd.taken, hd] using And.intro hout hsize

/-- A decoded block is at most `maxBlockSize` bytes (R515). -/
theorem keeps_fdDecodeCBlock (h : f.Running) : (fdDecodeCBlock f io).Keeps := by
  simp only [fdDecodeCBlock]
  split
  · exact h.toBounded
  · trivial
  · refine ⟨⟨h.tmpIn_le, length_decodeBlock_le _ _ _ _ _ _, h.hist_le⟩, h.err_eq, h.total_eq, ?_⟩
    by_cases hroom : f.frameInfo.maxBlockSize ≤ io.room
    · rw [if_pos hroom]
      trivial
    · rw [if_neg hroom]
      trivial

theorem keeps_fdIntoDst (h : f.Running) : (fdIntoDst f io).Keeps := by
  by_cases hok : accountOk f f.tmpOut
  · rw [fdIntoDst_ok hok]
    exact h.accounted _ (Nat.zero_le _) rfl
  · rw [fdIntoDst_over hok]
    exact ⟨h.tmpIn_le, Nat.zero_le _, h.hist_le⟩

theorem keeps_fdIntoTmp (h : f.Running) : (fdIntoTmp f io).Keeps := by
  by_cases hok : accountOk f f.tmpOut
  · rw [fdIntoTmp_ok hok]
    exact h.accounted _ h.tmpOut_le trivial
  · rw [fdIntoTmp_over hok]
    exact ⟨h.tmpIn_le, Nat.zero_le _, h.hist_le⟩

theorem keeps_fdFlushOut (h : f.Running) (hd : f.dStage = .flushOut) : (fdFlushOut f io).Keeps := by
  rcases Nat.lt_or_ge io.room f.tmpOut.length with hwaits | hfit
  · rw [fdFlushOut_part hwaits]
    have hle : (f.tmpOut.drop io.room).length ≤ f.frameInfo.maxBlockSize := by
      rw [List.length_drop]
      exact (Nat.sub_le _ _).trans h.tmpOut_le
    refine ⟨⟨⟨h.tmpIn_le, hle, h.hist_le⟩, h.err_eq, h.total_eq, ?_⟩,
      congrArg DStage.transient hd⟩
    simp only [Fd.StageOk, hd]
  · rw [fdFlushOut_whole hfit]
    exact ⟨⟨h.tmpIn_le, Nat.zero_le _, h.hist_le⟩, h.err_eq, h.total_eq, rfl⟩

theorem keeps_fdStoreSuffix (h : f.Running) (hd : f.dStage = .storeSuffix) :
    (fdStoreSuffix cfg f io).Keeps := by
  have hout := h.tmpOut_nil (congrArg DStage.holdsOutput hd)
  refine keeps_storeField h (by rw [hd]) (Nat.le_trans (by decide) (Nat.le_max_left _ _)) ?_
    fun _ h1 => ?_
  · simpa only [Fd.StageOk, Fd.taken, hd] using hout
  · split
    · exact h1.toBounded
    · exact ⟨⟨⟨h1.tmpIn_le, h1.tmpOut_le, h1.hist_le⟩, h1.err_eq, h1.total_eq, hout⟩, rfl⟩

theorem keeps_fdStoreSFrameSize (h : f.Running) (hd : f.dStage = .storeSFrameSize) :
    (fdStoreSFrameSize f io).Keeps := by
  have hout := h.tmpOut_nil (congrArg DStage.holdsOutput hd)
  refine keeps_storeField h (by rw [hd]) (Nat.le_trans (by decide) (Nat.le_max_left _ _)) ?_
    fun _ h1 => ⟨⟨h1.tmpIn_le, h1.tmpOut_le, h1.hist_le⟩, h1.err_eq, h1.total_eq, hout⟩
  simpa only [Fd.StageOk, Fd.taken, hd] using hout

theorem keeps_fdSkip (h : f.Running) (hd : f.dStage = .skipSkippable) : (fdSkip f io).Keeps := by
  have hout := h.tmpOut_nil (congrArg DStage.holdsOutput hd)
  simp only [fdSkip]
  split
  · refine ⟨⟨⟨h.tmpIn_le, h.tmpOut_le, h.hist_le⟩, h.err_eq, h.total_eq, ?_⟩, by rw [hd]⟩
    simpa only [Fd.StageOk, hd] using hout
  · exact ⟨⟨⟨h.tmpIn_le, h.tmpOut_le, h.hist_le⟩, h.err_eq, h.total_eq, hout⟩, rfl⟩

/-- Every stage's rule keeps the invariant (R505 to R518). -/
theorem keeps_fdStage (h : f.Running) : (fdStage cfg f io).Keeps := by
  obtain ⟨hbound, herr, htotal, hstage⟩ := id h
  rw [fdStage]
  cases hd : f.dStage with
  | getHeader => exact keeps_fdGetHeader h hd
  | storeHeader => exact keeps_fdStoreHeader h hd
  | getCBlockSize | getSuffix =>
    have hout := h.tmpOut_nil (congrArg DStage.holdsOutput hd)
    exact ⟨⟨Nat.zero_le _, hbound.tmpOut_le, hbound.hist_le⟩, herr, htotal, hout⟩
  | getCBlock =>
    have hblock : f.tmpOut = [] ∧ f.cBlockSize ≤ f.frameInfo.maxBlockSize := by
      simpa only [Fd.StageOk, hd] using hstage
    exact ⟨⟨Nat.zero_le _, hbound.tmpOut_le, hbound.hist_le⟩, herr, htotal, hblock⟩
  | getSFrameSize =>
    have hout := h.tmpOut_nil (congrArg DStage.holdsOutput hd)
    exact ⟨⟨hbound.tmpIn_le, hbound.tmpOut_le, hbound.hist_le⟩, herr, htotal, hout⟩
  | storeCBlockSize => exact keeps_fdStoreCBlockSize h hd
  | copyDirect => exact keeps_fdCopyDirect h hd
  | storeCBlock => exact keeps_fdStoreCBlock h hd
  | decodeCBlock => exact keeps_fdDecodeCBlock h
  | decodeCBlockIntoDst => exact keeps_fdIntoDst h
  | decodeCBlockIntoTmp => exact keeps_fdIntoTmp h
  | flushOut => exact keeps_fdFlushOut h hd
  | storeSuffix => exact keeps_fdStoreSuffix h hd
  | storeSFrameSize => exact keeps_fdStoreSFrameSize h hd
  | skipSkippable => exact keeps_fdSkip h hd
  | error => trivial

/-! ## A call, and every step -/

/-- A decoder in ERROR runs no stage. -/
theorem fdRun_of_error {at0 : Cursor} {src : List Byte} {cap : Nat} (hstage : f.dStage = .error) :
    fdRun cfg f at0 src cap = none := by
  simp only [fdRun, fdBound, Nat.mul_succ, fdLoop, fdStage, hstage]

theorem fdRun_inv {at0 : Cursor} {src : List Byte} {cap : Nat} {r : FdResult} (h : f.Inv)
    (hr : fdRun cfg f at0 src cap = some r) : r.fd.Inv := by
  have hstage : f.dStage ≠ .error := fun hd => by
    rw [fdRun_of_error hd] at hr
    cases hr
  obtain ⟨e, he⟩ := exists_leads cfg f ⟨src, 0, cap, []⟩ hstage
  have hkeeps : e.Keeps :=
    he.preserves (P := StageEnd.Keeps) (fun _ _ => keeps_fdStage) (h.running hstage)
  rw [fdRun_of_leads hstage he] at hr
  cases e with
  | hint n f1 io1 =>
    cases hr
    obtain ⟨hrun, hwait⟩ := hkeeps
    exact hrun.inv hwait _
  | fail err f1 io1 =>
    cases hr
    exact hkeeps.latch_inv err _
  | go | stuck => cases hr

variable {s t : State}

theorem feedBytes_fd_inv {bs : List Byte} (hn : feedBytes bs s = .next t) (hs : ∀ f ∈ s.fd, f.Inv) :
    ∀ f ∈ t.fd, f.Inv := by
  obtain ⟨f, hf, ⟨-, rfl⟩ | ⟨r, hr, rfl⟩⟩ := feedBytes_next hn
  · exact hs
  · exact forall_mem_set hs (fdRun_inv (hs f (List.mem_of_getElem? hf)) hr)

theorem execFdDecode_fd_inv {h : BitVec 16} {fl : Byte} {pos a n d cap : U64}
    (hn : execFdDecode h fl pos a n d cap s = .next t) (hs : ∀ f ∈ s.fd, f.Inv) :
    ∀ f ∈ t.fd, f.Inv := by
  rcases withFd_next hn with rfl | rfl | ⟨f, hf, -, hn⟩
  · exact hs
  · exact hs
  · have hinv : f.Inv := hs f (List.mem_of_getElem? hf)
    dsimp only at hn
    split at hn
    · rw [raiseLatched_next.mp hn]
      exact hs
    · split at hn
      · cases hn
        obtain ⟨hin, hout, hhist, -⟩ := hinv
        exact forall_mem_set hs (Fd.Bounded.latch_inv ⟨hin, hout, hhist⟩ _ _)
      · have hn := (withBuffers_next hn).2.2
        split at hn
        · cases hn
        · next r hr =>
          cases hn
          exact forall_mem_set hs (fdRun_inv hinv hr)

theorem execFdReset_fd_inv {h : BitVec 16} {fl : Byte} (hn : execFdReset h fl s = .next t)
    (hs : ∀ f ∈ s.fd, f.Inv) : ∀ f ∈ t.fd, f.Inv := by
  rcases withFd_next hn with rfl | rfl | ⟨f, -, -, hn⟩
  · exact hs
  · exact hs
  · rw [done_next.mp hn]
    exact forall_mem_set hs Fd.powerOn_inv

/-- A command on another context leaves the frame decoders. -/
theorem CommandEffect.fd_eq {i : Instr} (h : CommandEffect i s t) (hi : fdCommand i = none) :
    t.fd = s.fd := by
  obtain ⟨u, m, k, st, r0, r1, r2, hu, -, rfl⟩ := h
  cases hu with
  | none | cctx | sd | fe => rfl
  | fd hfd => cases hi.symm.trans hfd

theorem exec_fd_inv {i : Instr} (hn : exec i s = .next t) (hs : ∀ f ∈ s.fd, f.Inv) :
    ∀ f ∈ t.fd, f.Inv := by
  cases hcommand : isCommand i with
  | true =>
    cases hfd : fdCommand i with
    | none => rwa [(exec_effect hcommand hn).fd_eq hfd]
    | some hfl =>
      cases i with
      | fdReset => exact execFdReset_fd_inv hn hs
      | fdDecode => exact execFdDecode_fd_inv hn hs
      | _ => cases hfd
  | false =>
    rcases kind_of_not_command hcommand with hmicro | hseq | hrec
    · obtain ⟨-, -, -, -, -, hfd, -⟩ := (exec_micro_effect hmicro hn).frame
      rwa [hfd]
    · obtain ⟨-, -, -, hfd, -⟩ := exec_sequence_frame hseq hn
      rwa [hfd]
    · obtain ⟨bs, hbs⟩ := exec_record (s := s) hrec
      exact feedBytes_fd_inv (hbs ▸ hn) hs

end Sys2Proof.Machine

namespace Sys2Proof.Proofs
open Sys2Proof.Machine

/-- Settles O25: every stage of a call keeps the invariant, and no other instruction changes a frame
decoder but FD_RESET, which powers it on. -/
theorem stepKeepsFrameDecoders : Obligations.StepKeepsFrameDecoders := by
  intro s t hs h
  rcases step_next h with ⟨i, q, v, hn⟩ | ⟨bs, hn⟩ | ⟨q, v, b, st, r0, r1, r2, rfl⟩
  · exact exec_fd_inv hn hs
  · exact feedBytes_fd_inv hn hs
  · exact hs

end Sys2Proof.Proofs
end

section
/-! FD_RESET, FD_DECODE and a record as one call of the stage machine (spec/46_frame_decoder.md R500 to
R504, R514, R522, R528). -/

namespace Sys2Proof.Machine
open Sys2Proof.Claims

variable {s : State} {f f1 : Fd} {io1 : FdIo} {h : BitVec 16} {pos a n d cap : U64}

/-! ## The result of a call -/

/-- The cursor moves by what the call consumed (R502). -/
theorem advance_offset (pos : U64) (k : Nat) :
    (Cursor.offset pos).advance k = cursorAt (pos.toNat + k) := rfl

theorem advance_recordCursor (f : Fd) (k : Nat) : f.recordCursor.advance k = cursorPast f k := by
  rw [Fd.recordCursor, cursorPast]
  cases f.srcExpect with
  | anywhere => exact (advance_offset 0#64 k).trans (congrArg cursorAt (Nat.zero_add k))
  | offset pos => rfl
  | pastEnd => rfl

theorem cursorAt_toNat (pos : U64) : cursorAt pos.toNat = .offset pos := by
  rw [cursorAt, if_pos pos.isLt, BitVec.ofNat_toNat, BitVec.setWidth_eq]

/-- A record stands at its decoder's cursor (R502). -/
theorem recordCursor_eq_cursorPast (f : Fd) : f.recordCursor = cursorPast f 0 := by
  rw [Fd.recordCursor, cursorPast]
  cases f.srcExpect with
  | anywhere => rfl
  | offset pos => exact (cursorAt_toNat pos).symm
  | pastEnd => rfl

theorem fdStage_copyDirect {cfg : Config} {io : FdIo} (hd : f.dStage = .copyDirect) :
    fdStage cfg f io = fdCopyDirect f io := by
  rw [fdStage, hd]

/-- A call ends with a return or with an error latched, inside its input (R504, R522, R731). -/
theorem exists_fdRun (cfg : Config) (at0 : Cursor) (src : List Byte) (cap : Nat)
    (hstage : f.dStage ≠ .error) :
    ∃ r, fdRun cfg f at0 src cap = some r ∧ r.consumed ≤ src.length ∧
      r.fd.srcExpect = at0.advance r.consumed ∧
      ((r.status = 0#8 ∧ r.fd.dStage ≠ .error) ∨
        (r.fd.dStage = .error ∧ r.fd.err = r.status ∧ r.status ≠ 0#8 ∧ r.hint = 0)) := by
  obtain ⟨e, he⟩ := exists_leads cfg f ⟨src, 0, cap, []⟩ hstage
  have hrun := fdRun_of_leads (at0 := at0) hstage he
  have hinput : (⟨src, 0, cap, []⟩ : FdIo).inputEnd = src.length := Nat.zero_add _
  obtain ⟨k, f1, io1, rfl, hend, hstage1⟩ | ⟨err, f1, io1, rfl, hend⟩ := he.ends hstage
  · exact ⟨_, hrun, (Nat.le_add_right _ _).trans_eq (hend.trans hinput), rfl, .inl ⟨rfl, hstage1⟩⟩
  · exact ⟨_, hrun, (Nat.le_add_right _ _).trans_eq (hend.trans hinput), rfl,
      .inr ⟨rfl, rfl, err.code_ne_zero, rfl⟩⟩

/-! ## Records -/

theorem exec_record_bytes {i : Instr} {bs : List Byte} (hi : encode s.cfg i = .record bs) :
    exec i s = feedBytes bs s := by
  cases i with
  | hdr | skip | endMark | blkC | blkS | cksum =>
    cases hi
    rfl
  | _ => cases hi

section Record
variable (hf : s.fd[s.rcd.h]? = some f) (hstage : f.dStage ≠ .error)
include hf hstage

theorem feedBytes_run {bs : List Byte} {r : FdResult}
    (hr : fdRun s.cfg f f.recordCursor bs s.rcd.room = some r) :
    feedBytes bs s = .next (((s.setFd s.rcd.h r.fd).setRec (s.rcd.advance r)).reportFd r) := by
  simp only [feedBytes, hf, if_neg hstage, hr]

/-- A record whose call returns with a hint. -/
theorem feedBytes_hint {bs : List Byte} {k : Nat}
    (hl : Leads s.cfg (.go f ⟨bs, 0, s.rcd.room, []⟩) (.hint k f1 io1)) :
    feedBytes bs s = .next (afterRecord s f f1 io1.ip io1.out 0#8 k) := by
  rw [feedBytes_run hf hstage (fdRun_of_leads hstage hl), afterRecord, ← advance_recordCursor]
  rfl

/-- A record whose call fails. -/
theorem feedBytes_fail {bs : List Byte} {e : Err}
    (hl : Leads s.cfg (.go f ⟨bs, 0, s.rcd.room, []⟩) (.fail e f1 io1)) :
    feedBytes bs s = .next (afterRecord s f { f1 with dStage := .error, err := e.code }
      io1.ip io1.out e.code 0) := by
  rw [feedBytes_run hf hstage (fdRun_of_leads hstage hl), afterRecord, ← advance_recordCursor]
  rfl

end Record

/-! ## Commands -/

section Command
variable (hlegal : s.cfg.legal = true) (hf : s.fd[h.toNat]? = some f)
include hlegal hf

theorem withFd_ready (k : Fd → Answer) : withFd h 0#8 s k = k f := by
  simp only [withFd, command_legal hlegal, hf]
  rfl

theorem exec_fdReset :
    exec (.fdReset h 0#8) s = .next ((s.setFd h.toNat Fd.powerOn).report 0#8 0#64 0#64 0#64) :=
  withFd_ready hlegal hf _

theorem exec_fdDecode_sticky (hstage : f.dStage = .error) :
    exec (.fdDecode h 0#8 pos a n d cap) s = .next (s.report f.err 0#64 0#64 0#64) :=
  (withFd_ready hlegal hf _).trans (if_pos hstage)

theorem exec_fdDecode_wrongCursor (hstage : f.dStage ≠ .error) (hcur : f.wrongCursor pos = true) :
    exec (.fdDecode h 0#8 pos a n d cap) s = .next
      ((s.setFd h.toNat { f with
        err := 8#8, dStage := .error, srcExpect := (Cursor.offset pos).advance 0 }).report
        8#8 0#64 0#64 0#64) :=
  (withFd_ready hlegal hf _).trans ((if_neg hstage).trans (if_pos hcur))

variable (hm : s.mem.wf = true) (hwait : f.dStage.transient = false) (hstage : f.dStage ≠ .error)
  (hcur : f.srcExpect = .anywhere ∨ f.srcExpect = .offset pos)
  (hok : buffersOk s.cfg [buffer a n] (buffer d cap))
include hm hwait hstage hcur hok

/-- FD_DECODE at the cursor leaves what the stage machine leaves (R504, R528). -/
theorem fdDecode_of_fdRun {r : FdResult}
    (hr : fdRun s.cfg f (.offset pos) (s.mem.readBytes a.toNat n.toNat) cap.toNat = some r) :
    ∃ m', exec (.fdDecode h 0#8 pos a n d cap) s = .next { s with
        fd := s.fd.set h.toNat r.fd
        mem := m', draws := s.draws + 1
        status := r.status, res0 := BitVec.ofNat 64 r.consumed
        res1 := BitVec.ofNat 64 r.out.length, res2 := BitVec.ofNat 64 r.hint } ∧
      wrote s.mem m' d.toNat r.out cap.toNat := by
  have hright : ¬ f.wrongCursor pos = true := by
    rcases hcur with hcur | hcur <;> simp [Fd.wrongCursor, hcur]
  have hlen : r.out.length ≤ cap.toNat := length_fdRun_le hwait hr
  refine ⟨s.mem.put d.toNat r.out (cap.toNat - r.out.length) s.draws, ?_,
    wrote_put hm _ _ _ (by omega)⟩
  refine (withFd_ready hlegal hf _).trans ((if_neg hstage).trans ((if_neg hright).trans
    ((withBuffers_ok hok _).trans ?_)))
  rw [show fdRun s.cfg f (.offset pos) (s.readBuffer (buffer a n)) (buffer d cap).len = some r from hr]
  rfl

/-- A call that returns with a hint. -/
theorem fdDecode_hint {k : Nat} (hl : Leads s.cfg
      (.go f ⟨s.mem.readBytes a.toNat n.toNat, 0, cap.toNat, []⟩) (.hint k f1 io1)) :
    ∃ m', exec (.fdDecode h 0#8 pos a n d cap) s = .next { s with
        fd := s.fd.set h.toNat { f1 with srcExpect := cursorAt (pos.toNat + io1.ip) }
        mem := m', draws := s.draws + 1
        status := 0#8, res0 := BitVec.ofNat 64 io1.ip
        res1 := BitVec.ofNat 64 io1.out.length, res2 := BitVec.ofNat 64 k } ∧
      wrote s.mem m' d.toNat io1.out cap.toNat :=
  fdDecode_of_fdRun hlegal hf hm hwait hstage hcur hok (fdRun_of_leads hstage hl)

/-- A call that fails. -/
theorem fdDecode_fail {e : Err} (hl : Leads s.cfg
      (.go f ⟨s.mem.readBytes a.toNat n.toNat, 0, cap.toNat, []⟩) (.fail e f1 io1)) :
    ∃ m', exec (.fdDecode h 0#8 pos a n d cap) s = .next { s with
        fd := s.fd.set h.toNat { f1 with
          err := e.code, dStage := .error, srcExpect := cursorAt (pos.toNat + io1.ip) }
        mem := m', draws := s.draws + 1
        status := e.code, res0 := BitVec.ofNat 64 io1.ip
        res1 := BitVec.ofNat 64 io1.out.length, res2 := 0#64 } ∧
      wrote s.mem m' d.toNat io1.out cap.toNat :=
  fdDecode_of_fdRun hlegal hf hm hwait hstage hcur hok (fdRun_of_leads hstage hl)

end Command

end Sys2Proof.Machine

namespace Sys2Proof.Proofs
open Sys2Proof.Machine Sys2Proof.Claims

/-- Settles O54: every call ends within its bound, each rule accounting for what it consumed and
keeping within the output; a record is such a call. -/
theorem fdDecodeCompletes : Obligations.FdDecodeCompletes := by
  constructor
  · intro s h pos a n d cap f hlegal hinv hf hstage hcur hok
    have hwait := hinv.fd_waits hf
    obtain ⟨-, hm, -⟩ := hinv
    obtain ⟨r, hr, hconsumed, hcursor, hends⟩ := exists_fdRun s.cfg (.offset pos)
      (s.mem.readBytes a.toNat n.toNat) cap.toNat hstage
    rw [length_readBytes] at hconsumed
    obtain ⟨m', hexec, hwrote⟩ := fdDecode_of_fdRun hlegal hf hm hwait hstage hcur hok hr
    exact ⟨r, m', hr, hexec, hconsumed, length_fdRun_le hwait hr, hcursor, hwrote, hends⟩
  · intro i s f bs hi hf hinv hstage
    obtain ⟨-, -, -, hwait, -⟩ := hinv
    obtain ⟨r, hr, hconsumed, hcursor, -⟩ := exists_fdRun s.cfg f.recordCursor bs s.rcd.room hstage
    refine ⟨r, recordCursor_eq_cursorPast f ▸ hr, hconsumed, length_fdRun_le hwait hr, ?_⟩
    rw [exec_record_bytes hi, feedBytes_run hf hstage hr, afterRecord, ← advance_recordCursor,
      ← hcursor]
    rfl

/-- Settles O53: FD_RESET and the two checks before the stage machine. -/
theorem fdResetStickyCursor : Obligations.FdResetStickyCursor := by
  intro s h pos a n d cap f hlegal hf
  refine ⟨exec_fdReset hlegal hf, exec_fdDecode_sticky hlegal hf, fun hstage hany hpos => ?_⟩
  have hcur : f.wrongCursor pos = true := by
    rw [Fd.wrongCursor]
    split
    · next hat => exact absurd hat hany
    · next e hat =>
      rw [hat] at hpos
      exact bne_iff_ne.mpr fun he => hpos (congrArg Cursor.offset he)
    · rfl
  have hstays : (Cursor.offset pos).advance 0 = .offset pos := cursorAt_toNat pos
  rw [exec_fdDecode_wrongCursor hlegal hf hstage hcur, hstays]
  rfl

/-- Settles O55: one turn of `copyDirect`, which the input or the room ends before the block does. -/
theorem storedBlockCopied : Obligations.StoredBlockCopied := by
  intro s h pos a n d cap f hlegal hm hf hstage hcur hok hpart chunk haccount
  have hchunk : (s.mem.readBytes a.toNat n.toNat).take
      (min (min (s.mem.readBytes a.toNat n.toNat).length cap.toNat) f.remaining) = chunk := by
    rw [length_readBytes, Nat.min_eq_left hpart.le]
  have hlen : chunk.length < f.remaining := by
    rw [List.length_take, length_readBytes]
    omega
  have hturn := fdCopyDirect_part (io := ⟨s.mem.readBytes a.toNat n.toNat, 0, cap.toNat, []⟩) hchunk
    haccount hlen
  obtain ⟨m', hexec, hwrote⟩ := fdDecode_hint hlegal hf hm (congrArg DStage.transient hstage)
    (hstage.trans_ne nofun) hcur hok (.of_hint ((fdStage_copyDirect hstage).trans hturn))
  refine ⟨m', hexec.trans ?_, hwrote⟩
  simp only [FdIo.consume, FdIo.produce, Nat.zero_add, List.nil_append]

end Sys2Proof.Proofs
end

section
/-! Block records, the end mark, the content checksum and skippable frames as the stage machine reads
them (spec/46_frame_decoder.md R507, R509 to R519). -/

namespace Sys2Proof.Machine
open Sys2Proof.Claims

variable {cfg : Config} {f : Fd} {io : FdIo} {e : StageEnd} {ip room v len : Nat}
  {out field rest payload : List Byte}

/-! ## Fields that are there whole -/

theorem takes_field {target : Nat} (htarget : f.tmpIn.length + field.length = target) :
    f.takes ⟨field ++ rest, ip, room, out⟩ target = field.length := by
  rw [Fd.takes, FdIo.avail, List.length_append]
  omega

theorem taken_field {target : Nat} (htarget : f.tmpIn.length + field.length = target) :
    f.taken ⟨field ++ rest, ip, room, out⟩ target = { f with tmpIn := f.tmpIn ++ field } := by
  rw [Fd.taken, takes_field htarget, List.take_left]

theorem consume_field {t : Nat} (ht : field.length = t) :
    (⟨field ++ rest, ip, room, out⟩ : FdIo).consume t = ⟨rest, ip + t, room, out⟩ := by
  rw [FdIo.consume, List.drop_left' ht]

/-- A store stage that finds the whole of what its field still needs. -/
theorem storeField_field {target extra : Nat} {k : Fd → FdIo → StageEnd}
    (htarget : f.tmpIn.length + field.length = target) :
    storeField f ⟨field ++ rest, ip, room, out⟩ target extra k =
      k { f with tmpIn := f.tmpIn ++ field } ⟨rest, ip + field.length, room, out⟩ := by
  have hfull : ¬ (f.tmpIn ++ field).length < target := by
    rw [List.length_append]
    omega
  simp only [storeField, taken_field htarget, takes_field htarget, consume_field rfl, if_neg hfull]

/-- A store stage with no input left. -/
theorem storeField_empty {target extra : Nat} {k : Fd → FdIo → StageEnd} (hsrc : io.src = [])
    (hnil : f.tmpIn = []) (hpos : 0 < target) :
    storeField f io target extra k = .hint (target + extra) f io := by
  have htakes : f.takes io target = 0 := by
    rw [Fd.takes, FdIo.avail, hsrc, List.length_nil, Nat.zero_min]
  obtain ⟨src, ip, room, out⟩ := io
  cases hsrc
  have htaken : f.taken ⟨[], ip, room, out⟩ target = f := by
    rw [Fd.taken, List.take_nil, List.append_nil]
  simp only [storeField, htakes, htaken, hnil, List.length_nil, if_pos hpos]
  rfl

/-! ## The word a record begins with -/

/-- A store stage stands at a record of its kind where it holds no byte (R504). -/
theorem tmpIn_of_place {p q : RecordPlace}
    (h : (if f.tmpIn.isEmpty then some p else none) = some q) : q = p ∧ f.tmpIn = [] := by
  split at h
  · next hnil => exact ⟨(Option.some.inj h).symm, List.isEmpty_iff.mp hnil⟩
  · cases h

theorem place_blockWord (h : f.place = some .blockWord) :
    f.dStage = .getCBlockSize ∨ (f.dStage = .storeCBlockSize ∧ f.tmpIn = []) := by
  cases hd : f.dStage with
  | getCBlockSize => exact .inl rfl
  | storeCBlockSize =>
    rw [Fd.place, hd] at h
    exact .inr ⟨rfl, (tmpIn_of_place h).2⟩
  | storeHeader | storeSuffix =>
    rw [Fd.place, hd] at h
    cases (tmpIn_of_place h).1
  | _ =>
    rw [Fd.place, hd] at h
    cases h

theorem place_suffix (h : f.place = some .suffix) :
    f.dStage = .getSuffix ∨ (f.dStage = .storeSuffix ∧ f.tmpIn = []) := by
  cases hd : f.dStage with
  | getSuffix => exact .inl rfl
  | storeSuffix =>
    rw [Fd.place, hd] at h
    exact .inr ⟨rfl, (tmpIn_of_place h).2⟩
  | storeHeader | storeCBlockSize =>
    rw [Fd.place, hd] at h
    cases (tmpIn_of_place h).1
  | _ =>
    rw [Fd.place, hd] at h
    cases h

/-- A whole 4-byte field of a decoder that holds none of it. -/
theorem storeField_word {extra : Nat} {k : Fd → FdIo → StageEnd} (hnil : f.tmpIn = []) :
    storeField f ⟨leBytes 4 v ++ rest, ip, room, out⟩ 4 extra k =
      k { f with tmpIn := leBytes 4 v } ⟨rest, ip + 4, room, out⟩ := by
  have htarget : f.tmpIn.length + (leBytes 4 v).length = 4 := by
    rw [hnil, length_leBytes, List.length_nil]
  rw [storeField_field htarget, hnil, List.nil_append, length_leBytes]

theorem fdStage_getCBlockSize (hd : f.dStage = .getCBlockSize) :
    fdStage cfg f io = .go (f.collect .storeCBlockSize 4) io := by
  rw [fdStage, hd]

theorem fdStage_getSuffix (hd : f.dStage = .getSuffix) :
    fdStage cfg f io = .go (f.collect .storeSuffix 4) io := by
  rw [fdStage, hd]

theorem fdStage_storeCBlockSize (f : Fd) (io : FdIo) (hd : f.dStage = .storeCBlockSize) :
    fdStage cfg f io =
      storeField f io 4 0 fun f1 io1 => fdBlockWord (le32At f1.tmpIn 0) f1 io1 := by
  rw [fdStage, hd, fdStoreCBlockSize]

theorem fdStage_storeSuffix (f : Fd) (io : FdIo) (hd : f.dStage = .storeSuffix) :
    fdStage cfg f io = storeField f io 4 0 fun f1 io1 =>
      if le32At f1.tmpIn 0 ≠ xxh32 f1.content cfg.xxhSeed then .fail .contentChecksumInvalid f1 io1
      else .hint 0 (f1.goto .getHeader) io1 := by
  rw [fdStage, hd, fdStoreSuffix]

/-- A 4-byte field is read, whichever of its two stages the decoder is left in (R504). -/
theorem exists_leads_word {d : DStage} {k : Fd → FdIo → StageEnd}
    (hplace : (∀ io, fdStage cfg f io = .go (f.collect d 4) io) ∨ (f.dStage = d ∧ f.tmpIn = []))
    (hstore : ∀ g io, g.dStage = d → fdStage cfg g io = storeField g io 4 0 k) (v : Nat) :
    ∃ t, ∀ {rest : List Byte} {room : Nat} {e : StageEnd},
      Leads cfg (k { f with dStage := d, tmpIn := leBytes 4 v, tmpInTarget := t }
        ⟨rest, 4, room, []⟩) e →
      Leads cfg (.go f ⟨leBytes 4 v ++ rest, 0, room, []⟩) e := by
  rcases hplace with hget | ⟨rfl, hnil⟩
  · refine ⟨4, fun h => .of_go (hget _) (.go ?_)⟩
    rw [hstore _ _ rfl, storeField_word rfl]
    exact h
  · refine ⟨f.tmpInTarget, fun h => .go ?_⟩
    rw [hstore f _ rfl, storeField_word hnil]
    exact h

theorem exists_leads_blockWord (hplace : f.place = some .blockWord) (hv : v < 2 ^ 32) :
    ∃ t, ∀ {rest : List Byte} {room : Nat} {e : StageEnd},
      Leads cfg (fdBlockWord (u32 v) { f with
        dStage := .storeCBlockSize, tmpIn := leBytes 4 v, tmpInTarget := t } ⟨rest, 4, room, []⟩) e →
      Leads cfg (.go f ⟨leBytes 4 v ++ rest, 0, room, []⟩) e := by
  have hget : (∀ io, fdStage cfg f io = .go (f.collect .storeCBlockSize 4) io) ∨
      (f.dStage = .storeCBlockSize ∧ f.tmpIn = []) :=
    (place_blockWord hplace).imp_left fun hd _ => fdStage_getCBlockSize hd
  have hword : le32At (leBytes 4 v) 0 = u32 v := by simpa using le32At_leBytes hv []
  obtain ⟨t, ht⟩ := exists_leads_word hget fdStage_storeCBlockSize v
  refine ⟨t, fun h => ht ?_⟩
  rw [hword]
  exact h

theorem exists_leads_suffix (hplace : f.place = some .suffix) (w : U32) :
    ∃ t, ∀ {room : Nat} {e : StageEnd},
      let f1 : Fd := { f with dStage := .storeSuffix, tmpIn := leBytes 4 w.toNat, tmpInTarget := t }
      Leads cfg (if w ≠ xxh32 f.content cfg.xxhSeed then
          .fail .contentChecksumInvalid f1 ⟨[], 4, room, []⟩
        else .hint 0 (f1.goto .getHeader) ⟨[], 4, room, []⟩) e →
      Leads cfg (.go f ⟨cksumBytes w, 0, room, []⟩) e := by
  have hget : (∀ io, fdStage cfg f io = .go (f.collect .storeSuffix 4) io) ∨
      (f.dStage = .storeSuffix ∧ f.tmpIn = []) :=
    (place_suffix hplace).imp_left fun hd _ => fdStage_getSuffix hd
  have hword : le32At (leBytes 4 w.toNat) 0 = w := by simpa using le32At_leBytes_word w []
  obtain ⟨t, ht⟩ := exists_leads_word hget fdStage_storeSuffix w.toNat
  refine ⟨t, fun h => ?_⟩
  rw [← List.append_nil (cksumBytes w)]
  refine ht ?_
  rw [hword]
  exact h

/-! ## What follows a record -/

/-- The next block word is awaited (R511). -/
theorem leads_nextWord (hd : f.dStage = .getCBlockSize) (hsrc : io.src = []) :
    Leads cfg (.go f io)
      (.hint 4 { f with dStage := .storeCBlockSize, tmpIn := [], tmpInTarget := 4 } io) :=
  .of_go (fdStage_getCBlockSize hd)
    (.of_hint ((fdStage_storeCBlockSize _ _ rfl).trans (storeField_empty hsrc rfl (by decide))))

/-- The content checksum is awaited (R518). -/
theorem leads_nextSuffix (hd : f.dStage = .getSuffix) (hsrc : io.src = []) :
    Leads cfg (.go f io)
      (.hint 4 { f with dStage := .storeSuffix, tmpIn := [], tmpInTarget := 4 } io) :=
  .of_go (fdStage_getSuffix hd)
    (.of_hint ((fdStage_storeSuffix _ _ rfl).trans (storeField_empty hsrc rfl (by decide))))

/-! ## Block words (R512, R513) -/

/-- A block word other than the end mark. -/
theorem fdBlockWord_size (hv : v < 2 ^ 32) (hne : v ≠ 0) :
    fdBlockWord (u32 v) f io =
      if v % 2 ^ 31 = 0 ∨ f.frameInfo.maxBlockSize < v % 2 ^ 31 then .fail .malformedStream f io
      else if 2 ^ 31 ≤ v then .go { f with dStage := .copyDirect, remaining := v % 2 ^ 31 } io
      else .go { f.collect .getCBlock (v % 2 ^ 31) with cBlockSize := v % 2 ^ 31 } io := by
  have hword : u32 v ≠ 0#32 := by bv_omega
  have hsize : ((u32 v).extractLsb' 0 31).toNat = v % 2 ^ 31 := by
    rw [BitVec.extractLsb'_toNat, toNat_u32 hv]
    rfl
  have hflag : (u32 v).getLsbD 31 = decide (2 ^ 31 ≤ v) := by
    rw [← BitVec.msb_eq_getLsbD_last (u32 v), BitVec.msb_eq_decide, toNat_u32 hv]
  simp only [fdBlockWord, if_neg hword, hsize, hflag, decide_eq_true_eq]

theorem fdBlockWord_illegal (hv : v < 2 ^ 32) (hne : v ≠ 0)
    (hsize : v % 2 ^ 31 = 0 ∨ f.frameInfo.maxBlockSize < v % 2 ^ 31) :
    fdBlockWord (u32 v) f io = .fail .malformedStream f io := by
  rw [fdBlockWord_size hv hne, if_pos hsize]

theorem fdBlockWord_stored (hpos : 1 ≤ len) (hlen : len < 2 ^ 31)
    (hmax : len ≤ f.frameInfo.maxBlockSize) :
    fdBlockWord (u32 (2 ^ 31 + len)) f io =
      .go { f with dStage := .copyDirect, remaining := len } io := by
  have hsize : (2 ^ 31 + len) % 2 ^ 31 = len := by omega
  rw [fdBlockWord_size (by omega) (by omega), hsize, if_neg (by omega), if_pos (by omega)]

theorem fdBlockWord_compressed (hpos : 1 ≤ len) (hlen : len < 2 ^ 31)
    (hmax : len ≤ f.frameInfo.maxBlockSize) :
    fdBlockWord (u32 len) f io = .go { f.collect .getCBlock len with cBlockSize := len } io := by
  have hsize : len % 2 ^ 31 = len := by omega
  rw [fdBlockWord_size (by omega) (by omega), hsize, if_neg (by omega), if_neg (by omega)]

/-! ## Compressed blocks (R515 to R517) -/

/-- A compressed block that is there whole is collected and decoded (R515). -/
theorem leads_blkC (hplace : f.place = some .blockWord) (hpos : 1 ≤ payload.length)
    (hlen : payload.length < 2 ^ 31) (hmax : payload.length ≤ f.frameInfo.maxBlockSize)
    (h : Leads cfg (fdDecodeCBlock { f with
        dStage := .decodeCBlock, tmpIn := payload, tmpInTarget := payload.length
        cBlockSize := payload.length } ⟨[], 4 + payload.length, room, []⟩) e) :
    Leads cfg (.go f ⟨blkCBytes payload, 0, room, []⟩) e := by
  obtain ⟨t, hword⟩ := exists_leads_blockWord (cfg := cfg) hplace (v := payload.length) (by omega)
  have htarget : ([] : List Byte).length + payload.length = payload.length := Nat.zero_add _
  have hfield := storeField_field (f := { f with
      dStage := .storeCBlock, tmpIn := [], tmpInTarget := payload.length, cBlockSize := payload.length })
    (rest := []) (ip := 4) (room := room) (out := []) (extra := 4)
    (k := fun f1 io1 => .go (f1.goto .decodeCBlock) io1) htarget
  rw [List.append_nil] at hfield
  exact hword (.of_eq (fdBlockWord_compressed hpos hlen hmax) (.of_go rfl (.of_go hfield (.go h))))

/-- Where a decoded block of at most `maxBlockSize` bytes goes, the room decides (R516). -/
abbrev outputStage (f : Fd) (io : FdIo) : DStage :=
  if f.frameInfo.maxBlockSize ≤ io.room then .decodeCBlockIntoDst else .decodeCBlockIntoTmp

section Produce
variable {blk : List Byte} (hnil : f.tmpOut = [])
include hnil

/-- A decoded block that fits the room is produced whole, directly or through `tmpOut`. -/
theorem leads_produce_whole (hok : accountOk f blk) (hfit : blk.length ≤ io.room)
    (h : Leads cfg (.go { accounted f blk with dStage := .getCBlockSize } (io.produce blk)) e) :
    Leads cfg (.go { f with tmpOut := blk, dStage := outputStage f io } io) e := by
  have hsame : ({ accounted f blk with dStage := .getCBlockSize } : Fd) =
      { accounted f blk with dStage := .getCBlockSize, tmpOut := [] } := by
    rw [← hnil]
    rfl
  rw [hsame] at h
  by_cases hroom : f.frameInfo.maxBlockSize ≤ io.room
  · rw [outputStage, if_pos hroom]
    exact .of_go (fdIntoDst_ok hok) h
  · rw [outputStage, if_neg hroom]
    exact .of_go (fdIntoTmp_ok hok) (.of_go (fdFlushOut_whole hfit) h)

theorem leads_produce_over (hover : ¬ accountOk f blk) :
    Leads cfg (.go { f with tmpOut := blk, dStage := outputStage f io } io)
      (.fail .frameSizeMismatch { f with
        dStage := outputStage f io, total := f.total + BitVec.ofNat 64 blk.length } io) := by
  have hsame : ({ f with
        dStage := outputStage f io, total := f.total + BitVec.ofNat 64 blk.length } : Fd) =
      { f with
        dStage := outputStage f io, tmpOut := [], total := f.total + BitVec.ofNat 64 blk.length } := by
    rw [← hnil]
  rw [hsame]
  by_cases hroom : f.frameInfo.maxBlockSize ≤ io.room
  · rw [outputStage, if_pos hroom]
    exact .of_fail (fdIntoDst_over hover)
  · rw [outputStage, if_neg hroom]
    exact .of_fail (fdIntoTmp_over hover)

end Produce

/-- What a decoded block has beyond the room waits in `tmpOut`. -/
theorem leads_produce_part {blk : List Byte} (hok : accountOk f blk) (hwaits : io.room < blk.length)
    (hmax : blk.length ≤ f.frameInfo.maxBlockSize) :
    Leads cfg (.go { f with tmpOut := blk, dStage := outputStage f io } io)
      (.hint 4 { accounted f blk with dStage := .flushOut, tmpOut := blk.drop io.room }
        (io.produce (blk.take io.room))) := by
  rw [outputStage, if_neg (by omega)]
  exact .of_go (fdIntoTmp_ok hok) (.of_hint (fdFlushOut_part hwaits))

theorem stage_of_place {p : RecordPlace} (h : f.place = some p) : f.dStage ≠ .error := by
  intro hd
  rw [Fd.place, hd] at h
  cases h

/-! ## The end of a frame (R512, R519) -/

/-- The end mark where the declared size is met, or none is declared. -/
theorem fdEndMark_met (hmet : f.frameInfo.contentSizeFlag = false ∨ f.frameInfo.contentSize = 0#64 ∨
      f.total = f.frameInfo.contentSize) :
    fdEndMark f io = if f.frameInfo.contentChecksumFlag then .go (f.goto .getSuffix) io
      else .hint 0 (f.goto .getHeader) io := by
  refine if_neg ?_
  rw [Fd.sizeDeclared]
  rcases hmet with hmet | hmet | hmet <;> simp [hmet]

theorem fdEndMark_unmet (hunmet : ¬ (f.frameInfo.contentSizeFlag = false ∨
      f.frameInfo.contentSize = 0#64 ∨ f.total = f.frameInfo.contentSize)) :
    fdEndMark f io = .fail .frameSizeMismatch f io := by
  refine if_pos ?_
  rw [Fd.sizeDeclared]
  simpa [and_assoc] using hunmet

end Sys2Proof.Machine

namespace Sys2Proof.Proofs
open Sys2Proof.Machine Sys2Proof.Claims

/-- Settles O57: the block word, then one turn of `copyDirect`, which the block or the room ends. -/
theorem storedRecordMeaning : Obligations.StoredRecordMeaning := by
  rintro s f payload ⟨hf, hplace⟩ hlen
  have hstage := stage_of_place hplace
  obtain ⟨t, hword⟩ := exists_leads_blockWord (cfg := s.cfg) hplace (v := 2 ^ 31 + payload.length)
    (by omega)
  refine ⟨fun hpos hmax hroom => ?whole, fun hpos hmax hroom => ?part, fun hsize => ?illegal⟩
  case whole =>
    have hchunk : payload.take (min (min payload.length s.rcd.room) payload.length) = payload := by
      rw [Nat.min_eq_left hroom, Nat.min_self, List.take_length]
    refine ⟨fun hok => ?_, fun hover => ?_⟩
    · have hl := hword (.of_eq (fdBlockWord_stored hpos hlen hmax)
        (.of_go (fdCopyDirect_whole hchunk hok rfl) (leads_nextWord rfl List.drop_length)))
      exact feedBytes_hint hf hstage hl
    · have hl := hword (.of_eq (fdBlockWord_stored hpos hlen hmax)
        (.of_fail (fdCopyDirect_over hchunk hover)))
      exact ⟨_, feedBytes_fail hf hstage hl, rfl, rfl, rfl, rfl, rfl, rfl⟩
  case part =>
    intro chunk
    have hroom_len : chunk.length = s.rcd.room := List.length_take_of_le hroom.le
    have hchunk : payload.take (min (min payload.length s.rcd.room) payload.length) = chunk := by
      rw [Nat.min_eq_right hroom.le, Nat.min_eq_left hroom.le]
    refine ⟨fun hok => ?_, fun hover => ?_⟩
    · have hl := hword (.of_eq (fdBlockWord_stored hpos hlen hmax)
        (.of_hint (fdCopyDirect_part hchunk hok (hroom_len.trans_lt hroom))))
      rw [hroom_len] at hl
      exact ⟨t, feedBytes_hint hf hstage hl⟩
    · have hl := hword (.of_eq (fdBlockWord_stored hpos hlen hmax)
        (.of_fail (fdCopyDirect_over hchunk hover)))
      rw [hroom_len] at hl ⊢
      exact ⟨_, feedBytes_fail hf hstage hl, rfl, rfl, rfl, rfl, rfl, rfl⟩
  case illegal =>
    have hlow : (2 ^ 31 + payload.length) % 2 ^ 31 = payload.length := by omega
    have hillegal : (2 ^ 31 + payload.length) % 2 ^ 31 = 0 ∨
        f.frameInfo.maxBlockSize < (2 ^ 31 + payload.length) % 2 ^ 31 := by
      rw [hlow]
      exact hsize.imp_left List.length_eq_zero_iff.mpr
    have hl := hword (rest := payload) (room := s.rcd.room)
      (.of_eq_fail (fdBlockWord_illegal (by omega) (by omega) hillegal))
    exact ⟨t, feedBytes_fail hf hstage hl⟩

/-- Settles O58: the block word, the block's bytes and the decode; then, with the block accounted, the
room decides. -/
theorem compressedRecordMeaning : Obligations.CompressedRecordMeaning := by
  rintro s f payload ⟨hf, hplace⟩ hout hpos hlen b
  have hstage := stage_of_place hplace
  refine ⟨fun hmax => ⟨fun hend hok hroom => ?whole, fun hend hok hroom => ?part,
    fun hend hover => ?exceeds, fun c hfail => ?failed⟩, fun hmax => ?illegal⟩
  case whole =>
    have hl := leads_blkC (cfg := s.cfg) hplace hpos hlen hmax (.of_eq (fdDecodeCBlock_ended hend)
      (leads_produce_whole hout hok hroom (leads_nextWord rfl rfl)))
    exact feedBytes_hint hf hstage hl
  case part =>
    have hl := leads_blkC (cfg := s.cfg) hplace hpos hlen hmax (.of_eq (fdDecodeCBlock_ended hend)
      (leads_produce_part hok hroom (length_decodeBlock_le ..)))
    exact feedBytes_hint hf hstage hl
  case exceeds =>
    have hl := leads_blkC (cfg := s.cfg) (room := s.rcd.room) hplace hpos hlen hmax
      (.of_eq (fdDecodeCBlock_ended hend) (leads_produce_over hout hover))
    exact feedBytes_fail hf hstage hl
  case failed =>
    have hl := leads_blkC (cfg := s.cfg) (room := s.rcd.room) hplace hpos hlen hmax
      (.of_eq_fail (fdDecodeCBlock_failed hfail))
    exact feedBytes_fail hf hstage hl
  case illegal =>
    obtain ⟨t, hword⟩ := exists_leads_blockWord (cfg := s.cfg) hplace (v := payload.length) (by omega)
    have hillegal : f.frameInfo.maxBlockSize < payload.length % 2 ^ 31 := by
      rwa [Nat.mod_eq_of_lt hlen]
    have hl := hword (rest := payload) (room := s.rcd.room)
      (.of_eq_fail (fdBlockWord_illegal (by omega) (by omega) (.inr hillegal)))
    exact ⟨t, feedBytes_fail hf hstage hl⟩

/-- Settles O59: the end mark as a block word, and the checksum compared with the content's. -/
theorem frameEndRecords : Obligations.FrameEndRecords := by
  refine ⟨fun s f ⟨hf, hplace⟩ => ?_, fun s f v ⟨hf, hplace⟩ => ?_⟩
  · have hstage := stage_of_place hplace
    obtain ⟨t, hword⟩ := exists_leads_blockWord (cfg := s.cfg) hplace (v := 0) (by decide)
    have hmark := fun hmet => fdEndMark_met (io := ⟨[], 4, s.rcd.room, []⟩) (f := { f with
      dStage := .storeCBlockSize, tmpIn := leBytes 4 0, tmpInTarget := t }) hmet
    refine ⟨fun hmet hsum => ?summed, fun hmet hsum => ?unsummed, fun hunmet => ?unmet⟩
    case summed =>
      have hl := hword (.of_eq ((hmark hmet).trans (if_pos hsum)) (leads_nextSuffix rfl rfl))
      exact feedBytes_hint hf hstage hl
    case unsummed =>
      have hl := hword (.of_eq_hint ((hmark hmet).trans (if_neg (ne_true_of_eq_false hsum))))
      exact ⟨t, feedBytes_hint hf hstage hl⟩
    case unmet =>
      have hl := hword (rest := []) (room := s.rcd.room)
        (.of_eq_fail (fdEndMark_unmet hunmet))
      exact ⟨t, feedBytes_fail hf hstage hl⟩
  · have hstage := stage_of_place hplace
    obtain ⟨t, hsuffix⟩ := exists_leads_suffix (cfg := s.cfg) hplace v
    refine ⟨fun heq => ?_, fun hne => ?_⟩
    · have hl := hsuffix (room := s.rcd.room) (.of_eq_hint (if_neg (not_not.mpr heq)))
      exact ⟨t, feedBytes_hint hf hstage hl⟩
    · have hl := hsuffix (room := s.rcd.room) (.of_eq_fail (if_pos hne))
      exact ⟨t, feedBytes_fail hf hstage hl⟩

end Sys2Proof.Proofs
end

section
/-! Frame headers and skippable frames as the stage machine reads them (spec/46_frame_decoder.md R505 to
R510). -/

namespace Sys2Proof.Machine
open Sys2Proof.Claims

variable {cfg : Config} {f : Fd} {io : FdIo} {e : StageEnd} {ip room : Nat}
  {out field rest payload : List Byte} {flg bd hc : Byte} {csize : Option U64}

/-! ## The turns of `storeHeader` (R506, R507) -/

/-- A first word that is no magic number (R507). -/
theorem fdStoreHeader_unknown (htarget : f.tmpInTarget = 7) (hlen : 4 ≤ (f.taken io 7).tmpIn.length)
    (hskip : isSkippable cfg (le32At (f.taken io 7).tmpIn 0) = false)
    (hmagic : le32At (f.taken io 7).tmpIn 0 ≠ cfg.magic) :
    fdStoreHeader cfg f io = .fail .unknownFrameType (f.taken io 7) (io.consume (f.takes io 7)) := by
  simp [fdStoreHeader, htarget, hlen, hskip, hmagic]

section FirstTurn
variable (htarget : f.tmpInTarget = 7) (hnil : f.tmpIn = []) (hlen : field.length = 7)
include htarget hnil hlen

theorem fdStoreHeader_skippable (hskip : isSkippable cfg (le32At field 0) = true) :
    fdStoreHeader cfg f ⟨field ++ rest, ip, room, out⟩ =
      .go { f with dStage := .storeSFrameSize, tmpIn := field, tmpInTarget := 8 }
        ⟨rest, ip + 7, room, out⟩ := by
  have hfield : f.tmpIn.length + field.length = 7 := by rw [hnil, hlen, List.length_nil]
  simp [fdStoreHeader, htarget, taken_field hfield, takes_field hfield, consume_field hlen, hnil, hlen,
    hskip]

variable (hmagic : le32At field 0 = cfg.magic) (hskip : isSkippable cfg cfg.magic = false)
include hmagic hskip

/-- Seven bytes of a header that declares no size are all of it. -/
theorem fdStoreHeader_short (hflg : flgContentSize (field.getD 4 0#8) = false) :
    fdStoreHeader cfg f ⟨field ++ rest, ip, room, out⟩ =
      validateHeader cfg { f with tmpIn := field, tmpInTarget := 7 }
        ⟨rest, ip + 7, room, out⟩ := by
  have hfield : f.tmpIn.length + field.length = 7 := by rw [hnil, hlen, List.length_nil]
  simp [fdStoreHeader, htarget, taken_field hfield, takes_field hfield, consume_field hlen, hnil, hlen,
    hskip, hmagic, hflg, -List.getD_eq_getElem?_getD]

/-- Of one that declares a size, eight more follow. -/
theorem fdStoreHeader_grows (hflg : flgContentSize (field.getD 4 0#8) = true) (hmore : rest ≠ []) :
    fdStoreHeader cfg f ⟨field ++ rest, ip, room, out⟩ =
      .go { f with tmpIn := field, tmpInTarget := 15 } ⟨rest, ip + 7, room, out⟩ := by
  have hfield : f.tmpIn.length + field.length = 7 := by rw [hnil, hlen, List.length_nil]
  simp [fdStoreHeader, htarget, taken_field hfield, takes_field hfield, consume_field hlen, hnil, hlen,
    hskip, hmagic, hflg, FdIo.avail, hmore, -List.getD_eq_getElem?_getD]

end FirstTurn

theorem fdStoreHeader_long (htarget : f.tmpInTarget = 15)
    (hfield : f.tmpIn.length + field.length = 15) :
    fdStoreHeader cfg f ⟨field ++ rest, ip, room, out⟩ =
      validateHeader cfg { f with tmpIn := f.tmpIn ++ field, tmpInTarget := 15 }
        ⟨rest, ip + field.length, room, out⟩ := by
  simp [fdStoreHeader, htarget, taken_field hfield, takes_field hfield, consume_field rfl, hfield]

/-- A call with input starts a header (R505). -/
theorem leads_storeHeader (hd : f.dStage = .getHeader) (havail : io.avail ≠ 0)
    (h : Leads cfg (fdStoreHeader cfg (f.collect .storeHeader 7) io) e) :
    Leads cfg (.go f io) e := by
  refine .go ?_
  rw [fdStage, hd]
  exact .of_eq (if_neg havail) (.go h)

/-! ## Frame headers (R508) -/

/-- The length of a header record (R155). -/
abbrev headerLen (flg : Byte) : Nat := if flg.getLsbD 3 then 15 else 7

/-- The first seven bytes of a header that declares a size. -/
abbrev sizedHead (cfg : Config) (flg bd : Byte) (size : U64) : List Byte :=
  leBytes 4 cfg.magic.toNat ++ [flg, bd, BitVec.ofNat 8 size.toNat]

/-- The eight bytes after them. -/
abbrev sizedTail (size : U64) (hc : Byte) : List Byte := leBytes 7 (size.toNat / 256) ++ [hc]

theorem hdrBytes_some (cfg : Config) (flg bd hc : Byte) (size : U64) :
    hdrBytes cfg flg bd (some size) hc = sizedHead cfg flg bd size ++ sizedTail size hc := rfl

/-- A header that is there whole is validated. -/
theorem leads_hdrBytes (hd : f.dStage = .getHeader) (hskip : isSkippable cfg cfg.magic = false)
    (hsize : csize.isSome = flg.getLsbD 3)
    (h : Leads cfg (validateHeader cfg { f with
        dStage := .storeHeader, tmpIn := hdrBytes cfg flg bd csize hc, tmpInTarget := headerLen flg }
      ⟨[], headerLen flg, room, []⟩) e) :
    Leads cfg (.go f ⟨hdrBytes cfg flg bd csize hc, 0, room, []⟩) e := by
  rw [headerLen, ← hsize] at h
  refine leads_storeHeader hd (Nat.succ_ne_zero _) ?_
  cases csize with
  | none =>
    have hmagic : le32At (hdrBytes cfg flg bd none hc) 0 = cfg.magic := le32At_leBytes_word cfg.magic _
    have hturn := fdStoreHeader_short (f := f.collect .storeHeader 7) (rest := []) (ip := 0)
      (room := room) (out := []) rfl rfl rfl hmagic hskip hsize.symm
    rw [List.append_nil] at hturn
    exact .of_eq hturn h
  | some size =>
    have hmagic : le32At (sizedHead cfg flg bd size) 0 = cfg.magic := le32At_leBytes_word cfg.magic _
    have hgrows := fdStoreHeader_grows (f := f.collect .storeHeader 7) (rest := sizedTail size hc)
      (ip := 0) (room := room) (out := []) rfl rfl rfl hmagic hskip hsize.symm nofun
    have hlong := fdStoreHeader_long (cfg := cfg) (f := { f.collect .storeHeader 7 with
      tmpIn := sizedHead cfg flg bd size, tmpInTarget := 15 }) (field := sizedTail size hc) (rest := [])
      (ip := 7) (room := room) (out := []) rfl rfl
    rw [List.append_nil] at hlong
    rw [hdrBytes_some]
    exact .of_eq hgrows (.go (.of_eq hlong h))

theorem validateHeader_of_error {err : Err} (herr : headerError cfg f.tmpIn = some err) :
    validateHeader cfg f io = .fail err f io := by
  rw [validateHeader, herr]

theorem validateHeader_of_legal (herr : headerError cfg f.tmpIn = none) :
    validateHeader cfg f io = .go { f with
      dStage := .getCBlockSize, frameInfo := headerInfo f.tmpIn, total := 0#64
      content := [], hist := [] } io := by
  rw [validateHeader, herr]

/-- R508's checks of a header record, in their order. -/
theorem headerError_hdrBytes_eq (hsize : csize.isSome = flgContentSize flg) :
    headerError cfg (hdrBytes cfg flg bd csize hc) =
      if flgVersion flg ≠ 1#2 then some .unknownFrameType
      else if flgBlockChecksum flg then some .protocolViolation
      else if flgReserved flg ≠ 0#2 ∨ bdReservedZero bd = false then some .reservedFlagSet
      else if bdBlockSizeId bd = 0#3 then some .reservedFlagSet
      else if hc ≠ headerChecksum cfg (descBytes flg bd csize) then some .headerChecksumInvalid
      else none := by
  change (if _ then _ else if _ then _ else if _ then _ else if _ then _ else
    if (hdrBytes cfg flg bd csize hc).getD (checksumIndex flg) 0#8 ≠ headerChecksum cfg
      (((hdrBytes cfg flg bd csize hc).drop 4).take (checksumIndex flg - 4)) then _ else _) = _
  rw [checksum_hdrBytes hsize, desc_hdrBytes hsize]
  rfl

/-! ## Skippable frames (R509, R510) -/

theorem fdSkip_whole (havail : f.remaining ≤ io.avail) :
    fdSkip f io = .hint 0 { f with dStage := .getHeader, remaining := 0 } (io.consume f.remaining) := by
  simp only [fdSkip, Nat.min_eq_right havail, Nat.sub_self]
  rfl

/-- The first word of a skippable frame (R164). -/
abbrev skipWord (cfg : Config) (low : BitVec 4) : U32 := cfg.skippableBase ||| low.setWidth 32

/-- Its first seven bytes. -/
abbrev skipHead (cfg : Config) (low : BitVec 4) (len : Nat) : List Byte :=
  leBytes 4 (skipWord cfg low).toNat ++ (leBytes 4 len).take 3

theorem skipBytes_eq (cfg : Config) (low : BitVec 4) (payload : List Byte) :
    skipBytes cfg low payload =
      skipHead cfg low payload.length ++ ((leBytes 4 payload.length).drop 3 ++ payload) := rfl

/-- Seven bytes of a skippable frame, then the last of its size (R507, R509). -/
theorem leads_skipSize (hbase : cfg.skippableBase &&& 0xF#32 = 0#32) (hd : f.dStage = .getHeader)
    (low : BitVec 4) (hlen : payload.length < 2 ^ 32)
    (h : Leads cfg (fdSkip { f with
        dStage := .skipSkippable, tmpIn := (skipBytes cfg low payload).take 8, tmpInTarget := 8
        remaining := payload.length } ⟨payload, 8, room, []⟩) e) :
    Leads cfg (.go f ⟨skipBytes cfg low payload, 0, room, []⟩) e := by
  have hskip : isSkippable cfg (le32At (skipHead cfg low payload.length) 0) = true := by
    rw [le32At_leBytes_word]
    exact isSkippable_or_low hbase low
  have hsize : (le32At ((skipBytes cfg low payload).take 8) 4).toNat = payload.length := by
    have hfields : (skipBytes cfg low payload).take 8 =
        leBytes 4 (skipWord cfg low).toNat ++ (leBytes 4 payload.length ++ []) := rfl
    rw [hfields, le32At_four, le32At_leBytes hlen, toNat_u32 hlen]
  have hturn := fdStoreHeader_skippable (f := f.collect .storeHeader 7)
    (rest := (leBytes 4 payload.length).drop 3 ++ payload) (ip := 0) (room := room) (out := [])
    rfl rfl rfl hskip
  have hfield := storeField_field (f := { f with
      dStage := .storeSFrameSize, tmpIn := skipHead cfg low payload.length, tmpInTarget := 8 })
    (field := (leBytes 4 payload.length).drop 3) (rest := payload) (ip := 7) (room := room) (out := [])
    (target := 8) (extra := 0) (k := fun f1 io1 => .go { f1 with
      dStage := .skipSkippable, remaining := (le32At f1.tmpIn 4).toNat } io1) rfl
  rw [skipBytes_eq]
  refine leads_storeHeader hd (Nat.succ_ne_zero _) (.of_eq hturn (.of_go hfield (.go ?_)))
  rw [← hsize] at h
  exact h

/-- A skippable frame that is there whole is discarded. -/
theorem leads_skipBytes (hbase : cfg.skippableBase &&& 0xF#32 = 0#32) (hd : f.dStage = .getHeader)
    (low : BitVec 4) (hlen : payload.length < 2 ^ 32) :
    Leads cfg (.go f ⟨skipBytes cfg low payload, 0, room, []⟩)
      (.hint 0 { f with
          tmpIn := (skipBytes cfg low payload).take 8, tmpInTarget := 8, remaining := 0 }
        ⟨[], 8 + payload.length, room, []⟩) := by
  have hend := fdSkip_whole (io := ⟨payload, 8, room, []⟩) (f := { f with
    dStage := .skipSkippable, tmpIn := (skipBytes cfg low payload).take 8, tmpInTarget := 8
    remaining := payload.length }) (Nat.le_refl _)
  rw [FdIo.consume, List.drop_length, ← hd] at hend
  exact leads_skipSize hbase hd low hlen (.of_eq_hint hend)

/-! ## A header record as an instruction -/

section Header
variable {s : State} (hat : atRecord s f .header) (hd : f.dStage = .getHeader)
  (hskip : isSkippable s.cfg s.cfg.magic = false) (hsize : csize.isSome = flg.getLsbD 3)
include hat hd hskip hsize

/-- A header that a check of R508 turns away. -/
theorem exec_hdr_of_error {err : Err}
    (herr : headerError s.cfg (hdrBytes s.cfg flg bd csize hc) = some err) :
    exec (.hdr flg bd csize hc) s = .next (afterRecord s f { f with
        dStage := .error, err := err.code
        tmpIn := hdrBytes s.cfg flg bd csize hc, tmpInTarget := headerLen flg }
      (headerLen flg) [] err.code 0) := by
  have hl := leads_hdrBytes (room := s.rcd.room) hd hskip hsize
    (.of_eq_fail (validateHeader_of_error herr))
  obtain ⟨hf, -⟩ := hat
  exact feedBytes_fail hf (hd.trans_ne nofun) hl

/-- A header that passes them all. -/
theorem exec_hdr_of_legal (herr : headerError s.cfg (hdrBytes s.cfg flg bd csize hc) = none) :
    exec (.hdr flg bd csize hc) s = .next (afterRecord s f { f with
        dStage := .storeCBlockSize, tmpIn := [], tmpInTarget := 4
        frameInfo := infoOf flg bd csize, total := 0#64, content := [], hist := [] }
      (headerLen flg) [] 0#8 4) := by
  have hl := leads_hdrBytes (room := s.rcd.room) hd hskip hsize
    (.of_eq (validateHeader_of_legal herr) (leads_nextWord rfl rfl))
  rw [headerInfo_hdrBytes hsize] at hl
  obtain ⟨hf, -⟩ := hat
  exact feedBytes_hint hf (hd.trans_ne nofun) hl

end Header

theorem bdReservedZero_eq_false :
    bdReservedZero bd = false ↔ bd.getLsbD 7 = true ∨ bd.extractLsb' 0 4 ≠ 0#4 := by
  rw [bdReservedZero, Bool.and_eq_false_iff, Bool.not_eq_false', beq_eq_false_iff_ne]

/-! ## Input bytes -/

theorem Memory.take_readBytes (m : Memory) : ∀ (k a n : Nat),
    (m.readBytes a n).take k = m.readBytes a (min k n)
  | 0, a, n => by rw [List.take_zero, Nat.zero_min]; rfl
  | k + 1, a, 0 => rfl
  | k + 1, a, n + 1 => by
    rw [Memory.readBytes, List.take_succ_cons, Memory.take_readBytes m k, Nat.succ_min_succ]
    rfl

theorem le32At_readBytes (m : Memory) (a : Nat) {n : Nat} (hn : 4 ≤ n) :
    le32At (m.readBytes a n) 0 = BitVec.ofNat 32 (leNat (m.readBytes a 4)) := by
  rw [le32At, List.drop_zero, Memory.take_readBytes, Nat.min_eq_left hn]

/-- What a decoder that holds no byte of its field takes of a command's input. -/
theorem taken_readBytes (hnil : f.tmpIn = []) (m : Memory) (a n k : Nat) :
    f.takes ⟨m.readBytes a n, ip, room, out⟩ k = min n k ∧
      f.taken ⟨m.readBytes a n, ip, room, out⟩ k = { f with tmpIn := m.readBytes a (min n k) } := by
  have htakes : f.takes ⟨m.readBytes a n, ip, room, out⟩ k = min n k := by
    rw [Fd.takes, FdIo.avail, length_readBytes, hnil, List.length_nil, Nat.sub_zero]
  refine ⟨htakes, ?_⟩
  rw [Fd.taken, htakes, Memory.take_readBytes, hnil, List.nil_append,
    Nat.min_eq_left (Nat.min_le_left _ _)]

end Sys2Proof.Machine

namespace Sys2Proof.Proofs
open Sys2Proof.Machine Sys2Proof.Claims

/-- Settles O56: the header's bytes are collected in one turn or two and validated in R508's order; a
first word that is no magic number is turned away with what was taken of the first seven bytes. -/
theorem headerRecordMeaning : Obligations.HeaderRecordMeaning := by
  refine ⟨?record, ?command⟩
  case record =>
    intro s f flg bd hc csize hskip hat hd hsize n ok fails
    have hchecks := headerError_hdrBytes_eq (cfg := s.cfg) (bd := bd) (hc := hc) hsize
    have hfails : ∀ err, headerError s.cfg (hdrBytes s.cfg flg bd csize hc) = some err →
        fails err.code := fun err herr => exec_hdr_of_error hat hd hskip hsize herr
    refine ⟨fun hversion => hfails .unknownFrameType (hchecks.trans (if_pos hversion)),
      fun hversion => ?_⟩
    replace hchecks := hchecks.trans (if_neg (not_not.mpr hversion))
    refine ⟨fun hblock => hfails .protocolViolation (hchecks.trans (if_pos hblock)), fun hblock => ?_⟩
    replace hchecks := hchecks.trans (if_neg (ne_true_of_eq_false hblock))
    refine ⟨fun hreserved => ?reserved, fun hflg hbd7 hbd0 hid => ?checksum⟩
    case reserved =>
      by_cases hzero : flgReserved flg ≠ 0#2 ∨ bdReservedZero bd = false
      · exact hfails .reservedFlagSet (hchecks.trans (if_pos hzero))
      · have hid : bdBlockSizeId bd = 0#3 := by
          rw [bdReservedZero_eq_false] at hzero
          tauto
        exact hfails .reservedFlagSet (hchecks.trans ((if_neg hzero).trans (if_pos hid)))
    case checksum =>
      have hzero : ¬ (flgReserved flg ≠ 0#2 ∨ bdReservedZero bd = false) := by
        rw [bdReservedZero_eq_false]
        simp only [flgReserved, hflg, hbd7, hbd0]
        decide
      replace hchecks := hchecks.trans ((if_neg hzero).trans (if_neg hid))
      exact ⟨fun hhc => exec_hdr_of_legal hat hd hskip hsize (hchecks.trans (if_neg (not_not.mpr hhc))),
        fun hhc => hfails .headerChecksumInvalid (hchecks.trans (if_pos hhc))⟩
  case command =>
    intro s h pos a n d cap f hlegal hm hf hd hcur hok hn word hskip hmagic used
    have hused : 4 ≤ used := le_min hn (by decide)
    obtain ⟨htakes, htaken⟩ := taken_readBytes (f := f.collect .storeHeader 7) (ip := 0)
      (room := cap.toNat) (out := []) rfl s.mem a.toNat n.toNat 7
    have hword : le32At (s.mem.readBytes a.toNat used) 0 = word := le32At_readBytes s.mem a.toNat hused
    have hturn := fdStoreHeader_unknown (cfg := s.cfg) (f := f.collect .storeHeader 7)
      (io := ⟨s.mem.readBytes a.toNat n.toNat, 0, cap.toNat, []⟩) rfl
      (by rw [htaken, length_readBytes]; exact hused)
      (by rw [htaken, isSkippable, hword]; exact beq_false_of_ne hskip)
      (by rw [htaken, hword]; exact hmagic)
    rw [htaken, htakes] at hturn
    have havail : (⟨s.mem.readBytes a.toNat n.toNat, 0, cap.toNat, []⟩ : FdIo).avail ≠ 0 := by
      rw [FdIo.avail, length_readBytes]
      omega
    obtain ⟨m', hexec, hwrote⟩ := fdDecode_fail hlegal hf hm (congrArg DStage.transient hd)
      (hd.trans_ne nofun) hcur hok (leads_storeHeader hd havail (.of_eq_fail hturn))
    refine ⟨m', hexec.trans ?_, hwrote⟩
    simp only [FdIo.consume, Nat.zero_add]
    rfl

/-- Settles O60: the magic number, the size and the payload are consumed in one call. -/
theorem skipRecordMeaning : Obligations.SkipRecordMeaning := by
  rintro s f low payload hbase ⟨hf, -⟩ hd hlen
  exact feedBytes_hint hf (hd.trans_ne nofun) (leads_skipBytes hbase hd low hlen)

end Sys2Proof.Proofs
end

section
/-! How a command answers (spec/60_exceptions.md R620, spec/70_reset_and_hazards.md R731): it ends in a
next state or in a refusal that R620 names, and never in a fault. -/

namespace Sys2Proof.Machine
open Sys2Proof.Claims

variable {i : Instr} {s : State}

/-! ## The answers a command can give -/

/-- The refusals R620 allows the command `i` in the state `s`. -/
inductive Refuses (i : Instr) (s : State) : Refusal → Prop
  | table (hlegal : s.cfg.legal = false) : Refuses i s .illegalLevelTable
  | noPrefix (hins : inputsOf i = none) : Refuses i s .bufferInvalid
  | invalid {ins : List Buffer} (hins : inputsOf i = some ins) {b : Buffer}
      (hb : b ∈ outputOf i :: ins) (hinvalid : b.valid s.cfg = false) : Refuses i s .bufferInvalid
  | overlap {ins : List Buffer} (hins : inputsOf i = some ins) {b : Buffer} (hb : b ∈ ins)
      (hoverlap : b.overlaps (outputOf i) = true) : Refuses i s .buffersOverlap

/-- What the command `i` can answer in the state `s`: a fault is not among it. -/
inductive Answers (i : Instr) (s : State) : Answer → Prop
  | next {t : State} : Answers i s (.next t)
  | refused {r : Refusal} (hr : Refuses i s r) : Answers i s (.refused r)

namespace Answers

/-! ## The checks of R101, R102 and R620 -/

theorem command {k : Answer} (hk : Answers i s k) : Answers i s (command s k) := by
  rw [Machine.command]
  split
  · exact hk
  · next hlegal => exact .refused (.table (eq_false_of_ne_true hlegal))

theorem withBuffers {ins : List Buffer} {out : Buffer} {k : Answer} (hins : inputsOf i = some ins)
    (hout : outputOf i = out) (hk : Answers i s k) : Answers i s (withBuffers s.cfg ins out k) := by
  subst hout
  rw [Machine.withBuffers]
  split
  next hinvalid =>
    obtain ⟨b, hb, hbad⟩ : ∃ b ∈ outputOf i :: ins, b.valid s.cfg = false := by
      simpa only [Bool.not_eq_true', List.all_eq_false, Bool.not_eq_true] using hinvalid
    exact .refused (.invalid hins hb hbad)
  next =>
    split
    next hoverlap =>
      obtain ⟨b, hb, hshared⟩ := List.any_eq_true.mp hoverlap
      exact .refused (.overlap hins hb hshared)
    next => exact hk

/-! ## The checks that raise errors -/

theorem check {p : Prop} [Decidable p] {e : Err} {u : State} {k : Answer}
    (hk : ¬ p → Answers i s k) : Answers i s (if p then raise e u else k) := by
  split
  · exact .next
  · exact hk ‹_›

section Prologues
variable {h : BitVec 16} {fl mask : Byte}

theorem withCctx {k : Cctx → Answer} (hk : ∀ c, Answers i s (k c)) :
    Answers i s (withCctx h fl mask s k) := by
  refine .command ?_
  split
  · exact .next
  · exact .check fun _ => .check fun _ => hk _

theorem withSd {k : Sd → Answer} (hk : ∀ d, Answers i s (k d)) : Answers i s (withSd h fl s k) := by
  refine .command ?_
  split
  · exact .next
  · exact .check fun _ => hk _

theorem withFe {k : Fe → Answer} (hk : ∀ f, Answers i s (k f)) : Answers i s (withFe h fl s k) := by
  refine .command ?_
  split
  · exact .next
  · exact .check fun _ => hk _

theorem withActiveFe {k : Fe → Answer} (hk : ∀ f, Answers i s (k f)) :
    Answers i s (withActiveFe h fl s k) := by
  refine .withFe fun f => ?_
  split
  · exact .next
  · exact .next
  · exact hk f

theorem withFd {k : Fd → Answer} (hk : ∀ f, Answers i s (k f)) : Answers i s (withFd h fl s k) := by
  refine .command ?_
  split
  · exact .next
  · exact .check fun _ => hk _

end Prologues

/-! ## The block decoder (R385) -/

/-- A decode within the bound of R385 answers, as both its ends do. -/
theorem finishDecode {src D : List Byte} {cap target : Nat} {eoo part : Bool} {dst : Buffer}
    {ok : Answer} (hok : Answers i s ok) :
    Answers i s (finishDecode (decodeBlock src cap D eoo part target) dst s ok) := by
  have hended := (sound_decodeBlock src cap D eoo part target).not_running (Nat.lt_succ_self _)
  rw [Machine.finishDecode]
  split
  next => exact hok
  next => exact .next
  next hrunning => exact absurd hrunning hended

end Answers

/-! ## The commands -/

theorem execCtxInit_answers {h : BitVec 16} {fl : Byte} {level : U64} :
    Answers i s (execCtxInit h fl level s) := by
  refine .command ?_
  split
  · exact .next
  · exact .check fun _ => .check fun _ => .next

theorem compressCommand_answers {prep : Cctx → Cctx} {h : BitVec 16} {fl : Byte} {a n d cap : U64}
    (hins : inputsOf i = some [buffer a n]) (hout : outputOf i = buffer d cap) :
    Answers i s (compressCommand prep h fl a n d cap s) :=
  .withCctx fun _ => .check fun _ => .check fun _ => .withBuffers hins hout (.check fun _ => .next)

theorem execBlkDecompress_answers {h : BitVec 16} {fl : Byte} {a n d cap x y target : U64} :
    Answers (.blkDecompress h fl a n d cap x y target) s
      (execBlkDecompress h fl a n d cap x y target s) := by
  refine .command (.check fun _ => .check fun _ => ?_)
  split
  next hnone => exact .refused (.noPrefix (Option.map_eq_none_iff.mpr hnone))
  next hdict =>
    exact .withBuffers (Option.map_eq_some_iff.mpr ⟨_, hdict, rfl⟩) rfl (.finishDecode .next)

/-- A call that reaches the stage machine ends within its bound (R731). -/
theorem execFdDecode_answers {h : BitVec 16} {fl : Byte} {pos a n d cap : U64} :
    Answers (.fdDecode h fl pos a n d cap) s (execFdDecode h fl pos a n d cap s) := by
  refine .withFd fun f => ?_
  dsimp only
  split
  next => exact .next
  next hstage =>
    split
    next => exact .next
    next =>
      obtain ⟨r, hr, -⟩ := exists_fdRun s.cfg (.offset pos) (s.readBuffer (buffer a n))
        (buffer d cap).len hstage
      rw [hr]
      exact .withBuffers rfl rfl .next

theorem exec_answers (hi : isCommand i = true) : Answers i s (exec i s) := by
  cases i with
  | ctxInit => exact execCtxInit_answers
  | ctxReset => exact .withCctx fun _ => .check fun _ => .next
  | ctxFree => exact .withCctx fun _ => .next
  | blkCompress | blkCompressContinue => exact compressCommand_answers rfl rfl
  | blkDecompress => exact execBlkDecompress_answers
  | blkDecompressContinue => exact .withSd fun _ => .withBuffers rfl rfl (.finishDecode .next)
  | loadDict | saveDict => exact .withCctx fun _ => .withBuffers rfl rfl .next
  | compressBound => exact .command (.check fun _ => .check fun _ => .next)
  | sdReset => exact .withSd fun _ => .withBuffers rfl rfl .next
  | feBegin =>
    exact .withFe fun _ => .check fun _ => .check fun _ => .check fun _ => .check fun _ =>
      .check fun _ => .withBuffers rfl rfl .next
  | feUpdate | feFlush =>
    exact .withActiveFe fun _ => .check fun _ => .withBuffers rfl rfl .next
  | feEnd => exact .withActiveFe fun _ => .check fun _ => .check fun _ => .withBuffers rfl rfl .next
  | fdReset => exact .withFd fun _ => .next
  | fdDecode => exact execFdDecode_answers
  | mfInsert | mfFindBest | mfFindAll | btInsert | btFindAll | renorm | emitSeq | emitLast
  | seqShort | seqRepeat | seqLong | seqMid | seqLast | hdr | skip | endMark | blkC | blkS
  | cksum => cases hi

end Sys2Proof.Machine

namespace Sys2Proof.Proofs
open Sys2Proof.Machine Sys2Proof.Claims

/-- Settles O19: a block decode ends within the bound of R385, a frame-decoder call within that of
R731, and nothing else in a command could fault. -/
theorem everyCommandTerminates : Obligations.EveryCommandTerminates := by
  intro i s f hi hfault
  have hanswers := exec_answers (s := s) hi
  rw [hfault] at hanswers
  cases hanswers

end Sys2Proof.Proofs
end

section
/-! A command that passes the checks of its own rule looks at its buffers (spec/60_exceptions.md R620,
spec/20_memory.md R101, R102; notes/assumptions/15.md). -/

namespace Sys2Proof.Machine
open Sys2Proof.Claims

variable {i : Instr} {s : State} {h : BitVec 16} {fl : Byte} {a n d cap : U64}

/-- Every command checks `LEVEL_TABLE` first (R37). -/
theorem exec_eq_command (hi : isCommand i = true) : ∃ k, exec i s = command s k := by
  cases i with
  | mfInsert | mfFindBest | mfFindAll | btInsert | btFindAll | renorm | emitSeq | emitLast
  | seqShort | seqRepeat | seqLong | seqMid | seqLast | hdr | skip | endMark | blkC | blkS
  | cksum => cases hi
  | _ => exact ⟨_, rfl⟩

theorem command_illegal (hlegal : s.cfg.legal = false) (k : Answer) :
    command s k = .refused .illegalLevelTable :=
  if_neg (ne_true_of_eq_false hlegal)

/-! ## What buffers decide (R101, R102) -/

theorem withBuffers_invalid {cfg : Config} {ins : List Buffer} {out b : Buffer}
    (hb : b ∈ out :: ins) (hinvalid : b.valid cfg = false) (k : Answer) :
    withBuffers cfg ins out k = .refused .bufferInvalid := by
  have hall : (out :: ins).all (fun b => b.valid cfg) = false :=
    List.all_eq_false.mpr ⟨b, hb, ne_true_of_eq_false hinvalid⟩
  rw [withBuffers, hall]
  rfl

theorem withBuffers_overlap {cfg : Config} {ins : List Buffer} {out b : Buffer}
    (hvalid : ∀ b ∈ out :: ins, b.valid cfg = true) (hb : b ∈ ins) (hoverlap : b.overlaps out = true)
    (k : Answer) : withBuffers cfg ins out k = .refused .buffersOverlap := by
  have hall : (out :: ins).all (fun b => b.valid cfg) = true := List.all_eq_true.mpr hvalid
  have hany : ins.any (fun b => b.overlaps out) = true := List.any_eq_true.mpr ⟨b, hb, hoverlap⟩
  rw [withBuffers, hall, hany]
  rfl

/-- The command `i` gets as far as its buffers in the state `s`. -/
inductive ReachesBuffers (i : Instr) (s : State) : Prop
  | noPrefix (hins : inputsOf i = none) (hexec : exec i s = .refused .bufferInvalid)
  | buffers {ins : List Buffer} {k : Answer} (hins : inputsOf i = some ins)
      (hexec : exec i s = withBuffers s.cfg ins (outputOf i) k)

theorem ReachesBuffers.refused (hr : ReachesBuffers i s) :
    (inputsOf i = none → exec i s = .refused .bufferInvalid) ∧
    ∀ ins, inputsOf i = some ins →
      ((∃ b ∈ outputOf i :: ins, b.valid s.cfg = false) → exec i s = .refused .bufferInvalid) ∧
      ((∀ b ∈ outputOf i :: ins, b.valid s.cfg = true) →
        (∃ b ∈ ins, b.overlaps (outputOf i) = true) → exec i s = .refused .buffersOverlap) := by
  cases hr with
  | noPrefix hins hexec => exact ⟨fun _ => hexec, fun _ hsome => nomatch hins.symm.trans hsome⟩
  | buffers hins hexec =>
    refine ⟨fun hnone => (nomatch hins.symm.trans hnone), fun ins hsome => ?_⟩
    obtain rfl := Option.some_inj.mp (hins.symm.trans hsome)
    exact ⟨fun ⟨_, hb, hinvalid⟩ => hexec.trans (withBuffers_invalid hb hinvalid _),
      fun hvalid ⟨_, hb, hoverlap⟩ => hexec.trans (withBuffers_overlap hvalid hb hoverlap _)⟩

/-! ## The commands with buffers -/

/-- Bit 5 and the reserved bits of `prefsWord` are its upper 59 (R168). -/
theorem prefs_upper_zero {w : U64} (hw : w.extractLsb' 5 59 = 0#59) :
    prefsReserved w = 0#58 ∧ prefsBlockChecksum w = false := by
  have hbit (k : Nat) : w.getLsbD (5 + k) = false := by
    by_cases hk : k < 59
    · simpa [hk] using congrArg (BitVec.getLsbD · k) hw
    · exact BitVec.getLsbD_of_ge w _ (by omega)
  refine ⟨BitVec.eq_of_getLsbD_eq fun k hk => ?_, hbit 0⟩
  rw [prefsReserved, BitVec.getLsbD_extractLsb', decide_eq_true hk, BitVec.getLsbD_zero,
    show 6 + k = 5 + (k + 1) by omega, hbit]
  rfl

section Ready
variable (hlegal : s.cfg.legal = true)
include hlegal

theorem withCctx_of_cctxReady {mask : Byte} (hready : cctxReady s h fl mask) (k : Cctx → Answer) :
    ∃ c, withCctx h fl mask s k = k c := by
  obtain ⟨⟨c, hc, halloc⟩, hfl⟩ := hready
  exact ⟨c, withCctx_ready hlegal hc halloc (beq_iff_eq.mpr hfl) k⟩

theorem compressCommand_buffers {prep : Cctx → Cctx} (hready : cctxReady s h fl 1#8)
    (hn : n.toNat ≤ s.cfg.maxInputSize) (hroom : fl = 1#8 ∨ compressBound n.toNat ≤ cap.toNat) :
    ∃ k, compressCommand prep h fl a n d cap s =
      withBuffers s.cfg [buffer a n] (buffer d cap) k := by
  have hbound : ¬ (!limitedFlag fl && decide (cap.toNat < compressBound n.toNat)) = true := by
    rcases hroom with rfl | hroom
    · nofun
    · rw [decide_eq_false (Nat.not_lt.mpr hroom), Bool.and_false]
      nofun
  obtain ⟨c, hc⟩ := withCctx_of_cctxReady hlegal hready _
  exact ⟨_, hc.trans ((if_neg (Nat.not_lt.mpr hn)).trans (if_neg hbound))⟩

theorem exec_blkDecompress_buffers {x y target : U64}
    (hu : usesBuffers s (.blkDecompress h fl a n d cap x y target)) :
    ReachesBuffers (.blkDecompress h fl a n d cap x y target) s := by
  obtain ⟨hbits, hmode, hmodes, hprefix⟩ := hu
  have hcheck : ¬ ((partialFlag fl && endOnOutput fl) ||
      (dictMode fl == 1#2 && decide (prefixSize < y.toNat))) = true := by
    simp only [Bool.or_eq_true, Bool.and_eq_true, beq_iff_eq, decide_eq_true_eq]
    exact not_or.mpr ⟨fun hboth => hmodes hboth.symm, hprefix⟩
  have hflags := flags_defined hbits hmode
  cases hdict : dictRegion (dictMode fl) (buffer d cap) x y with
  | none =>
    refine .noPrefix (Option.map_eq_none_iff.mpr hdict) ?_
    simp only [exec, execBlkDecompress, command_legal hlegal, if_neg hflags, if_neg hcheck, hdict]
  | some dict =>
    apply ReachesBuffers.buffers
    · exact Option.map_eq_some_iff.mpr ⟨dict, hdict, rfl⟩
    simp only [exec, execBlkDecompress, command_legal hlegal, if_neg hflags, if_neg hcheck, hdict]
    rfl

theorem exec_feBegin_buffers {w size level : U64}
    (hu : usesBuffers s (.feBegin h fl w size level d cap)) :
    ReachesBuffers (.feBegin h fl w size level d cap) s := by
  obtain ⟨⟨f, hf, hstage⟩, rfl, hw, hroom, hfits⟩ := hu
  obtain ⟨hres, hsum⟩ := prefs_upper_zero hw
  have hfit : tablesFit s.cfg (clampLevel level.toNat) = true := decide_eq_true hfits
  exact .buffers rfl ((exec_feBegin hlegal hf w size level).trans
    ((if_neg hstage).trans ((if_neg (not_not.mpr hres)).trans
      ((if_neg (ne_true_of_eq_false hsum)).trans
        ((if_neg (Nat.not_lt.mpr hroom)).trans (if_neg (by simpa using hfit)))))))

theorem exec_fdDecode_buffers {pos : U64} (hu : usesBuffers s (.fdDecode h fl pos a n d cap)) :
    ReachesBuffers (.fdDecode h fl pos a n d cap) s := by
  obtain ⟨rfl, f, hf, hstage, hcur⟩ := hu
  have hright : ¬ f.wrongCursor pos = true := by
    rcases hcur with hcur | hcur <;> simp [Fd.wrongCursor, hcur]
  exact .buffers rfl ((withFd_ready hlegal hf _).trans ((if_neg hstage).trans (if_neg hright)))

theorem reachesBuffers (hu : usesBuffers s i) : ReachesBuffers i s := by
  cases i with
  | blkCompress | blkCompressContinue =>
    obtain ⟨hready, hn, hroom⟩ := hu
    obtain ⟨k, hk⟩ := compressCommand_buffers hlegal hready hn hroom
    exact .buffers rfl hk
  | blkDecompress => exact exec_blkDecompress_buffers hlegal hu
  | blkDecompressContinue | sdReset =>
    obtain ⟨hh, rfl⟩ := hu
    exact .buffers rfl (withSd_ready hlegal (List.getElem?_eq_getElem hh) _)
  | loadDict | saveDict =>
    obtain ⟨c, hc⟩ := withCctx_of_cctxReady hlegal hu _
    exact .buffers rfl hc
  | feBegin => exact exec_feBegin_buffers hlegal hu
  | feUpdate =>
    obtain ⟨rfl, f, hf, hstage, hroom⟩ := hu
    exact .buffers rfl ((exec_feUpdate hlegal hf hstage).trans (if_neg (Nat.not_lt.mpr hroom)))
  | feFlush =>
    obtain ⟨rfl, f, hf, hstage, hroom⟩ := hu
    rw [← flushRoom_eq] at hroom
    exact .buffers rfl ((exec_feFlush hlegal hf hstage).trans (if_neg (Nat.not_lt.mpr hroom)))
  | feEnd =>
    obtain ⟨rfl, f, hf, hstage, hsize, hroom⟩ := hu
    rw [← endRoom_eq] at hroom
    have hmet := ne_true_of_eq_false (sizeMismatch_eq_false hsize)
    exact .buffers rfl ((exec_feEnd hlegal hf hstage).trans
      ((if_neg hmet).trans (if_neg (Nat.not_lt.mpr hroom))))
  | fdDecode => exact exec_fdDecode_buffers hlegal hu
  | _ => exact hu.elim

end Ready

end Sys2Proof.Machine

namespace Sys2Proof.Proofs
open Sys2Proof.Machine Sys2Proof.Claims

/-- Settles O18: a command answers with a refusal that R620 names or with none; its first check is of
`LEVEL_TABLE`, and past the checks of its rule its buffers decide. -/
theorem refusedOnlyForBuffersOrTable : Obligations.RefusedOnlyForBuffersOrTable := by
  refine ⟨fun i s r hi hexec => ?only, fun i s hi hlegal => ?table,
    fun i s hlegal hu => (reachesBuffers hlegal hu).refused⟩
  case only =>
    have hanswers := exec_answers (s := s) hi
    rw [hexec] at hanswers
    obtain _ | hr := hanswers
    cases hr with
    | table hlegal => exact .inl ⟨rfl, hlegal⟩
    | noPrefix hins => exact .inr (.inl ⟨rfl, .inl hins⟩)
    | invalid hins hb hinvalid => exact .inr (.inl ⟨rfl, .inr ⟨_, hins, _, hb, hinvalid⟩⟩)
    | overlap hins hb hoverlap => exact .inr (.inr ⟨rfl, _, hins, _, hb, hoverlap⟩)
  case table =>
    obtain ⟨k, hk⟩ := exec_eq_command (s := s) hi
    exact hk.trans (command_illegal hlegal k)

end Sys2Proof.Proofs
end

section
/-! The parameters and the context counts at every step (spec/70_reset_and_hazards.md R705), and the
power-on state (R700). -/

namespace Sys2Proof.Machine
open Sys2Proof.Claims

variable {i : Instr} {s t : State}

/-- `t` has the parameters of `s` and as many contexts of each kind. -/
structure KeepsParameters (s t : State) : Prop where
  cfg : t.cfg = s.cfg
  cctx : t.cctx.length = s.cctx.length
  sd : t.sd.length = s.sd.length
  fe : t.fe.length = s.fe.length
  fd : t.fd.length = s.fd.length

theorem length_setSelected_cctx (s : State) (sel : CtxSel) (c : Cctx) :
    (s.setSelected sel c).cctx.length = s.cctx.length := by
  cases sel with
  | cctx j => exact List.length_set
  | fe j => simp only [State.setSelected]; split <;> rfl

theorem length_setSelected_fe (s : State) (sel : CtxSel) (c : Cctx) :
    (s.setSelected sel c).fe.length = s.fe.length := by
  cases sel with
  | cctx j => rfl
  | fe j =>
    simp only [State.setSelected]
    split
    · exact List.length_set
    · rfl

theorem MicroEffect.keepsParameters (h : MicroEffect s t) : KeepsParameters s t := by
  obtain ⟨u, e, rfl | ⟨c, rfl⟩, -, rfl⟩ := h
  · exact ⟨rfl, rfl, rfl, rfl, rfl⟩
  · exact ⟨State.setSelected_cfg .., length_setSelected_cctx .., congrArg _ (State.setSelected_sd ..),
      length_setSelected_fe .., congrArg _ (State.setSelected_fd ..)⟩

theorem feedBytes_keepsParameters {bs : List Byte} (h : feedBytes bs s = .next t) :
    KeepsParameters s t := by
  obtain ⟨f, -, ⟨-, rfl⟩ | ⟨r, -, rfl⟩⟩ := feedBytes_next h
  · exact ⟨rfl, rfl, rfl, rfl, rfl⟩
  · exact ⟨rfl, rfl, rfl, rfl, List.length_set⟩

theorem CommandEffect.keepsParameters (h : CommandEffect i s t) : KeepsParameters s t := by
  obtain ⟨u, m, k, st, r0, r1, r2, hu, -, rfl⟩ := h
  obtain ⟨hcfg, -, -, -, -, -, -, hcctx, hsd, hfe, hfd, -⟩ := hu.frame
  exact ⟨hcfg, hcctx, hsd, hfe, hfd⟩

theorem exec_keepsParameters (hn : exec i s = .next t) : KeepsParameters s t := by
  cases hi : isCommand i with
  | true => exact (exec_effect hi hn).keepsParameters
  | false =>
    rcases kind_of_not_command hi with hmicro | hsequence | hrecord
    · exact (exec_micro_effect hmicro hn).keepsParameters
    · obtain ⟨b, rfl | ⟨c, rfl⟩⟩ := exec_sequence_next hsequence hn
      · exact ⟨rfl, rfl, rfl, rfl, rfl⟩
      · exact ⟨rfl, rfl, rfl, rfl, rfl⟩
    · obtain ⟨bs, hbs⟩ := exec_record (s := s) hrecord
      exact feedBytes_keepsParameters (hbs ▸ hn)

theorem step_keepsParameters (h : step s = .next t) : KeepsParameters s t := by
  rcases step_next h with ⟨i, q, v, hn⟩ | ⟨bs, hn⟩ | ⟨q, v, b, st, r0, r1, r2, rfl⟩
  · obtain ⟨hcfg, hcctx, hsd, hfe, hfd⟩ := exec_keepsParameters hn
    exact ⟨hcfg, hcctx, hsd, hfe, hfd⟩
  · exact feedBytes_keepsParameters hn
  · exact ⟨rfl, rfl, rfl, rfl, rfl⟩

theorem Cctx.powerOn_eq_cleared (cfg : Config) :
    Cctx.powerOn cfg = cleared false 1 cfg.levelTable.level1 := rfl

end Sys2Proof.Machine

namespace Sys2Proof.Proofs
open Sys2Proof.Machine Sys2Proof.Claims

/-- Settles O10: an instruction replaces at most one context in its list and none of the parameters,
and a fetch neither. -/
theorem parametersFixed : Obligations.ParametersFixed := by
  intro s t h
  obtain ⟨hcfg, hcctx, hsd, hfe, hfd⟩ := step_keepsParameters h
  exact ⟨hcfg, hcctx, hsd, hfe, hfd⟩

/-- Settles O9: every context of a kind is that kind's power-on context. -/
theorem powerOnState : Obligations.PowerOnState := by
  refine ⟨fun cfg nCctx nSd nFe nFd => ⟨rfl, List.length_replicate, List.length_replicate,
    List.length_replicate, List.length_replicate, rfl, rfl, rfl, rfl, fun c hc => ?cctx,
    fun d hd => ?sd, fun f hf => ?fe, fun f hf => ?fd, rfl, rfl, rfl⟩, rfl, rfl⟩
  case cctx => exact (List.eq_of_mem_replicate hc).trans (Cctx.powerOn_eq_cleared cfg)
  case sd => rw [List.eq_of_mem_replicate hd]
  case fe =>
    obtain rfl := List.eq_of_mem_replicate hf
    exact ⟨rfl, rfl, Cctx.powerOn_eq_cleared cfg, rfl, rfl, rfl, rfl, rfl⟩
  case fd =>
    obtain rfl := List.eq_of_mem_replicate hf
    exact ⟨rfl, rfl, rfl, rfl, rfl, rfl, rfl, rfl, rfl, rfl, rfl, rfl⟩

end Sys2Proof.Proofs
end
